-- ==== Sys2Proof/Word.lean ====
section
/-! DEFINITION. Word.lean: the plain data types that the whole model shares: bytes, line levels, the
eight-fold record of one value per gate, and the calibration settings. The TA-3 computes with exact
integers (00_scope.md, Conventions), so `Nat` and `Int` carry its quantities; a byte of a record on
one of the two serial links is a bit vector. -/

namespace Sys2Proof

/-- One character of either serial link. -/
abbrev Byte := BitVec 8

/-- The levels of the three encoder lines ENC_A, ENC_B and ENC_Z; `true` is high. -/
structure Lines where
  a : Bool
  b : Bool
  z : Bool
  deriving DecidableEq, Repr, Inhabited

/-- One value for each of the eight gates 0 … 7. -/
structure Eight (α : Type) where
  g0 : α
  g1 : α
  g2 : α
  g3 : α
  g4 : α
  g5 : α
  g6 : α
  g7 : α
  deriving DecidableEq, Repr, Inhabited

/-- The same value for every gate. -/
def Eight.all {α : Type} (x : α) : Eight α := ⟨x, x, x, x, x, x, x, x⟩

/-- The value of gate `n`. -/
def Eight.get {α : Type} (e : Eight α) (n : Fin 8) : α :=
  match n with
  | 0 => e.g0
  | 1 => e.g1
  | 2 => e.g2
  | 3 => e.g3
  | 4 => e.g4
  | 5 => e.g5
  | 6 => e.g6
  | 7 => e.g7

/-- One value for each gate, given as a function of the gate number. -/
def Eight.ofFn {α : Type} (f : Fin 8 → α) : Eight α :=
  ⟨f 0, f 1, f 2, f 3, f 4, f 5, f 6, f 7⟩

/-- The eight values in ascending gate number. -/
def Eight.toList {α : Type} (e : Eight α) : List α :=
  [e.g0, e.g1, e.g2, e.g3, e.g4, e.g5, e.g6, e.g7]

/-- The gate numbers in ascending order. -/
def gateNumbers : List (Fin 8) := [0, 1, 2, 3, 4, 5, 6, 7]

/-- `e` with the value of gate `n` replaced. -/
def Eight.set {α : Type} (e : Eight α) (n : Fin 8) (x : α) : Eight α :=
  Eight.ofFn fun m => if m = n then x else e.get m

/-- Forward sense of the encoder (R2). -/
inductive Sense where
  | aLeads
  | bLeads
  deriving DecidableEq, Repr, Inhabited

/-- The encoder settings: CPR, forward sense, index tolerance in counts and filter period (section 1.7). -/
structure EncSettings where
  cpr : Nat
  sense : Sense
  tolerance : Nat
  filterPeriod : Nat
  deriving DecidableEq, Repr, Inhabited

/-- The settings that both the working copy and the image hold (section 10.1): the encoder settings, the
mount radius R0 in LU, the beam scale S, the 256 runout entries in LU and the eight safe levels. -/
structure Settings where
  enc : EncSettings
  r0 : Nat
  scale : Nat
  runout : List Int
  safe : Eight Bool
  deriving DecidableEq, Repr, Inhabited

end Sys2Proof
end

