-- ==== Sys2Proof/Syntax.lean ====
section
/-! DEFINITION. Syntax.lean: the commands of the TA-3, one constructor for each row of
spec/opcode_table.json. A command is a pin or line event, an expiry of the time base, or the dispatch
of one request of the host link. -/

namespace Sys2Proof

/-- One character received on PRB_IN: its eight data bits and whether its stop bit was sampled high
(R107). -/
structure ProbeChar where
  byte : Byte
  stopHigh : Bool
  deriving DecidableEq, Repr

/-- One thing the reading receiver meets on PRB_IN (R112; log entry 12).

* `char c`: a character that was received to its end;
* `start`: the falling edge of a start bit, with which the next character begins. -/
inductive ProbeItem where
  | char (c : ProbeChar)
  | start
  deriving DecidableEq, Repr

/-- One thing the host-link receiver measures on HOST_RX (R187, R188). Low periods and spans are in ticks.

* `low n`: a low period of `n` ticks that is no part of a character being sampled, and the rise that ends it;
* `char b span`: a character `b` with a high stop bit; `span` is the time from the falling edge of its
  start bit to the falling edge of its eighth bit cell, which only a candidate sync uses;
* `badChar b span n`: a character whose stop bit samples low, inside a low period of `n` ticks in all. -/
inductive RxItem where
  | low (ticks : Nat)
  | char (byte : Byte) (span : Nat)
  | badChar (byte : Byte) (span : Nat) (lowTicks : Nat)
  deriving DecidableEq, Repr

/-- The result of a program operation's read-back (R182). -/
inductive VerifyResult where
  | ok
  | verifyFail
  deriving DecidableEq, Repr

/-- The commands, in the order of spec/opcode_table.json. A request carries the payload bytes of its
frame, laid out as section 11.8 gives them. -/
inductive Instr where
  /-- POWER_ON_RESET (R196). -/
  | powerOnReset
  /-- PIN_RESET (R196). -/
  | pinReset
  /-- REQUEST_RESET (R197). -/
  | requestReset
  /-- ACCEPTED_UPDATE (R13): a sample of the lines at which the filter accepts a new level. -/
  | acceptedUpdate (sample : Lines)
  /-- STALL_EXPIRY (R71). -/
  | stallExpiry
  /-- HOLD_PIN_CHANGE (R93): the new level of the HOLD pin, `true` for high. -/
  | holdPinChange (level : Bool)
  /-- HOLD_QUALIFIED (R93). -/
  | holdQualified
  /-- READING (R112, R113): what arrives on PRB_IN without a gap, up to now (log entry 12). -/
  | reading (items : List ProbeItem)
  /-- READING_GAP_TIMEOUT (R112). -/
  | readingGapTimeout
  /-- TAG_TIMEOUT (R117). -/
  | tagTimeout
  /-- TRIGGER_FRAME_START (R108). -/
  | triggerFrameStart
  /-- LOAD_SENSE_CHANGE (R169): the gate and the new level of its GSNS input, `true` for high. -/
  | loadSenseChange (gate : Fin 8) (level : Bool)
  /-- QUALIFICATION_EXPIRY (R170). -/
  | qualificationExpiry
  /-- PROGRAM_COMPLETION (R184): the result that the nonvolatile cells gave. -/
  | programCompletion (result : VerifyResult)
  /-- HOST_FRAME (R188): what the receiver measures on HOST_RX, from a break and sync to a CRC or a part of it. -/
  | hostFrame (items : List RxItem)
  /-- RECORD_BOUNDARY (R193). -/
  | recordBoundary
  /-- UNKNOWN_REQUEST (R192): dispatch of a frame whose kind is none of the 24 request kinds. -/
  | unknownRequest (kind : Byte) (payload : List Byte)
  /-- IDNT (R196). -/
  | idnt (payload : List Byte)
  /-- RSET (R197). -/
  | rset (payload : List Byte)
  /-- STAT (R198). -/
  | stat (payload : List Byte)
  /-- CCLR (R199). -/
  | cclr (payload : List Byte)
  /-- NMSK (R195). -/
  | nmsk (payload : List Byte)
  /-- ENCF (R15). -/
  | encf (payload : List Byte)
  /-- MNTS (R178). -/
  | mnts (payload : List Byte)
  /-- CWR (R179). -/
  | cwr (payload : List Byte)
  /-- CRD (R181). -/
  | crd (payload : List Byte)
  /-- GSAF (R180). -/
  | gsaf (payload : List Byte)
  /-- CCMT (R182). -/
  | ccmt (payload : List Byte)
  /-- CLCK (R182). -/
  | clck (payload : List Byte)
  /-- CERS (R183). -/
  | cers (payload : List Byte)
  /-- WKLD (R39). -/
  | wkld (payload : List Byte)
  /-- STCL (R49). -/
  | stcl (payload : List Byte)
  /-- STWN (R46). -/
  | stwn (payload : List Byte)
  /-- STGT (R48). -/
  | stgt (payload : List Byte)
  /-- SWAP (R50). -/
  | swap (payload : List Byte)
  /-- SWCN (R54). -/
  | swcn (payload : List Byte)
  /-- HOLD (R95). -/
  | hold (payload : List Byte)
  /-- GCLR (R171). -/
  | gclr (payload : List Byte)
  /-- PRBF (R124). -/
  | prbf (payload : List Byte)
  /-- ARMP (R62). -/
  | armp (payload : List Byte)
  /-- ABRT (R74). -/
  | abrt (payload : List Byte)
  /-- FILTER_SAMPLE (R1): a sample of the lines at which the filter accepts no new level. -/
  | filterSample (sample : Lines)
  deriving DecidableEq, Repr

end Sys2Proof
end

