-- ==== Sys2Proof/Decode.lean ====
section
/-! DEFINITION. Decode.lean: the command that a word of the opcode table's bits spells. No row of
spec/opcode_table.json gives bits, so no word spells a command. (The frames of the host link are decoded by
the receiver of Machine/Link.lean.) -/

namespace Sys2Proof

/-- The command that a word of `nbits` bits spells: none, since the table gives no row any bits. -/
def decodeTableWord (_nbits _w : Nat) : Option Instr := none

end Sys2Proof
end

