-- ==== Sys2Proof/Config.lean ====
section
/-! DEFINITION. Config.lean: the values the specification leaves open. Each is an opaque constant with
no body, so nothing can be proved about which value it takes. -/

namespace Sys2Proof

/-- What the nonvolatile cells hold of the settings after a program operation that was stopped by a
reset or that failed its read-back (R182, R185). Free; log entry 6. -/
opaque Config.spoiltSettings : Nat → Settings

/-- What the cells hold of the lock bit in the same case. Free; log entry 6. -/
opaque Config.spoiltLockBit : Nat → Bool

/-- The read-back result of a program operation that has used up its 40 ms (R182: decided by the
nonvolatile cells, not by the request). Free; log entry 7. -/
opaque Config.cellsVerify : Nat → Bool

/-- The disposition byte of the ABRT reply when the lead was IDLE and no pass ended (R74 states none).
Free; log entry 8. -/
opaque Config.abrtIdleDisposition : Nat → Byte

end Sys2Proof
end

