-- ==== Sys2Proof/Machine/State.lean ====
section
/-! DEFINITION. Machine/State.lean: the whole state of the TA-3, one structure for each block of the
manual, as plain data; the fault and refusal types; and the state right after a power-on reset of a new
part. Positions, spans and phases are exact integers; times are ticks of the internal time base, 10 ns
each (section 4 of the introduction). -/

namespace Sys2Proof.Machine

open Sys2Proof

/-! ### Codes and modes -/

/-- Rounding mode of a pass (Conventions; R20). -/
inductive Rounding where
  | chop
  | nearest
  deriving DecidableEq, Repr

/-- Dropout policy of a pass (R130). -/
inductive DropoutPolicy where
  | emit
  | retry
  deriving DecidableEq, Repr

/-- Range policy of a pass (R133). -/
inductive RangePolicy where
  | keep
  | zero
  deriving DecidableEq, Repr

/-- Direction of a count, a crossing or a position change. -/
inductive Dir where
  | forward
  | reverse
  deriving DecidableEq, Repr

/-- Encoder state (section 1.5). -/
inductive EncState where
  | notHomed
  | homed
  | fault
  deriving DecidableEq, Repr

/-- Outcome of an index crossing (R7). -/
inductive IndexOutcome where
  | none
  | homing
  | snap
  | slip
  deriving DecidableEq, Repr

/-- End status of a pass (R73). -/
inductive EndStatus where
  | complete
  | stalled
  | aborted
  | encoderFault
  | indexFault
  | probeFault
  deriving DecidableEq, Repr

/-- State of the lead pass other than IDLE (section 4.2); IDLE is the absence of a lead. -/
inductive LeadPhase where
  | armed
  | scanning
  | retrying
  deriving DecidableEq, Repr

/-- Origin of a tag (R90, R100). -/
inductive TagOrigin where
  | main
  | overlap
  | retry
  deriving DecidableEq, Repr

/-- Cause of a miss (R145). -/
inductive MissCause where
  | busy
  | held
  | timeout
  | skipped
  | dropout
  | full
  deriving DecidableEq, Repr

/-- Probe state (R123). -/
inductive ProbeState where
  | ready
  | fault
  deriving DecidableEq, Repr

/-- Gate Driver mode (R161). -/
inductive GateMode where
  | safe
  | run
  deriving DecidableEq, Repr

/-- Due state of a gate (R163). -/
inductive DueState where
  | none
  | base
  | extension
  deriving DecidableEq, Repr

/-- Status of a gate (R170). -/
inductive GateStatus where
  | ok
  | openLoad
  | short
  deriving DecidableEq, Repr

/-- HOLD sense (R94). -/
inductive HoldSense where
  | ignore
  | activeLow
  | activeHigh
  deriving DecidableEq, Repr

/-- Origin of the working copy (R177). -/
inductive StoreOrigin where
  | stored
  | defaults
  | edited
  deriving DecidableEq, Repr

/-- A program operation (R182, R183). -/
inductive ProgOp where
  | ccmt
  | clck
  | cers
  deriving DecidableEq, Repr

/-- State of the active bank (R43). -/
inductive ActiveState where
  | empty
  | active
  deriving DecidableEq, Repr

/-- State of the staged bank (R43). -/
inductive StagedState where
  | editing
  | pending
  deriving DecidableEq, Repr

/-- The four link error counters (R190). -/
inductive LinkCounter where
  | frame
  | crc
  | sync
  | overrun
  deriving DecidableEq, Repr

/-- Cause of an ENCODER_FAULT notice (R3, R4). -/
inductive EncoderCause where
  | quadrature
  | overrange
  deriving DecidableEq, Repr

/-! ### Encoder Interface -/

/-- ENC (chapter 1). `accepted` are the accepted levels; `noted` is the filter history: the lines whose
last sample read the opposite of the accepted level; `primed` says that the first sample after reset has
been taken; `nextSample` is the time of the next sample. U is not stored: it is computed from `rev` and
`c` (R4). -/
structure Enc where
  settings : EncSettings
  primed : Bool
  accepted : Lines
  noted : Lines
  nextSample : Nat
  indexArmed : Bool
  c : Nat
  rev : Int
  state : EncState
  uLastIndex : Int
  lastDeviation : Int
  lastDirection : Dir
  lastOutcome : IndexOutcome
  largestSnap : Nat
  quadErrors : Nat
  deriving DecidableEq, Repr

/-! ### Window Banks -/

/-- The workpiece record when LOADED (section 3.1). -/
structure Workpiece where
  blades : Nat
  datum : Nat
  trims : List Int
  deriving DecidableEq, Repr

/-- A blade range (R42). -/
structure BladeRange where
  first : Nat
  count : Nat
  deriving DecidableEq, Repr

/-- A required gate of a window: the gate and the level named (R44). -/
structure RequiredGate where
  gate : Fin 8
  level : Bool
  deriving DecidableEq, Repr

/-- A window record as held (R44): start, end (exclusive) and step in PU. -/
structure Window where
  start : Nat
  stop : Nat
  step : Nat
  exposure : Nat
  floor : Nat
  gate : Option RequiredGate
  range : Option BladeRange
  deriving DecidableEq, Repr

/-- A gate record in PHASE mode (R47); `group` is `none` for NONE. -/
structure GateRecord where
  on : Nat
  off : Nat
  extension : Nat
  group : Option (Fin 4)
  range : Option BladeRange
  deriving DecidableEq, Repr

/-- A validation warning (R52). -/
inductive Warning where
  | stepFine (position : Nat)
  | edgeClose (lower higher : Fin 8)
  deriving DecidableEq, Repr

/-- A bank: its window list in start order, its eight gate records (`none` is UNUSED) and its warning
list (section 3.2). -/
structure Bank where
  windows : List Window
  gates : Eight (Option GateRecord)
  warnings : List Warning
  deriving DecidableEq, Repr

/-- WBK (chapter 3). -/
structure Wbk where
  workpiece : Option Workpiece
  activeState : ActiveState
  active : Bank
  stagedState : StagedState
  staged : Bank
  deriving DecidableEq, Repr

/-! ### Pass Controller -/

/-- The settings that ARMP fills (R61). -/
structure PassSettings where
  passId : Nat
  height : Int
  overlap : Nat
  retryTurns : Nat
  rounding : Rounding
  dropout : DropoutPolicy
  range : RangePolicy
  rLo : Nat
  rHi : Nat
  stallMs : Nat
  deriving DecidableEq, Repr

/-- The twenty counters of a pass, in the order of the table of R81. -/
structure Counters where
  crossedMain : Nat
  emittedMain : Nat
  emittedRetry : Nat
  blanked : Nat
  held : Nat
  busy : Nat
  missedMain : Nat
  lateMissed : Nat
  abandoned : Nat
  retryLost : Nat
  pushes : Nat
  takes : Nat
  overflowLost : Nat
  unresolved : Nat
  void : Nat
  dim : Nat
  range : Nat
  timeout : Nat
  skipped : Nat
  full : Nat
  deriving DecidableEq, Repr

/-- A pass context (R61). -/
structure PassCtx where
  settings : PassSettings
  uStart : Int
  highWater : Nat
  turn : Nat
  turnsUsed : Nat
  largestSnap : Nat
  mainInFlight : Nat
  retryInFlight : Nat
  endStatus : Option EndStatus
  counters : Counters
  deriving DecidableEq, Repr

/-- The lead pass in ARMED, SCANNING or RETRYING. -/
structure Lead where
  phase : LeadPhase
  ctx : PassCtx
  deriving DecidableEq, Repr

/-- PSC (chapter 4): the lead (`none` is IDLE), the drain list with the oldest context at its head, and
the time at which the stall timer expires (`none` when stopped). -/
structure Psc where
  lead : Option Lead
  drain : List PassCtx
  stall : Option Nat
  deriving DecidableEq, Repr

/-! ### HOLD input -/

/-- The HOLD input (section 5.3): the sense, the pin level, the time since which a level other than the
qualified one has stood, the qualified level and the condition. -/
structure Hold where
  sense : HoldSense
  pin : Bool
  since : Option Nat
  qualified : Bool
  active : Bool
  deriving DecidableEq, Repr

/-! ### Probe Port -/

/-- An entry of the in-flight tag queue (R101). -/
structure TagEntry where
  tag : BitVec 4
  passId : Nat
  origin : TagOrigin
  overlap : Bool
  blade : Nat
  window : Nat
  j : Nat
  phase : Nat
  theta : Nat
  rho : Int
  exposure : Nat
  floor : Nat
  gateFault : Bool
  attempts : Nat
  lastCause : Option MissCause
  fireTime : Nat
  deriving DecidableEq, Repr

/-- A trigger frame on PRB_OUT, or waiting for it, and the time at which it begins (R108). -/
structure TriggerFrame where
  tag : BitVec 4
  exposure : Nat
  start : Nat
  deriving DecidableEq, Repr

/-- Framing state of the reading receiver (R112): in a frame, the body characters taken so far, the time at
which the last character ended, and whether the next has begun since. -/
inductive ProbeRx where
  | hunting
  | inFrame (body : List Byte) (lastEnd : Nat) (begun : Bool)
  deriving DecidableEq, Repr

/-- PRB (chapter 6). `lastTrigger` is the time at which the last trigger frame began or is due to begin;
`out` is the latest frame to have gone onto PRB_OUT and `waiting` the frame that waits behind it. -/
structure Prb where
  queue : List TagEntry
  nextTag : BitVec 4
  lastTrigger : Option Nat
  tmin : Nat
  tr : Nat
  timeouts : Nat
  state : ProbeState
  orphans : Nat
  checkFails : Nat
  rx : ProbeRx
  out : Option TriggerFrame
  waiting : Option TriggerFrame
  deriving DecidableEq, Repr

/-! ### Point Builder -/

/-- The eight flags of a point record (R134). -/
structure PointFlags where
  overlap : Bool
  retry : Bool
  void : Bool
  dim : Bool
  sat : Bool
  range : Bool
  gate : Bool
  uncal : Bool
  deriving DecidableEq, Repr

/-- A point record (R136). -/
structure PointRecord where
  passId : Nat
  sequence : Nat
  blade : Nat
  window : Nat
  j : Nat
  flags : PointFlags
  attempts : Nat
  lastCause : Option MissCause
  exposure : Nat
  theta : Nat
  phase : Nat
  radius : Int
  intensity : Nat
  deriving DecidableEq, Repr

/-- A pass summary (R82). -/
structure Summary where
  passId : Nat
  endStatus : Option EndStatus
  height : Int
  turnsUsed : Nat
  largestSnap : Nat
  counters : Counters
  deriving DecidableEq, Repr

/-- A record of the point buffer. -/
inductive BufferRecord where
  | point (p : PointRecord)
  | summary (s : Summary)
  deriving DecidableEq, Repr

/-- PNT (chapter 7): the point buffer, oldest record first, and the largest occupancy. -/
structure Pnt where
  buffer : List BufferRecord
  largest : Nat
  deriving DecidableEq, Repr

/-! ### Miss Stack -/

/-- A miss entry (R145). -/
structure MissEntry where
  blade : Nat
  window : Nat
  j : Nat
  overlap : Bool
  cause : MissCause
  attempts : Nat
  deriving DecidableEq, Repr

/-! ### Gate Driver -/

/-- What GTE holds for one gate (chapter 9): the driven level, the due state of the last evaluation, the
waiting flag, the status, the time since which the qualification timer runs, and the sense level. -/
structure Gate where
  driven : Bool
  due : DueState
  waiting : Bool
  status : GateStatus
  qual : Option Nat
  sense : Bool
  deriving DecidableEq, Repr

/-- A trimmed blade and the phase on it. -/
structure BladePhase where
  blade : Nat
  phase : Nat
  deriving DecidableEq, Repr

/-- GTE (chapter 9). -/
structure Gte where
  mode : GateMode
  gates : Eight Gate
  last : Option BladePhase
  conflicts : Nat
  deriving DecidableEq, Repr

/-! ### Calibration Store -/

/-- The nonvolatile image (section 10.1). -/
structure Image where
  settings : Settings
  lockBit : Bool
  crc : BitVec 16
  deriving DecidableEq, Repr

/-- A program operation in progress, and the time by which it completes (R184). -/
structure Programming where
  op : ProgOp
  deadline : Nat
  deriving DecidableEq, Repr

/-- CAL (chapter 10); `programming` is `none` when the programming state is IDLE. -/
structure Cal where
  image : Image
  working : Settings
  origin : StoreOrigin
  locked : Bool
  programming : Option Programming
  deriving DecidableEq, Repr

/-! ### Link Port -/

/-- A frame of the host link: its kind and payload. -/
structure Frame where
  kind : Byte
  payload : List Byte
  deriving DecidableEq, Repr

/-- Receiver state of the host link (R187, R188): in SYNC the preceding low period in ticks, in BODY the
bytes taken so far. -/
inductive LinkRx where
  | idle
  | sync (lowTicks : Nat)
  | body (bytes : List Byte)
  deriving DecidableEq, Repr

/-- A raise of one of the ten notice kinds, with its detail (section 11.8). The kinds stand in priority
order (R194). -/
inductive Notice where
  | probeFault (tag : BitVec 4) (abandoned : Nat)
  | encoderFault (cause : EncoderCause)
  | indexSlip (deviation : Int)
  | indexMissing
  | gateFault (gate : Fin 8) (status : GateStatus)
  | groupConflict (group : Fin 4) (waiting gateOn : Fin 8)
  | passStart (passId : Nat)
  | swapDone (windows stepFine edgeClose : Nat)
  | storeDone (op : ProgOp) (result : VerifyResult)
  | holdChange (active : Bool)
  | linkError (counter : LinkCounter) (value : Nat)
  deriving DecidableEq, Repr

/-- The ten notice kinds in priority order (R194). -/
inductive NoticeKind where
  | probeFault
  | encoderFault
  | indexFault
  | gateFault
  | groupConflict
  | passStart
  | swapDone
  | storeDone
  | holdChange
  | linkError
  deriving DecidableEq, Repr

/-- Where the record stands that the transmit arbiter has chosen (R193). -/
inductive RecordSource where
  | reply
  | notice (kind : NoticeKind)
  | buffer
  deriving DecidableEq, Repr

/-- Transmitter state: idle; opening a record, with its break and the bit time of high after it on the line
until its first character begins; or sending the characters of one record until a time. Both times are given
in eighths of a tick, which a bit time of span/8 ticks measures exactly (R187, R193). -/
inductive LinkTx where
  | idle
  | opening (source : RecordSource) (firstEighths : Nat)
  | sending (frame : Frame) (endEighths : Nat)
  deriving DecidableEq, Repr

/-- A pending notice: its occurrence count and the detail of its latest raise. A kind whose flag is clear
has no slot and count 0. -/
structure Pending where
  count : Nat
  detail : Notice
  deriving DecidableEq, Repr

/-- One slot for each notice kind. -/
structure Notices where
  probeFault : Option Pending
  encoderFault : Option Pending
  indexFault : Option Pending
  gateFault : Option Pending
  groupConflict : Option Pending
  passStart : Option Pending
  swapDone : Option Pending
  storeDone : Option Pending
  holdChange : Option Pending
  linkError : Option Pending
  deriving DecidableEq, Repr

/-- The four link error counters, each 0 … 15 (R190). -/
structure LinkErrors where
  frame : Nat
  crc : Nat
  sync : Nat
  overrun : Nat
  deriving DecidableEq, Repr

/-- The reset-cause set (R196). -/
structure ResetCauses where
  powerOn : Bool
  pin : Bool
  request : Bool
  deriving DecidableEq, Repr

/-- LNK (chapter 11). `lock` is the sync span, in ticks, of eight locked bit times, or `none` when
UNLOCKED; `rsetTaken` says that an RSET has been taken and no further request is dispatched (R197). -/
structure Lnk where
  lock : Option Nat
  rx : LinkRx
  requests : List Frame
  reply : Option Frame
  errors : LinkErrors
  notices : Notices
  mask : BitVec 10
  causes : ResetCauses
  tx : LinkTx
  rsetTaken : Bool
  deriving DecidableEq, Repr

/-! ### The whole part -/

/-- The state of the TA-3. `now` is the internal time base in ticks, `freeNext` the number of free values
used so far (log entry 6) and `pending` the commands waiting, first in, first out. -/
structure State where
  now : Nat
  enc : Enc
  wbk : Wbk
  psc : Psc
  hold : Hold
  prb : Prb
  pnt : Pnt
  stack : List MissEntry
  gte : Gte
  cal : Cal
  lnk : Lnk
  freeNext : Nat
  pending : List Instr
  deriving DecidableEq, Repr

/-- No command of the TA-3 stops the part, so there is no fault: every command answers a next state
(safe: there is no behaviour that a fault would cut off). -/
inductive Fault where
  deriving DecidableEq, Repr

/-- Why a command has no meaning. -/
inductive Refusal where
  /-- Raised by `exec` alone, for a row of the command table that has no meaning yet; safe. No arm of
  this model raises it. -/
  | notModelled (mnemonic : String)
  deriving DecidableEq, Repr

/-! ### Reset values, block by block -/

/-- The default image's settings (R176). -/
def Settings.default : Settings where
  enc := { cpr := 360000, sense := .aLeads, tolerance := 4, filterPeriod := 2 }
  r0 := 0
  scale := 65536
  runout := List.replicate 256 0
  safe := Eight.all false

/-- ENC after reset (R18), with the settings of the working copy and its first sample due at `now`. The
accepted levels and the index-armed flag are set by that sample; until then they hold the values of log
entry 3. -/
def Enc.reset (settings : EncSettings) (now : Nat) : Enc where
  settings := settings
  primed := false
  accepted := ⟨false, false, false⟩
  noted := ⟨false, false, false⟩
  nextSample := now
  indexArmed := false
  c := 0
  rev := 0
  state := .notHomed
  uLastIndex := 0
  lastDeviation := 0
  lastDirection := .forward
  lastOutcome := .none
  largestSnap := 0
  quadErrors := 0

/-- A bank with no windows, all gate records UNUSED and no warnings. -/
def Bank.empty : Bank where
  windows := []
  gates := Eight.all none
  warnings := []

/-- WBK after reset (R60). -/
def Wbk.reset : Wbk where
  workpiece := none
  activeState := .empty
  active := Bank.empty
  stagedState := .editing
  staged := Bank.empty

/-- PSC after reset (R84). -/
def Psc.reset : Psc where
  lead := none
  drain := []
  stall := none

/-- The HOLD input after reset (R93, R106) with the pin at `pin`. -/
def Hold.reset (pin : Bool) : Hold where
  sense := .ignore
  pin := pin
  since := none
  qualified := pin
  active := false

/-- PRB after reset (R127). -/
def Prb.reset : Prb where
  queue := []
  nextTag := 0
  lastTrigger := none
  tmin := 20
  tr := 1000
  timeouts := 0
  state := .ready
  orphans := 0
  checkFails := 0
  rx := .hunting
  out := none
  waiting := none

/-- PNT after reset (R144). -/
def Pnt.reset : Pnt where
  buffer := []
  largest := 0

/-- A gate after reset (R174) before the safe levels are driven: OFF, status OK, timer idle, with the
level of its sense input. -/
def Gate.reset (sense : Bool) : Gate where
  driven := false
  due := .none
  waiting := false
  status := .ok
  qual := none
  sense := sense

/-- GTE after reset (R174) before the safe levels are driven, with the levels of the sense inputs. -/
def Gte.reset (sense : Fin 8 → Bool) : Gte where
  mode := .safe
  gates := Eight.ofFn fun n => Gate.reset (sense n)
  last := none
  conflicts := 0

/-- No notice pending. -/
def Notices.none : Notices :=
  ⟨.none, .none, .none, .none, .none, .none, .none, .none, .none, .none⟩

/-- LNK after reset (R200) with the reset-cause set that R196 gives. -/
def Lnk.reset (causes : ResetCauses) : Lnk where
  lock := none
  rx := .idle
  requests := []
  reply := none
  errors := ⟨0, 0, 0, 0⟩
  notices := Notices.none
  mask := 0x3FF#10
  causes := causes
  tx := .idle
  rsetTaken := false

/-- The image of a new part, which has never been programmed and so fails its check (R175, section 10.5).
Its contents are log entry 5. -/
def Image.unprogrammed : Image where
  settings := Settings.default
  lockBit := false
  crc := 0#16

/-- CAL of a new part after a power-on (R175, R186). -/
def Cal.reset : Cal where
  image := Image.unprogrammed
  working := Settings.default
  origin := .defaults
  locked := false
  programming := none

/-- The part right after the power-on reset of a new part whose HOLD pin and sense inputs are low. -/
def State.reset : State where
  now := 0
  enc := Enc.reset Settings.default.enc 0
  wbk := Wbk.reset
  psc := Psc.reset
  hold := Hold.reset false
  prb := Prb.reset
  pnt := Pnt.reset
  stack := []
  gte := Gte.reset fun _ => false
  cal := Cal.reset
  lnk := Lnk.reset ⟨true, false, false⟩
  freeNext := 0
  pending := []

/-! ### Block updates -/

/-- `s` with ENC replaced. -/
def State.setEnc (s : State) (v : Enc) : State := { s with enc := v }
/-- `s` with WBK replaced. -/
def State.setWbk (s : State) (v : Wbk) : State := { s with wbk := v }
/-- `s` with PSC replaced. -/
def State.setPsc (s : State) (v : Psc) : State := { s with psc := v }
/-- `s` with the HOLD input replaced. -/
def State.setHold (s : State) (v : Hold) : State := { s with hold := v }
/-- `s` with PRB replaced. -/
def State.setPrb (s : State) (v : Prb) : State := { s with prb := v }
/-- `s` with PNT replaced. -/
def State.setPnt (s : State) (v : Pnt) : State := { s with pnt := v }
/-- `s` with the Miss Stack replaced. -/
def State.setStack (s : State) (v : List MissEntry) : State := { s with stack := v }
/-- `s` with GTE replaced. -/
def State.setGte (s : State) (v : Gte) : State := { s with gte := v }
/-- `s` with CAL replaced. -/
def State.setCal (s : State) (v : Cal) : State := { s with cal := v }
/-- `s` with LNK replaced. -/
def State.setLnk (s : State) (v : Lnk) : State := { s with lnk := v }
/-- `s` with one more free value used. -/
def State.useFree (s : State) : State := { s with freeNext := s.freeNext + 1 }
/-- `s` at time `t`. -/
def State.setNow (s : State) (t : Nat) : State := { s with now := t }
/-- `s` with the queue of waiting commands replaced. -/
def State.setPending (s : State) (q : List Instr) : State := { s with pending := q }

end Sys2Proof.Machine
end

