-- ==== Sys2Proof/Machine/Bytes.lean ====
section
/-! DEFINITION. Machine/Bytes.lean: byte order, signed fields and the two CRCs (Conventions of the
introduction; R189, R175). -/

namespace Sys2Proof.Machine

open Sys2Proof

/-- The `n` bytes of a value, most significant first (Conventions: byte order). -/
def beNat (n v : Nat) : List Byte :=
  match n with
  | 0 => []
  | m + 1 => BitVec.ofNat 8 (v / 256 ^ m) :: beNat m v

/-- The `n` bytes of a signed value in two's complement, most significant first. -/
def beInt (n : Nat) (v : Int) : List Byte :=
  beNat n (v % ((256 ^ n : Nat) : Int)).toNat

/-- The unsigned value of bytes sent most significant first. -/
def natOfBytes (bs : List Byte) : Nat :=
  bs.foldl (fun acc b => acc * 256 + b.toNat) 0

/-- The two's complement value of bytes sent most significant first. -/
def intOfBytes (bs : List Byte) : Int :=
  let v := natOfBytes bs
  if 2 * v < 256 ^ bs.length then (v : Int) else (v : Int) - ((256 ^ bs.length : Nat) : Int)

/-- The bytes of a field of a payload: `len` bytes from offset `off`. -/
def fieldBytes (p : List Byte) (off len : Nat) : List Byte := (p.drop off).take len

/-- An unsigned field of a payload. -/
def fieldNat (p : List Byte) (off len : Nat) : Nat := natOfBytes (fieldBytes p off len)

/-- A signed field of a payload. -/
def fieldInt (p : List Byte) (off len : Nat) : Int := intOfBytes (fieldBytes p off len)

/-- One shift of the CRC-8 register with polynomial 0x07 (R189). -/
def crc8Shift (r : BitVec 8) : BitVec 8 :=
  if r.msb then (r <<< 1) ^^^ 0x07#8 else r <<< 1

/-- One byte of the CRC-8: the register is XORed with the byte and shifted eight times (R189). -/
def crc8Byte (r : BitVec 8) (b : Byte) : BitVec 8 :=
  crc8Shift^[8] (r ^^^ b)

/-- The CRC-8 of the host link, initial value 0x00 (R189). -/
def crc8 (bs : List Byte) : Byte := bs.foldl crc8Byte 0#8

/-- One shift of the CRC-16 register with polynomial 0x1021 (R175). -/
def crc16Shift (r : BitVec 16) : BitVec 16 :=
  if r.msb then (r <<< 1) ^^^ 0x1021#16 else r <<< 1

/-- One byte of the CRC-16: the register is XORed with the byte shifted left by 8 and shifted eight times
(R175). -/
def crc16Byte (r : BitVec 16) (b : Byte) : BitVec 16 :=
  crc16Shift^[8] (r ^^^ (b.setWidth 16 <<< 8))

/-- The CRC-16 of the image, initial value 0xFFFF (R175). -/
def crc16 (bs : List Byte) : BitVec 16 := bs.foldl crc16Byte 0xFFFF#16

/-- A flag or level as one byte (R201). -/
def byteOfBool (b : Bool) : Byte := if b then 1#8 else 0#8

/-- The bytes of a frame that its CRC covers: kind, length and payload (R189). -/
def frameBody (f : Frame) : List Byte := f.kind :: (beNat 2 f.payload.length ++ f.payload)

/-- The CRC of a frame (R189). -/
def frameCrc (f : Frame) : Byte := crc8 (frameBody f)

/-- The characters of a frame after its break: sync, kind, length, payload and CRC (section 11.8). -/
def frameCharacters (f : Frame) : List Byte := 0x55#8 :: (frameBody f ++ [frameCrc f])

end Sys2Proof.Machine
end

