-- ==== Sys2Proof/Machine/Codes.lean ====
section
/-! DEFINITION. Machine/Codes.lean: the codes table of section 11.8 and the request kinds. -/

namespace Sys2Proof.Machine

open Sys2Proof

/-- Status of a reply (R192). -/
inductive Status where
  | ok
  | busy
  | notReady
  | badArg
  | locked
  | full
  | invalid
  | unknown
  | badLength
  deriving DecidableEq, Repr

/-- Reason of an INVALID refusal (R51). -/
inductive InvalidReason where
  | noWindows
  | windowBlades
  | gateUnused
  | gateBlades
  | windowOverlap
  deriving DecidableEq, Repr

/-- Codes of the statuses. -/
def statusCode : Status → Byte
  | .ok => 0#8
  | .busy => 1#8
  | .notReady => 2#8
  | .badArg => 3#8
  | .locked => 4#8
  | .full => 5#8
  | .invalid => 6#8
  | .unknown => 7#8
  | .badLength => 8#8

/-- Codes of the INVALID reasons. -/
def reasonCode : InvalidReason → Byte
  | .noWindows => 1#8
  | .windowBlades => 2#8
  | .gateUnused => 3#8
  | .gateBlades => 4#8
  | .windowOverlap => 5#8

/-- Codes of the end statuses. -/
def endStatusCode : Option EndStatus → Byte
  | none => 0#8
  | some .complete => 1#8
  | some .stalled => 2#8
  | some .aborted => 3#8
  | some .encoderFault => 4#8
  | some .indexFault => 5#8
  | some .probeFault => 6#8

/-- Codes of the miss causes; none is 0. -/
def missCauseCode : Option MissCause → Byte
  | none => 0#8
  | some .busy => 1#8
  | some .held => 2#8
  | some .timeout => 3#8
  | some .skipped => 4#8
  | some .dropout => 5#8
  | some .full => 6#8

/-- Codes of the gate statuses. -/
def gateStatusCode : GateStatus → Byte
  | .ok => 0#8
  | .openLoad => 1#8
  | .short => 2#8

/-- Codes of the forward sense. -/
def senseCode : Sense → Byte
  | .aLeads => 0#8
  | .bLeads => 1#8

/-- Codes of the rounding modes. -/
def roundingCode : Rounding → Byte
  | .chop => 0#8
  | .nearest => 1#8

/-- Codes of the HOLD senses. -/
def holdSenseCode : HoldSense → Byte
  | .ignore => 0#8
  | .activeLow => 1#8
  | .activeHigh => 2#8

/-- Codes of the origin of the working copy. -/
def originCode : StoreOrigin → Byte
  | .stored => 0#8
  | .defaults => 1#8
  | .edited => 2#8

/-- Codes of the encoder states. -/
def encStateCode : EncState → Byte
  | .notHomed => 0#8
  | .homed => 1#8
  | .fault => 2#8

/-- Codes of the index outcomes. -/
def indexOutcomeCode : IndexOutcome → Byte
  | .none => 0#8
  | .homing => 1#8
  | .snap => 2#8
  | .slip => 3#8

/-- Codes of the directions. -/
def dirCode : Dir → Byte
  | .forward => 0#8
  | .reverse => 1#8

/-- Codes of the active bank's states. -/
def activeStateCode : ActiveState → Byte
  | .empty => 0#8
  | .active => 1#8

/-- Codes of the staged bank's states. -/
def stagedStateCode : StagedState → Byte
  | .editing => 0#8
  | .pending => 1#8

/-- Codes of the lead states; IDLE is 0. -/
def leadCode : Option Lead → Byte
  | none => 0#8
  | some l =>
    match l.phase with
    | .armed => 1#8
    | .scanning => 2#8
    | .retrying => 3#8

/-- Codes of the tag origins. -/
def tagOriginCode : TagOrigin → Byte
  | .main => 0#8
  | .overlap => 1#8
  | .retry => 2#8

/-- Codes of the probe states. -/
def probeStateCode : ProbeState → Byte
  | .ready => 0#8
  | .fault => 1#8

/-- Codes of the Gate Driver modes. -/
def gateModeCode : GateMode → Byte
  | .safe => 0#8
  | .run => 1#8

/-- Codes of the due states. -/
def dueStateCode : DueState → Byte
  | .none => 0#8
  | .base => 1#8
  | .extension => 2#8

/-- Codes of the program operations. -/
def progOpCode : ProgOp → Byte
  | .ccmt => 1#8
  | .clck => 2#8
  | .cers => 3#8

/-- Codes of the verify results. -/
def verifyCode : VerifyResult → Byte
  | .ok => 0#8
  | .verifyFail => 1#8

/-- Codes of the link error counters. -/
def linkCounterCode : LinkCounter → Byte
  | .frame => 1#8
  | .crc => 2#8
  | .sync => 3#8
  | .overrun => 4#8

/-- Codes of the causes of an ENCODER_FAULT. -/
def encoderCauseCode : EncoderCause → Byte
  | .quadrature => 1#8
  | .overrange => 2#8

/-- The forward sense of a code, if the code is legal. -/
def senseOfCode (b : Nat) : Option Sense :=
  if b = 0 then some .aLeads else if b = 1 then some .bLeads else none

/-- The rounding mode of a code, if the code is legal. -/
def roundingOfCode (b : Nat) : Option Rounding :=
  if b = 0 then some .chop else if b = 1 then some .nearest else none

/-- The dropout policy of a code, if the code is legal. -/
def dropoutOfCode (b : Nat) : Option DropoutPolicy :=
  if b = 0 then some .emit else if b = 1 then some .retry else none

/-- The range policy of a code, if the code is legal. -/
def rangePolicyOfCode (b : Nat) : Option RangePolicy :=
  if b = 0 then some .keep else if b = 1 then some .zero else none

/-- The HOLD sense of a code, if the code is legal. -/
def holdSenseOfCode (b : Nat) : Option HoldSense :=
  if b = 0 then some .ignore else if b = 1 then some .activeLow else if b = 2 then some .activeHigh else none

/-- The level ON or OFF of a code, if the code is legal. -/
def levelOfCode (b : Nat) : Option Bool :=
  if b = 0 then some false else if b = 1 then some true else none

/-- Request kinds (section 11.8). -/
def kindIdnt : Byte := 0x01#8
def kindRset : Byte := 0x02#8
def kindStat : Byte := 0x03#8
def kindCclr : Byte := 0x04#8
def kindNmsk : Byte := 0x05#8
def kindEncf : Byte := 0x06#8
def kindMnts : Byte := 0x07#8
def kindCwr : Byte := 0x08#8
def kindCrd : Byte := 0x09#8
def kindGsaf : Byte := 0x0A#8
def kindCcmt : Byte := 0x0B#8
def kindClck : Byte := 0x0C#8
def kindCers : Byte := 0x0D#8
def kindWkld : Byte := 0x0E#8
def kindStcl : Byte := 0x0F#8
def kindStwn : Byte := 0x10#8
def kindStgt : Byte := 0x11#8
def kindSwap : Byte := 0x12#8
def kindSwcn : Byte := 0x13#8
def kindHold : Byte := 0x14#8
def kindGclr : Byte := 0x15#8
def kindPrbf : Byte := 0x16#8
def kindArmp : Byte := 0x17#8
def kindAbrt : Byte := 0x18#8

/-- Kinds of the unprompted records (section 11.8). -/
def kindPoint : Byte := 0xA0#8
def kindSummary : Byte := 0xA1#8
def kindNotice : Byte := 0xA2#8

/-- A kind is one of the 24 request kinds, 0x01 … 0x18 (R192). -/
def isRequestKind (k : Byte) : Bool := 1 ≤ k.toNat && k.toNat ≤ 24

/-- The command that dispatches a frame of the request buffer (R192). -/
def requestOfFrame (f : Frame) : Instr :=
  match f.kind.toNat with
  | 0x01 => .idnt f.payload
  | 0x02 => .rset f.payload
  | 0x03 => .stat f.payload
  | 0x04 => .cclr f.payload
  | 0x05 => .nmsk f.payload
  | 0x06 => .encf f.payload
  | 0x07 => .mnts f.payload
  | 0x08 => .cwr f.payload
  | 0x09 => .crd f.payload
  | 0x0A => .gsaf f.payload
  | 0x0B => .ccmt f.payload
  | 0x0C => .clck f.payload
  | 0x0D => .cers f.payload
  | 0x0E => .wkld f.payload
  | 0x0F => .stcl f.payload
  | 0x10 => .stwn f.payload
  | 0x11 => .stgt f.payload
  | 0x12 => .swap f.payload
  | 0x13 => .swcn f.payload
  | 0x14 => .hold f.payload
  | 0x15 => .gclr f.payload
  | 0x16 => .prbf f.payload
  | 0x17 => .armp f.payload
  | 0x18 => .abrt f.payload
  | _ => .unknownRequest f.kind f.payload

end Sys2Proof.Machine
end

