-- ==== Sys2Proof/Machine/Angle.lean ====
section
/-! DEFINITION. Machine/Angle.lean: the Angle Unit (chapter 2). Table angle, runout correction, nominal
and trimmed blade and phase, and the geometry of pitches, blade ranges and windows built on them. -/

namespace Sys2Proof.Machine

open Sys2Proof

/-- 2^24: the AU of a table turn and the PU of a nominal pitch (section 4 of the introduction). -/
def pitchUnits : Nat := 16777216

/-- Rounded division of a signed product by a positive divisor (R20): the magnitude is split into a
quotient and a remainder, rounded by the mode, and given the sign of the product. -/
def rnd (mode : Rounding) (n : Int) (d : Nat) : Int :=
  let q := n.natAbs / d
  let r := n.natAbs % d
  let m := match mode with
    | .chop => q
    | .nearest => if d ≤ 2 * r then q + 1 else q
  if n < 0 then -(m : Int) else (m : Int)

/-- The turn count of an unwrapped position: U mod CPR (R19). -/
def turnCount (cpr : Nat) (u : Int) : Nat := (u % (cpr : Int)).toNat

/-- Stage A: the table angle of a turn count, floored (R22). -/
def tableAngle (cpr c : Nat) : Nat := c * pitchUnits / cpr

/-- A runout entry (R24). -/
def runoutEntry (table : List Int) (i : Nat) : Int := table.getD i 0

/-- Stage B: the runout correction at a table angle under a rounding mode (R24, R25). -/
def runoutCorrection (table : List Int) (mode : Rounding) (theta : Nat) : Int :=
  let i := theta / 65536
  let f := theta % 65536
  let here := runoutEntry table i
  let delta := runoutEntry table ((i + 1) % 256) - here
  here + rnd mode (delta * f) 65536

/-- Stage C: Q, the phase of the whole turn measured from the datum (R28). -/
def turnPhase (w : Workpiece) (theta : Nat) : Nat :=
  (((theta : Int) - w.datum) % (pitchUnits : Int)).toNat * w.blades

/-- The nominal blade and phase (R28). -/
def nominal (w : Workpiece) (theta : Nat) : BladePhase :=
  { blade := turnPhase w theta / pitchUnits, phase := turnPhase w theta % pitchUnits }

/-- The trim of a blade (section 2.5). -/
def trim (w : Workpiece) (k : Nat) : Int := w.trims.getD k 0

/-- The blade after blade k, mod B (R30). -/
def nextBlade (w : Workpiece) (k : Nat) : Nat := (k + 1) % w.blades

/-- The blade before blade k, mod B (R30). -/
def prevBlade (w : Workpiece) (k : Nat) : Nat := (k + w.blades - 1) % w.blades

/-- The three cases of R30. -/
inductive TrimCase where
  | before
  | within
  | after
  deriving DecidableEq, Repr

/-- The case of R30 that holds for a nominal blade and phase. -/
def trimCase (w : Workpiece) (n : BladePhase) : TrimCase :=
  if (n.phase : Int) < trim w n.blade then .before
  else if (n.phase : Int) < pitchUnits + trim w (nextBlade w n.blade) then .within
  else .after

/-- The trimmed blade and phase of a nominal blade and phase (R30). -/
def trimmed (w : Workpiece) (n : BladePhase) : BladePhase :=
  match trimCase w n with
  | .before =>
    { blade := prevBlade w n.blade
      phase := ((n.phase : Int) + pitchUnits - trim w (prevBlade w n.blade)).toNat }
  | .within => { blade := n.blade, phase := ((n.phase : Int) - trim w n.blade).toNat }
  | .after =>
    { blade := nextBlade w n.blade
      phase := ((n.phase : Int) - pitchUnits - trim w (nextBlade w n.blade)).toNat }

/-- The length L(k) of a blade's trimmed pitch (R31). -/
def pitchLength (w : Workpiece) (k : Nat) : Nat :=
  ((pitchUnits : Int) + trim w (nextBlade w k) - trim w k).toNat

/-- The trimmed blade and phase at an unwrapped position (R19, R22, R28, R30). -/
def bladePhaseAt (w : Workpiece) (cpr : Nat) (u : Int) : BladePhase :=
  trimmed w (nominal w (tableAngle cpr (turnCount cpr u)))

/-- The table angle at an unwrapped position with the CPR that ENC holds (R19). -/
def thetaAt (s : State) (u : Int) : Nat :=
  tableAngle s.enc.settings.cpr (turnCount s.enc.settings.cpr u)

/-- The runout correction at an unwrapped position under a rounding mode (R19, R27). -/
def rhoAt (s : State) (mode : Rounding) (u : Int) : Int :=
  runoutCorrection s.cal.working.runout mode (thetaAt s u)

/-- The trimmed blade and phase at an unwrapped position, absent without a workpiece (R19). -/
def queryPhase (s : State) (u : Int) : Option BladePhase :=
  s.wbk.workpiece.map fun w => bladePhaseAt w s.enc.settings.cpr u

/-! ### Blade ranges -/

/-- A blade range, or none for every blade, covers blade `k` of a workpiece of `blades` blades (R42). -/
def covers (range : Option BladeRange) (blades k : Nat) : Bool :=
  match range with
  | none => true
  | some r => decide ((k + blades - r.first % blades) % blades < r.count)

/-- A blade range fits a workpiece of `blades` blades (R42). -/
def rangeFits (range : Option BladeRange) (blades : Nat) : Bool :=
  match range with
  | none => true
  | some r => decide (r.first + 1 ≤ blades) && decide (r.count ≤ blades)

/-- Two blade ranges share a blade (R42). -/
def sharesBlade (r₁ r₂ : Option BladeRange) (blades : Nat) : Bool :=
  (List.range blades).any fun k => covers r₁ blades k && covers r₂ blades k

/-! ### Lattices -/

/-- The number n of lattice points of a window (R44). -/
def latticeCount (w : Window) : Nat := (w.stop - 1 - w.start) / w.step + 1

/-- The phase of lattice point j of a window (R44). -/
def latticePhase (w : Window) (j : Nat) : Nat := w.start + j * w.step

/-- The first lattice index whose phase is at or above `x`. -/
def firstIndexFrom (w : Window) (x : Nat) : Nat := (x - w.start + (w.step - 1)) / w.step

/-- The lattice indices of a window whose phases lie in the half-open interval [lo, hi), ascending
(R86, R87). -/
def indicesIn (w : Window) (lo hi : Nat) : List Nat :=
  let a := firstIndexFrom w lo
  let b := min (latticeCount w) (firstIndexFrom w hi)
  List.range' a (b - a)

end Sys2Proof.Machine
end

