-- ==== Sys2Proof/Machine/Flags.lean ====
section
/-! DEFINITION. Machine/Flags.lean: every flag computation of the part: the flags of a point record, the
notice flags and mask, the reset-cause set, the gate-fault flag and the HOLD condition. -/

namespace Sys2Proof.Machine

open Sys2Proof

/-! ### Notice flags (R194, R195) -/

/-- The ten kinds in priority order (R194). -/
def noticeKinds : List NoticeKind :=
  [.probeFault, .encoderFault, .indexFault, .gateFault, .groupConflict, .passStart, .swapDone,
   .storeDone, .holdChange, .linkError]

/-- The priority number of a kind, 1 … 10 (R194). -/
def noticePriority : NoticeKind → Nat
  | .probeFault => 1
  | .encoderFault => 2
  | .indexFault => 3
  | .gateFault => 4
  | .groupConflict => 5
  | .passStart => 6
  | .swapDone => 7
  | .storeDone => 8
  | .holdChange => 9
  | .linkError => 10

/-- The kind of a notice (R194). -/
def noticeKind : Notice → NoticeKind
  | .probeFault _ _ => .probeFault
  | .encoderFault _ => .encoderFault
  | .indexSlip _ => .indexFault
  | .indexMissing => .indexFault
  | .gateFault _ _ => .gateFault
  | .groupConflict _ _ _ => .groupConflict
  | .passStart _ => .passStart
  | .swapDone _ _ _ => .swapDone
  | .storeDone _ _ => .storeDone
  | .holdChange _ => .holdChange
  | .linkError _ _ => .linkError

/-- The slot of a kind. -/
def noticeSlot (n : Notices) : NoticeKind → Option Pending
  | .probeFault => n.probeFault
  | .encoderFault => n.encoderFault
  | .indexFault => n.indexFault
  | .gateFault => n.gateFault
  | .groupConflict => n.groupConflict
  | .passStart => n.passStart
  | .swapDone => n.swapDone
  | .storeDone => n.storeDone
  | .holdChange => n.holdChange
  | .linkError => n.linkError

/-- The slots with the one of a kind replaced. -/
def setNoticeSlot (n : Notices) (k : NoticeKind) (v : Option Pending) : Notices :=
  match k with
  | .probeFault => { n with probeFault := v }
  | .encoderFault => { n with encoderFault := v }
  | .indexFault => { n with indexFault := v }
  | .gateFault => { n with gateFault := v }
  | .groupConflict => { n with groupConflict := v }
  | .passStart => { n with passStart := v }
  | .swapDone => { n with swapDone := v }
  | .storeDone => { n with storeDone := v }
  | .holdChange => { n with holdChange := v }
  | .linkError => { n with linkError := v }

/-- The slot of a kind after a raise: set with count 1, or one more occurrence, saturating at 255, with
the new detail (R194). -/
def raisedSlot (old : Option Pending) (d : Notice) : Pending :=
  match old with
  | none => { count := 1, detail := d }
  | some p => { count := min (p.count + 1) 255, detail := d }

/-- The occurrence count of a kind, 0 while its flag is clear (R194). -/
def noticeCount (n : Notices) (k : NoticeKind) : Nat :=
  match noticeSlot n k with
  | none => 0
  | some p => p.count

/-- The mask enables a kind: the bit numbered one less than its priority (R195). -/
def maskEnables (mask : BitVec 10) (k : NoticeKind) : Bool := mask.getLsbD (noticePriority k - 1)

/-- The pending unmasked kind of highest priority (R193, R195). -/
def selectedKind (n : Notices) (mask : BitVec 10) : Option NoticeKind :=
  noticeKinds.find? fun k => (noticeSlot n k).isSome && maskEnables mask k

/-! ### Point flags (R134) -/

/-- The class of a reading (R129). -/
inductive ReadingClass where
  | void
  | dim
  | clear
  deriving DecidableEq, Repr

/-- NO_RETURN, the distance value that means the probe saw no surface (R113). -/
def noReturn : Nat := 16777215

/-- The class of a reading with distance `d` and intensity `i` against the floor of its entry (R129). -/
def classify (d i floor : Nat) : ReadingClass :=
  if d = noReturn then .void else if i < floor then .dim else .clear

/-- The flags of a point record (R134): from the tag entry, the class, the SATURATED bit, the range check
and the working copy's origin. -/
def pointFlags (e : TagEntry) (cls : ReadingClass) (sat outOfRange : Bool) (origin : StoreOrigin) :
    PointFlags where
  overlap := e.overlap
  retry := e.origin = .retry
  void := cls = .void
  dim := cls = .dim
  sat := sat
  range := outOfRange
  gate := e.gateFault
  uncal := origin = .defaults

/-- The flags byte of the point record's layout (section 11.8). -/
def pointFlagsByte (f : PointFlags) : Byte :=
  BitVec.ofNat 8 (f.overlap.toNat + 2 * f.retry.toNat + 4 * f.void.toNat + 8 * f.dim.toNat
    + 16 * f.sat.toNat + 32 * f.range.toNat + 64 * f.gate.toNat + 128 * f.uncal.toNat)

/-! ### Other flags -/

/-- The reset-cause set as one byte (codes table). -/
def causesByte (c : ResetCauses) : Byte :=
  BitVec.ofNat 8 (c.powerOn.toNat + 2 * c.pin.toNat + 4 * c.request.toNat)

/-- A gate holds a latched fault (R103). -/
def gateLatched (g : Gate) : Bool := decide (g.status ≠ .ok)

/-- The gate-fault flag of a trigger fired now: some gate's status is OPEN or SHORT (R103). -/
def gateFaultFlag (s : State) : Bool := s.gte.gates.toList.any gateLatched

/-- The HOLD condition that a sense and a qualified level give (R94). -/
def holdCondition (sense : HoldSense) (qualified : Bool) : Bool :=
  match sense with
  | .ignore => false
  | .activeLow => !qualified
  | .activeHigh => qualified

end Sys2Proof.Machine
end

