-- ==== Sys2Proof/Machine/Ops.lean ====
section
/-! DEFINITION. Machine/Ops.lean: the named operations that several blocks share: counters, notices,
pass contexts, the point buffer, the Miss Stack, the in-flight queue and the dispatch of a request. -/

namespace Sys2Proof.Machine

open Sys2Proof

/-- A duration of `us` microseconds in ticks. -/
def usTicks (us : Nat) : Nat := us * 100

/-- A duration of `ms` milliseconds in ticks. -/
def msTicks (ms : Nat) : Nat := ms * 100000

/-- The bound of a 32-bit counter (Conventions: counters). -/
def counterMax : Nat := 4294967295

/-- A 32-bit counter raised by `k`, saturating (Conventions: counters). -/
def satAdd (n k : Nat) : Nat := min (n + k) counterMax

/-- A 32-bit counter raised by one, saturating. -/
def satInc (n : Nat) : Nat := satAdd n 1

/-! ### Position -/

/-- The unwrapped position U = revolution number × CPR + c (R4). -/
def encU (e : Enc) : Int := e.rev * e.settings.cpr + e.c

/-! ### Notices -/

/-- Raise a notice (R194). It has no effect on the block that raises it. -/
def raise (n : Notice) (s : State) : State :=
  let k := noticeKind n
  let slots := setNoticeSlot s.lnk.notices k (some (raisedSlot (noticeSlot s.lnk.notices k) n))
  s.setLnk { s.lnk with notices := slots }

/-! ### Pass contexts -/

/-- All counters 0 (R63). -/
def Counters.zero : Counters := ⟨0, 0, 0, 0, 0, 0, 0, 0, 0, 0, 0, 0, 0, 0, 0, 0, 0, 0, 0, 0⟩

/-- The context of an ended pass or a fresh one has no tags in flight. -/
def noTags (c : PassCtx) : Bool := c.mainInFlight == 0 && c.retryInFlight == 0

/-- The lead is SCANNING or RETRYING. -/
def leadRunning (l : Lead) : Bool := l.phase != .armed

/-- The lead context changed by `f`; nothing with the lead IDLE. -/
def modLead (f : PassCtx → PassCtx) (s : State) : State :=
  s.setPsc { s.psc with lead := s.psc.lead.map fun l => { l with ctx := f l.ctx } }

/-- The lead is the pass with ID `id`. -/
def leadIs (id : Nat) (p : Psc) : Bool :=
  match p.lead with
  | some l => l.ctx.settings.passId == id
  | none => false

/-- The context named by a pass ID, the lead or a draining one, changed by `f` (R79). -/
def modCtx (id : Nat) (f : PassCtx → PassCtx) (s : State) : State :=
  if leadIs id s.psc then modLead f s
  else s.setPsc { s.psc with drain := s.psc.drain.map fun c => if c.settings.passId == id then f c else c }

/-- The context named by a pass ID: the lead's, or the draining one with that ID (R128). -/
def findCtx (id : Nat) (p : Psc) : Option PassCtx :=
  if leadIs id p then p.lead.map Lead.ctx else p.drain.find? fun c => c.settings.passId == id

/-- A change of a context's counters. -/
def onCounters (f : Counters → Counters) (c : PassCtx) : PassCtx := { c with counters := f c.counters }

/-- The pass with ID `id` is the lead in SCANNING or RETRYING (R119). -/
def runningLeadIs (id : Nat) (s : State) : Bool :=
  match s.psc.lead with
  | some l => leadRunning l && l.ctx.settings.passId == id
  | none => false

/-- One more tag of an origin in flight (R90, R100). -/
def addInFlight (o : TagOrigin) (c : PassCtx) : PassCtx :=
  match o with
  | .retry => { c with retryInFlight := c.retryInFlight + 1 }
  | _ => { c with mainInFlight := c.mainInFlight + 1 }

/-- One tag of an origin fewer in flight (step 5 of R118). -/
def dropInFlight (o : TagOrigin) (c : PassCtx) : PassCtx :=
  match o with
  | .retry => { c with retryInFlight := c.retryInFlight - 1 }
  | _ => { c with mainInFlight := c.mainInFlight - 1 }

/-- An abandoned tag adds to abandoned or retry_lost by its origin (R73, R121). -/
def countAbandoned (o : TagOrigin) (c : PassCtx) : PassCtx :=
  match o with
  | .retry => onCounters (fun k => { k with retryLost := satInc k.retryLost }) c
  | _ => onCounters (fun k => { k with abandoned := satInc k.abandoned }) c

/-! ### Point buffer -/

/-- The number of summaries owed: one for the lead and one for each draining context (R80). -/
def summariesOwed (p : Psc) : Nat := (if p.lead.isSome then 1 else 0) + p.drain.length

/-- Records held plus summaries owed, bounded by 1,024 (R139). -/
def bufferLoad (s : State) : Nat := s.pnt.buffer.length + summariesOwed s.psc

/-- The number of records the point buffer holds at most (section 7.6). -/
def bufferSize : Nat := 1024

/-- Append a record to the point buffer; the largest occupancy follows (R143). -/
def appendRecord (r : BufferRecord) (s : State) : State :=
  s.setPnt { buffer := s.pnt.buffer ++ [r], largest := max s.pnt.largest (s.pnt.buffer.length + 1) }

/-- The summary made from a context (R82). -/
def summaryOf (c : PassCtx) : Summary where
  passId := c.settings.passId
  endStatus := c.endStatus
  height := c.settings.height
  turnsUsed := c.turnsUsed
  largestSnap := c.largestSnap
  counters := c.counters

/-- Append a pass's summary, whatever the buffer holds (R80, R139). -/
def appendSummary (c : PassCtx) (s : State) : State := appendRecord (.summary (summaryOf c)) s

/-- Summarise the contexts at the head of the drain list that have no tags left, in list order (R80). -/
def flushDrain (s : State) : State :=
  let done := s.psc.drain.takeWhile noTags
  let rest := s.psc.drain.dropWhile noTags
  done.foldl (fun t c => appendSummary c t) (s.setPsc { s.psc with drain := rest })

/-! ### Miss Stack -/

/-- The stack holds at most 16 entries (R146). -/
def stackSize : Nat := 16

/-- Two entries have the same key: blade, window index, j and overlap marker (R145). -/
def sameKey (a b : MissEntry) : Bool :=
  a.blade == b.blade && a.window == b.window && a.j == b.j && a.overlap == b.overlap

/-- Push a miss entry of the lead (R147, R148, R149): refused when the key stands on the stack; a full
stack first discards its oldest entry. The stack is held newest first. -/
def pushMiss (e : MissEntry) (s : State) : State :=
  if s.stack.any (sameKey e) then s
  else
    let full := decide (stackSize ≤ s.stack.length)
    let kept := if full then s.stack.dropLast else s.stack
    let s := s.setStack (e :: kept)
    modLead (onCounters fun k =>
      { k with
        pushes := satInc k.pushes
        overflowLost := if full then satInc k.overflowLost else k.overflowLost }) s

/-- An entry names the lattice point offered, whatever its overlap marker (R150). -/
def namesPoint (blade window j : Nat) (e : MissEntry) : Bool :=
  e.blade == blade && e.window == window && e.j == j

/-- Offer a lattice point to the stack: the newest matching entry is removed and takes rises (R150). -/
def takeMiss (blade window j : Nat) (s : State) : Option MissEntry × State :=
  match s.stack.find? (namesPoint blade window j) with
  | none => (none, s)
  | some e =>
    (some e,
      modLead (onCounters fun k => { k with takes := satInc k.takes })
        (s.setStack (s.stack.eraseP (namesPoint blade window j))))

/-! ### Trigger frames on PRB_OUT -/

/-- A trigger frame takes 3 µs to send (R107). -/
def triggerFrameTicks : Nat := usTicks 3

/-- The three characters of a trigger frame (R108). -/
def triggerCharacters (f : TriggerFrame) : List Byte :=
  let control := BitVec.ofNat 8 (f.tag.toNat * 16 + f.exposure)
  [0x7E#8, control, control ^^^ 0xFF#8]

/-- PRB_OUT is idle at a time (R107). -/
def outIdle (p : Prb) (now : Nat) : Bool :=
  match p.out with
  | none => true
  | some f => decide (f.start + triggerFrameTicks ≤ now)

/-- The waiting frame begins once the previous frame has ended (R108). -/
def startWaiting (now : Nat) (p : Prb) : Prb :=
  match p.waiting with
  | none => p
  | some f => if f.start ≤ now then { p with out := some f, waiting := none } else p

/-- A waiting frame whose entry is abandoned is not sent (R108). -/
def dropWaiting (abandoned : List TagEntry) (p : Prb) : Prb :=
  match p.waiting with
  | none => p
  | some f => if abandoned.any (fun e => e.tag == f.tag) then { p with waiting := none } else p

/-! ### Abandonment -/

/-- Count one abandoned entry in its context: the in-flight count falls, and abandoned or retry_lost rises
(R110, R121, R122). -/
def abandonOne (s : State) (e : TagEntry) : State :=
  modCtx e.passId (fun c => countAbandoned e.origin (dropInFlight e.origin c)) s

/-- Abandon the entries of the in-flight queue that `which` names, from head to tail (R121, R122). -/
def abandon (which : TagEntry → Bool) (s : State) : State :=
  let gone := s.prb.queue.filter which
  let kept := s.prb.queue.filter fun e => !which e
  gone.foldl abandonOne (s.setPrb (dropWaiting gone { s.prb with queue := kept }))

/-! ### Requests -/

/-- The lead pass is IDLE. -/
def leadIdle (s : State) : Bool := s.psc.lead.isNone

/-- A reply: its payload and the state after the request. -/
abbrev Answer := List Byte × State

/-- A reply with OK and the content that the owner's rule gives (R192). -/
def accept (content : List Byte) (s : State) : Answer := (statusCode .ok :: content, s)

/-- A refusal with two detail bytes; it changes no state (R192). -/
def refuseWith (st : Status) (d₁ d₂ : Byte) (s : State) : Answer := ([statusCode st, d₁, d₂], s)

/-- A refusal whose detail bytes are zeros (R192). -/
def refuse (st : Status) (s : State) : Answer := refuseWith st 0#8 0#8 s

/-- LNK may dispatch this frame: it is the oldest of the request buffer, the reply slot is empty and no
RSET has been taken (R191, R197). -/
def dispatchable (f : Frame) (s : State) : Bool :=
  s.lnk.reply.isNone && !s.lnk.rsetTaken && s.lnk.requests.head? == some f

/-- The frame leaves the request buffer as it is dispatched (R191). -/
def takeRequest (s : State) : State := s.setLnk { s.lnk with requests := s.lnk.requests.tail }

/-- A reply is placed in the reply slot (R192). -/
def placeReply (kind : Byte) (a : Answer) : State :=
  a.2.setLnk { a.2.lnk with reply := some { kind := kind, payload := a.1 } }

/-- The kind of a reply: the request's kind with the top bit set (R192). -/
def replyKind (kind : Byte) : Byte := kind ||| 0x80#8

/-- Dispatch of a request that carries this payload (R191, R192): the length is judged first, then the
owner's rule answers. A frame that LNK may not dispatch leaves the part as it is (log entry 10). -/
def dispatch (kind : Byte) (payload : List Byte) (lengthOk : Bool) (owner : State → Answer) (s : State) :
    Host.Outcome State Fault Refusal :=
  if dispatchable { kind := kind, payload := payload } s then
    let s := takeRequest s
    .next (placeReply (replyKind kind) (if lengthOk then owner s else refuse .badLength s))
  else .next s

/-- Dispatch of a request of fixed payload length (R192). -/
def dispatchFixed (kind : Byte) (len : Nat) (payload : List Byte) (owner : State → Answer) (s : State) :
    Host.Outcome State Fault Refusal :=
  dispatch kind payload (payload.length == len) owner s

end Sys2Proof.Machine
end

