-- ==== Sys2Proof/Machine/Operands.lean ====
section
/-! DEFINITION. Machine/Operands.lean: the payloads of the requests, field by field as section 11.8 lays
them out, and the payload layouts of the records that replies echo. -/

namespace Sys2Proof.Machine

open Sys2Proof

/-- The ENCF payload: CPR 4, sense 1, tolerance 2, filter period 1. -/
structure EncfArgs where
  cpr : Nat
  sense : Nat
  tolerance : Nat
  filterPeriod : Nat
  deriving DecidableEq, Repr

/-- Read an ENCF payload. -/
def readEncf (p : List Byte) : EncfArgs :=
  ⟨fieldNat p 0 4, fieldNat p 4 1, fieldNat p 5 2, fieldNat p 7 1⟩

/-- The MNTS payload: R0 4, S 4. -/
structure MntsArgs where
  r0 : Nat
  scale : Nat
  deriving DecidableEq, Repr

/-- Read an MNTS payload. -/
def readMnts (p : List Byte) : MntsArgs := ⟨fieldNat p 0 4, fieldNat p 4 4⟩

/-- Read a CWR payload: 256 entries of 2 bytes, signed, in index order. -/
def readCwr (p : List Byte) : List Int := (List.range 256).map fun i => fieldInt p (2 * i) 2

/-- Read a GSAF payload: one level code for each gate. -/
def readGsaf (p : List Byte) (n : Fin 8) : Option Bool := levelOfCode (fieldNat p n.val 1)

/-- The B and datum of a WKLD payload: B 1, datum 3. -/
def wkldBlades (p : List Byte) : Nat := fieldNat p 0 1

/-- The datum of a WKLD payload. -/
def wkldDatum (p : List Byte) : Nat := fieldNat p 1 3

/-- The trims of a WKLD payload for `b` blades: 3 bytes each, signed. -/
def wkldTrims (p : List Byte) (b : Nat) : List Int := (List.range b).map fun k => fieldInt p (4 + 3 * k) 3

/-- The STWN payload: s 4, e 4, p 4, exposure 1, floor 2, gate 1 (0xFF absent), level 1, first blade 1
(0xFF absent), count 1. -/
structure StwnArgs where
  start : Nat
  stop : Nat
  step : Nat
  exposure : Nat
  floor : Nat
  gate : Nat
  level : Nat
  first : Nat
  count : Nat
  deriving DecidableEq, Repr

/-- Read an STWN payload. -/
def readStwn (p : List Byte) : StwnArgs :=
  ⟨fieldNat p 0 4, fieldNat p 4 4, fieldNat p 8 4, fieldNat p 12 1, fieldNat p 13 2, fieldNat p 15 1,
   fieldNat p 16 1, fieldNat p 17 1, fieldNat p 18 1⟩

/-- The STGT payload: gate 1, mode 1, on 4, off 4, extension 4, group 1 (0xFF NONE), first blade 1 (0xFF
absent), count 1. -/
structure StgtArgs where
  gate : Nat
  mode : Nat
  on : Nat
  off : Nat
  extension : Nat
  group : Nat
  first : Nat
  count : Nat
  deriving DecidableEq, Repr

/-- Read an STGT payload. -/
def readStgt (p : List Byte) : StgtArgs :=
  ⟨fieldNat p 0 1, fieldNat p 1 1, fieldNat p 2 4, fieldNat p 6 4, fieldNat p 10 4, fieldNat p 14 1,
   fieldNat p 15 1, fieldNat p 16 1⟩

/-- The ARMP payload: pass ID 2, section height 4 signed, overlap 4, retry turns 1, rounding 1, dropout 1,
range 1, r_lo 4, r_hi 4, stall time 2. -/
structure ArmpArgs where
  passId : Nat
  height : Int
  overlap : Nat
  retryTurns : Nat
  rounding : Nat
  dropout : Nat
  range : Nat
  rLo : Nat
  rHi : Nat
  stallMs : Nat
  deriving DecidableEq, Repr

/-- Read an ARMP payload. -/
def readArmp (p : List Byte) : ArmpArgs :=
  ⟨fieldNat p 0 2, fieldInt p 2 4, fieldNat p 6 4, fieldNat p 10 1, fieldNat p 11 1, fieldNat p 12 1,
   fieldNat p 13 1, fieldNat p 14 4, fieldNat p 18 4, fieldNat p 22 2⟩

/-- The PRBF payload: Tmin 2, Tr 2. -/
structure PrbfArgs where
  tmin : Nat
  tr : Nat
  deriving DecidableEq, Repr

/-- Read a PRBF payload. -/
def readPrbf (p : List Byte) : PrbfArgs := ⟨fieldNat p 0 2, fieldNat p 2 2⟩

/-- The gates that a GCLR mask names: bit n is gate n. -/
def gateMask (p : List Byte) (n : Fin 8) : Bool := (fieldNat p 0 1).testBit n.val

/-- A value clamped to bounds (Conventions: clamping). -/
def clamp (lo hi v : Nat) : Nat := max lo (min hi v)

/-! ### Layouts of echoed records -/

/-- A blade range as its two bytes: first 0xFF when absent (log entry 18 for the count then). -/
def rangeBytes (r : Option BladeRange) : List Byte :=
  match r with
  | none => [0xFF#8, 0#8]
  | some r => [BitVec.ofNat 8 r.first, BitVec.ofNat 8 r.count]

/-- The encoder settings at the widths of ENCF. -/
def encSettingsBytes (e : EncSettings) : List Byte :=
  beNat 4 e.cpr ++ [senseCode e.sense] ++ beNat 2 e.tolerance ++ beNat 1 e.filterPeriod

/-- R0 and S at the widths of MNTS. -/
def mountBytes (w : Settings) : List Byte := beNat 4 w.r0 ++ beNat 4 w.scale

/-- The runout table at the widths of CWR. -/
def runoutBytes (table : List Int) : List Byte := table.flatMap (beInt 2)

/-- The safe levels at the widths of GSAF. -/
def safeBytes (e : Eight Bool) : List Byte := e.toList.map byteOfBool

/-- All settings in the order of the field table of section 10.1, each at the width it has in the request
that sets it (R175, R181). -/
def settingsBytes (w : Settings) : List Byte :=
  encSettingsBytes w.enc ++ mountBytes w ++ runoutBytes w.runout ++ safeBytes w.safe

/-- The CRC of an image's settings and lock bit (R175). -/
def imageCrc (w : Settings) (lockBit : Bool) : BitVec 16 :=
  crc16 (settingsBytes w ++ [byteOfBool lockBit])

/-- The image's CRC matches its contents (R175). -/
def imageOk (i : Image) : Bool := i.crc == imageCrc i.settings i.lockBit

/-- A window record at the widths of STWN: gate 0xFF when absent (log entry 18 for the level then). -/
def windowBytes (w : Window) : List Byte :=
  beNat 4 w.start ++ beNat 4 w.stop ++ beNat 4 w.step ++ beNat 1 w.exposure ++ beNat 2 w.floor ++
  (match w.gate with
   | none => [0xFF#8, 0#8]
   | some g => [BitVec.ofNat 8 g.gate.val, byteOfBool g.level]) ++
  rangeBytes w.range

/-- A gate record at the widths of STGT after the gate number: mode UNUSED 0 or PHASE 1 and its fields (log
entry 18 for the fields of an UNUSED record). -/
def gateRecordBytes (r : Option GateRecord) : List Byte :=
  match r with
  | none => [0#8] ++ beNat 4 0 ++ beNat 4 0 ++ beNat 4 0 ++ [0xFF#8] ++ rangeBytes none
  | some r =>
    [1#8] ++ beNat 4 r.on ++ beNat 4 r.off ++ beNat 4 r.extension ++
    [match r.group with
     | none => 0xFF#8
     | some q => BitVec.ofNat 8 q.val] ++
    rangeBytes r.range

end Sys2Proof.Machine
end

