-- ==== Sys2Proof/Machine/Gates.lean ====
section
/-! DEFINITION. Machine/Gates.lean: the Gate Driver (chapter 9): arbitration, driving, the two modes,
evaluation at a position change, load sense, and the commands LOAD_SENSE_CHANGE, QUALIFICATION_EXPIRY
and GCLR. -/

namespace Sys2Proof.Machine

open Sys2Proof

/-! ### Arbitration -/

/-- The exclusion group of a gate: the one in its active-bank record; an UNUSED gate has none (R162). -/
def gateGroup (b : Bank) (n : Fin 8) : Option (Fin 4) :=
  match b.gates.get n with
  | none => none
  | some r => r.group

/-- The gate of a group that is driven ON: the holder, where a gate of the group was driven ON before the
arbitration and is still a candidate, otherwise the lowest-numbered candidate (R166), whether or not another
candidate already waits (log entry 32). -/
def groupWinner (group : Fin 8 → Option (Fin 4)) (held cand : Fin 8 → Bool) (q : Fin 4) : Option (Fin 8) :=
  match gateNumbers.find? fun n => decide (group n = some q) && held n && cand n with
  | some n => some n
  | none => gateNumbers.find? fun n => decide (group n = some q) && cand n

/-- The level of one gate after an arbitration (R166). -/
def arbitrated (group : Fin 8 → Option (Fin 4)) (held cand : Fin 8 → Bool) (n : Fin 8) : Bool :=
  match group n with
  | none => cand n
  | some q => decide (groupWinner group held cand q = some n)

/-- The gates driven ON before an arbitration; a fresh arbitration treats none as a holder (R166). -/
def holders (fresh : Bool) (g : Gte) (n : Fin 8) : Bool := !fresh && (g.gates.get n).driven

/-! ### Driving and qualification -/

/-- The qualification timer of a gate as it starts: running from `now` if the sense disagrees with the
driven level and the status is OK, idle otherwise (R169). -/
def startQual (now : Nat) (g : Gate) : Gate :=
  { g with qual := if g.status = .ok ∧ g.sense ≠ g.driven then some now else none }

/-- Drive a level onto a gate's output; a level that changes restarts its qualification (R169). -/
def driveGate (now : Nat) (level : Bool) (g : Gate) : Gate :=
  if g.driven = level then g else startQual now { g with driven := level }

/-- A gate is a candidate in SAFE: its safe level is ON and its status is not SHORT (R162). -/
def safeCandidate (s : State) (n : Fin 8) : Bool :=
  s.cal.working.safe.get n && decide ((s.gte.gates.get n).status ≠ .short)

/-- A gate is a candidate in RUN: it is due and its status is not SHORT (R163). -/
def runCandidate (g : Gate) : Bool := decide (g.due ≠ .none) && decide (g.status ≠ .short)

/-- Drive the safe levels by a fresh arbitration; the waiting flag of every gate is clear in SAFE (R162). -/
def driveSafe (s : State) : State :=
  let on := arbitrated (gateGroup s.wbk.active) (fun _ => false) (safeCandidate s)
  s.setGte { s.gte with
    gates := Eight.ofFn fun n => { driveGate s.now (on n) (s.gte.gates.get n) with waiting := false } }

/-- The gate driven ON in the group of a waiting gate. -/
def gateOnIn (group : Fin 8 → Option (Fin 4)) (g : Gte) (q : Fin 4) : Fin 8 :=
  (gateNumbers.find? fun n => decide (group n = some q) && (g.gates.get n).driven).getD 0

/-- One gate begins to wait: the conflict count rises and GROUP_CONFLICT is raised (R167). -/
def beginWait (group : Fin 8 → Option (Fin 4)) (q : Fin 4) (s : State) (n : Fin 8) : State :=
  raise (.groupConflict q n (gateOnIn group s.gte q))
    (s.setGte { s.gte with conflicts := satInc s.gte.conflicts })

/-- The gates of a group that begin to wait, in ascending order. -/
def newWaiters (group : Fin 8 → Option (Fin 4)) (old new : Gte) (q : Fin 4) : List (Fin 8) :=
  gateNumbers.filter fun n =>
    decide (group n = some q) && (new.gates.get n).waiting && !(old.gates.get n).waiting

/-- The exclusion groups in ascending order. -/
def groupNumbers : List (Fin 4) := [0, 1, 2, 3]

/-- Count and raise the waits that an arbitration began, by group and then by gate (R167). -/
def reportWaits (group : Fin 8 → Option (Fin 4)) (old : Gte) (s : State) : State :=
  groupNumbers.foldl (fun t q => (newWaiters group old s.gte q).foldl (beginWait group q) t) s

/-- Arbitrate the candidates of the due states that GTE holds in RUN, drive the outcome and update each
waiting flag (R163, R166, R167). A fresh arbitration has no holder, and the waits it begins are neither
counted nor raised. -/
def arbitrateRun (fresh : Bool) (s : State) : State :=
  let group := gateGroup s.wbk.active
  let cand := fun n => runCandidate (s.gte.gates.get n)
  let on := arbitrated group (holders fresh s.gte) cand
  let gates := Eight.ofFn fun n =>
    { driveGate s.now (on n) (s.gte.gates.get n) with waiting := cand n && !on n }
  let t := s.setGte { s.gte with gates := gates }
  if fresh then t else reportWaits group s.gte t

/-! ### Evaluation -/

/-- The phase lies in the interval [on, off) of a gate record (R163). -/
def inBase (r : GateRecord) (g : Nat) : Bool := decide (r.on ≤ g) && decide (g < r.off)

/-- The phase lies in the extension [off, off + extension) of a gate record (R163). -/
def inExtension (r : GateRecord) (g : Nat) : Bool :=
  decide (r.off ≤ g) && decide (g < r.off + r.extension)

/-- The change stays within one pitch: the same blade, with a phase that has not fallen (R164). -/
def samePitchForward (last : Option BladePhase) (p : BladePhase) : Bool :=
  match last with
  | none => false
  | some q => q.blade == p.blade && decide (q.phase ≤ p.phase)

/-- The due state of a gate at a position (R163, R164). -/
def dueAt (rec : Option GateRecord) (blades : Nat) (dir : Dir) (last : Option BladePhase) (old : DueState)
    (p : BladePhase) : DueState :=
  match rec with
  | none => .none
  | some r =>
    if !covers r.range blades p.blade then .none
    else if inBase r p.phase then .base
    else if dir = .forward ∧ samePitchForward last p = true ∧ old ≠ .none ∧ inExtension r p.phase = true
      then .extension
    else .none

/-- The due states at position `u` become those of the last evaluated position (R163). Without a
workpiece there is no blade and no gate is due. -/
def setDue (dir : Dir) (u : Int) (s : State) : State :=
  let blades := match s.wbk.workpiece with
    | none => 0
    | some w => w.blades
  match queryPhase s u with
  | none =>
    s.setGte { s.gte with
      gates := Eight.ofFn fun n => { s.gte.gates.get n with due := .none }
      last := none }
  | some p =>
    s.setGte { s.gte with
      gates := Eight.ofFn fun n =>
        { s.gte.gates.get n with
          due := dueAt (s.wbk.active.gates.get n) blades dir s.gte.last (s.gte.gates.get n).due p }
      last := some p }

/-- Clear every gate's due state and waiting flag and forget the last evaluated position (R161). -/
def clearDue (s : State) : State :=
  s.setGte { s.gte with
    gates := Eight.ofFn fun n => { s.gte.gates.get n with due := .none, waiting := false }
    last := none }

/-- Enter SAFE, from either mode (R161). -/
def enterSafe (s : State) : State :=
  let s := clearDue s
  driveSafe (s.setGte { s.gte with mode := .safe })

/-- Enter RUN, from either mode, with a fresh evaluation at ENC's current U (R161). -/
def enterRun (s : State) : State :=
  let s := clearDue s
  let s := s.setGte { s.gte with mode := .run }
  arbitrateRun true (setDue .forward (encU s.enc) s)

/-- GTE at an exchange of banks: the due states and waiting flags are cleared and a fresh arbitration is
made with the new records (R168). -/
def gatesExchange (s : State) : State :=
  let s := clearDue s
  match s.gte.mode with
  | .run => arbitrateRun true (setDue .forward (encU s.enc) s)
  | .safe => driveSafe s

/-- GTE takes a position change: in RUN it evaluates the new U, in SAFE the outputs stay (R162, R163). -/
def gatesPosition (dir : Dir) (u : Int) (s : State) : State :=
  match s.gte.mode with
  | .safe => s
  | .run => arbitrateRun false (setDue dir u s)

/-- The safe levels of the working copy have changed: applied at once in SAFE, at the next entry into SAFE
otherwise (R162). -/
def safeLevelsChanged (s : State) : State :=
  match s.gte.mode with
  | .safe => driveSafe s
  | .run => s

/-- GTE after a reset, once the working copy is there: the safe levels are driven, and qualification starts
for each gate whose sense then disagrees (R174). -/
def gatesReset (s : State) : State :=
  let s := driveSafe (s.setGte (Gte.reset fun n => (s.gte.gates.get n).sense))
  s.setGte { s.gte with gates := Eight.ofFn fun n => startQual s.now (s.gte.gates.get n) }

/-! ### Load sense -/

/-- A gate whose sense input has changed level: its timer starts when the sense comes to differ from the
expected level and goes idle when it comes back (R169). -/
def senseGate (now : Nat) (level : Bool) (g : Gate) : Gate :=
  if g.sense = level then g else startQual now { g with sense := level }

/-- LOAD_SENSE_CHANGE (R169). -/
def execLoadSenseChange (gate : Fin 8) (level : Bool) (s : State) : Host.Outcome State Fault Refusal :=
  .next (s.setGte { s.gte with gates := s.gte.gates.set gate (senseGate s.now level (s.gte.gates.get gate)) })

/-- The qualification time (R169). -/
def qualTicks : Nat := usTicks 50

/-- The qualification of a gate has expired (R169). -/
def qualExpired (now : Nat) (g : Gate) : Bool :=
  match g.qual with
  | none => false
  | some t => decide (t + qualTicks ≤ now)

/-- The status that an expiry latches (R170). -/
def latchedStatus (g : Gate) : GateStatus := if g.driven then .openLoad else .short

/-- The gate after its fault has latched: no qualification runs, and a SHORT gate is no candidate and so
does not wait (R169, R170; log entry 17). -/
def latchGate (g : Gate) : Gate :=
  { g with
    status := latchedStatus g
    qual := none
    waiting := g.waiting && g.driven }

/-- Latch the fault of one gate if its qualification has expired, and raise GATE_FAULT (R170). -/
def latchExpired (s : State) (n : Fin 8) : State :=
  let g := s.gte.gates.get n
  if qualExpired s.now g then
    raise (.gateFault n (latchedStatus g)) (s.setGte { s.gte with gates := s.gte.gates.set n (latchGate g) })
  else s

/-- QUALIFICATION_EXPIRY: the faults whose qualification has expired latch in ascending order of gate
(R170). -/
def execQualificationExpiry (s : State) : Host.Outcome State Fault Refusal :=
  .next (gateNumbers.foldl latchExpired s)

/-- A gate whose latch GCLR clears (R171). -/
def clearLatch (now : Nat) (g : Gate) : Gate :=
  if gateLatched g then startQual now { g with status := .ok } else g

/-- The eight gates after the latches named by a mask are cleared (R171). -/
def clearedGates (mask : Fin 8 → Bool) (now : Nat) (gates : Eight Gate) : Eight Gate :=
  Eight.ofFn fun n => if mask n then clearLatch now (gates.get n) else gates.get n

/-- A mask names a gate that is SHORT (R171). -/
def namesShort (mask : Fin 8 → Bool) (gates : Eight Gate) : Bool :=
  gateNumbers.any fun n => mask n && decide ((gates.get n).status = .short)

/-- The latches named are cleared; when a SHORT gate is cleared, GTE arbitrates at once (R171). A cleared gate that
turns ON is judged by R169, which expects a high sense: one that stays high starts no timer and latches nothing, and
one that is low latches OPEN, where R171 says that a remaining short latches again (DESIGN CHOICE, log entry 34). -/
def clearLatches (mask : Fin 8 → Bool) (s : State) : State :=
  let t := s.setGte { s.gte with gates := clearedGates mask s.now s.gte.gates }
  if namesShort mask s.gte.gates then
    match s.gte.mode with
    | .run => arbitrateRun false t
    | .safe => driveSafe t
  else t

/-- The owner's rule of GCLR (R171). -/
def answerGclr (payload : List Byte) (s : State) : Answer :=
  let t := clearLatches (gateMask payload) s
  accept (t.gte.gates.toList.map fun g => gateStatusCode g.status) t

/-- GCLR (R171). -/
def execGclr (payload : List Byte) (s : State) : Host.Outcome State Fault Refusal :=
  dispatchFixed kindGclr 1 payload (answerGclr payload) s

end Sys2Proof.Machine
end

