-- ==== Sys2Proof/Machine/Passes.lean ====
section
/-! DEFINITION. Machine/Passes.lean: the Pass Controller (chapter 4): pass start, pass endings and the
commands STALL_EXPIRY, ARMP and ABRT. -/

namespace Sys2Proof.Machine

open Sys2Proof

/-! ### Pass endings -/

/-- The end statuses that abandon the pass's tags and take GTE to SAFE (step 2 of R73). -/
def abandons : EndStatus → Bool
  | .complete => false
  | .stalled => false
  | .aborted => true
  | .encoderFault => true
  | .indexFault => true
  | .probeFault => true

/-- Step 2 of R73 for the statuses that abandon: every in-flight tag of the pass is abandoned, both its
in-flight counts become 0, and GTE enters SAFE. -/
def abandonLead (id : Nat) (s : State) : State :=
  enterSafe (modLead (fun c => { c with mainInFlight := 0, retryInFlight := 0 })
    (abandon (fun e => e.passId == id) s))

/-- Step 3 of R73: the Miss Stack empties into unresolved (R154). -/
def emptyStack (s : State) : State :=
  (modLead (onCounters fun k => { k with unresolved := satAdd k.unresolved s.stack.length }) s).setStack []

/-- Steps 4 and 5 of R73: the context joins the tail of the drain list, or its summary is appended, and the
lead becomes IDLE. -/
def retireLead (s : State) : State :=
  match s.psc.lead with
  | none => s
  | some l =>
    if noTags l.ctx && s.psc.drain.isEmpty then
      appendSummary l.ctx (s.setPsc { s.psc with lead := none })
    else s.setPsc { s.psc with lead := none, drain := s.psc.drain ++ [l.ctx] }

/-- Step 1 of R73: the end status is recorded and the stall timer stops. -/
def recordEnd (st : EndStatus) (s : State) : State :=
  let s := modLead (fun c => { c with endStatus := some st }) s
  s.setPsc { s.psc with stall := none }

/-- The lead pass ends with a status (R73). Nothing with the lead IDLE. -/
def endLead (st : EndStatus) (s : State) : State :=
  match s.psc.lead with
  | none => s
  | some l =>
    let s := recordEnd st s
    let s := if abandons st then abandonLead l.ctx.settings.passId s else s
    retireLead (emptyStack s)

/-- A lead in SCANNING or RETRYING ends with a status; an ARMED or IDLE lead stays (R64, R75). -/
def endRunningLead (st : EndStatus) (s : State) : State :=
  match s.psc.lead with
  | none => s
  | some l => if leadRunning l then endLead st s else s

/-- PSC's test of R70: a RETRYING lead with an empty stack and no tags in flight ends COMPLETE. -/
def testRetryDone (s : State) : State :=
  match s.psc.lead with
  | none => s
  | some l =>
    if l.phase = .retrying ∧ s.stack.isEmpty ∧ noTags l.ctx then endLead .complete s else s

/-! ### Pass start and the stall timer -/

/-- The stall timer restarts from the full stall time of the lead (R71). -/
def restartStall (s : State) : State :=
  match s.psc.lead with
  | none => s
  | some l => s.setPsc { s.psc with stall := some (s.now + msTicks l.ctx.settings.stallMs) }

/-- The ARMED lead starts at a crossing (R65): `snap` is |δ| for a snapped crossing and 0 for a homing one. -/
def startPass (l : Lead) (snap : Nat) (s : State) : State :=
  let ctx := { l.ctx with uStart := encU s.enc, highWater := 0, turn := 0, largestSnap := snap }
  let s := s.setPsc { s.psc with lead := some { phase := .scanning, ctx := ctx } }
  raise (.passStart l.ctx.settings.passId) (enterRun (restartStall s))

/-- PSC takes an index crossing handed on with the encoder state `st`: an ARMED lead starts at a forward
crossing in HOMED (R65), and a running lead keeps the largest snap (R72). -/
def passCrossing (dir : Dir) (delta : Int) (outcome : IndexOutcome) (st : EncState) (s : State) : State :=
  match s.psc.lead with
  | none => s
  | some l =>
    let snap := if outcome = .snap then delta.natAbs else 0
    match l.phase with
    | .armed => if dir = .forward ∧ st = .homed then startPass l snap s else s
    | _ => modLead (fun c => { c with largestSnap := max c.largestSnap snap }) s

/-- STALL_EXPIRY: the stall timer of a running lead has expired and the pass ends STALLED (R71). With the
timer stopped, or not yet expired, no expiry occurs (R77; log entry 9). -/
def execStallExpiry (s : State) : Host.Outcome State Fault Refusal :=
  match s.psc.stall with
  | none => .next s
  | some t => if t ≤ s.now then .next (endRunningLead .stalled s) else .next s

/-! ### ARMP -/

/-- The pass settings that an ARMP fills, if its three codes are legal, with the clamps of R63. -/
def armpSettings (a : ArmpArgs) (cpr : Nat) : Option PassSettings := do
  let rounding ← roundingOfCode a.rounding
  let dropout ← dropoutOfCode a.dropout
  let range ← rangePolicyOfCode a.range
  some
    { passId := a.passId
      height := a.height
      overlap := clamp 0 (cpr / 4) a.overlap
      retryTurns := clamp 0 3 a.retryTurns
      rounding := rounding
      dropout := dropout
      range := range
      rLo := a.rLo
      rHi := a.rHi
      stallMs := clamp 10 65535 a.stallMs }

/-- The largest radius limit (R61). -/
def radiusMax : Nat := 100000000

/-- A fresh lead context with these settings (R63); U_start and H are 0 until the pass start sets them (log
entry 31). -/
def freshCtx (p : PassSettings) : PassCtx where
  settings := p
  uStart := 0
  highWater := 0
  turn := 0
  turnsUsed := 0
  largestSnap := 0
  mainInFlight := 0
  retryInFlight := 0
  endStatus := none
  counters := Counters.zero

/-- The Probe Port returns to READY with the consecutive-timeout count 0 (R123). -/
def probeReady (s : State) : State := s.setPrb { s.prb with state := .ready, timeouts := 0 }

/-- The effect of an ARMP taken with OK (R63). -/
def armLead (p : PassSettings) (s : State) : State :=
  probeReady (s.setPsc { s.psc with lead := some { phase := .armed, ctx := freshCtx p } })

/-- The owner's rule of ARMP (R62, R63). -/
def answerArmp (payload : List Byte) (s : State) : Answer :=
  let a := readArmp payload
  if !leadIdle s then refuse .busy s
  else if 4 ≤ s.psc.drain.length then refuse .busy s
  else if a.passId = 0 ∨ (s.psc.drain.any fun c => c.settings.passId == a.passId) = true then refuse .badArg s
  else
    match armpSettings a s.enc.settings.cpr with
    | none => refuse .badArg s
    | some p =>
      if radiusMax < a.rLo ∨ radiusMax < a.rHi ∨ a.rHi < a.rLo then refuse .badArg s
      else if s.wbk.workpiece.isNone then refuse .notReady s
      else if s.wbk.activeState = .empty ∧ s.wbk.stagedState ≠ .pending then refuse .notReady s
      else if bufferSize ≤ bufferLoad s then refuse .full s
      else
        accept (beNat 2 p.passId ++ beNat 4 p.overlap ++ beNat 1 p.retryTurns ++ beNat 2 p.stallMs)
          (armLead p s)

/-- ARMP (R62). -/
def execArmp (payload : List Byte) (s : State) : Host.Outcome State Fault Refusal :=
  dispatchFixed kindArmp 24 payload (answerArmp payload) s

/-! ### ABRT -/

/-- The disposition of a pass that has ended: 1 if it joined the drain list, 0 if its summary was appended
(codes table). -/
def abrtDisposition (id : Nat) (s : State) : Byte :=
  if s.psc.drain.any fun c => c.settings.passId == id then 1#8 else 0#8

/-- The owner's rule of ABRT (R74). -/
def answerAbrt (s : State) : Answer :=
  match s.psc.lead with
  | none => accept (beNat 2 0 ++ [Config.abrtIdleDisposition s.freeNext]) s.useFree
  | some l =>
    let t := endLead .aborted s
    accept (beNat 2 l.ctx.settings.passId ++ [abrtDisposition l.ctx.settings.passId t]) t

/-- ABRT (R74). -/
def execAbrt (payload : List Byte) (s : State) : Host.Outcome State Fault Refusal :=
  dispatchFixed kindAbrt 0 payload answerAbrt s

end Sys2Proof.Machine
end

