-- ==== Sys2Proof/Machine/Probe.lean ====
section
/-! DEFINITION. Machine/Probe.lean: the Probe Port and the Point Builder (chapters 6 and 7): firing a
trigger, resolving a tag to a point or a miss, the reading receiver, the FAULT state, and the commands
READING, READING_GAP_TIMEOUT, TAG_TIMEOUT, TRIGGER_FRAME_START and PRBF. -/

namespace Sys2Proof.Machine

open Sys2Proof

/-! ### Firing -/

/-- The in-flight queue holds at most 4 entries (R97, R109). -/
def queueSize : Nat := 4

/-- At least Tmin has passed since the last trigger frame began or is due to begin (R97). -/
def tminPassed (p : Prb) (now : Nat) : Bool :=
  match p.lastTrigger with
  | none => true
  | some t => decide (t + usTicks p.tmin ≤ now)

/-- The probe is free for a trigger (R97). -/
def probeFree (s : State) : Bool := tminPassed s.prb s.now && decide (s.prb.queue.length < queueSize)

/-- A trigger request: everything of a tag entry but its tag and its fire time, which PRB gives (R101). -/
structure TriggerRequest where
  passId : Nat
  origin : TagOrigin
  overlap : Bool
  blade : Nat
  window : Nat
  j : Nat
  phase : Nat
  theta : Nat
  rho : Int
  exposure : Nat
  floor : Nat
  gateFault : Bool
  attempts : Nat
  lastCause : Option MissCause
  deriving DecidableEq, Repr

/-- The tag entry of a request (R101). -/
def entryOf (r : TriggerRequest) (tag : BitVec 4) (fireTime : Nat) : TagEntry where
  tag := tag
  passId := r.passId
  origin := r.origin
  overlap := r.overlap
  blade := r.blade
  window := r.window
  j := r.j
  phase := r.phase
  theta := r.theta
  rho := r.rho
  exposure := r.exposure
  floor := r.floor
  gateFault := r.gateFault
  attempts := r.attempts
  lastCause := r.lastCause
  fireTime := fireTime

/-- The moment a frame begins that is requested at `now`: at once when PRB_OUT is idle, otherwise at the
end of the frame that is going out (R108). -/
def frameStart (p : Prb) (now : Nat) : Nat :=
  match p.out with
  | none => now
  | some f => if f.start + triggerFrameTicks ≤ now then now else f.start + triggerFrameTicks

/-- PRB in READY takes a trigger request (R101, R108, R109): the next tag is issued, the frame begins or
waits, and the entry joins the tail of the queue. A waiting frame whose start is due has begun (log entry
25). -/
def takeTrigger (r : TriggerRequest) (now : Nat) (p : Prb) : Prb :=
  let p := startWaiting now p
  let t := frameStart p now
  let frame : TriggerFrame := { tag := p.nextTag, exposure := r.exposure, start := t }
  let p := { p with
    queue := p.queue ++ [entryOf r p.nextTag t]
    nextTag := p.nextTag + 1
    lastTrigger := some t }
  if t ≤ now then { p with out := some frame } else { p with waiting := some frame }

/-- Fire a point (R101, R111). In READY the trigger is taken and the pass's in-flight count rises. In FAULT
the tag is issued, no frame goes out and the entry is abandoned at once. -/
def fire (r : TriggerRequest) (s : State) : State :=
  match s.prb.state with
  | .ready => modCtx r.passId (addInFlight r.origin) (s.setPrb (takeTrigger r s.now s.prb))
  | .fault =>
    modCtx r.passId (fun c => countAbandoned r.origin (dropInFlight r.origin (addInFlight r.origin c)))
      (s.setPrb { s.prb with nextTag := s.prb.nextTag + 1, lastTrigger := some s.now })

/-- TRIGGER_FRAME_START: the waiting frame begins as the previous one ends (R108). With no frame waiting,
or before that moment, no frame begins. -/
def execTriggerFrameStart (s : State) : Host.Outcome State Fault Refusal :=
  .next (s.setPrb (startWaiting s.now s.prb))

/-! ### Point Builder -/

/-- A reading: the tag, the SATURATED bit, the distance and the low twelve bits of the intensity (R113). -/
structure Reading where
  tag : BitVec 4
  saturated : Bool
  distance : Nat
  intensity : Nat
  deriving DecidableEq, Repr

/-- The body of a reading frame as a reading (R113). -/
def readingOfBody (body : List Byte) : Reading where
  tag := BitVec.ofNat 4 (fieldNat body 0 1 / 16)
  saturated := (fieldNat body 0 1).testBit 0
  distance := fieldNat body 1 3
  intensity := fieldNat body 4 2 % 4096

/-- The projected distance d = rnd(D × S / 65,536) (R131). -/
def projected (mode : Rounding) (d scale : Nat) : Int := rnd mode ((d : Int) * scale) 65536

/-- The radius r = R0 − d + ρ (R132). -/
def radius (mode : Rounding) (w : Settings) (d : Nat) (rho : Int) : Int :=
  (w.r0 : Int) - projected mode d w.scale + rho

/-- The radius is outside r_lo … r_hi (R133). -/
def radiusOut (p : PassSettings) (r : Int) : Bool := decide (r < p.rLo) || decide ((p.rHi : Int) < r)

/-- What PNT answers for a reading (R128). -/
inductive PointOutcome where
  | appended (p : PointRecord)
  | missDropout
  | missFull
  deriving DecidableEq, Repr

/-- A DIM or CLEAR reading under RETRY, or any under EMIT, goes on to the admission test (R130). -/
def dropsOut (policy : DropoutPolicy) (cls : ReadingClass) : Bool :=
  decide (policy = .retry) && decide (cls ≠ .clear)

/-- The radius of a reading and whether it is out of range; a VOID reading has radius 0 and no range check
(R128, R133). -/
def judgedRadius (e : TagEntry) (p : PassSettings) (w : Settings) (cls : ReadingClass) (d : Nat) :
    Int × Bool :=
  match cls with
  | .void => (0, false)
  | _ =>
    let r := radius p.rounding w d e.rho
    if radiusOut p r then
      (match p.range with
       | .keep => r
       | .zero => 0, true)
    else (r, false)

/-- The point record of a reading (R134 to R137). -/
def buildPoint (e : TagEntry) (c : PassCtx) (cal : Cal) (rd : Reading) : PointRecord :=
  let cls := classify rd.distance rd.intensity e.floor
  let rr := judgedRadius e c.settings cal.working cls rd.distance
  { passId := e.passId
    sequence := satAdd c.counters.emittedMain c.counters.emittedRetry
    blade := e.blade
    window := e.window
    j := e.j
    flags := pointFlags e cls rd.saturated rr.2 cal.origin
    attempts := if e.origin = .retry then e.attempts else 0
    lastCause := if e.origin = .retry then e.lastCause else none
    exposure := e.exposure
    theta := e.theta
    phase := e.phase
    radius := rr.1
    intensity := rd.intensity }

/-- PNT's answer for a reading (R128, R130, R138). -/
def pointOutcome (e : TagEntry) (c : PassCtx) (rd : Reading) (s : State) : PointOutcome :=
  if dropsOut c.settings.dropout (classify rd.distance rd.intensity e.floor) then .missDropout
  else if bufferLoad s < bufferSize then .appended (buildPoint e c s.cal rd)
  else .missFull

/-- The void and dim counts of a reading's class (R129, R140). -/
def countClass (cls : ReadingClass) (k : Counters) : Counters :=
  match cls with
  | .void => { k with void := satInc k.void }
  | .dim => { k with dim := satInc k.dim }
  | .clear => k

/-- The counts of an appended point (R140). -/
def countEmitted (o : TagOrigin) (p : PointRecord) (k : Counters) : Counters :=
  let k := match o with
    | .retry => { k with emittedRetry := satInc k.emittedRetry }
    | _ => { k with emittedMain := satInc k.emittedMain }
  if p.flags.range then { k with range := satInc k.range } else k

/-! ### Resolution -/

/-- The miss entry of a resolved tag: attempts 1 for a main tag, one above the tag's, saturating at 255, for
a retry tag (R119). -/
def missOf (e : TagEntry) (cause : MissCause) : MissEntry where
  blade := e.blade
  window := e.window
  j := e.j
  overlap := e.overlap
  cause := cause
  attempts := if e.origin = .retry then min (e.attempts + 1) 255 else 1

/-- Route a miss by the state of the entry's pass (R119). -/
def routeMiss (e : TagEntry) (cause : MissCause) (s : State) : State :=
  if runningLeadIs e.passId s then
    let s := pushMiss (missOf e cause) s
    match e.origin with
    | .retry => s
    | _ => modLead (onCounters fun k => { k with missedMain := satInc k.missedMain }) s
  else
    modCtx e.passId (onCounters fun k =>
      match e.origin with
      | .retry => { k with retryLost := satInc k.retryLost }
      | _ => { k with lateMissed := satInc k.lateMissed }) s

/-- The cause counters of a miss: timeout, skipped or full; DROPOUT has none of its own (R81, R140). -/
def countCause (cause : MissCause) (k : Counters) : Counters :=
  match cause with
  | .timeout => { k with timeout := satInc k.timeout }
  | .skipped => { k with skipped := satInc k.skipped }
  | .full => { k with full := satInc k.full }
  | _ => k

/-- PSC's tests after a fallen in-flight count: the early end of a retry turn for the lead's tag (R70), then
the summaries at the head of the drain list (R80). -/
def passTests (id : Nat) (s : State) : State :=
  flushDrain (if leadIs id s.psc then testRetryDone s else s)

/-- Steps 5 and 6 of R118: the in-flight count falls and PSC makes its tests. -/
def settle (e : TagEntry) (s : State) : State :=
  passTests e.passId (modCtx e.passId (dropInFlight e.origin) s)

/-- Resolve an entry that has left the queue as a miss (R118, R119). -/
def resolveMiss (e : TagEntry) (cause : MissCause) (s : State) : State :=
  settle e (modCtx e.passId (onCounters (countCause cause)) (routeMiss e cause s))

/-- Resolve an entry that has left the queue with its reading (R118, R128). A tag in flight always names a
context (R128); in a state where it names none, nothing is built. -/
def resolveReading (e : TagEntry) (rd : Reading) (s : State) : State :=
  match findCtx e.passId s.psc with
  | none => s
  | some c =>
    let counted := modCtx e.passId (onCounters (countClass (classify rd.distance rd.intensity e.floor)))
    match pointOutcome e c rd s with
    | .appended p =>
      settle e (modCtx e.passId (onCounters (countEmitted e.origin p)) (counted (appendRecord (.point p) s)))
    | .missDropout => resolveMiss e .dropout (counted s)
    | .missFull => resolveMiss e .full (counted s)

/-- The entry at the head of the queue leaves it and is resolved as a miss (R115, R117). -/
def resolveHeadMiss (cause : MissCause) (s : State) : State :=
  match s.prb.queue with
  | [] => s
  | e :: rest => resolveMiss e cause (s.setPrb { s.prb with queue := rest })

/-- The entry at the head of the queue leaves it and is resolved with a reading (R114). -/
def resolveHeadReading (rd : Reading) (s : State) : State :=
  match s.prb.queue with
  | [] => s
  | e :: rest => resolveReading e rd (s.setPrb { s.prb with queue := rest })

/-- The first `n` entries of the queue are resolved as SKIPPED, one at a time from the head (R115). -/
def skipEntries (n : Nat) (s : State) : State :=
  match n with
  | 0 => s
  | m + 1 => skipEntries m (resolveHeadMiss .skipped s)

/-- The number of entries ahead of the one that carries a tag, if one carries it (R114). -/
def tagIndex (q : List TagEntry) (tag : BitVec 4) : Option Nat := q.findIdx? fun e => e.tag == tag

/-- Match a reading by its tag (R114, R115): the entries ahead of the match are skipped and the match is
resolved with the reading; a reading that matches none is an orphan. -/
def matchReading (rd : Reading) (s : State) : State :=
  match tagIndex s.prb.queue rd.tag with
  | none => s.setPrb { s.prb with orphans := satInc s.prb.orphans }
  | some n => resolveHeadReading rd (skipEntries n (s.setPrb { s.prb with timeouts := 0 }))

/-! ### Receiving -/

/-- A reading frame is discarded: the check-fail count rises and the receiver hunts again (R112). -/
def discardFrame (s : State) : State :=
  s.setPrb { s.prb with checkFails := satInc s.prb.checkFails, rx := .hunting }

/-- The sum of a body's first six characters, mod 256 (R112). -/
def bodySum (body : List Byte) : Byte := (body.take 6).foldl (· + ·) 0#8

/-- The check character of a body. -/
def bodyCheck (body : List Byte) : Byte := body.getD 6 0#8

/-- A body of seven characters is a reading if its last is the sum of the others, and is discarded
otherwise (R112, R113). -/
def takeBody (body : List Byte) (s : State) : State :=
  if bodyCheck body = bodySum body then
    matchReading (readingOfBody body) (s.setPrb { s.prb with rx := .hunting })
  else discardFrame s

/-- The receiver takes one character of PRB_IN, which ends now (R112). -/
def takeProbeChar (s : State) (ch : ProbeChar) : State :=
  match s.prb.rx with
  | .hunting =>
    if ch.stopHigh ∧ ch.byte = 0x7E#8 then s.setPrb { s.prb with rx := .inFrame [] s.now false } else s
  | .inFrame body _ _ =>
    if !ch.stopHigh then discardFrame s
    else
      let body := body ++ [ch.byte]
      if body.length = 7 then takeBody body s else s.setPrb { s.prb with rx := .inFrame body s.now false }

/-- A character takes 1 µs on the line (section 6.1). -/
def probeCharTicks : Nat := usTicks 1

/-- The longest gap allowed inside a reading frame (R112). -/
def probeGapTicks : Nat := usTicks 4

/-- The receiver is in a frame whose last character ended more than 4 µs before `t`, and the next has not
begun (R112). -/
def gapPassed (p : Prb) (t : Nat) : Bool :=
  match p.rx with
  | .inFrame _ lastEnd false => decide (lastEnd + probeGapTicks < t)
  | _ => false

/-- The frame being taken is discarded if its gap had passed at time `t` (R112). -/
def discardAtGap (t : Nat) (s : State) : State := if gapPassed s.prb t then discardFrame s else s

/-- A character begins now: inside a frame, the gap ends (R112). -/
def beginProbeChar (s : State) : State :=
  match s.prb.rx with
  | .hunting => s
  | .inFrame body lastEnd _ => s.setPrb { s.prb with rx := .inFrame body lastEnd true }

/-- The receiver takes one item of PRB_IN (R112). -/
def takeProbeItem (s : State) (i : ProbeItem) : State :=
  match i with
  | .char c => takeProbeChar s c
  | .start => beginProbeChar s

/-- The number of characters among the items of a READING. -/
def charCount (items : List ProbeItem) : Nat := items.countP fun i => decide (i ≠ .start)

/-- The time at which a READING's items began: its characters end now without a gap between them. -/
def readingBegan (items : List ProbeItem) (now : Nat) : Nat := now - charCount items * probeCharTicks

/-- READING (R112, R113; log entry 12): characters received without a gap, the last of which ends now, or the
start of a character. When the first of them began more than 4 µs after the last character of a frame being taken,
that frame was discarded first. -/
def execReading (items : List ProbeItem) (s : State) : Host.Outcome State Fault Refusal :=
  .next (items.foldl takeProbeItem (if items = [] then s else discardAtGap (readingBegan items s.now) s))

/-- READING_GAP_TIMEOUT: more than 4 µs have passed since the last character of a frame being taken, and the
next has not begun (R112). Otherwise no gap has timed out. -/
def execReadingGapTimeout (s : State) : Host.Outcome State Fault Refusal :=
  .next (discardAtGap s.now s)

/-! ### Timeouts and FAULT -/

/-- An entry has expired: Tr has passed from its fire time (R117, R125). -/
def expired (p : Prb) (now : Nat) (e : TagEntry) : Bool := decide (e.fireTime + usTicks p.tr ≤ now)

/-- The number of consecutive timeouts that declares a probe fault (R120). -/
def timeoutLimit : Nat := 8

/-- PRB enters FAULT after the timeout of the entry with tag `tag` (R121): every entry is abandoned,
PROBE_FAULT is raised, the drain list is summarised and the lead ends PROBE_FAULT (R76). -/
def enterProbeFault (tag : BitVec 4) (s : State) : State :=
  let n := s.prb.queue.length
  let s := s.setPrb { s.prb with state := .fault }
  let s := abandon (fun _ => true) s
  let s := raise (.probeFault tag n) s
  endLead .probeFault (flushDrain s)

/-- The consecutive-timeout count rises after a TIMEOUT resolution; in READY, at 8, PRB enters FAULT
(R120). -/
def countTimeout (tag : BitVec 4) (s : State) : State :=
  let n := min (s.prb.timeouts + 1) timeoutLimit
  let t := s.setPrb { s.prb with timeouts := n }
  if s.prb.state = .ready ∧ n = timeoutLimit then enterProbeFault tag t else t

/-- The head of the queue, if it has expired, is resolved as TIMEOUT and counted (R117, R120). -/
def timeoutHead (s : State) : State :=
  match s.prb.queue with
  | [] => s
  | e :: _ => if expired s.prb s.now e then countTimeout e.tag (resolveHeadMiss .timeout s) else s

/-- TAG_TIMEOUT (R117). When the entry at the head has not expired, or has left the queue, no expiry
occurs. -/
def execTagTimeout (s : State) : Host.Outcome State Fault Refusal := .next (timeoutHead s)

/-- Resolve the expired entries at the head one at a time, at most `n` of them (R125). -/
def timeoutHeads (n : Nat) (s : State) : State :=
  match n with
  | 0 => s
  | m + 1 => timeoutHeads m (timeoutHead s)

/-! ### PRBF -/

/-- The owner's rule of PRBF (R124, R125). -/
def answerPrbf (payload : List Byte) (s : State) : Answer :=
  let a := readPrbf payload
  match s.psc.lead.map leadRunning with
  | some true => refuse .busy s
  | _ =>
    let tmin := clamp 2 1000 a.tmin
    let tr := clamp 10 10000 a.tr
    let t := timeoutHeads s.prb.queue.length
      (s.setPrb { s.prb with tmin := tmin, tr := tr, state := .ready, timeouts := 0 })
    accept (beNat 2 tmin ++ beNat 2 tr ++ [probeStateCode t.prb.state]) t

/-- PRBF (R124). -/
def execPrbf (payload : List Byte) (s : State) : Host.Outcome State Fault Refusal :=
  dispatchFixed kindPrbf 4 payload (answerPrbf payload) s

end Sys2Proof.Machine
end

