-- ==== Sys2Proof/Machine/Lattice.lean ====
section
/-! DEFINITION. Machine/Lattice.lean: the Lattice Tracker (chapter 5): the lattice points crossed at a
position, their classification in the main span and in a retry turn, the advance of the high-water with
its turn boundaries (R66 to R69), and the HOLD input with its commands HOLD_PIN_CHANGE, HOLD_QUALIFIED and
HOLD. -/

namespace Sys2Proof.Machine

open Sys2Proof

/-! ### Crossed points -/

/-- A lattice point crossed: its blade, its window's position in the active bank, its lattice index and the
window record. -/
structure CrossedPoint where
  blade : Nat
  index : Nat
  j : Nat
  window : Window
  deriving DecidableEq, Repr

/-- The lattice points of one blade whose phases lie in [lo, hi): the windows that cover the blade, in list
order, and ascending indices within each (R86 to R88). In a valid bank that is ascending phase (R51; log
entry 21). -/
def bladePoints (bank : Bank) (blades blade lo hi : Nat) : List CrossedPoint :=
  bank.windows.zipIdx.flatMap fun wi =>
    if covers wi.1.range blades blade then
      (indicesIn wi.1 lo hi).map fun j => { blade := blade, index := wi.2, j := j, window := wi.1 }
    else []

/-- Two positions one forward count apart lie in the same pitch (R86). -/
def samePitch (w : Workpiece) (before now : BladePhase) : Bool :=
  before.blade == now.blade && (w.blades != 1 || decide (before.phase ≤ now.phase))

/-- The lattice points crossed between two positions one count apart, in order (R86, R87, R88). -/
def crossedBetween (w : Workpiece) (bank : Bank) (before now : BladePhase) : List CrossedPoint :=
  if samePitch w before now then bladePoints bank w.blades now.blade (before.phase + 1) (now.phase + 1)
  else
    bladePoints bank w.blades before.blade (before.phase + 1) (pitchLength w before.blade) ++
      bladePoints bank w.blades now.blade 0 (now.phase + 1)

/-- The lattice points crossed at position `u` (R85). -/
def crossedAt (s : State) (u : Int) : List CrossedPoint :=
  match s.wbk.workpiece with
  | none => []
  | some w =>
    crossedBetween w s.wbk.active (bladePhaseAt w s.enc.settings.cpr (u - 1))
      (bladePhaseAt w s.enc.settings.cpr u)

/-! ### Classification -/

/-- The window's required gate is at the level named, or the window names none (R90, R91). -/
def gateAllows (s : State) (w : Window) : Bool :=
  match w.gate with
  | none => true
  | some r => (s.gte.gates.get r.gate).driven == r.level

/-- The trigger request for a point decided at position `u` (R101, R102). -/
def requestFor (l : Lead) (u : Int) (pt : CrossedPoint) (origin : TagOrigin) (overlap : Bool) (attempts : Nat)
    (cause : Option MissCause) (s : State) : TriggerRequest where
  passId := l.ctx.settings.passId
  origin := origin
  overlap := overlap
  blade := pt.blade
  window := pt.index
  j := pt.j
  phase := match queryPhase s u with
    | none => 0
    | some p => p.phase
  theta := thetaAt s u
  rho := rhoAt s l.ctx.settings.rounding u
  exposure := pt.window.exposure
  floor := pt.window.floor
  gateFault := gateFaultFlag s
  attempts := attempts
  lastCause := cause

/-- The miss entry of a crossed point that is not fired (R99). -/
def crossingMiss (pt : CrossedPoint) (overlap : Bool) (cause : MissCause) : MissEntry where
  blade := pt.blade
  window := pt.index
  j := pt.j
  overlap := overlap
  cause := cause
  attempts := 1

/-- The outcome of a point crossed in the main span (R90). -/
inductive Crossing where
  | blanked
  | held
  | busy
  | fired
  deriving DecidableEq, Repr

/-- The first test of R90 that applies to a window's point. -/
def crossingOf (s : State) (w : Window) : Crossing :=
  if !gateAllows s w then .blanked
  else if s.hold.active then .held
  else if !probeFree s then .busy
  else .fired

/-- The counters of an outcome: crossed_main and its own (R90). -/
def countCrossing (o : Crossing) (k : Counters) : Counters :=
  let k := { k with crossedMain := satInc k.crossedMain }
  match o with
  | .blanked => { k with blanked := satInc k.blanked }
  | .held => { k with held := satInc k.held }
  | .busy => { k with busy := satInc k.busy }
  | .fired => k

/-- A point crossed in the main span at position `u` is classified and counted (R90). -/
def crossMain (l : Lead) (u : Int) (overlap : Bool) (s : State) (pt : CrossedPoint) : State :=
  let o := crossingOf s pt.window
  let t := modLead (onCounters (countCrossing o)) s
  match o with
  | .blanked => t
  | .held => pushMiss (crossingMiss pt overlap .held) t
  | .busy => pushMiss (crossingMiss pt overlap .busy) t
  | .fired => fire (requestFor l u pt (if overlap then .overlap else .main) overlap 0 none s) t

/-- A point crossed in a retry turn at position `u` is offered to the Miss Stack if the tests of R100 pass,
and an entry taken is fired. -/
def crossRetry (l : Lead) (u : Int) (s : State) (pt : CrossedPoint) : State :=
  if s.hold.active || !gateAllows s pt.window || !probeFree s then s
  else
    match takeMiss pt.blade pt.index pt.j s with
    | (none, t) => t
    | (some e, t) => fire (requestFor l u pt .retry e.overlap e.attempts (some e.cause) s) t

/-- The length of the main span: CPR + overlap (R67). -/
def mainSpan (s : State) (c : PassCtx) : Nat := s.enc.settings.cpr + c.settings.overlap

/-- Every point crossed at position `u`, at progress `prog`, is handled (R85). -/
def crossPosition (l : Lead) (u : Int) (prog : Nat) (s : State) : State :=
  if prog ≤ mainSpan s l.ctx then
    (crossedAt s u).foldl (crossMain l u (decide (s.enc.settings.cpr < prog))) s
  else (crossedAt s u).foldl (crossRetry l u) s

/-! ### The advance -/

/-- The lead enters retry turn `t` (R68, R69). -/
def enterTurn (t : Nat) (s : State) : State :=
  s.setPsc { s.psc with
    lead := s.psc.lead.map fun l =>
      { phase := .retrying, ctx := { l.ctx with turn := t, turnsUsed := t } } }

/-- The turn boundary that the high-water of the lead has reached, if any, is applied (R68, R69). -/
def turnBoundary (s : State) : State :=
  match s.psc.lead with
  | none => s
  | some l =>
    let c := l.ctx
    if c.highWater = mainSpan s c + c.turn * s.enc.settings.cpr then
      if s.stack.isEmpty ∨ c.turn = c.settings.retryTurns then endLead .complete s
      else enterTurn (c.turn + 1) s
    else s

/-- One position of an advance: its points are handled, the high-water rises, and a turn boundary reached
there is applied (R66). With no running lead the position is not handed on. -/
def advanceOne (s : State) : State :=
  match s.psc.lead with
  | none => s
  | some l =>
    if leadRunning l then
      let prog := l.ctx.highWater + 1
      let s := crossPosition l (l.ctx.uStart + prog) prog s
      turnBoundary (modLead (fun c => { c with highWater := prog }) s)
    else s

/-- The positions of an advance, one at a time (R66). -/
def advancePositions (n : Nat) (s : State) : State :=
  match n with
  | 0 => s
  | m + 1 => advancePositions m (advanceOne s)

/-- PSC takes a position change to `u`: an advance when its progress exceeds the high-water of a running
lead, after which the stall timer restarts (R66, R71). -/
def passPosition (u : Int) (s : State) : State :=
  match s.psc.lead with
  | none => s
  | some l =>
    let prog := u - l.ctx.uStart
    if leadRunning l ∧ (l.ctx.highWater : Int) < prog then
      restartStall (advancePositions (prog - l.ctx.highWater).toNat s)
    else s

/-! ### The HOLD input -/

/-- A HOLD level qualifies when it has stood for 10 µs (R93). -/
def holdTicks : Nat := usTicks 10

/-- The HOLD condition is worked out again, and HOLD_CHANGE is raised if it differs (R94). -/
def updateHold (s : State) : State :=
  let now := holdCondition s.hold.sense s.hold.qualified
  if now = s.hold.active then s
  else raise (.holdChange now) (s.setHold { s.hold with active := now })

/-- HOLD_PIN_CHANGE: a level other than the qualified one starts its 10 µs, and a change back to the
qualified level cancels it (R93). -/
def execHoldPinChange (level : Bool) (s : State) : Host.Outcome State Fault Refusal :=
  if level = s.hold.pin then .next s
  else
    .next (s.setHold { s.hold with
      pin := level
      since := if level = s.hold.qualified then none else some s.now })

/-- The pin level that is not yet qualified has stood for 10 µs (R93). -/
def holdDue (s : State) : Bool :=
  match s.hold.since with
  | none => false
  | some t => decide (t + holdTicks ≤ s.now)

/-- HOLD_QUALIFIED: the level that has stood for 10 µs becomes the qualified level and the condition is
worked out again (R93, R94). Before that nothing qualifies. -/
def execHoldQualified (s : State) : Host.Outcome State Fault Refusal :=
  if holdDue s then
    .next (updateHold (s.setHold { s.hold with qualified := s.hold.pin, since := none }))
  else .next s

/-- The owner's rule of HOLD (R95). -/
def answerHold (payload : List Byte) (s : State) : Answer :=
  match holdSenseOfCode (fieldNat payload 0 1) with
  | none => refuse .badArg s
  | some sense =>
    let t := updateHold (s.setHold { s.hold with sense := sense })
    accept [holdSenseCode sense, byteOfBool t.hold.qualified, byteOfBool t.hold.active] t

/-- HOLD (R95). -/
def execHold (payload : List Byte) (s : State) : Host.Outcome State Fault Refusal :=
  dispatchFixed kindHold 1 payload (answerHold payload) s

end Sys2Proof.Machine
end

