-- ==== Sys2Proof/Machine/Banks.lean ====
section
/-! DEFINITION. Machine/Banks.lean: the Window Banks (chapter 3): the workpiece record, editing of the
staged bank, validation, the pending swap and the exchange, with the commands WKLD, STCL, STWN, STGT,
SWAP and SWCN. -/

namespace Sys2Proof.Machine

open Sys2Proof

/-! ### The workpiece record -/

/-- A trim is in range (R39). -/
def trimOk (t : Int) : Bool := decide (-1048576 ≤ t) && decide (t ≤ 1048576)

/-- The lowest blade whose pitch length no other blade's goes below, or above, by `better` (R41). -/
def bestBlade (w : Workpiece) (better : Nat → Nat → Bool) : Nat :=
  (List.range w.blades).foldl
    (fun best k => if better (pitchLength w k) (pitchLength w best) then k else best) 0

/-- The blade with the shortest trimmed pitch, the lowest such (R41). -/
def shortestBlade (w : Workpiece) : Nat := bestBlade w fun a b => decide (a < b)

/-- The blade with the longest trimmed pitch, the lowest such (R41). -/
def longestBlade (w : Workpiece) : Nat := bestBlade w fun a b => decide (b < a)

/-- The effect of a WKLD taken with OK (R40). -/
def loadWorkpiece (w : Workpiece) (s : State) : State :=
  enterSafe (s.setWbk { Wbk.reset with workpiece := some w })

/-- The owner's rule of WKLD (R39, R40, R41). -/
def answerWkld (payload : List Byte) (s : State) : Answer :=
  let b := wkldBlades payload
  let trims := wkldTrims payload b
  if !leadIdle s then refuse .busy s
  else if b < 1 ∨ 128 < b then refuse .badArg s
  else if payload.length ≠ 4 + 3 * b then refuse .badLength s
  else
    match trims.findIdx? fun t => !trimOk t with
    | some k => refuseWith .badArg (BitVec.ofNat 8 k) 0#8 s
    | none =>
      let w : Workpiece := { blades := b, datum := wkldDatum payload, trims := trims }
      accept
        (beNat 1 b ++ beNat 3 w.datum ++
          beNat 4 (pitchLength w (shortestBlade w)) ++ beNat 1 (shortestBlade w) ++
          beNat 4 (pitchLength w (longestBlade w)) ++ beNat 1 (longestBlade w))
        (loadWorkpiece w s)

/-- WKLD (R39); its own rule judges the length of a payload of at least 4 bytes (R192). -/
def execWkld (payload : List Byte) (s : State) : Host.Outcome State Fault Refusal :=
  dispatch kindWkld payload (decide (4 ≤ payload.length)) (answerWkld payload) s

/-! ### Editing the staged bank -/

/-- The staged bank replaced. -/
def setStaged (b : Bank) (s : State) : State := s.setWbk { s.wbk with staged := b }

/-- The staged bank is PENDING (R43). -/
def swapPending (s : State) : Bool := decide (s.wbk.stagedState = .pending)

/-- The owner's rule of STCL (R49). -/
def answerStcl (s : State) : Answer :=
  if swapPending s then refuse .busy s else accept [] (setStaged Bank.empty s)

/-- STCL (R49). -/
def execStcl (payload : List Byte) (s : State) : Host.Outcome State Fault Refusal :=
  dispatchFixed kindStcl 0 payload answerStcl s

/-- The code of an absent optional field (section 11.8). -/
def absentCode : Nat := 0xFF

/-- The blade range of two request bytes, if they are legal: first 0xFF is absent; first 0 … 127 and count
1 … 128 otherwise (R44, R46, R48). -/
def readRange (first count : Nat) : Option (Option BladeRange) :=
  if first = absentCode then some none
  else if 127 < first ∨ count = 0 ∨ 128 < count then none
  else some (some { first := first, count := count })

/-- The required gate of two request bytes, if they are legal: gate 0xFF is absent (R44, R46). -/
def readRequiredGate (gate level : Nat) : Option (Option RequiredGate) :=
  if gate = absentCode then some none
  else if h : gate < 8 then (levelOfCode level).map fun l => some { gate := ⟨gate, h⟩, level := l }
  else none

/-- The largest phase bound of a window or gate record (R44, R47). -/
def phaseBound : Nat := 18874368

/-- The window record of an STWN, if no field is refused, with the clamps of R44. -/
def readWindow (a : StwnArgs) : Option Window :=
  if a.stop ≤ a.start then none
  else if phaseBound < a.stop then none
  else if a.step = 0 ∨ pitchUnits < a.step then none
  else
    match readRequiredGate a.gate a.level, readRange a.first a.count with
    | some gate, some range =>
      some
        { start := a.start
          stop := a.stop
          step := a.step
          exposure := clamp 0 15 a.exposure
          floor := clamp 0 4095 a.floor
          gate := gate
          range := range }
    | _, _ => none

/-- The position a window takes: after every window whose start is at or below its own (R45). -/
def insertPosition (ws : List Window) (w : Window) : Nat :=
  (ws.takeWhile fun v => decide (v.start ≤ w.start)).length

/-- The list with a window inserted after every window whose start is at or below its own (R45). -/
def insertWindow (ws : List Window) (w : Window) : List Window :=
  ws.takeWhile (fun v => decide (v.start ≤ w.start)) ++ w :: ws.dropWhile fun v => decide (v.start ≤ w.start)

/-- A bank holds at most 24 windows (section 3.2). -/
def bankWindows : Nat := 24

/-- The owner's rule of STWN (R46). The position in the reply takes 1 byte, as a window index does (log entry
18). -/
def answerStwn (payload : List Byte) (s : State) : Answer :=
  if swapPending s then refuse .busy s
  else
    match readWindow (readStwn payload) with
    | none => refuse .badArg s
    | some w =>
      let ws := s.wbk.staged.windows
      if bankWindows ≤ ws.length then refuse .full s
      else
        accept (windowBytes w ++ beNat 1 (insertPosition ws w) ++ beNat 4 (ws.length + 1))
          (setStaged { s.wbk.staged with windows := insertWindow ws w } s)

/-- STWN (R46). -/
def execStwn (payload : List Byte) (s : State) : Host.Outcome State Fault Refusal :=
  dispatchFixed kindStwn 19 payload (answerStwn payload) s

/-- The exclusion group of a request byte, if it is legal: 0xFF is NONE (R47). -/
def readGroup (g : Nat) : Option (Option (Fin 4)) :=
  if g = absentCode then some none else if h : g < 4 then some (some ⟨g, h⟩) else none

/-- The largest extension of a gate record (R47). -/
def extensionBound : Nat := 1048576

/-- The gate record of an STGT, if no field is refused: UNUSED disregards the other fields, PHASE clamps the
extension (R47, R48). -/
def readGateRecord (a : StgtArgs) : Option (Option GateRecord) :=
  if a.mode = 0 then some none
  else if a.mode ≠ 1 then none
  else if a.off ≤ a.on then none
  else if phaseBound < a.off then none
  else
    match readGroup a.group, readRange a.first a.count with
    | some group, some range =>
      some (some
        { on := a.on
          off := a.off
          extension := clamp 0 extensionBound a.extension
          group := group
          range := range })
    | _, _ => none

/-- The owner's rule of STGT (R48). -/
def answerStgt (payload : List Byte) (s : State) : Answer :=
  let a := readStgt payload
  if swapPending s then refuse .busy s
  else if h : a.gate < 8 then
    match readGateRecord a with
    | none => refuse .badArg s
    | some r =>
      accept (beNat 1 a.gate ++ gateRecordBytes r)
        (setStaged { s.wbk.staged with gates := s.wbk.staged.gates.set ⟨a.gate, h⟩ r } s)
  else refuse .badArg s

/-- STGT (R48). -/
def execStgt (payload : List Byte) (s : State) : Host.Outcome State Fault Refusal :=
  dispatchFixed kindStgt 17 payload (answerStgt payload) s

/-! ### Validation -/

/-- Two windows at positions a < b overlap: their blade ranges share a blade and s_b < e_a (R51). -/
def windowsOverlap (blades : Nat) (a b : Window) : Bool :=
  decide (b.start < a.stop) && sharesBlade a.range b.range blades

/-- The first window that overlaps one at a lower position (check 5 of R51). -/
def overlapAt (blades : Nat) (ws : List Window) : Option Nat :=
  (List.range ws.length).find? fun b =>
    match ws[b]? with
    | none => false
    | some w => (ws.take b).any fun a => windowsOverlap blades a w

/-- A window names a required gate whose record in the bank is UNUSED (check 3 of R51). -/
def needsUnused (bank : Bank) (w : Window) : Bool :=
  match w.gate with
  | none => false
  | some r => (bank.gates.get r.gate).isNone

/-- A gate record in PHASE has a blade range that does not fit (check 4 of R51). -/
def gateRangeBad (blades : Nat) (r : Option GateRecord) : Bool :=
  match r with
  | none => false
  | some g => !rangeFits g.range blades

/-- The first failure of the validation of a bank, with its index (R51). -/
def validate (bank : Bank) (blades : Nat) : Option (InvalidReason × Nat) :=
  if bank.windows.isEmpty then some (.noWindows, 0)
  else
    match bank.windows.findIdx? fun w => !rangeFits w.range blades with
    | some i => some (.windowBlades, i)
    | none =>
      match bank.windows.findIdx? (needsUnused bank) with
      | some i => some (.gateUnused, i)
      | none =>
        match bank.gates.toList.findIdx? (gateRangeBad blades) with
        | some i => some (.gateBlades, i)
        | none => (overlapAt blades bank.windows).map fun i => (.windowOverlap, i)

/-- A window's step is finer than one count (R52). -/
def stepFine (w : Window) (blades cpr : Nat) : Bool := decide (w.step * cpr < blades * pitchUnits)

/-- Two gate records in PHASE that share a blade turn ON less than one count apart (R52). -/
def edgeClose (a b : Option GateRecord) (blades cpr : Nat) : Bool :=
  match a, b with
  | some x, some y =>
    sharesBlade x.range y.range blades &&
      decide (((x.on : Int) - y.on).natAbs * cpr < blades * pitchUnits)
  | _, _ => false

/-- The STEP_FINE warnings in position order (R52). -/
def stepFineWarnings (bank : Bank) (blades cpr : Nat) : List Warning :=
  bank.windows.zipIdx.filterMap fun wi =>
    if stepFine wi.1 blades cpr then some (.stepFine wi.2) else none

/-- The EDGE_CLOSE warnings by lower and then higher gate number (R52). -/
def edgeCloseWarnings (bank : Bank) (blades cpr : Nat) : List Warning :=
  gateNumbers.flatMap fun a =>
    gateNumbers.filterMap fun b =>
      if decide (a < b) && edgeClose (bank.gates.get a) (bank.gates.get b) blades cpr then
        some (.edgeClose a b)
      else none

/-- The warnings of a bank (R52). -/
def findWarnings (bank : Bank) (blades cpr : Nat) : List Warning :=
  stepFineWarnings bank blades cpr ++ edgeCloseWarnings bank blades cpr

/-- The number of gate records in PHASE. -/
def phaseGates (bank : Bank) : Nat := (bank.gates.toList.filter Option.isSome).length

/-- A warning as sent: its code and what it carries (R52; log entry 18). -/
def warningBytes : Warning → List Byte
  | .stepFine p => [1#8, BitVec.ofNat 8 p]
  | .edgeClose a b => [2#8, BitVec.ofNat 8 a.val, BitVec.ofNat 8 b.val]

/-- A warning list as sent (R201). -/
def warningListBytes (ws : List Warning) : List Byte := beNat 1 ws.length ++ ws.flatMap warningBytes

/-- The staged bank held pending, with its warnings (R53). -/
def holdPending (bank : Bank) (s : State) : State :=
  s.setWbk { s.wbk with stagedState := .pending, staged := bank }

/-- The owner's rule of SWAP (R50, R51, R52, R53). -/
def answerSwap (s : State) : Answer :=
  if swapPending s then refuse .busy s
  else
    match s.wbk.workpiece with
    | none => refuse .notReady s
    | some w =>
      match validate s.wbk.staged w.blades with
      | some (reason, i) => refuseWith .invalid (reasonCode reason) (BitVec.ofNat 8 i) s
      | none =>
        let bank := { s.wbk.staged with
          warnings := findWarnings s.wbk.staged w.blades s.enc.settings.cpr }
        accept
          ([stagedStateCode .pending] ++ beNat 1 bank.windows.length ++ beNat 4 (phaseGates bank) ++
            warningListBytes bank.warnings)
          (holdPending bank s)

/-- SWAP (R50). -/
def execSwap (payload : List Byte) (s : State) : Host.Outcome State Fault Refusal :=
  dispatchFixed kindSwap 0 payload answerSwap s

/-- The lead is ARMED. -/
def leadArmed (p : Psc) : Bool :=
  match p.lead with
  | none => false
  | some l => decide (l.phase = .armed)

/-- The owner's rule of SWCN (R54). The OK reply gives EDITING in both its rows (log entry 30). -/
def answerSwcn (s : State) : Answer :=
  if !swapPending s then accept [stagedStateCode .editing] s
  else if leadArmed s.psc ∧ s.wbk.activeState = .empty then refuse .busy s
  else accept [stagedStateCode .editing] (s.setWbk { s.wbk with stagedState := .editing })

/-- SWCN (R54). -/
def execSwcn (payload : List Byte) (s : State) : Host.Outcome State Fault Refusal :=
  dispatchFixed kindSwcn 0 payload answerSwcn s

/-! ### The exchange -/

/-- The number of STEP_FINE warnings of a list. -/
def stepFineCount (ws : List Warning) : Nat :=
  (ws.filter fun w => match w with
    | .stepFine _ => true
    | .edgeClose _ _ => false).length

/-- The number of EDGE_CLOSE warnings of a list. -/
def edgeCloseCount (ws : List Warning) : Nat := ws.length - stepFineCount ws

/-- The banks after an exchange: the pending bank is active with its warnings found again, the former active
bank is staged in EDITING without warnings (R56). -/
def exchangedBanks (w : Wbk) (cpr : Nat) : Wbk :=
  let blades := match w.workpiece with
    | none => 0
    | some p => p.blades
  { w with
    activeState := .active
    active := { w.staged with warnings := findWarnings w.staged blades cpr }
    stagedState := .editing
    staged := { w.active with warnings := [] } }

/-- Exchange the banks, tell GTE and raise SWAP_DONE (R56, R168). -/
def exchange (s : State) : State :=
  let w := exchangedBanks s.wbk s.enc.settings.cpr
  raise (.swapDone w.active.windows.length (stepFineCount w.active.warnings) (edgeCloseCount w.active.warnings))
    (gatesExchange (s.setWbk w))

/-- The lead is IDLE or ARMED (R55). -/
def leadEligible (p : Psc) : Bool :=
  match p.lead with
  | none => true
  | some l => decide (l.phase = .armed)

/-- WBK takes an index crossing handed on with the encoder state `st`; `eligible` is the lead state at the
moment ENC took it (R55). -/
def banksCrossing (eligible : Bool) (st : EncState) (s : State) : State :=
  if eligible && decide (st = .homed) && swapPending s then exchange s else s

end Sys2Proof.Machine
end

