-- ==== Sys2Proof/Machine/Encoder.lean ====
section
/-! DEFINITION. Machine/Encoder.lean: the Encoder Interface (chapter 1): the input filter, quadrature
decoding, counting, the index checks, the order in which ENC hands on what an update did, and the change
of settings, with the commands FILTER_SAMPLE and ACCEPTED_UPDATE. -/

namespace Sys2Proof.Machine

open Sys2Proof

/-! ### The input filter -/

/-- What the filter makes of one line at a sample: the accepted level and whether the line is noted at the
opposite level (R1). A line noted at the previous sample that differs again is accepted. -/
def filterLine (accepted noted level : Bool) : Bool × Bool :=
  if level = accepted then (accepted, false)
  else if noted then (level, false)
  else (accepted, true)

/-- The accepted levels after a sample (R1). -/
def filterAccepted (e : Enc) (l : Lines) : Lines where
  a := (filterLine e.accepted.a e.noted.a l.a).1
  b := (filterLine e.accepted.b e.noted.b l.b).1
  z := (filterLine e.accepted.z e.noted.z l.z).1

/-- The filter history after a sample (R1). -/
def filterNoted (e : Enc) (l : Lines) : Lines where
  a := (filterLine e.accepted.a e.noted.a l.a).2
  b := (filterLine e.accepted.b e.noted.b l.b).2
  z := (filterLine e.accepted.z e.noted.z l.z).2

/-- No line noted. -/
def noLines : Lines := ⟨false, false, false⟩

/-- One filter period in ticks: filter period × 20 ns (R1). -/
def filterTicks (e : Enc) : Nat := e.settings.filterPeriod * 2

/-- The next sample falls one filter period after the one taken now (R1; log entry 13). -/
def afterSample (now : Nat) (e : Enc) : Enc := { e with nextSample := now + filterTicks e }

/-- The first sample after reset sets the accepted levels directly, and the index-armed flag if Z is low
(R1, R6). -/
def firstSample (l : Lines) (e : Enc) : Enc :=
  { e with primed := true, accepted := l, noted := noLines, indexArmed := !l.z }

/-- The sample makes an accepted update: it is not the first, and the filter accepts some new level (R1). -/
def makesUpdate (e : Enc) (l : Lines) : Bool := e.primed && decide (filterAccepted e l ≠ e.accepted)

/-- The sample instant has come (R1). -/
def sampleDue (e : Enc) (now : Nat) : Bool := decide (e.nextSample ≤ now)

/-! ### Quadrature decoding -/

/-- The direction of a change of exactly one of A and B under A_LEADS (R2). -/
def aLeadsDir (before after : Lines) : Dir :=
  match before.a, before.b, after.a, after.b with
  | false, false, true, false => .forward
  | true, false, true, true => .forward
  | true, true, false, true => .forward
  | false, true, false, false => .forward
  | _, _, _, _ => .reverse

/-- The opposite direction. -/
def oppositeDir : Dir → Dir
  | .forward => .reverse
  | .reverse => .forward

/-- The direction of a count under a forward sense (R2). -/
def countDir (sense : Sense) (before after : Lines) : Dir :=
  match sense with
  | .aLeads => aLeadsDir before after
  | .bLeads => oppositeDir (aLeadsDir before after)

/-- What the decoder makes of an accepted update (R2, R3). -/
inductive Decoded where
  | none
  | count (dir : Dir)
  | quadError
  deriving DecidableEq, Repr

/-- Decode the change of A and B (R2, R3). -/
def decodePair (sense : Sense) (before after : Lines) : Decoded :=
  match before.a != after.a, before.b != after.b with
  | false, false => .none
  | true, true => .quadError
  | _, _ => .count (countDir sense before after)

/-! ### Counting -/

/-- The bounds of the revolution number (R4). -/
def revMax : Int := 2147483647

/-- The lower bound of the revolution number (R4). -/
def revMin : Int := -2147483648

/-- The revolution number set to `r`; beyond a bound it is a revolution overrun: the revolution number is 0
and ENC enters FAULT (R4). -/
def setRev (r : Int) (e : Enc) : Enc :=
  if r < revMin ∨ revMax < r then { e with rev := 0, state := .fault } else { e with rev := r }

/-- Setting the revolution number to `r` is a revolution overrun (R4). -/
def overruns (r : Int) : Bool := decide (r < revMin) || decide (revMax < r)

/-- The revolution number that a count gives, before any overrun (R4). -/
def countRev (dir : Dir) (e : Enc) : Int :=
  match dir with
  | .forward => if e.c + 1 < e.settings.cpr then e.rev else e.rev + 1
  | .reverse => if e.c = 0 then e.rev - 1 else e.rev

/-- The turn count that a count gives (R4). -/
def countC (dir : Dir) (e : Enc) : Nat :=
  match dir with
  | .forward => if e.c + 1 < e.settings.cpr then e.c + 1 else 0
  | .reverse => if e.c = 0 then e.settings.cpr - 1 else e.c - 1

/-- ENC after one count (R4). -/
def applyCount (dir : Dir) (e : Enc) : Enc := setRev (countRev dir e) { e with c := countC dir e }

/-! ### The index -/

/-- The index deviation δ of a crossing at turn count c (R7). -/
def indexDeviation (cpr c : Nat) : Int := if 2 * c ≤ cpr then (c : Int) else (c : Int) - cpr

/-- The index deviation record after a crossing (R7). -/
def recordCrossing (dir : Dir) (delta : Int) (outcome : IndexOutcome) (e : Enc) : Enc :=
  { e with lastDeviation := delta, lastDirection := dir, lastOutcome := outcome }

/-- ENC homes at a forward crossing (R8). -/
def home (e : Enc) : Enc :=
  { e with c := 0, uLastIndex := e.rev * e.settings.cpr, state := .homed }

/-- ENC snaps at a crossing within tolerance (R9); a rise past the upper bound is a revolution overrun. -/
def snap (delta : Int) (e : Enc) : Enc :=
  let e := setRev (if delta < 0 then e.rev + 1 else e.rev) { e with c := 0 }
  { e with uLastIndex := encU e, largestSnap := max e.largestSnap delta.natAbs }

/-- An index crossing as ENC hands it on (R7): its direction, δ, its outcome and the encoder state after the
check. -/
structure IndexCrossing where
  dir : Dir
  delta : Int
  outcome : IndexOutcome
  state : EncState
  deriving DecidableEq, Repr

/-- What ENC has done in one update, before anything is handed on. -/
structure EncWork where
  enc : Enc
  notices : List Notice
  crossing : Option IndexCrossing
  leftHomed : Option EndStatus
  deriving DecidableEq, Repr

/-- The index check at a crossing in direction `dir` (R8, R9, R10), after the count has been applied. The
crossing clears the index-armed flag (R6). Homing after a count that overran in HOMED does not take back that ENC left
HOMED (DESIGN CHOICE, log entry 36). -/
def checkCrossing (dir : Dir) (w : EncWork) : EncWork :=
  let e := { w.enc with indexArmed := false }
  let delta := indexDeviation e.settings.cpr e.c
  match e.state with
  | .homed =>
    if delta.natAbs ≤ e.settings.tolerance then
      let overrun := decide (delta < 0) && overruns (e.rev + 1)
      let e := recordCrossing dir delta .snap (snap delta e)
      { w with
        enc := e
        notices := if overrun then w.notices ++ [.encoderFault .overrange] else w.notices
        crossing := some ⟨dir, delta, .snap, e.state⟩
        leftHomed := if overrun then some .encoderFault else w.leftHomed }
    else
      let e := recordCrossing dir delta .slip { e with state := .notHomed }
      { w with
        enc := e
        notices := w.notices ++ [.indexSlip delta]
        crossing := some ⟨dir, delta, .slip, e.state⟩
        leftHomed := some .indexFault }
  | _ =>
    match dir with
    | .forward =>
      let e := recordCrossing dir delta .homing (home e)
      { w with enc := e, crossing := some ⟨dir, delta, .homing, e.state⟩ }
    | .reverse =>
      let e := recordCrossing dir delta .none e
      { w with enc := e, crossing := some ⟨dir, delta, .none, e.state⟩ }

/-- The index is missing: |U − U_last_index| exceeds CPR + tolerance (R11). -/
def indexMissing (e : Enc) : Bool :=
  decide (e.settings.cpr + e.settings.tolerance < (encU e - e.uLastIndex).natAbs)

/-- The missing-index check of a count that is no crossing, made in HOMED (R11). -/
def checkMissing (w : EncWork) : EncWork :=
  if w.enc.state = .homed ∧ indexMissing w.enc = true then
    { w with
      enc := { w.enc with state := .notHomed }
      notices := w.notices ++ [.indexMissing]
      leftHomed := some .indexFault }
  else w

/-- A count in direction `dir` and the check that goes with it (steps 1 to 3 of R13). The count is judged
against the accepted level of Z after the update (R6), in the state that its overrun left (DEDUCED, log entry 14). A
count that overruns in HOMED leaves HOMED, also where the same update then homes (DESIGN CHOICE, log entry 36). -/
def workCount (dir : Dir) (w : EncWork) : EncWork :=
  let overrun := overruns (countRev dir w.enc)
  let wasHomed := decide (w.enc.state = .homed)
  let w := { w with
    enc := applyCount dir w.enc
    notices := if overrun then w.notices ++ [.encoderFault .overrange] else w.notices
    leftHomed := if overrun && wasHomed then some .encoderFault else w.leftHomed }
  if w.enc.accepted.z && w.enc.indexArmed then checkCrossing dir w else checkMissing w

/-- A quadrature error: no count, the error count rises and ENC enters FAULT (R3). -/
def workError (w : EncWork) : EncWork :=
  { w with
    enc := { w.enc with quadErrors := satInc w.enc.quadErrors, state := .fault }
    notices := w.notices ++ [.encoderFault .quadrature]
    leftHomed := if w.enc.state = .homed then some .encoderFault else w.leftHomed }

/-- The index-armed flag is set when the accepted level of Z goes low, after the count of the same update
has been judged (R6). -/
def rearm (before : Lines) (w : EncWork) : EncWork :=
  if before.z && !w.enc.accepted.z then { w with enc := { w.enc with indexArmed := true } } else w

/-- ENC's own work for an accepted update that takes the accepted levels to `after` (R13). -/
def encWork (after : Lines) (e : Enc) : EncWork :=
  let before := e.accepted
  let w : EncWork := { enc := { e with accepted := after }, notices := [], crossing := none, leftHomed := none }
  rearm before
    (match decodePair e.settings.sense before after with
     | .none => w
     | .count dir => workCount dir w
     | .quadError => workError w)

/-! ### Handing on -/

/-- The state change is reported to GTE and PSC: GTE enters SAFE and a running lead ends (R12, R75). -/
def handState (left : Option EndStatus) (s : State) : State :=
  match left with
  | none => s
  | some st => endRunningLead st (enterSafe s)

/-- The direction of a position change (R5). -/
def changeDir (old new : Int) : Dir := if old < new then .forward else .reverse

/-- A position change is handed to GTE and PSC if U changed (R5). GTE takes it first, so the commanded levels
that LAT reads are those after the change (R91). -/
def handPosition (old : Int) (s : State) : State :=
  let new := encU s.enc
  if new = old then s else passPosition new (gatesPosition (changeDir old new) new s)

/-- The index crossing is handed to WBK and PSC (R7, R55, R65). -/
def handCrossing (eligible : Bool) (x : Option IndexCrossing) (s : State) : State :=
  match x with
  | none => s
  | some x => passCrossing x.dir x.delta x.outcome x.state (banksCrossing eligible x.state s)

/-- ENC hands on what its work did: the state change and its notices, the position change, the crossing
(R13). A leaving of HOMED is reported even where the update has homed ENC again (DESIGN CHOICE, log entry 36). -/
def handOn (w : EncWork) (s : State) : State :=
  let eligible := leadEligible s.psc
  let old := encU s.enc
  let s := w.notices.foldl (fun t n => raise n t) (s.setEnc w.enc)
  handCrossing eligible w.crossing (handPosition old (handState w.leftHomed s))

/-- An accepted update is taken whole (R13). -/
def acceptUpdate (l : Lines) (s : State) : State :=
  let e := { s.enc with noted := filterNoted s.enc l }
  handOn (encWork (filterAccepted s.enc l) e) s

/-- ENC with the sample instant moved on. -/
def sampled (s : State) : State := s.setEnc (afterSample s.now s.enc)

/-- FILTER_SAMPLE: a sample with no accepted update sets the accepted levels if it is the first after reset,
and otherwise the filter history (R1). A sample before its instant, or one that makes an accepted update,
is not this event (log entry 13). -/
def execFilterSample (l : Lines) (s : State) : Host.Outcome State Fault Refusal :=
  if !sampleDue s.enc s.now || makesUpdate s.enc l then .next s
  else
    let e := if s.enc.primed then { s.enc with noted := filterNoted s.enc l } else firstSample l s.enc
    .next (sampled (s.setEnc e))

/-- ACCEPTED_UPDATE: a sample at which the filter accepts a new level (R1, R13). A sample before its instant,
or one that makes no accepted update, is not this event (log entry 13). -/
def execAcceptedUpdate (l : Lines) (s : State) : Host.Outcome State Fault Refusal :=
  if sampleDue s.enc s.now && makesUpdate s.enc l then .next (acceptUpdate l (sampled s)) else .next s

/-! ### A change of settings -/

/-- The settings differ in CPR or forward sense (R14). -/
def cprOrSenseChanges (old new : EncSettings) : Bool := decide (old.cpr ≠ new.cpr) || decide (old.sense ≠ new.sense)

/-- ENC with its settings copy renewed (R14): a change of CPR or sense clears c and goes to NOT_HOMED, and a
change of the filter period restarts the sample history (R1). -/
def renewedEnc (new : EncSettings) (e : Enc) : Enc :=
  let e' := { e with
    settings := new
    noted := if e.settings.filterPeriod = new.filterPeriod then e.noted else noLines }
  if cprOrSenseChanges e.settings new then { e' with c := 0, state := .notHomed } else e'

/-- ENC renews its settings copy from the working copy and hands on the state change, if it left HOMED, and
the position change, if U changed (R14). The lead is IDLE whenever settings change, so no pass ends. -/
def renewSettings (s : State) : State :=
  let old := encU s.enc
  let left := decide (s.enc.state = .homed) && cprOrSenseChanges s.enc.settings s.cal.working.enc
  let s := s.setEnc (renewedEnc s.cal.working.enc s.enc)
  handPosition old (if left then enterSafe s else s)

end Sys2Proof.Machine
end

