-- ==== Sys2Proof/Machine/Calibration.lean ====
section
/-! DEFINITION. Machine/Calibration.lean: the Calibration Store (chapter 10): the edits of the working copy,
the program operations and the start-up check, with the commands ENCF, MNTS, CWR, GSAF, CRD, CCMT, CLCK,
CERS and PROGRAM_COMPLETION. -/

namespace Sys2Proof.Machine

open Sys2Proof

/-- The programming state is PROGRAMMING. -/
def programming (s : State) : Bool := s.cal.programming.isSome

/-- An edit of the working copy: its settings are replaced and its origin becomes EDITED (R177). -/
def editWorking (w : Settings) (s : State) : State :=
  s.setCal { s.cal with working := w, origin := .edited }

/-! ### Edits -/

/-- The range of CPR (section 1.7). -/
def cprOk (cpr : Nat) : Bool := decide (1024 ≤ cpr) && decide (cpr ≤ 16777216)

/-- The encoder settings of an ENCF, if CPR and sense are legal, with the clamps of R16. -/
def encfSettings (a : EncfArgs) : Option EncSettings :=
  if cprOk a.cpr then
    (senseOfCode a.sense).map fun sense =>
      { cpr := a.cpr
        sense := sense
        tolerance := clamp 0 255 a.tolerance
        filterPeriod := clamp 1 128 a.filterPeriod }
  else none

/-- The effect of an ENCF taken with OK (R16). -/
def applyEncf (e : EncSettings) (s : State) : State :=
  renewSettings (editWorking { s.cal.working with enc := e } s)

/-- The owner's rule of ENCF (R15, R16). -/
def answerEncf (payload : List Byte) (s : State) : Answer :=
  if s.cal.locked then refuse .locked s
  else if programming s then refuse .busy s
  else if !leadIdle s then refuse .busy s
  else
    match encfSettings (readEncf payload) with
    | none => refuse .badArg s
    | some e =>
      let t := applyEncf e s
      accept (encSettingsBytes e ++ [encStateCode t.enc.state]) t

/-- ENCF (R15). -/
def execEncf (payload : List Byte) (s : State) : Host.Outcome State Fault Refusal :=
  dispatchFixed kindEncf 8 payload (answerEncf payload) s

/-- The largest mount radius (section 10.1). -/
def mountMax : Nat := 100000000

/-- The owner's rule of MNTS (R178). -/
def answerMnts (payload : List Byte) (s : State) : Answer :=
  let a := readMnts payload
  if s.cal.locked then refuse .locked s
  else if programming s then refuse .busy s
  else if !leadIdle s then refuse .busy s
  else if mountMax < a.r0 then refuse .badArg s
  else if a.scale < 32768 ∨ 65536 < a.scale then refuse .badArg s
  else
    let t := editWorking { s.cal.working with r0 := a.r0, scale := a.scale } s
    accept (mountBytes t.cal.working ++ [originCode t.cal.origin]) t

/-- MNTS (R178). -/
def execMnts (payload : List Byte) (s : State) : Host.Outcome State Fault Refusal :=
  dispatchFixed kindMnts 8 payload (answerMnts payload) s

/-- The owner's rule of CWR (R179). -/
def answerCwr (payload : List Byte) (s : State) : Answer :=
  if s.cal.locked then refuse .locked s
  else if programming s then refuse .busy s
  else if !leadIdle s then refuse .busy s
  else
    let t := editWorking { s.cal.working with runout := readCwr payload } s
    accept ([originCode t.cal.origin] ++ beNat 4 256) t

/-- CWR (R179). -/
def execCwr (payload : List Byte) (s : State) : Host.Outcome State Fault Refusal :=
  dispatchFixed kindCwr 512 payload (answerCwr payload) s

/-- Every level code of a GSAF is ON or OFF (R180). -/
def gsafLegal (payload : List Byte) : Bool := gateNumbers.all fun n => (readGsaf payload n).isSome

/-- The eight levels of a GSAF (R180). -/
def gsafLevels (payload : List Byte) : Eight Bool :=
  Eight.ofFn fun n => (readGsaf payload n).getD false

/-- The effect of a GSAF taken with OK (R180, R162). -/
def applyGsaf (levels : Eight Bool) (s : State) : State :=
  safeLevelsChanged (editWorking { s.cal.working with safe := levels } s)

/-- The owner's rule of GSAF (R180). -/
def answerGsaf (payload : List Byte) (s : State) : Answer :=
  if s.cal.locked then refuse .locked s
  else if programming s then refuse .busy s
  else if !gsafLegal payload then refuse .badArg s
  else
    let t := applyGsaf (gsafLevels payload) s
    accept (safeBytes t.cal.working.safe ++ [originCode t.cal.origin, gateModeCode t.gte.mode]) t

/-- GSAF (R180). -/
def execGsaf (payload : List Byte) (s : State) : Host.Outcome State Fault Refusal :=
  dispatchFixed kindGsaf 8 payload (answerGsaf payload) s

/-- The code of the operation in progress; none is 0. -/
def operationByte (p : Option Programming) : Byte :=
  match p with
  | none => 0#8
  | some p => progOpCode p.op

/-- Origin, lock, programming state and operation in progress, as CRD and STAT carry them (R181, R186). -/
def calStateBytes (c : Cal) : List Byte :=
  [originCode c.origin, byteOfBool c.locked, byteOfBool c.programming.isSome, operationByte c.programming]

/-- The owner's rule of CRD (R181). -/
def answerCrd (s : State) : Answer := accept (settingsBytes s.cal.working ++ calStateBytes s.cal) s

/-- CRD (R181). -/
def execCrd (payload : List Byte) (s : State) : Host.Outcome State Fault Refusal :=
  dispatchFixed kindCrd 0 payload answerCrd s

/-! ### Program operations -/

/-- The time within which a program operation completes (R184). -/
def programTicks : Nat := msTicks 40

/-- A program operation begins (R182, R183). -/
def startProgram (op : ProgOp) (s : State) : State :=
  s.setCal { s.cal with programming := some { op := op, deadline := s.now + programTicks } }

/-- The owner's rule of CCMT and CLCK (R182). -/
def answerProgram (op : ProgOp) (s : State) : Answer :=
  if s.cal.locked then refuse .locked s
  else if programming s then refuse .busy s
  else accept [1#8] (startProgram op s)

/-- CCMT (R182). -/
def execCcmt (payload : List Byte) (s : State) : Host.Outcome State Fault Refusal :=
  dispatchFixed kindCcmt 0 payload (answerProgram .ccmt) s

/-- CLCK (R182). -/
def execClck (payload : List Byte) (s : State) : Host.Outcome State Fault Refusal :=
  dispatchFixed kindClck 0 payload (answerProgram .clck) s

/-- The changes that CERS makes at once (R183). -/
def applyCers (s : State) : State :=
  let s := s.setCal { s.cal with working := Settings.default, origin := .defaults, locked := false }
  safeLevelsChanged (renewSettings (startProgram .cers s))

/-- The owner's rule of CERS (R183). -/
def answerCers (s : State) : Answer :=
  if programming s then refuse .busy s
  else if !leadIdle s then refuse .busy s
  else accept [originCode .defaults, 0#8, 1#8] (applyCers s)

/-- CERS (R183). -/
def execCers (payload : List Byte) (s : State) : Host.Outcome State Fault Refusal :=
  dispatchFixed kindCers 0 payload answerCers s

/-- An image whose cells hold what a stopped or failed operation left there, with the complement of the
correct CRC, so that it fails its check (R182, R185; log entry 6). -/
def spoiltImage (n : Nat) : Image where
  settings := Config.spoiltSettings n
  lockBit := Config.spoiltLockBit n
  crc := ~~~imageCrc (Config.spoiltSettings n) (Config.spoiltLockBit n)

/-- An image that holds settings and a lock bit with their CRC (R175, R182). -/
def wholeImage (w : Settings) (lockBit : Bool) : Image where
  settings := w
  lockBit := lockBit
  crc := imageCrc w lockBit

/-- The image that an operation writes (R182, R183). -/
def writtenImage (op : ProgOp) (c : Cal) : Image :=
  match op with
  | .ccmt => wholeImage c.working false
  | .clck => wholeImage c.working true
  | .cers => wholeImage Settings.default false

/-- CAL after an operation has completed with OK (R184). -/
def completedOk (op : ProgOp) (c : Cal) : Cal where
  image := writtenImage op c
  working := c.working
  origin := .stored
  locked := decide (op = .clck)
  programming := none

/-- CAL after an operation has completed with VERIFY_FAIL (R177, R184). -/
def completedFail (n : Nat) (c : Cal) : Cal where
  image := spoiltImage n
  working := c.working
  origin := if c.origin = .stored then .edited else c.origin
  locked := false
  programming := none

/-- The program operation in progress completes with a result, and STORE_DONE is raised (R184). The free values
of this completion are used up, so that the next one has its own (log entries 6 and 7). -/
def completeProgram (op : ProgOp) (result : VerifyResult) (s : State) : State :=
  raise (.storeDone op result)
    (s.setCal
      (match result with
       | .ok => completedOk op s.cal
       | .verifyFail => completedFail s.freeNext s.cal)).useFree

/-- PROGRAM_COMPLETION (R184). With the programming state IDLE no operation completes. -/
def execProgramCompletion (result : VerifyResult) (s : State) : Host.Outcome State Fault Refusal :=
  match s.cal.programming with
  | none => .next s
  | some p => .next (completeProgram p.op result s)

/-! ### Start-up -/

/-- CAL with its image as a reset finds it: an operation that the reset stops leaves the image failing its
check (R185). -/
def stopProgram (s : State) : State :=
  match s.cal.programming with
  | none => s
  | some _ => (s.setCal { s.cal with image := spoiltImage s.freeNext, programming := none }).useFree

/-- CAL after the start-up check of its image (R175). -/
def checkedCal (i : Image) : Cal :=
  if imageOk i then
    { image := i, working := i.settings, origin := .stored, locked := i.lockBit, programming := none }
  else
    { image := i, working := Settings.default, origin := .defaults, locked := false, programming := none }

end Sys2Proof.Machine
end

