-- ==== Sys2Proof/Machine/Resets.lean ====
section
/-! DEFINITION. Machine/Resets.lean: the three resets (R196, R197) as the reset rules of the chapters give
them, with the commands POWER_ON_RESET, PIN_RESET and REQUEST_RESET. -/

namespace Sys2Proof.Machine

open Sys2Proof

/-- Every block takes its reset values, the image is checked and the safe levels are driven (R18, R37, R60,
R84, R106, R127, R144, R160, R174, R175, R186, R200). The pins keep the levels they have as the reset ends,
and the time base goes on. -/
def resetPart (causes : ResetCauses) (s : State) : State :=
  let s := stopProgram s
  let cal := checkedCal s.cal.image
  gatesReset
    { now := s.now
      enc := Enc.reset cal.working.enc s.now
      wbk := Wbk.reset
      psc := Psc.reset
      hold := Hold.reset s.hold.pin
      prb := Prb.reset
      pnt := Pnt.reset
      stack := []
      gte := s.gte
      cal := cal
      lnk := Lnk.reset causes
      freeNext := s.freeNext
      pending := s.pending }

/-- POWER_ON_RESET: the reset-cause set becomes POWER_ON alone (R196). -/
def execPowerOnReset (s : State) : Host.Outcome State Fault Refusal :=
  .next (resetPart ⟨true, false, false⟩ s)

/-- PIN_RESET: PIN is added to the reset-cause set (R196). -/
def execPinReset (s : State) : Host.Outcome State Fault Refusal :=
  .next (resetPart { s.lnk.causes with pin := true } s)

/-- The transmitter is idle, or has sent its record to the end (R193). -/
def txDone (s : State) : Bool :=
  match s.lnk.tx with
  | .idle => true
  | .opening _ _ => false
  | .sending _ e => decide (e ≤ 8 * s.now)

/-- The RSET reply has left the reply slot: the record on the line is that reply, since no request is
dispatched after the RSET (R197). -/
def rsetReplyTaken (s : State) : Bool := s.lnk.rsetTaken && s.lnk.reply.isNone

/-- REQUEST_RESET: the stop bit of the RSET reply's CRC character has been sent; as a pin reset, with REQUEST
added to the reset-cause set (R197). Before that moment no reset begins. -/
def execRequestReset (s : State) : Host.Outcome State Fault Refusal :=
  if rsetReplyTaken s && txDone s then .next (resetPart { s.lnk.causes with request := true } s)
  else .next s

end Sys2Proof.Machine
end

