-- ==== Sys2Proof/Machine/Records.lean ====
section
/-! DEFINITION. Machine/Records.lean: the layouts of the unprompted records (section 11.8). -/

namespace Sys2Proof.Machine

open Sys2Proof

/-- The point record's payload, 29 bytes. -/
def pointBytes (p : PointRecord) : List Byte :=
  beNat 2 p.passId ++ beNat 4 p.sequence ++ beNat 1 p.blade ++ beNat 1 p.window ++ beNat 4 p.j ++
    [pointFlagsByte p.flags] ++ beNat 1 p.attempts ++ [missCauseCode p.lastCause] ++ beNat 1 p.exposure ++
    beNat 3 p.theta ++ beNat 4 p.phase ++ beInt 4 p.radius ++ beNat 2 p.intensity

/-- The twenty counters in the order of the table of R81. -/
def countersList (k : Counters) : List Nat :=
  [k.crossedMain, k.emittedMain, k.emittedRetry, k.blanked, k.held, k.busy, k.missedMain, k.lateMissed,
   k.abandoned, k.retryLost, k.pushes, k.takes, k.overflowLost, k.unresolved, k.void, k.dim, k.range,
   k.timeout, k.skipped, k.full]

/-- The pass summary's payload, 89 bytes (R82). -/
def summaryBytes (m : Summary) : List Byte :=
  beNat 2 m.passId ++ [endStatusCode m.endStatus] ++ beInt 4 m.height ++ beNat 1 m.turnsUsed ++
    beNat 1 m.largestSnap ++ (countersList m.counters).flatMap (beNat 4)

/-- The detail of a notice, before it is filled up with zeros. -/
def noticeDetail : Notice → List Byte
  | .probeFault tag n => [BitVec.ofNat 8 tag.toNat, BitVec.ofNat 8 n]
  | .encoderFault c => [encoderCauseCode c]
  | .indexSlip d => 1#8 :: beInt 4 d
  | .indexMissing => 2#8 :: beInt 4 0
  | .gateFault g st => [BitVec.ofNat 8 g.val, gateStatusCode st]
  | .groupConflict q w o => [BitVec.ofNat 8 q.val, BitVec.ofNat 8 w.val, BitVec.ofNat 8 o.val]
  | .passStart id => beNat 2 id
  | .swapDone w f e => [BitVec.ofNat 8 w, BitVec.ofNat 8 f, BitVec.ofNat 8 e]
  | .storeDone op r => [progOpCode op, verifyCode r]
  | .holdChange a => [byteOfBool a]
  | .linkError c v => [linkCounterCode c, BitVec.ofNat 8 v]

/-- The notice record's payload, 8 bytes: kind, occurrence count and detail, left-aligned (section 11.8). -/
def noticeBytes (k : NoticeKind) (p : Pending) : List Byte :=
  beNat 1 (noticePriority k) ++ beNat 1 p.count ++
    (noticeDetail p.detail ++ List.replicate (6 - (noticeDetail p.detail).length) 0#8)

/-- A record of the point buffer as a frame. -/
def bufferFrame : BufferRecord → Frame
  | .point p => { kind := kindPoint, payload := pointBytes p }
  | .summary m => { kind := kindSummary, payload := summaryBytes m }

/-- A pending notice as a frame. -/
def noticeFrame (k : NoticeKind) (p : Pending) : Frame :=
  { kind := kindNotice, payload := noticeBytes k p }

end Sys2Proof.Machine
end

