-- ==== Sys2Proof/Machine/Link.lean ====
section
/-! DEFINITION. Machine/Link.lean: the Link Port (chapter 11): the receiver, the link error counters, the
transmit arbiter and the link requests, with the commands HOST_FRAME, RECORD_BOUNDARY, UNKNOWN_REQUEST,
IDNT, RSET, CCLR and NMSK. -/

namespace Sys2Proof.Machine

open Sys2Proof

/-! ### Link errors -/

/-- The value of a link error counter. -/
def linkErrorCount (e : LinkErrors) : LinkCounter → Nat
  | .frame => e.frame
  | .crc => e.crc
  | .sync => e.sync
  | .overrun => e.overrun

/-- The counters with one of them replaced. -/
def setLinkError (e : LinkErrors) (c : LinkCounter) (v : Nat) : LinkErrors :=
  match c with
  | .frame => { e with frame := v }
  | .crc => { e with crc := v }
  | .sync => { e with sync := v }
  | .overrun => { e with overrun := v }

/-- The bound of a link error counter (R190). -/
def linkErrorMax : Nat := 15

/-- A link error: below 15 its counter rises and LINK_ERROR is raised; at 15 nothing happens (R190). -/
def linkError (c : LinkCounter) (s : State) : State :=
  let v := linkErrorCount s.lnk.errors c
  if v < linkErrorMax then
    raise (.linkError c (v + 1)) (s.setLnk { s.lnk with errors := setLinkError s.lnk.errors c (v + 1) })
  else s

/-! ### The receiver -/

/-- A low period is a break at a bit time of span/8 ticks: at least 11 bit times (R187). -/
def isBreak (low span : Nat) : Bool := decide (11 * span ≤ 8 * low)

/-- The rate of a measured sync span lies within 57,600 … 4,000,000 bit/s; a bit time is span/8 ticks of
10 ns, so the rate is 800,000,000 / span (R187). -/
def rateOk (span : Nat) : Bool := decide (57600 * span ≤ 800000000) && decide (800000000 ≤ 4000000 * span)

/-- A span differs from 8 locked bit times by no more than one sixteenth of that figure (R187). -/
def syncOk (locked span : Nat) : Bool := decide (16 * ((span : Int) - locked).natAbs ≤ locked)

/-- The sync character (R187). -/
def syncChar : Byte := 0x55#8

/-- LNK with the receiver in a state. -/
def setRx (r : LinkRx) (s : State) : State := s.setLnk { s.lnk with rx := r }

/-- The longest payload (R188). -/
def maxPayload : Nat := 1023

/-- The request buffer holds up to 2 frames (R191). -/
def requestSize : Nat := 2

/-- A frame whose CRC byte has been received: judged by its CRC, then by the room in the request buffer
(R189, R190, R191). -/
def completeFrame (bytes : List Byte) (s : State) : State :=
  let n := fieldNat bytes 1 2
  let f : Frame := { kind := bytes.getD 0 0#8, payload := fieldBytes bytes 3 n }
  if bytes.getD (3 + n) 0#8 ≠ frameCrc f then linkError .crc s
  else if s.lnk.requests.length < requestSize then
    s.setLnk { s.lnk with requests := s.lnk.requests ++ [f] }
  else linkError .overrun s

/-- The receiver in BODY has taken these bytes of the frame (R188). -/
def takeBytes (bytes : List Byte) (s : State) : State :=
  if bytes.length = 3 ∧ maxPayload < fieldNat bytes 1 2 then linkError .frame (setRx .idle s)
  else if 4 ≤ bytes.length ∧ bytes.length = 4 + fieldNat bytes 1 2 then completeFrame bytes (setRx .idle s)
  else setRx (.body bytes) s

/-- The receiver in IDLE (R187): characters are ignored, and a low period takes it to SYNC, when LOCKED only
if it is a break. -/
def rxIdle (item : RxItem) (s : State) : State :=
  match item with
  | .char _ _ => s
  | .low n | .badChar _ _ n =>
    match s.lnk.lock with
    | none => setRx (.sync n) s
    | some l => if isBreak n l then setRx (.sync n) s else s

/-- The receiver in SYNC while UNLOCKED (R187). The item in which a candidate fails is used up: a low period in it does
not also open a frame (DESIGN CHOICE, log entry 35). -/
def rxSyncUnlocked (low : Nat) (item : RxItem) (s : State) : State :=
  match item with
  | .char b span =>
    if b = syncChar ∧ rateOk span = true ∧ isBreak low span = true then
      (setRx (.body []) s).setLnk { (setRx (.body []) s).lnk with lock := some span }
    else setRx .idle s
  | _ => setRx .idle s

/-- The receiver in SYNC while LOCKED (R187). The item in which a candidate fails, a second break among them, is used
up: the receiver is IDLE and that low period does not also open a frame (DESIGN CHOICE, log entry 35). -/
def rxSyncLocked (locked : Nat) (item : RxItem) (s : State) : State :=
  match item with
  | .char b span =>
    if b = syncChar ∧ syncOk locked span = true then setRx (.body []) s
    else linkError .sync (setRx .idle s)
  | _ => linkError .sync (setRx .idle s)

/-- The receiver in BODY (R188): characters are taken; a break is a frame error and opens a new frame; a low
stop bit in a shorter low period is a frame error. -/
def rxBody (locked : Nat) (bytes : List Byte) (item : RxItem) (s : State) : State :=
  match item with
  | .char b _ => takeBytes (bytes ++ [b]) s
  | .low n => if isBreak n locked then linkError .frame (setRx (.sync n) s) else s
  | .badChar _ _ n =>
    if isBreak n locked then linkError .frame (setRx (.sync n) s) else linkError .frame (setRx .idle s)

/-- The receiver takes one thing it measures on HOST_RX (R187, R188). BODY is entered LOCKED only, so the
receiver of an UNLOCKED part in BODY, which no run reaches, takes nothing. -/
def takeRx (s : State) (item : RxItem) : State :=
  match s.lnk.rx with
  | .idle => rxIdle item s
  | .sync low =>
    match s.lnk.lock with
    | none => rxSyncUnlocked low item s
    | some l => rxSyncLocked l item s
  | .body bytes =>
    match s.lnk.lock with
    | none => s
    | some l => rxBody l bytes item s

/-- HOST_FRAME (R188): the receiver takes what it measures, in order. -/
def execHostFrame (items : List RxItem) (s : State) : Host.Outcome State Fault Refusal :=
  .next (items.foldl takeRx s)

/-! ### The transmitter -/

/-- The bit times from a record boundary to the record's first character: a break of 13 and 1 high (R193). -/
def openingBits : Nat := 14

/-- The bit times that the characters of a record take, 10 each (section 11.1, R193). -/
def characterBits (f : Frame) : Nat := 10 * (frameCharacters f).length

/-- The arbiter's choice (R193): the reply, then the pending unmasked notice of highest priority, then the head
of the point buffer. -/
def chosenSource (s : State) : Option RecordSource :=
  if s.lnk.reply.isSome then some .reply
  else
    match selectedKind s.lnk.notices s.lnk.mask with
    | some k => some (.notice k)
    | none => if s.pnt.buffer.isEmpty then none else some .buffer

/-- The frame of the record that stands at a source (R193, R194). -/
def sourceFrame (src : RecordSource) (s : State) : Option Frame :=
  match src with
  | .reply => s.lnk.reply
  | .notice k => (noticeSlot s.lnk.notices k).map (noticeFrame k)
  | .buffer => s.pnt.buffer.head?.map bufferFrame

/-- The record leaves its source: the reply slot empties, the notice's flag and count are cleared, or the
record leaves the point buffer (R141, R193). -/
def leaveSource (src : RecordSource) (s : State) : State :=
  match src with
  | .reply => s.setLnk { s.lnk with reply := none }
  | .notice k => s.setLnk { s.lnk with notices := setNoticeSlot s.lnk.notices k none }
  | .buffer => s.setPnt { s.pnt with buffer := s.pnt.buffer.tail }

/-- LNK with the transmitter in a state. -/
def setTx (x : LinkTx) (s : State) : State := s.setLnk { s.lnk with tx := x }

/-- At a record boundary the break of the record chosen begins; with none the transmitter stays idle (R193). -/
def openRecord (span : Nat) (s : State) : State :=
  match chosenSource s with
  | some src => setTx (.opening src (8 * s.now + openingBits * span)) s
  | none => setTx .idle s

/-- The first character of the record at `src` begins at `first`, in eighths of a tick, at the locked bit time:
the record is made up as it then stands and leaves its source (R193, R194; log entry 28). -/
def beginRecord (src : RecordSource) (first : Nat) (s : State) : State :=
  match s.lnk.lock, sourceFrame src s with
  | some span, some f => setTx (.sending f (first + characterBits f * span)) (leaveSource src s)
  | _, _ => setTx .idle s

/-- The record whose break is on the line begins, once the moment of its first character has come (R193). -/
def startCharacters (s : State) : State :=
  match s.lnk.tx with
  | .opening src first => if first ≤ 8 * s.now then beginRecord src first s else s
  | _ => s

/-- RECORD_BOUNDARY (R193): the transmitter is LOCKED and idle, or has sent the last character of its record.
The end of the RSET reply is the start of the reset and no boundary (log entry 20). -/
def execRecordBoundary (s : State) : Host.Outcome State Fault Refusal :=
  match s.lnk.lock with
  | none => .next s
  | some span => if txDone s && !rsetReplyTaken s then .next (openRecord span s) else .next s

/-! ### Link requests -/

/-- UNKNOWN_REQUEST (R192): the reply has kind 0x80 and carries the kind received; its second detail byte is 0
(log entry 19). A kind that is one of the 24 request kinds is not this command. -/
def execUnknownRequest (kind : Byte) (payload : List Byte) (s : State) : Host.Outcome State Fault Refusal :=
  if !isRequestKind kind && dispatchable { kind := kind, payload := payload } s then
    let s := takeRequest s
    .next (placeReply 0x80#8 (refuseWith .unknown kind 0#8 s))
  else .next s

/-- The owner's rule of IDNT (R196): the family, model and revision, the origin and the lock, and the
reset-cause set, which is then emptied. -/
def answerIdnt (s : State) : Answer :=
  accept [0x2C#8, 0x03#8, 0x01#8, originCode s.cal.origin, byteOfBool s.cal.locked, causesByte s.lnk.causes]
    (s.setLnk { s.lnk with causes := ⟨false, false, false⟩ })

/-- IDNT (R196). -/
def execIdnt (payload : List Byte) (s : State) : Host.Outcome State Fault Refusal :=
  dispatchFixed kindIdnt 0 payload answerIdnt s

/-- The owner's rule of RSET (R197). -/
def answerRset (s : State) : Answer := accept [] (s.setLnk { s.lnk with rsetTaken := true })

/-- RSET (R197). -/
def execRset (payload : List Byte) (s : State) : Host.Outcome State Fault Refusal :=
  dispatchFixed kindRset 0 payload answerRset s

/-- The four link error counters as sent (log entry 18). -/
def linkErrorBytes (e : LinkErrors) : List Byte :=
  beNat 1 e.frame ++ beNat 1 e.crc ++ beNat 1 e.sync ++ beNat 1 e.overrun

/-- The owner's rule of CCLR (R199). -/
def answerCclr (s : State) : Answer :=
  accept (linkErrorBytes s.lnk.errors ++ beNat 4 s.prb.orphans ++ beNat 4 s.prb.checkFails)
    ((s.setLnk { s.lnk with errors := ⟨0, 0, 0, 0⟩ }).setPrb { s.prb with orphans := 0, checkFails := 0 })

/-- CCLR (R199). -/
def execCclr (payload : List Byte) (s : State) : Host.Outcome State Fault Refusal :=
  dispatchFixed kindCclr 0 payload answerCclr s

/-- The pending flag and occurrence count of each kind, kind by kind in priority order: so R195 words the NMSK reply;
for the STAT section of R198 the same layout is a DESIGN CHOICE (log entry 18). -/
def noticeStateBytes (n : Notices) : List Byte :=
  noticeKinds.flatMap fun k => byteOfBool (noticeSlot n k).isSome :: beNat 1 (noticeCount n k)

/-- The owner's rule of NMSK (R195); bits 10 … 15 are disregarded and echoed as 0. -/
def answerNmsk (payload : List Byte) (s : State) : Answer :=
  let mask := BitVec.ofNat 10 (fieldNat payload 0 2)
  accept (beNat 2 mask.toNat ++ noticeStateBytes s.lnk.notices) (s.setLnk { s.lnk with mask := mask })

/-- NMSK (R195). -/
def execNmsk (payload : List Byte) (s : State) : Host.Outcome State Fault Refusal :=
  dispatchFixed kindNmsk 2 payload (answerNmsk payload) s

end Sys2Proof.Machine
end

