-- ==== Sys2Proof/Machine/Stat.lean ====
section
/-! DEFINITION. Machine/Stat.lean: the STAT reply (R198), section by section, at the widths of section 11.8
and R201 (log entry 18), and the command STAT. -/

namespace Sys2Proof.Machine

open Sys2Proof

/-- A value that may be absent: a presence byte, then the value at its width, sent as 0 when absent (R201). -/
def optBytes (width : Nat) (v : Option (List Byte)) : List Byte :=
  match v with
  | none => 0#8 :: List.replicate width 0#8
  | some bs => 1#8 :: bs

/-- A list: its number of entries, then each entry (R201). -/
def listBytes {α : Type} (f : α → List Byte) (l : List α) : List Byte := beNat 1 l.length ++ l.flatMap f

/-- A section of STAT: its number, its length and its items (R198, R201). -/
def statSection (n : Nat) (items : List Byte) : List Byte := beNat 1 n ++ beNat 2 items.length ++ items

/-- Section 1: ENC (R17). The largest snap takes 1 byte, as that of the pass summary does (log entry 18). -/
def statEnc (s : State) : List Byte :=
  let e := s.enc
  [encStateCode e.state] ++ beInt 4 e.c ++ beInt 4 e.rev ++ beInt 8 (encU e) ++
    [byteOfBool e.accepted.a, byteOfBool e.accepted.b, byteOfBool e.accepted.z] ++
    beInt 4 e.lastDeviation ++ [dirCode e.lastDirection, indexOutcomeCode e.lastOutcome] ++
    beNat 1 e.largestSnap ++ beNat 4 e.quadErrors ++ encSettingsBytes e.settings

/-- The rounding mode of STAT's runout correction: the lead's, or CHOP with the lead IDLE (R27). -/
def statRounding (s : State) : Rounding :=
  match s.psc.lead with
  | none => .chop
  | some l => l.ctx.settings.rounding

/-- Codes of the cases of R30. -/
def trimCaseCode : TrimCase → Byte
  | .before => 0#8
  | .within => 1#8
  | .after => 2#8

/-- Section 2: ANG at ENC's current turn count (R38). -/
def statAng (s : State) : List Byte :=
  let theta := tableAngle s.enc.settings.cpr s.enc.c
  let rho := runoutCorrection s.cal.working.runout (statRounding s) theta
  let w := s.wbk.workpiece
  let nom := w.map fun w => nominal w theta
  let tr := w.map fun w => trimmed w (nominal w theta)
  [byteOfBool w.isSome] ++
    optBytes 1 (w.map fun w => beNat 1 w.blades) ++ optBytes 3 (w.map fun w => beNat 3 w.datum) ++
    beNat 3 theta ++ beInt 4 rho ++ [roundingCode (statRounding s)] ++
    optBytes 1 (nom.map fun n => beNat 1 n.blade) ++ optBytes 4 (nom.map fun n => beNat 4 n.phase) ++
    optBytes 1 (w.map fun w => [trimCaseCode (trimCase w (nominal w theta))]) ++
    optBytes 1 (tr.map fun t => beNat 1 t.blade) ++ optBytes 4 (tr.map fun t => beNat 4 t.phase) ++
    optBytes 4 (w.map fun w => beNat 4 (pitchLength w (trimmed w (nominal w theta)).blade))

/-- A bank's counts and warning list (R59). -/
def bankBytes (b : Bank) : List Byte :=
  beNat 1 b.windows.length ++ beNat 4 (phaseGates b) ++ warningListBytes b.warnings

/-- Section 3: WBK (R59). -/
def statWbk (s : State) : List Byte :=
  [activeStateCode s.wbk.activeState] ++ bankBytes s.wbk.active ++
    [stagedStateCode s.wbk.stagedState] ++ bankBytes s.wbk.staged

/-- The stall time remaining in ms, whole milliseconds; 0 when the timer is stopped (R83; log entry 18). -/
def stallRemaining (s : State) : Nat :=
  match s.psc.stall with
  | none => 0
  | some t => (t - s.now) / msTicks 1

/-- A draining context as STAT lists it (R83). -/
def drainBytes (c : PassCtx) : List Byte :=
  beNat 2 c.settings.passId ++ [endStatusCode c.endStatus] ++ beNat 4 c.mainInFlight ++ beNat 4 c.retryInFlight

/-- Section 4: PSC (R83). An ARMED lead is given U_start and H as its context holds them, and a progress that
does not fit its 4 bytes is sent mod 2^32 (log entry 31). The current turn is sent in 4 bytes, as a count, since R201
names no width for a turn number (DESIGN CHOICE, log entry 18). -/
def statPsc (s : State) : List Byte :=
  let c := s.psc.lead.map Lead.ctx
  [leadCode s.psc.lead] ++
    optBytes 2 (c.map fun c => beNat 2 c.settings.passId) ++
    optBytes 4 (c.map fun c => beNat 4 c.turn) ++
    optBytes 8 (c.map fun c => beInt 8 c.uStart) ++
    optBytes 4 (c.map fun c => beInt 4 c.highWater) ++
    optBytes 4 (c.map fun c => beInt 4 (encU s.enc - c.uStart)) ++
    optBytes 4 (c.map fun _ => beNat 4 (stallRemaining s)) ++
    optBytes 4 (c.map fun c => beNat 4 c.mainInFlight) ++
    optBytes 4 (c.map fun c => beNat 4 c.retryInFlight) ++
    (countersList (match c with
      | none => Counters.zero
      | some c => c.counters)).flatMap (fun v => optBytes 4 (c.map fun _ => beNat 4 v)) ++
    listBytes drainBytes s.psc.drain ++ beNat 4 (summariesOwed s.psc)

/-- Section 5: the HOLD input (R105). -/
def statHold (s : State) : List Byte :=
  [holdSenseCode s.hold.sense, byteOfBool s.hold.qualified, byteOfBool s.hold.active]

/-- The microseconds since a time, saturating at the bound of a 32-bit count (R126). A part of a microsecond is left
out (DESIGN CHOICE, log entry 18); a time that lies ahead, as that of a waiting trigger frame does, gives 0 (log
entry 33). -/
def usSince (now t : Nat) : Nat := min ((now - t) / usTicks 1) counterMax

/-- An in-flight entry as STAT lists it (R126). -/
def tagBytes (now : Nat) (e : TagEntry) : List Byte :=
  beNat 1 e.tag.toNat ++ beNat 2 e.passId ++ [tagOriginCode e.origin] ++ beNat 4 (usSince now e.fireTime)

/-- Section 6: PRB (R126). -/
def statPrb (s : State) : List Byte :=
  let p := s.prb
  [probeStateCode p.state] ++ beNat 2 p.tmin ++ beNat 2 p.tr ++ beNat 1 p.nextTag.toNat ++
    optBytes 4 (p.lastTrigger.map fun t => beNat 4 (usSince s.now t)) ++
    beNat 4 p.timeouts ++ beNat 4 p.orphans ++ beNat 4 p.checkFails ++ listBytes (tagBytes s.now) p.queue

/-- A record of the point buffer is a summary. -/
def isSummary : BufferRecord → Bool
  | .point _ => false
  | .summary _ => true

/-- Section 7: PNT (R143). -/
def statPnt (s : State) : List Byte :=
  beNat 4 s.pnt.buffer.length ++ beNat 4 (s.pnt.buffer.filter isSummary).length ++
    beNat 4 (summariesOwed s.psc) ++ beNat 4 (bufferSize - bufferLoad s) ++ beNat 4 s.pnt.largest

/-- A miss entry as STAT lists it (R159). -/
def missBytes (m : MissEntry) : List Byte :=
  beNat 1 m.blade ++ beNat 1 m.window ++ beNat 4 m.j ++ [byteOfBool m.overlap, missCauseCode (some m.cause)] ++
    beNat 1 m.attempts

/-- Section 8: MSK (R159). -/
def statMsk (s : State) : List Byte := beNat 4 s.stack.length ++ listBytes missBytes s.stack

/-- A gate as STAT shows it (R172). -/
def gateBytes (g : Gate) : List Byte :=
  [byteOfBool g.driven, dueStateCode g.due, byteOfBool g.waiting, gateStatusCode g.status, byteOfBool g.sense,
   byteOfBool g.qual.isSome]

/-- Section 9: GTE (R172). -/
def statGte (s : State) : List Byte :=
  [gateModeCode s.gte.mode] ++ s.gte.gates.toList.flatMap gateBytes ++
    optBytes 5 (s.gte.last.map fun p => beNat 1 p.blade ++ beNat 4 p.phase) ++ beNat 4 s.gte.conflicts

/-- Section 10: CAL (R186). -/
def statCal (s : State) : List Byte := calStateBytes s.cal

/-- Section 11: LNK (R198). An UNLOCKED part has no locked bit time (R187), so its span is a value that may be absent
(R201), of 4 bytes; the flags and counts are as noticeStateBytes lays them out (log entry 18). -/
def statLnk (s : State) : List Byte :=
  let n := s.lnk
  [byteOfBool n.lock.isSome] ++ optBytes 4 (n.lock.map (beNat 4)) ++ linkErrorBytes n.errors ++
    beNat 4 n.requests.length ++ beNat 2 n.mask.toNat ++ noticeStateBytes n.notices ++ [causesByte n.causes]

/-- The content of the STAT reply (R198). -/
def statBytes (s : State) : List Byte :=
  statSection 1 (statEnc s) ++ statSection 2 (statAng s) ++ statSection 3 (statWbk s) ++
    statSection 4 (statPsc s) ++ statSection 5 (statHold s) ++ statSection 6 (statPrb s) ++
    statSection 7 (statPnt s) ++ statSection 8 (statMsk s) ++ statSection 9 (statGte s) ++
    statSection 10 (statCal s) ++ statSection 11 (statLnk s)

/-- The owner's rule of STAT (R198). -/
def answerStat (s : State) : Answer := accept (statBytes s) s

/-- STAT (R198). -/
def execStat (payload : List Byte) (s : State) : Host.Outcome State Fault Refusal :=
  dispatchFixed kindStat 0 payload answerStat s

end Sys2Proof.Machine
end

