-- ==== Sys2Proof/Machine/Dispatch.lean ====
section
/-! DEFINITION. Machine/Dispatch.lean: one arm for each command, in the order of spec/opcode_table.json. -/

namespace Sys2Proof.Machine

open Sys2Proof

/-- The effect of a command on everything but the queue of waiting commands. -/
def exec (i : Instr) (s : State) : Host.Outcome State Fault Refusal :=
  match i with
  | .powerOnReset => Sys2Proof.Machine.execPowerOnReset s
  | .pinReset => Sys2Proof.Machine.execPinReset s
  | .requestReset => Sys2Proof.Machine.execRequestReset s
  | .acceptedUpdate l => Sys2Proof.Machine.execAcceptedUpdate l s
  | .stallExpiry => Sys2Proof.Machine.execStallExpiry s
  | .holdPinChange level => Sys2Proof.Machine.execHoldPinChange level s
  | .holdQualified => Sys2Proof.Machine.execHoldQualified s
  | .reading chars => Sys2Proof.Machine.execReading chars s
  | .readingGapTimeout => Sys2Proof.Machine.execReadingGapTimeout s
  | .tagTimeout => Sys2Proof.Machine.execTagTimeout s
  | .triggerFrameStart => Sys2Proof.Machine.execTriggerFrameStart s
  | .loadSenseChange gate level => Sys2Proof.Machine.execLoadSenseChange gate level s
  | .qualificationExpiry => Sys2Proof.Machine.execQualificationExpiry s
  | .programCompletion result => Sys2Proof.Machine.execProgramCompletion result s
  | .hostFrame items => Sys2Proof.Machine.execHostFrame items s
  | .recordBoundary => Sys2Proof.Machine.execRecordBoundary s
  | .unknownRequest kind payload => Sys2Proof.Machine.execUnknownRequest kind payload s
  | .idnt payload => Sys2Proof.Machine.execIdnt payload s
  | .rset payload => Sys2Proof.Machine.execRset payload s
  | .stat payload => Sys2Proof.Machine.execStat payload s
  | .cclr payload => Sys2Proof.Machine.execCclr payload s
  | .nmsk payload => Sys2Proof.Machine.execNmsk payload s
  | .encf payload => Sys2Proof.Machine.execEncf payload s
  | .mnts payload => Sys2Proof.Machine.execMnts payload s
  | .cwr payload => Sys2Proof.Machine.execCwr payload s
  | .crd payload => Sys2Proof.Machine.execCrd payload s
  | .gsaf payload => Sys2Proof.Machine.execGsaf payload s
  | .ccmt payload => Sys2Proof.Machine.execCcmt payload s
  | .clck payload => Sys2Proof.Machine.execClck payload s
  | .cers payload => Sys2Proof.Machine.execCers payload s
  | .wkld payload => Sys2Proof.Machine.execWkld payload s
  | .stcl payload => Sys2Proof.Machine.execStcl payload s
  | .stwn payload => Sys2Proof.Machine.execStwn payload s
  | .stgt payload => Sys2Proof.Machine.execStgt payload s
  | .swap payload => Sys2Proof.Machine.execSwap payload s
  | .swcn payload => Sys2Proof.Machine.execSwcn payload s
  | .hold payload => Sys2Proof.Machine.execHold payload s
  | .gclr payload => Sys2Proof.Machine.execGclr payload s
  | .prbf payload => Sys2Proof.Machine.execPrbf payload s
  | .armp payload => Sys2Proof.Machine.execArmp payload s
  | .abrt payload => Sys2Proof.Machine.execAbrt payload s
  | .filterSample l => Sys2Proof.Machine.execFilterSample l s

end Sys2Proof.Machine
end

