-- ==== Sys2Proof/Machine/Tick.lean ====
section
/-! DEFINITION. Machine/Tick.lean: what one tick of the internal time base brings about: the record whose first
character is due begins, and the events that fall due are posted (log entries 2 and 28). -/

namespace Sys2Proof.Machine

open Sys2Proof

/-- An event, if it is due. -/
def eventIf (due : Bool) (i : Instr) : List Instr := if due then [i] else []

/-- The stall timer has expired (R71). -/
def stallDue (s : State) : Bool :=
  match s.psc.stall with
  | none => false
  | some t => decide (t ≤ s.now)

/-- The entries at the head of the queue that have expired (R117). -/
def expiredHeads (s : State) : List TagEntry := s.prb.queue.takeWhile (expired s.prb s.now)

/-- The waiting trigger frame is due to begin (R108). -/
def waitingDue (s : State) : Bool :=
  match s.prb.waiting with
  | none => false
  | some f => decide (f.start ≤ s.now)

/-- The reading receiver's gap has passed and no character has begun within it (R112; log entry 12). -/
def gapDue (s : State) : Bool := gapPassed s.prb s.now

/-- Some gate's qualification has expired (R170). -/
def qualDue (s : State) : Bool := s.gte.gates.toList.any (qualExpired s.now)

/-- A program operation has used up its time (R184). -/
def programDue (s : State) : Bool :=
  match s.cal.programming with
  | none => false
  | some p => decide (p.deadline ≤ s.now)

/-- The free result of an operation that has used up its time (log entry 7). -/
def freeVerify (n : Nat) : VerifyResult := if Config.cellsVerify n then .ok else .verifyFail

/-- A record is on the line. -/
def txBusy (s : State) : Bool := decide (s.lnk.tx ≠ .idle)

/-- A record boundary occurs (R193). -/
def boundaryDue (s : State) : Bool :=
  s.lnk.lock.isSome && txDone s && !rsetReplyTaken s && (txBusy s || (chosenSource s).isSome)

/-- The RSET reply has been sent (R197). -/
def resetDue (s : State) : Bool := rsetReplyTaken s && txDone s

/-- The dispatch of the oldest frame of the request buffer, when LNK may dispatch (R191, R197). -/
def dispatchDue (s : State) : List Instr :=
  match s.lnk.requests with
  | [] => []
  | f :: _ => eventIf (s.lnk.reply.isNone && !s.lnk.rsetTaken) (requestOfFrame f)

/-- The events that are due now (log entry 2). -/
def dueEvents (s : State) : List Instr :=
  eventIf (resetDue s) .requestReset ++ eventIf (stallDue s) .stallExpiry ++
    eventIf (holdDue s) .holdQualified ++ eventIf (gapDue s) .readingGapTimeout ++
    (expiredHeads s).map (fun _ => .tagTimeout) ++ eventIf (waitingDue s) .triggerFrameStart ++
    eventIf (qualDue s) .qualificationExpiry ++
    eventIf (programDue s) (.programCompletion (freeVerify s.freeNext)) ++
    eventIf (boundaryDue s) .recordBoundary ++ dispatchDue s

/-- One tick of the time base: time goes on, the record whose first character is due begins (log entry 28), and
the events that are then due wait in the queue (log entry 2). -/
def tick (s : State) : State :=
  let t := startCharacters (s.setNow (s.now + 1))
  t.setPending (dueEvents t)

end Sys2Proof.Machine
end

