-- ==== Sys2Proof/Safety.lean ====
section
/-! DEFINITION. Safety.lean: what a safe run of the TA-3 is, in the terms that claims use: the state
invariants that the rules state for every moment. -/

namespace Sys2Proof.Machine

open Sys2Proof

/-- The turn count lies in 0 … CPR−1 and the revolution number in its bounds (R4). -/
def positionOk (s : State) : Prop :=
  s.enc.c < s.enc.settings.cpr ∧ revMin ≤ s.enc.rev ∧ s.enc.rev ≤ revMax

/-- ENC's settings copy equals the working copy's encoder fields, with a CPR that ENC accepts, and an image that
passes its check holds such a CPR too (R14, R175). -/
def settingsOk (s : State) : Prop :=
  s.enc.settings = s.cal.working.enc ∧ cprOk s.enc.settings.cpr = true ∧
    (imageOk s.cal.image = true → cprOk s.cal.image.settings.enc.cpr = true)

/-- In RUN, ENC is HOMED (R161). -/
def runHomed (s : State) : Prop := s.gte.mode = .run → s.enc.state = .homed

/-- At most one gate of each exclusion group is driven ON (R166). -/
def groupsExclusive (s : State) : Prop :=
  ∀ m n : Fin 8, ∀ q : Fin 4,
    gateGroup s.wbk.active m = some q → gateGroup s.wbk.active n = some q →
      (s.gte.gates.get m).driven = true → (s.gte.gates.get n).driven = true → m = n

/-- A SHORT gate is driven OFF (R170). -/
def shortGatesOff (s : State) : Prop :=
  ∀ n : Fin 8, (s.gte.gates.get n).status = .short → (s.gte.gates.get n).driven = false

/-- Records held plus summaries owed never exceed 1,024 (R139). -/
def bufferBounded (s : State) : Prop := bufferLoad s ≤ bufferSize

/-- The drain list holds at most 4 contexts, and at most 3 while there is a lead (R78). -/
def drainBounded (s : State) : Prop := summariesOwed s.psc ≤ 4

/-- The stack holds at most 16 entries, no two with one key (R146, R149). -/
def stackOk (s : State) : Prop :=
  s.stack.length ≤ stackSize ∧ s.stack.Pairwise (fun a b => sameKey a b = false)

/-- The in-flight queue holds at most 4 entries (R109). -/
def queueBounded (s : State) : Prop := s.prb.queue.length ≤ queueSize

/-- The link error counters stay within 0 … 15 (R190) and the request buffer within 2 frames (R191). -/
def linkBounded (s : State) : Prop :=
  s.lnk.errors.frame ≤ linkErrorMax ∧ s.lnk.errors.crc ≤ linkErrorMax ∧ s.lnk.errors.sync ≤ linkErrorMax ∧
    s.lnk.errors.overrun ≤ linkErrorMax ∧ s.lnk.requests.length ≤ requestSize

/-- The stack is empty while the lead is IDLE or ARMED (R154). -/
def stackOwned (s : State) : Prop := leadEligible s.psc = true → s.stack = []

/-- The two in-flight counts of a context are the numbers of queue entries with its ID, split by origin (R61). -/
def countsMatch (q : List TagEntry) (c : PassCtx) : Prop :=
  c.mainInFlight = q.countP (fun e => e.passId == c.settings.passId && decide (e.origin ≠ .retry)) ∧
    c.retryInFlight = q.countP (fun e => e.passId == c.settings.passId && decide (e.origin = .retry))

/-- The contexts that PSC holds: the lead's and those of the drain list. -/
def contexts (p : Psc) : List PassCtx := (p.lead.map Lead.ctx).toList ++ p.drain

/-- Every context's in-flight counts match the queue, no two contexts have one ID, and every queue entry names a
context (R61, R62, R128). -/
def inFlightOk (s : State) : Prop :=
  (∀ c ∈ contexts s.psc, countsMatch s.prb.queue c) ∧
    (contexts s.psc).Pairwise (fun a b => a.settings.passId ≠ b.settings.passId) ∧
    ∀ e ∈ s.prb.queue, ∃ c ∈ contexts s.psc, c.settings.passId = e.passId

/-- The number of tags issued after the one of entry `e`, while fewer than 16 have been (R109). -/
def issuedAfter (s : State) (e : TagEntry) : Nat := (s.prb.nextTag - 1#4 - e.tag).toNat

/-- The number of draining passes behind the pass `id` in the drain list; none are behind the lead. -/
def passesBehind (p : Psc) (id : Nat) : Nat :=
  if leadIs id p = true then 0 else (p.drain.reverse.takeWhile fun c => c.settings.passId != id).length

/-- The entries of the in-flight queue carry different tags, in the order in which they were issued, and their fire times
rise from head to tail up to the time of the last trigger frame (R109, R110). Of the tags issued after an entry, those
that are no longer in flight were abandoned with a pass that drains behind the entry's own, at most three to a pass; in
FAULT the queue is empty (R109, R121). -/
def tagsOk (s : State) : Prop :=
  (s.prb.state = .fault → s.prb.queue = []) ∧
  s.prb.queue.Pairwise (fun e y => e.tag ≠ y.tag ∧ issuedAfter s y < issuedAfter s e ∧ e.fireTime < y.fireTime) ∧
  (∀ e ∈ s.prb.queue, ∃ last, s.prb.lastTrigger = some last ∧ e.fireTime ≤ last) ∧
  ∀ i e, s.prb.queue[i]? = some e →
    issuedAfter s e + i + 1 ≤ s.prb.queue.length + 3 * passesBehind s.psc e.passId

/-- The identity of R156, for a context whose crossed_main has not saturated. -/
def mainBalanced (c : PassCtx) : Prop :=
  let k := c.counters
  k.crossedMain < counterMax →
    k.crossedMain = k.emittedMain + k.blanked + k.held + k.busy + k.missedMain + k.lateMissed + k.abandoned +
      c.mainInFlight

/-- The identity of R157 with `left` entries left on the stack or counted in unresolved, for a context whose
pushes has not saturated. -/
def stackBalanced (k : Counters) (left : Nat) : Prop :=
  k.pushes < counterMax → k.pushes = k.takes + k.overflowLost + left

/-- R157 for the lead, whose entries stand on the stack, and for every draining context. -/
def stackAccounted (s : State) : Prop :=
  (∀ l, s.psc.lead = some l → stackBalanced l.ctx.counters s.stack.length ∧ l.ctx.counters.unresolved = 0) ∧
    ∀ c ∈ s.psc.drain, stackBalanced c.counters c.counters.unresolved

/-- The keys of the lead's misses: those of the stack's entries and those of its tags in flight (R145, R149). -/
def leadKeys (s : State) (l : Lead) : List (Nat × Nat × Nat × Bool) :=
  s.stack.map (fun m => (m.blade, m.window, m.j, m.overlap)) ++
    (s.prb.queue.filter fun e => e.passId == l.ctx.settings.passId).map fun e => (e.blade, e.window, e.j, e.overlap)

/-- For each key of the lead, the stack entry and the tag in flight are exclusive, and its point was crossed in the
main span at a position that the high-water has reached, with the overlap marker of that position (R67, R149); an ARMED
lead has none. -/
def keysExclusive (s : State) : Prop :=
  ∀ l, s.psc.lead = some l →
    let cpr := s.enc.settings.cpr
    l.ctx.settings.overlap ≤ cpr ∧ (leadKeys s l).Nodup ∧ (l.phase = .armed → leadKeys s l = []) ∧
    ∀ b i j o, (b, i, j, o) ∈ leadKeys s l → ∃ (p : Nat) (pt : CrossedPoint),
      1 ≤ p ∧ p ≤ l.ctx.highWater ∧ p ≤ cpr + l.ctx.settings.overlap ∧ o = decide (cpr < p) ∧
      pt ∈ crossedAt s (l.ctx.uStart + p) ∧ pt.blade = b ∧ pt.index = i ∧ pt.j = j

/-- The two lines of R158, with the retry re-pushes for which it has no counter, for a context whose pushes has not
saturated. -/
def retryBalanced (c : PassCtx) : Prop :=
  let k := c.counters
  k.pushes < counterMax → ∃ repushed,
    k.pushes = k.held + k.busy + k.missedMain + repushed ∧
    k.takes = k.emittedRetry + k.retryLost + c.retryInFlight + repushed

/-! ### Requests, as claims speak of them -/

/-- LNK may dispatch a request of this kind and payload: it is the oldest frame of the request buffer, the reply
slot is empty and no RSET has been taken (R191, R197). -/
def CanDispatch (kind : Byte) (payload : List Byte) (s : State) : Prop :=
  s.lnk.reply = none ∧ s.lnk.rsetTaken = false ∧ s.lnk.requests.head? = some { kind := kind, payload := payload }

/-- LNK once the oldest request has been answered with a reply of this kind and payload (R191, R192). -/
def answered (n : Lnk) (kind : Byte) (payload : List Byte) : Lnk :=
  { n with requests := n.requests.tail, reply := some { kind := kind, payload := payload } }

/-- The fixed payload length of a request kind, as the table of section 11.8 gives it; WKLD has none. -/
def fixedLength (kind : Nat) : Option Nat :=
  match kind with
  | 0x05 => some 2
  | 0x06 => some 8
  | 0x07 => some 8
  | 0x08 => some 512
  | 0x0A => some 8
  | 0x0E => none
  | 0x10 => some 19
  | 0x11 => some 17
  | 0x14 => some 1
  | 0x15 => some 1
  | 0x16 => some 4
  | 0x17 => some 24
  | k => if 1 ≤ k ∧ k ≤ 24 then some 0 else none

/-- The RSET reply has left the reply slot and has been sent to its end (R197). -/
def rsetReplySent (s : State) : Prop :=
  s.lnk.rsetTaken = true ∧ s.lnk.reply = none ∧
    (s.lnk.tx = .idle ∨ ∃ f e, s.lnk.tx = .sending f e ∧ e ≤ 8 * s.now)

/-- A command is a reset that takes place, with the reset-cause set that R196 then gives. -/
def isReset (c : Instr) (s : State) (causes : ResetCauses) : Prop :=
  (c = .powerOnReset ∧ causes = ⟨true, false, false⟩) ∨
    (c = .pinReset ∧ causes = { s.lnk.causes with pin := true }) ∨
    (c = .requestReset ∧ causes = { s.lnk.causes with request := true } ∧ rsetReplySent s)

/-! ### Accepted updates, as claims speak of them -/

/-- A sample of the lines makes an accepted update (R1). -/
def acceptsUpdate (s : State) (l : Lines) : Prop :=
  s.enc.primed = true ∧ s.enc.nextSample ≤ s.now ∧ filterAccepted s.enc l ≠ s.enc.accepted

/-- An accepted update yields a count in direction `dir` from a position within its bounds (R2, R4). -/
def countsOnce (s : State) (l : Lines) (dir : Dir) : Prop :=
  acceptsUpdate s l ∧ positionOk s ∧
    decodePair s.enc.settings.sense s.enc.accepted (filterAccepted s.enc l) = .count dir

/-- A count in direction `dir` would carry the revolution number beyond its bound (R4). -/
def overrunsBound (s : State) (dir : Dir) : Prop :=
  (dir = .forward ∧ s.enc.c + 1 = s.enc.settings.cpr ∧ s.enc.rev = revMax) ∨
    (dir = .reverse ∧ s.enc.c = 0 ∧ s.enc.rev = revMin)

/-- U after one count (R4). -/
def countedU (s : State) (dir : Dir) : Int :=
  match dir with
  | .forward => encU s.enc + 1
  | .reverse => encU s.enc - 1

/-- The count of an accepted update is an index crossing (R6). -/
def crossesIndex (s : State) (l : Lines) : Prop :=
  (filterAccepted s.enc l).z = true ∧ s.enc.indexArmed = true

/-! ### What a tick posts, as claims speak of it -/

/-- The commands `l` that a tick posts of one event: `c` once where its condition holds, and none otherwise. -/
def postedWhen (due : Prop) (c : Instr) (l : List Instr) : Prop := (due → l = [c]) ∧ (¬ due → l = [])

/-- A record waits at its source: a reply, a pending unmasked notice, or the head of the point buffer (R193, R195). -/
def recordWaits (s : State) : Prop :=
  s.lnk.reply ≠ none ∨ s.pnt.buffer ≠ [] ∨
    ∃ k, noticeSlot s.lnk.notices k ≠ none ∧ s.lnk.mask.getLsbD (noticePriority k - 1) = true

/-- A record boundary occurs: the transmitter is LOCKED and idle with something waiting, or has sent its record to the
end, which is not the RSET reply (R193, R197; log entry 20). -/
def atBoundary (s : State) : Prop :=
  s.lnk.lock ≠ none ∧ ¬ (s.lnk.rsetTaken = true ∧ s.lnk.reply = none) ∧
    ((s.lnk.tx = .idle ∧ recordWaits s) ∨ ∃ f e, s.lnk.tx = .sending f e ∧ e ≤ 8 * s.now)

/-- The queue holds the events that are due, each under the condition that its rule gives, in the order of log entry 2:
the request reset (R197), the stall expiry (R71), the qualification of the HOLD level (R93), the end of the gap in a
reading frame (R112), a timeout for each entry at the head that has expired (R117), the start of the waiting trigger
frame (R108), the expiry of a gate's qualification (R170), the completion of a program operation that has used up its
time, with a free result (R184; log entry 7), the record boundary (R193) and the dispatch of the oldest frame of the
request buffer (R191, R197). -/
def dueEventsWait (t : State) : Prop :=
  ∃ (reset stall hold gap frame qual program boundary request : List Instr) (result : VerifyResult),
    t.pending = reset ++ stall ++ hold ++ gap ++
      (t.prb.queue.takeWhile fun e => decide (e.fireTime + t.prb.tr * 100 ≤ t.now)).map (fun _ => .tagTimeout) ++
      frame ++ qual ++ program ++ boundary ++ request ∧
    postedWhen (rsetReplySent t) .requestReset reset ∧
    postedWhen (∃ d, t.psc.stall = some d ∧ d ≤ t.now) .stallExpiry stall ∧
    postedWhen (∃ d, t.hold.since = some d ∧ d + 1000 ≤ t.now) .holdQualified hold ∧
    postedWhen (∃ body last, t.prb.rx = .inFrame body last false ∧ last + 400 < t.now) .readingGapTimeout gap ∧
    postedWhen (∃ f, t.prb.waiting = some f ∧ f.start ≤ t.now) .triggerFrameStart frame ∧
    postedWhen (∃ n d, (t.gte.gates.get n).qual = some d ∧ d + 5000 ≤ t.now) .qualificationExpiry qual ∧
    postedWhen (∃ p, t.cal.programming = some p ∧ p.deadline ≤ t.now) (.programCompletion result) program ∧
    postedWhen (atBoundary t) .recordBoundary boundary ∧
    (∀ f rest, t.lnk.requests = f :: rest →
      postedWhen (t.lnk.reply = none ∧ t.lnk.rsetTaken = false) (requestOfFrame f) request) ∧
    (t.lnk.requests = [] → request = [])

/-! ### Link errors, as claims speak of them -/

/-- A link error at `s`: a counter below 15 rises by one and LINK_ERROR is raised with its new value; at 15 nothing
happens (R190). -/
def linkErrorCounted (c : LinkCounter) (s t : State) : Prop :=
  let v := linkErrorCount s.lnk.errors c
  (v < 15 → t = raise (.linkError c (v + 1))
    { s with lnk := { s.lnk with errors := setLinkError s.lnk.errors c (v + 1) } }) ∧
  (15 ≤ v → t = s)

/-! ### Gates, as claims speak of them -/

/-- A workpiece record that WKLD accepts (R39). -/
def workpieceOk (w : Workpiece) : Prop :=
  1 ≤ w.blades ∧ w.blades ≤ 128 ∧ w.datum < 16777216 ∧ w.trims.length = w.blades ∧
    ∀ x ∈ w.trims, -1048576 ≤ x ∧ x ≤ 1048576

/-- Every pending notice stands in the slot of its kind with a count of 1 … 255 (R194). -/
def noticesOk (s : State) : Prop :=
  ∀ k p, noticeSlot s.lnk.notices k = some p → noticeKind p.detail = k ∧ 1 ≤ p.count ∧ p.count ≤ 255

/-- A blade range covers a blade, counted on from its first blade around the workpiece (R42). -/
def coversBlade (r : Option BladeRange) (blades k : Nat) : Prop :=
  ∀ x, r = some x → ∃ i, i < x.count ∧ k = (x.first + i) % blades

/-- The due state `new` of a gate at blade and phase `p`, reached by a change in direction `dir` (R163), with the
conditions of R164 for EXTENSION: `old` is the due state of the last evaluation, at `last`. -/
def dueRule (record : Option GateRecord) (blades : Nat) (dir : Dir) (last : Option BladePhase) (p : BladePhase)
    (old new : DueState) : Prop :=
  (new = .base ↔ ∃ r, record = some r ∧ coversBlade r.range blades p.blade ∧ r.on ≤ p.phase ∧ p.phase < r.off) ∧
  (new = .extension ↔ ∃ r, record = some r ∧ coversBlade r.range blades p.blade ∧
    dir = .forward ∧ (∃ q, last = some q ∧ q.blade = p.blade ∧ q.phase ≤ p.phase) ∧ old ≠ .none ∧
    r.off ≤ p.phase ∧ p.phase < r.off + r.extension)

/-- The levels and waiting flags that an arbitration in RUN gives the gates `old`, whose due states are then those
of `new` (R163, R166, R167): `held` says which gates were driven ON before it and hold their group. -/
def arbitrationRule (bank : Bank) (held : Fin 8 → Prop) (old new : Eight Gate) : Prop :=
  let cand := fun n => (new.get n).due ≠ .none ∧ (old.get n).status ≠ .short
  ∀ n : Fin 8, (new.get n).status = (old.get n).status ∧ (new.get n).sense = (old.get n).sense ∧
    ((new.get n).waiting = true ↔ cand n ∧ (new.get n).driven = false) ∧
    (gateGroup bank n = none → ((new.get n).driven = true ↔ cand n)) ∧
    ∀ q, gateGroup bank n = some q → ((new.get n).driven = true ↔
      cand n ∧ (held n ∨ ∀ m, gateGroup bank m = some q → cand m → ¬ held m ∧ n ≤ m))

/-- A gate whose driven level changes restarts its qualification at `now`; no other gate's changes (R169). -/
def qualRule (now : Nat) (old new : Eight Gate) : Prop :=
  ∀ n : Fin 8, (new.get n).qual =
    if (new.get n).driven = (old.get n).driven then (old.get n).qual
    else if (old.get n).status = .ok ∧ (old.get n).sense ≠ (new.get n).driven then some now else none

/-- A gate begins to wait between `s` and `t`. -/
def beginsToWait (s t : State) (n : Fin 8) : Bool := (t.gte.gates.get n).waiting && !(s.gte.gates.get n).waiting

/-- Each gate that begins to wait raises the conflict count by one and raises GROUP_CONFLICT, by group and then by
gate, so that the detail names the last of them and the gate ON in its group; no other notice is raised (R167). -/
def conflictsReported (bank : Bank) (s t : State) : Prop :=
  let k := gateNumbers.countP (beginsToWait s t)
  t.gte.conflicts = (if k = 0 then s.gte.conflicts else min (s.gte.conflicts + k) counterMax) ∧
  (∀ j, j ≠ .groupConflict ∨ k = 0 → noticeSlot t.lnk.notices j = noticeSlot s.lnk.notices j) ∧
  ∀ n m q, beginsToWait s t n = true → gateGroup bank n = some q → gateGroup bank m = some q →
    (t.gte.gates.get m).driven = true →
    (∀ n' q', beginsToWait s t n' = true → gateGroup bank n' = some q' → q' < q ∨ (q' = q ∧ n' ≤ n)) →
    noticeSlot t.lnk.notices .groupConflict =
      some { count := min (noticeCount s.lnk.notices .groupConflict + k) 255, detail := .groupConflict q n m }

/-- GTE in RUN evaluates blade and phase `p` after a position change in direction `dir`, and nothing else changes
(R163, R164, R166, R167). -/
def gatesEvaluated (dir : Dir) (blades : Nat) (p : BladePhase) (s t : State) : Prop :=
  t = { s with gte := t.gte, lnk := { s.lnk with notices := t.lnk.notices } } ∧ t.gte.mode = .run ∧
    t.gte.last = some p ∧
    (∀ n, dueRule (s.wbk.active.gates.get n) blades dir s.gte.last p (s.gte.gates.get n).due
      (t.gte.gates.get n).due) ∧
    arbitrationRule s.wbk.active (fun n => (s.gte.gates.get n).driven = true) s.gte.gates t.gte.gates ∧
    qualRule s.now s.gte.gates t.gte.gates ∧ conflictsReported s.wbk.active s t

/-- From `s` to `t` ENC comes to `e` and hands its position to GTE alone: in SAFE, or with U unchanged, GTE stays as it
is, in RUN it evaluates the new U, and nothing else changes (R5, R162, R163). -/
def gatesFollow (e : Enc) (s t : State) : Prop :=
  t = { s with enc := e, gte := t.gte, lnk := { s.lnk with notices := t.lnk.notices } } ∧
  (s.gte.mode = .safe ∨ encU e = encU s.enc → t = { s with enc := e }) ∧
  ∀ w, s.gte.mode = .run → s.wbk.workpiece = some w → workpieceOk w → groupsExclusive s → noticesOk s →
    encU e ≠ encU s.enc →
    gatesEvaluated (if encU s.enc < encU e then .forward else .reverse) w.blades
      (bladePhaseAt w s.enc.settings.cpr (encU e)) { s with enc := e } t

/-- GTE in RUN stands as a fresh evaluation of blade and phase `p` leaves it: no gate is EXTENSION and none holds
its group (R161, R166, R168). -/
def freshlyEvaluated (blades : Nat) (p : BladePhase) (t : State) : Prop :=
  t.gte.last = some p ∧
    (∀ n, dueRule (t.wbk.active.gates.get n) blades .forward none p .none (t.gte.gates.get n).due) ∧
    arbitrationRule t.wbk.active (fun _ => False) t.gte.gates t.gte.gates

/-- GTE in SAFE drives the safe levels by a fresh arbitration (R162, R166). -/
def safeLevelsDriven (t : State) : Prop :=
  let cand := fun n => t.cal.working.safe.get n = true ∧ (t.gte.gates.get n).status ≠ .short
  ∀ n : Fin 8, (t.gte.gates.get n).waiting = false ∧
    ((t.gte.gates.get n).driven = true ↔ cand n ∧
      ∀ q m, gateGroup t.wbk.active n = some q → gateGroup t.wbk.active m = some q → cand m → n ≤ m)

/-- From `s` to `t` GTE comes to drive the safe levels in SAFE: a gate whose level changes restarts its
qualification, and statuses, sense levels and the conflict count stay (R162, R169). -/
def safeDriven (s t : State) : Prop :=
  t.gte.mode = .safe ∧ t.gte.conflicts = s.gte.conflicts ∧ safeLevelsDriven t ∧
    qualRule s.now s.gte.gates t.gte.gates ∧
    ∀ n : Fin 8, (t.gte.gates.get n).status = (s.gte.gates.get n).status ∧
      (t.gte.gates.get n).sense = (s.gte.gates.get n).sense

/-- From `s` to `t` GTE enters SAFE, from either mode: it drives the safe levels, no gate is due and no position has
been evaluated (R161). -/
def entersSafe (s t : State) : Prop :=
  safeDriven s t ∧ t.gte.last = none ∧ ∀ n : Fin 8, (t.gte.gates.get n).due = .none

/-! ### Resolutions, as claims speak of them -/

/-- The summaries of the contexts without tags at the head of the list `drain` are appended, and the rest of it goes
on draining (R80). -/
def summarised (drain : List PassCtx) (s t : State) : Prop :=
  let done := drain.takeWhile noTags
  t.psc.drain = drain.dropWhile noTags ∧
    t.pnt = { buffer := s.pnt.buffer ++ done.map fun c => .summary (summaryOf c)
              largest := if done = [] then s.pnt.largest
                else max s.pnt.largest (s.pnt.buffer.length + done.length) }

/-- What is reported of a resolved tag changes the context of pass `id` by `f`, and PSC makes the tests of a fallen
in-flight count: a RETRYING lead of that pass with an empty stack and no tags ends COMPLETE (R70), and the head of the
drain list is summarised (R80). Nothing else changes. -/
def reportedTo (id : Nat) (f : PassCtx → PassCtx) (s t : State) : Prop :=
  t = { s with psc := t.psc, pnt := t.pnt } ∧
  (∀ l, s.psc.lead = some l → l.ctx.settings.passId = id →
    let c := f l.ctx
    let done := l.phase = .retrying ∧ s.stack = [] ∧ noTags c = true
    (¬ done → t.psc.lead = some { l with ctx := c } ∧ t.psc.stall = s.psc.stall ∧ summarised s.psc.drain s t) ∧
    (done → t.psc.lead = none ∧ t.psc.stall = none ∧
      summarised (s.psc.drain ++ [{ c with
        endStatus := some .complete
        counters := { c.counters with unresolved := satAdd c.counters.unresolved 0 } }]) s t)) ∧
  ((∀ l, s.psc.lead = some l → l.ctx.settings.passId ≠ id) →
    t.psc.lead = s.psc.lead ∧ t.psc.stall = s.psc.stall ∧
      summarised (s.psc.drain.map fun d => if d.settings.passId = id then f d else d) s t)

/-- The in-flight count of an origin falls by one and the counters change by `f` (step 5 of R118). -/
def resolvedCtx (o : TagOrigin) (f : Counters → Counters) (c : PassCtx) : PassCtx :=
  { c with
    mainInFlight := if o = .retry then c.mainInFlight else c.mainInFlight - 1
    retryInFlight := if o = .retry then c.retryInFlight - 1 else c.retryInFlight
    counters := f c.counters }

/-- An entry that has left the queue is resolved as a miss, with `counts` for the class of its reading (R118, R119, R140,
R147 to R149): a miss of a running lead is pushed, unless its key stands on the stack, with attempts 1 for a main tag
and one more than the tag's for a retry tag; any other miss is late. -/
def missResolved (e : TagEntry) (cause : MissCause) (counts : Counters → Counters) (s t : State) : Prop :=
  let main := e.origin ≠ .retry
  let running := ∃ l, s.psc.lead = some l ∧ l.phase ≠ .armed ∧ l.ctx.settings.passId = e.passId
  let miss : MissEntry :=
    { blade := e.blade, window := e.window, j := e.j, overlap := e.overlap, cause := cause
      attempts := if main then 1 else min (e.attempts + 1) 255 }
  let causes := fun k : Counters => { counts k with
    timeout := if cause = .timeout then satInc k.timeout else k.timeout
    skipped := if cause = .skipped then satInc k.skipped else k.skipped
    full := if cause = .full then satInc k.full else k.full }
  let missed := fun k : Counters => { k with missedMain := if main then satInc k.missedMain else k.missedMain }
  (running → s.stack.any (sameKey miss) = true →
    reportedTo e.passId (resolvedCtx e.origin fun k => missed (causes k)) s t) ∧
  (running → s.stack.any (sameKey miss) = false →
    reportedTo e.passId (resolvedCtx e.origin fun k => { missed (causes k) with
        pushes := satInc k.pushes
        overflowLost := if 16 ≤ s.stack.length then satInc k.overflowLost else k.overflowLost })
      { s with stack := miss :: if 16 ≤ s.stack.length then s.stack.dropLast else s.stack } t) ∧
  (¬ running → reportedTo e.passId (resolvedCtx e.origin fun k => { causes k with
      lateMissed := if main then satInc k.lateMissed else k.lateMissed
      retryLost := if main then k.retryLost else satInc k.retryLost }) s t)

/-- The entries `q` of the in-flight queue that have expired are resolved one at a time from the head, each as a TIMEOUT
miss that adds one to the consecutive-timeout count, up to the first that has not expired (R117, R125). -/
def timedOut (q : List TagEntry) (s t : State) : Prop :=
  match q with
  | [] => t = s
  | e :: rest =>
    (s.now < e.fireTime + s.prb.tr * 100 → t = s) ∧
    (e.fireTime + s.prb.tr * 100 ≤ s.now → ∃ u,
      missResolved e .timeout id
        { s with prb := { s.prb with queue := rest, timeouts := min (s.prb.timeouts + 1) 8 } } u ∧ timedOut rest u t)

/-! ### Endings of a pass, as claims speak of them -/

/-- The lead pass `l` ends from `s` with a status that abandons its tags: they leave the queue and add to abandoned or
retry_lost, a trigger frame of such a tag that still waits is not sent, the stall timer stops, the stack empties into
unresolved, GTE enters SAFE, and the context joins the drain list behind others or is summarised at once (R73). -/
def leadAbandoned (st : EndStatus) (l : Lead) (s t : State) : Prop :=
  let id := l.ctx.settings.passId
  let mainTags := s.prb.queue.countP fun e => e.passId == id && decide (e.origin ≠ .retry)
  let retryTags := s.prb.queue.countP fun e => e.passId == id && decide (e.origin = .retry)
  let k := l.ctx.counters
  let ctx := { l.ctx with
    endStatus := some st, mainInFlight := 0, retryInFlight := 0
    counters := { k with
      abandoned := satAdd k.abandoned mainTags, retryLost := satAdd k.retryLost retryTags
      unresolved := satAdd k.unresolved s.stack.length } }
  entersSafe s t ∧ t.stack = [] ∧
  t.psc = { lead := none, drain := if s.psc.drain = [] then [] else s.psc.drain ++ [ctx], stall := none } ∧
  t.prb = { s.prb with
    queue := s.prb.queue.filter fun e => e.passId != id
    waiting := s.prb.waiting.filter fun f => !s.prb.queue.any fun e => e.passId == id && e.tag == f.tag } ∧
  t.pnt =
    if s.psc.drain = [] then
      { buffer := s.pnt.buffer ++ [.summary (summaryOf ctx)]
        largest := max s.pnt.largest (s.pnt.buffer.length + 1) }
    else s.pnt

/-- The counters of the lead into which an ending adds tags are within their 32 bits. -/
def leadCountersOk (s : State) : Prop :=
  ∀ l, s.psc.lead = some l → l.ctx.counters.abandoned ≤ counterMax ∧ l.ctx.counters.retryLost ≤ counterMax

/-- No lead is SCANNING or RETRYING. -/
def noRunningLead (s : State) : Prop := ∀ l, s.psc.lead = some l → l.phase = .armed

/-- From `s` to `t` ENC leaves HOMED: GTE enters SAFE, a running pass ends with the status `st`, an ARMED lead stays as
it is, and nothing else changes but ENC and the notices (R12, R64, R75). -/
def homedLeft (st : EndStatus) (s t : State) : Prop :=
  t = { s with
    enc := t.enc, psc := t.psc, prb := t.prb, pnt := t.pnt, stack := t.stack, gte := t.gte
    lnk := { s.lnk with notices := t.lnk.notices } } ∧
  entersSafe s t ∧
  (leadCountersOk s → ∀ l, s.psc.lead = some l → l.phase ≠ .armed → leadAbandoned st l s t) ∧
  (noRunningLead s → t.psc = s.psc ∧ t.prb = s.prb ∧ t.pnt = s.pnt ∧ t.stack = s.stack)

/-! ### The sections of STAT, as claims read them (R198, R201)

Each says what the bytes `b` of a section hold, item by item at its offset; a value too large for its width is sent
mod 256 to the width. The widths that R201 leaves open are log entry 18. -/

/-- `n` bytes at `off` hold a value. -/
def holdsNat (b : List Byte) (off n v : Nat) : Prop := fieldNat b off n = v % 256 ^ n

/-- `n` bytes at `off` hold a signed value. -/
def holdsInt (b : List Byte) (off n : Nat) (v : Int) : Prop := fieldInt b off n = Int.bmod v (256 ^ n)

/-- A presence byte at `off` and `n` bytes after it hold a value that may be absent, sent as 0 when absent. -/
def holdsOption (b : List Byte) (off n : Nat) (v : Option Nat) : Prop :=
  holdsNat b off 1 v.isSome.toNat ∧ holdsNat b (off + 1) n (v.getD 0)

/-- The same for a signed value. -/
def holdsOptionInt (b : List Byte) (off n : Nat) (v : Option Int) : Prop :=
  holdsNat b off 1 v.isSome.toNat ∧ holdsInt b (off + 1) n (v.getD 0)

/-- Section 1, ENC (R17): its state, c, the revolution number and U, the accepted levels, the deviation record with its
direction, outcome and largest snap, the error count and the four settings. -/
def statEncHolds (b : List Byte) (s : State) : Prop :=
  let e := s.enc
  b.length = 39 ∧
  holdsNat b 0 1 (match e.state with
    | .notHomed => 0
    | .homed => 1
    | .fault => 2) ∧
  holdsInt b 1 4 e.c ∧ holdsInt b 5 4 e.rev ∧ holdsInt b 9 8 (encU e) ∧
  holdsNat b 17 1 e.accepted.a.toNat ∧ holdsNat b 18 1 e.accepted.b.toNat ∧ holdsNat b 19 1 e.accepted.z.toNat ∧
  holdsInt b 20 4 e.lastDeviation ∧
  holdsNat b 24 1 (match e.lastDirection with
    | .forward => 0
    | .reverse => 1) ∧
  holdsNat b 25 1 (match e.lastOutcome with
    | .none => 0
    | .homing => 1
    | .snap => 2
    | .slip => 3) ∧
  holdsNat b 26 1 e.largestSnap ∧ holdsNat b 27 4 e.quadErrors ∧
  holdsNat b 31 4 e.settings.cpr ∧
  holdsNat b 35 1 (match e.settings.sense with
    | .aLeads => 0
    | .bLeads => 1) ∧
  holdsNat b 36 2 e.settings.tolerance ∧ holdsNat b 38 1 e.settings.filterPeriod

/-- Section 2, ANG at ENC's turn count (R38): the workpiece state, B and the datum, θ, ρ with the lead's rounding mode,
and with a workpiece k, g, the case of R30, k′, g′ and L(k′). -/
def statAngHolds (b : List Byte) (s : State) : Prop :=
  let theta := tableAngle s.enc.settings.cpr s.enc.c
  let mode := match s.psc.lead with
    | none => Rounding.chop
    | some l => l.ctx.settings.rounding
  let loaded := fun (f : Workpiece → BladePhase → BladePhase → Nat) =>
    s.wbk.workpiece.map fun w => f w (nominal w theta) (trimmed w (nominal w theta))
  b.length = 36 ∧ holdsNat b 0 1 s.wbk.workpiece.isSome.toNat ∧
  holdsOption b 1 1 (s.wbk.workpiece.map Workpiece.blades) ∧
  holdsOption b 3 3 (s.wbk.workpiece.map Workpiece.datum) ∧
  holdsNat b 7 3 theta ∧ holdsInt b 10 4 (runoutCorrection s.cal.working.runout mode theta) ∧
  holdsNat b 14 1 (match mode with
    | .chop => 0
    | .nearest => 1) ∧
  holdsOption b 15 1 (loaded fun _ n _ => n.blade) ∧ holdsOption b 17 4 (loaded fun _ n _ => n.phase) ∧
  holdsOption b 22 1 (loaded fun w n _ => match trimCase w n with
    | .before => 0
    | .within => 1
    | .after => 2) ∧
  holdsOption b 24 1 (loaded fun _ _ t => t.blade) ∧ holdsOption b 26 4 (loaded fun _ _ t => t.phase) ∧
  holdsOption b 31 4 (loaded fun w _ t => pitchLength w t.blade)

/-- A warning list as STAT sends it: the number of warnings, then the code and what each names (R52, R59). -/
def warningsSent (ws : List Warning) : List Byte :=
  BitVec.ofNat 8 ws.length :: ws.flatMap fun x => match x with
    | .stepFine p => [1#8, BitVec.ofNat 8 p]
    | .edgeClose lower higher => [2#8, BitVec.ofNat 8 lower.val, BitVec.ofNat 8 higher.val]

/-- Section 3, WBK (R59): for the active bank and then for the staged one, its state, its number of windows, its number
of gate records in PHASE and its warning list. -/
def statWbkHolds (b : List Byte) (s : State) : Prop :=
  let w := s.wbk
  let phases := fun bank : Bank => gateNumbers.countP fun n => (bank.gates.get n).isSome
  let o := 6 + (warningsSent w.active.warnings).length
  holdsNat b 0 1 (match w.activeState with
    | .empty => 0
    | .active => 1) ∧
  holdsNat b 1 1 w.active.windows.length ∧ holdsNat b 2 4 (phases w.active) ∧
  fieldBytes b 6 (warningsSent w.active.warnings).length = warningsSent w.active.warnings ∧
  holdsNat b o 1 (match w.stagedState with
    | .editing => 0
    | .pending => 1) ∧
  holdsNat b (o + 1) 1 w.staged.windows.length ∧ holdsNat b (o + 2) 4 (phases w.staged) ∧
  b.drop (o + 6) = warningsSent w.staged.warnings

/-- Section 4, PSC (R83): the lead state, the items of a lead, the twenty counters of R81, the drain list and the
number of summaries owed. U_start, H and the progress of an ARMED lead are log entry 31, and the 4 bytes of the
current turn log entry 18. -/
def statPscHolds (b : List Byte) (s : State) : Prop :=
  let p := s.psc
  let lead := fun (f : PassCtx → Nat) => p.lead.map fun l => f l.ctx
  let leadInt := fun (f : PassCtx → Int) => p.lead.map fun l => f l.ctx
  b.length = 148 + 11 * p.drain.length ∧
  holdsNat b 0 1 (match p.lead with
    | none => 0
    | some l => match l.phase with
      | .armed => 1
      | .scanning => 2
      | .retrying => 3) ∧
  holdsOption b 1 2 (lead fun c => c.settings.passId) ∧ holdsOption b 4 4 (lead fun c => c.turn) ∧
  holdsOptionInt b 9 8 (leadInt fun c => c.uStart) ∧ holdsOptionInt b 18 4 (leadInt fun c => c.highWater) ∧
  holdsOptionInt b 23 4 (leadInt fun c => encU s.enc - c.uStart) ∧
  holdsOption b 28 4 (lead fun _ => match p.stall with
    | none => 0
    | some t => (t - s.now) / 100000) ∧
  holdsOption b 33 4 (lead fun c => c.mainInFlight) ∧ holdsOption b 38 4 (lead fun c => c.retryInFlight) ∧
  (∀ i, i < 20 → holdsOption b (43 + 5 * i) 4 (lead fun c =>
    let k := c.counters
    [k.crossedMain, k.emittedMain, k.emittedRetry, k.blanked, k.held, k.busy, k.missedMain, k.lateMissed,
     k.abandoned, k.retryLost, k.pushes, k.takes, k.overflowLost, k.unresolved, k.void, k.dim, k.range,
     k.timeout, k.skipped, k.full].getD i 0)) ∧
  holdsNat b 143 1 p.drain.length ∧
  (∀ i c, p.drain[i]? = some c →
    let o := 144 + 11 * i
    holdsNat b o 2 c.settings.passId ∧
    holdsNat b (o + 2) 1 (match c.endStatus with
      | none => 0
      | some .complete => 1
      | some .stalled => 2
      | some .aborted => 3
      | some .encoderFault => 4
      | some .indexFault => 5
      | some .probeFault => 6) ∧
    holdsNat b (o + 3) 4 c.mainInFlight ∧ holdsNat b (o + 7) 4 c.retryInFlight) ∧
  holdsNat b (144 + 11 * p.drain.length) 4 ((if p.lead = none then 0 else 1) + p.drain.length)

/-- Section 5, the HOLD input (R105): its sense, its qualified level and its condition. -/
def statHoldHolds (b : List Byte) (s : State) : Prop :=
  b.length = 3 ∧
  holdsNat b 0 1 (match s.hold.sense with
    | .ignore => 0
    | .activeLow => 1
    | .activeHigh => 2) ∧
  holdsNat b 1 1 s.hold.qualified.toNat ∧ holdsNat b 2 1 s.hold.active.toNat

/-- Section 6, PRB (R126): its state, Tmin and Tr, the next tag, the time since the last trigger frame, the three counts,
and each entry in flight with its tag, pass ID, origin and the time since its fire time. Times are in µs, rounded down
(log entry 18), and 0 for a frame that still waits (log entry 33). -/
def statPrbHolds (b : List Byte) (s : State) : Prop :=
  let p := s.prb
  let since := fun t => min ((s.now - t) / 100) 4294967295
  b.length = 24 + 8 * p.queue.length ∧
  holdsNat b 0 1 (match p.state with
    | .ready => 0
    | .fault => 1) ∧
  holdsNat b 1 2 p.tmin ∧ holdsNat b 3 2 p.tr ∧ holdsNat b 5 1 p.nextTag.toNat ∧
  holdsOption b 6 4 (p.lastTrigger.map since) ∧
  holdsNat b 11 4 p.timeouts ∧ holdsNat b 15 4 p.orphans ∧ holdsNat b 19 4 p.checkFails ∧
  holdsNat b 23 1 p.queue.length ∧
  ∀ i e, p.queue[i]? = some e →
    let o := 24 + 8 * i
    holdsNat b o 1 e.tag.toNat ∧ holdsNat b (o + 1) 2 e.passId ∧
    holdsNat b (o + 3) 1 (match e.origin with
      | .main => 0
      | .overlap => 1
      | .retry => 2) ∧
    holdsNat b (o + 4) 4 (since e.fireTime)

/-- Section 7, PNT (R143): the records held, how many of them are summaries, the summaries owed, the free places and the
largest occupancy. -/
def statPntHolds (b : List Byte) (s : State) : Prop :=
  let held := s.pnt.buffer.length
  let owed := (if s.psc.lead = none then 0 else 1) + s.psc.drain.length
  b.length = 20 ∧ holdsNat b 0 4 held ∧
  holdsNat b 4 4 (s.pnt.buffer.countP fun r => match r with
    | .point _ => false
    | .summary _ => true) ∧
  holdsNat b 8 4 owed ∧ holdsNat b 12 4 (1024 - (held + owed)) ∧ holdsNat b 16 4 s.pnt.largest

/-- Section 8, MSK (R159): the depth and the entries, top first. -/
def statMskHolds (b : List Byte) (s : State) : Prop :=
  b.length = 5 + 9 * s.stack.length ∧ holdsNat b 0 4 s.stack.length ∧ holdsNat b 4 1 s.stack.length ∧
  ∀ i m, s.stack[i]? = some m →
    let o := 5 + 9 * i
    holdsNat b o 1 m.blade ∧ holdsNat b (o + 1) 1 m.window ∧ holdsNat b (o + 2) 4 m.j ∧
    holdsNat b (o + 6) 1 m.overlap.toNat ∧
    holdsNat b (o + 7) 1 (match m.cause with
      | .busy => 1
      | .held => 2
      | .timeout => 3
      | .skipped => 4
      | .dropout => 5
      | .full => 6) ∧
    holdsNat b (o + 8) 1 m.attempts

/-- Section 9, GTE (R172): its mode, the eight gates, the last evaluated position with one presence byte for its blade
and phase, and the conflict count. -/
def statGteHolds (b : List Byte) (s : State) : Prop :=
  b.length = 59 ∧
  holdsNat b 0 1 (match s.gte.mode with
    | .safe => 0
    | .run => 1) ∧
  (∀ n : Fin 8,
    let g := s.gte.gates.get n
    let o := 1 + 6 * n.val
    holdsNat b o 1 g.driven.toNat ∧
    holdsNat b (o + 1) 1 (match g.due with
      | .none => 0
      | .base => 1
      | .extension => 2) ∧
    holdsNat b (o + 2) 1 g.waiting.toNat ∧
    holdsNat b (o + 3) 1 (match g.status with
      | .ok => 0
      | .openLoad => 1
      | .short => 2) ∧
    holdsNat b (o + 4) 1 g.sense.toNat ∧ holdsNat b (o + 5) 1 g.qual.isSome.toNat) ∧
  holdsOption b 49 1 (s.gte.last.map BladePhase.blade) ∧
  holdsNat b 51 4 ((s.gte.last.map BladePhase.phase).getD 0) ∧ holdsNat b 55 4 s.gte.conflicts

/-- Section 10, CAL (R186): the origin, the lock, the programming state and the operation in progress. -/
def statCalHolds (b : List Byte) (s : State) : Prop :=
  b.length = 4 ∧
  holdsNat b 0 1 (match s.cal.origin with
    | .stored => 0
    | .defaults => 1
    | .edited => 2) ∧
  holdsNat b 1 1 s.cal.locked.toNat ∧ holdsNat b 2 1 s.cal.programming.isSome.toNat ∧
  holdsNat b 3 1 (match s.cal.programming.map Programming.op with
    | none => 0
    | some .ccmt => 1
    | some .clck => 2
    | some .cers => 3)

/-- Section 11, LNK (R198): the lock state, the sync span that locked it, absent while UNLOCKED
(R201), the four error counters, the frames in the request buffer, the mask, each kind's pending flag and count in
priority order (log entry 18), and the reset-cause set. -/
def statLnkHolds (b : List Byte) (s : State) : Prop :=
  let n := s.lnk
  b.length = 37 ∧ holdsNat b 0 1 n.lock.isSome.toNat ∧ holdsOption b 1 4 n.lock ∧
  holdsNat b 6 1 n.errors.frame ∧ holdsNat b 7 1 n.errors.crc ∧ holdsNat b 8 1 n.errors.sync ∧
  holdsNat b 9 1 n.errors.overrun ∧ holdsNat b 10 4 n.requests.length ∧ holdsNat b 14 2 n.mask.toNat ∧
  (∀ k, let o := 16 + 2 * (noticePriority k - 1)
    holdsNat b o 1 (noticeSlot n.notices k).isSome.toNat ∧
    holdsNat b (o + 1) 1 (noticeCount n.notices k)) ∧
  holdsNat b 36 1 (n.causes.powerOn.toNat + 2 * n.causes.pin.toNat + 4 * n.causes.request.toNat)

/-- The eleven sections of STAT, each opened by its number and its length, in the order of R198. -/
def statSections (parts : List (List Byte)) : List Byte :=
  parts.zipIdx.flatMap fun x => BitVec.ofNat 8 (x.2 + 1) :: (beNat 2 x.1.length ++ x.1)

/-! ### Well-formed records -/

/-- A workpiece that is loaded is one that WKLD accepts (R39). -/
def workpieceKnown (s : State) : Prop := ∀ w, s.wbk.workpiece = some w → workpieceOk w

/-- A blade range that STWN and STGT accept (R44, R47). -/
def rangeOk (r : Option BladeRange) : Prop :=
  ∀ x, r = some x → x.first ≤ 127 ∧ 1 ≤ x.count ∧ x.count ≤ 128

/-- A window record that STWN accepts, with its clamps applied (R44). -/
def windowOk (w : Window) : Prop :=
  w.start < w.stop ∧ w.stop ≤ 18874368 ∧ 1 ≤ w.step ∧ w.step ≤ 16777216 ∧ w.exposure ≤ 15 ∧
    w.floor ≤ 4095 ∧ rangeOk w.range

/-- A gate record that STGT accepts, with its clamp applied (R47). -/
def gateRecordOk (r : GateRecord) : Prop :=
  r.on < r.off ∧ r.off ≤ 18874368 ∧ r.extension ≤ 1048576 ∧ rangeOk r.range

/-- A bank: at most 24 well-formed windows in ascending order of start, and well-formed gate records (R44, R45,
R47). -/
def bankOk (b : Bank) : Prop :=
  b.windows.length ≤ 24 ∧ b.windows.Pairwise (fun v w => v.start ≤ w.start) ∧ (∀ w ∈ b.windows, windowOk w) ∧
    ∀ n r, b.gates.get n = some r → gateRecordOk r

/-- Encoder settings that ENCF accepts, with its clamps applied (R15, R16). -/
def encSettingsOk (e : EncSettings) : Prop :=
  cprOk e.cpr = true ∧ e.tolerance ≤ 255 ∧ 1 ≤ e.filterPeriod ∧ e.filterPeriod ≤ 128

/-- A point record whose fields fit their places in the layout of section 11.8. -/
def pointOk (p : PointRecord) : Prop :=
  p.passId < 65536 ∧ p.sequence ≤ counterMax ∧ p.blade < 256 ∧ p.window < 256 ∧ p.j < 4294967296 ∧
    p.attempts < 256 ∧ p.exposure < 256 ∧ p.theta < 16777216 ∧ p.phase < 4294967296 ∧
    -2147483648 ≤ p.radius ∧ p.radius ≤ 2147483647 ∧ p.intensity < 65536

/-- A pass summary whose fields fit their places in the layout of section 11.8. -/
def summaryOk (m : Summary) : Prop :=
  m.passId < 65536 ∧ -2147483648 ≤ m.height ∧ m.height ≤ 2147483647 ∧ m.turnsUsed < 256 ∧ m.largestSnap < 256 ∧
    ∀ v ∈ countersList m.counters, v ≤ counterMax

/-- PRB within its ranges (chapter 6): at most 4 entries, at most 8 timeouts, and Tmin and Tr as PRBF clamps
them. -/
def probeOk (s : State) : Prop :=
  queueBounded s ∧ s.prb.timeouts ≤ 8 ∧ 2 ≤ s.prb.tmin ∧ s.prb.tmin ≤ 1000 ∧ 10 ≤ s.prb.tr ∧ s.prb.tr ≤ 10000

/-! ### Validation, as R51 states it -/

/-- Two blade ranges share a blade of a workpiece of `blades` blades (R42). -/
def shareABlade (r₁ r₂ : Option BladeRange) (blades : Nat) : Prop :=
  ∃ k, k < blades ∧ covers r₁ blades k = true ∧ covers r₂ blades k = true

/-- A bank that passes the five checks of R51. -/
def bankValid (b : Bank) (blades : Nat) : Prop :=
  b.windows ≠ [] ∧ (∀ w ∈ b.windows, rangeFits w.range blades = true) ∧
    (∀ w ∈ b.windows, ∀ g, w.gate = some g → b.gates.get g.gate ≠ none) ∧
    (∀ n r, b.gates.get n = some r → rangeFits r.range blades = true) ∧
    b.windows.Pairwise (fun v w => shareABlade v.range w.range blades → v.stop ≤ w.start)

/-- A PENDING staged bank and an ACTIVE bank pass the five checks of R51 for the loaded workpiece, and an EMPTY active
bank holds no record (R43, R56). -/
def banksPassed (s : State) : Prop :=
  (s.wbk.stagedState = .pending → ∃ w, s.wbk.workpiece = some w ∧ bankValid s.wbk.staged w.blades) ∧
  (s.wbk.activeState = .active → ∃ w, s.wbk.workpiece = some w ∧ bankValid s.wbk.active w.blades) ∧
  (s.wbk.activeState = .empty → s.wbk.active = Bank.empty)

/-- Index `i` fails the check numbered `check` of R51: a window's position, or a gate's number in check 4. -/
def failsCheck (b : Bank) (blades check i : Nat) : Prop :=
  match check with
  | 1 => b.windows = [] ∧ i = 0
  | 2 => ∃ w, b.windows[i]? = some w ∧ rangeFits w.range blades = false
  | 3 => ∃ w g, b.windows[i]? = some w ∧ w.gate = some g ∧ b.gates.get g.gate = none
  | 4 => ∃ (n : Fin 8) (r : GateRecord), n.val = i ∧ b.gates.get n = some r ∧ rangeFits r.range blades = false
  | 5 => ∃ w v j, b.windows[i]? = some w ∧ j < i ∧ b.windows[j]? = some v ∧
      shareABlade v.range w.range blades ∧ w.start < v.stop
  | _ => False

end Sys2Proof.Machine
end

