-- ==== Sys2Proof/WellFormed.lean ====
section
/-! DEFINITION. WellFormed.lean: the commands that the two serial links can carry. A request's payload is at
most 1,023 bytes long (R188), an UNKNOWN_REQUEST has a kind that is none of the 24 request kinds (R192),
a low period that the receiver measures lasts at least one tick (R187), and the start of a character stands last
in a READING (R112). -/

namespace Sys2Proof

/-- A payload fits a frame (R188). -/
def payloadFits (p : List Byte) : Bool := decide (p.length ≤ Machine.maxPayload)

/-- A measured low period lasts at least one tick (R187). -/
def rxItemOk : RxItem → Bool
  | .low n => decide (1 ≤ n)
  | .char _ _ => true
  | .badChar _ _ n => decide (1 ≤ n)

/-- Characters come one after the other without a gap, so that only the start of the next one, after the last of
them, is an item of its own (R112; log entry 12). -/
def readingItemsOk (items : List ProbeItem) : Bool := items.dropLast.all fun i => decide (i ≠ .start)

/-- The well-formed commands. -/
def WellFormed : Instr → Bool
  | .powerOnReset => true
  | .pinReset => true
  | .requestReset => true
  | .acceptedUpdate _ => true
  | .stallExpiry => true
  | .holdPinChange _ => true
  | .holdQualified => true
  | .reading items => readingItemsOk items
  | .readingGapTimeout => true
  | .tagTimeout => true
  | .triggerFrameStart => true
  | .loadSenseChange _ _ => true
  | .qualificationExpiry => true
  | .programCompletion _ => true
  | .hostFrame items => items.all rxItemOk
  | .recordBoundary => true
  | .unknownRequest k p => !Machine.isRequestKind k && payloadFits p
  | .idnt p => payloadFits p
  | .rset p => payloadFits p
  | .stat p => payloadFits p
  | .cclr p => payloadFits p
  | .nmsk p => payloadFits p
  | .encf p => payloadFits p
  | .mnts p => payloadFits p
  | .cwr p => payloadFits p
  | .crd p => payloadFits p
  | .gsaf p => payloadFits p
  | .ccmt p => payloadFits p
  | .clck p => payloadFits p
  | .cers p => payloadFits p
  | .wkld p => payloadFits p
  | .stcl p => payloadFits p
  | .stwn p => payloadFits p
  | .stgt p => payloadFits p
  | .swap p => payloadFits p
  | .swcn p => payloadFits p
  | .hold p => payloadFits p
  | .gclr p => payloadFits p
  | .prbf p => payloadFits p
  | .armp p => payloadFits p
  | .abrt p => payloadFits p
  | .filterSample _ => true

end Sys2Proof
end

