-- ==== Sys2Proof/Certificates/Slice0/Obligations.lean ====
section
/-! DEFINITION. Certificates/Slice0/Obligations.lean: the statements for the provers, chapter by chapter. Where a
statement's conclusion is `exec c s = .next { s with … }`, everything that the record update does not name is
unchanged: the equation is the result, the frame and the completion in one. -/

open Sys2Proof Sys2Proof.Machine

/-! ### The queue of commands -/

/-- A step takes the command at the front of the queue and runs it with the queue's rest; with an empty queue it
lets one tick pass, begins the record whose first character is then due, and posts the events then due, each under the
condition that its rule gives (R71, R93, R108, R112, R117, R170, R184, R191, R193, R197), among them the request that
the oldest frame of the request buffer carries, by the kinds of section 11.8. That time passes so, and the order of the
events of one tick, is the model's choice (log entries 1, 2, 7, 20 and 28). -/
def Obligations.StepTakesFrontCommand : Prop :=
  (∀ (c : Instr) (rest : List Instr) (s : State), s.pending = c :: rest →
    step s = exec c { s with pending := rest }) ∧
  (∀ s : State, s.pending = [] →
    let t := startCharacters { s with now := s.now + 1 }
    step s = .next { t with pending := dueEvents t } ∧ dueEventsWait { t with pending := dueEvents t }) ∧
  ∀ p : List Byte,
    (∀ x ∈ ([(0x01#8, .idnt p), (0x02#8, .rset p), (0x03#8, .stat p), (0x04#8, .cclr p), (0x05#8, .nmsk p),
        (0x06#8, .encf p), (0x07#8, .mnts p), (0x08#8, .cwr p), (0x09#8, .crd p), (0x0A#8, .gsaf p),
        (0x0B#8, .ccmt p), (0x0C#8, .clck p), (0x0D#8, .cers p), (0x0E#8, .wkld p), (0x0F#8, .stcl p),
        (0x10#8, .stwn p), (0x11#8, .stgt p), (0x12#8, .swap p), (0x13#8, .swcn p), (0x14#8, .hold p),
        (0x15#8, .gclr p), (0x16#8, .prbf p), (0x17#8, .armp p), (0x18#8, .abrt p)] : List (Byte × Instr)),
      requestOfFrame ⟨x.1, p⟩ = x.2) ∧
    ∀ k, isRequestKind k = false → requestOfFrame ⟨k, p⟩ = .unknownRequest k p

/-- Every command answers a next state, and none touches the queue or the time base. That a command takes no time
is the model's choice (log entry 1), and so is that one whose condition does not hold answers a next state too (log
entries 9 and 10). -/
def Obligations.EveryCommandAnswersNext : Prop :=
  ∀ (c : Instr) (s : State), ∃ t, exec c s = .next t ∧ t.pending = s.pending ∧ t.now = s.now

/-! ### Host link (chapter 11) -/

/-- A request that LNK may dispatch gets one reply, with its kind and the top bit set or 0x80; a reply other than
OK has two detail bytes and nothing else changes (R192). One that it may not dispatch does nothing (the model's
choice, log entry 10). -/
def Obligations.EachRequestGetsOneReply : Prop :=
  ∀ (k : Byte) (p : List Byte) (s : State),
    (CanDispatch k p s →
      ∃ body t, exec (requestOfFrame ⟨k, p⟩) s = .next t ∧
        t.lnk.reply = some ⟨if isRequestKind k = true then k ||| 0x80#8 else 0x80#8, body⟩ ∧
        t.lnk.requests = s.lnk.requests.tail ∧ body ≠ [] ∧
        (body.head? ≠ some 0#8 → body.length = 3 ∧
          t = { s with lnk := answered s.lnk (if isRequestKind k = true then k ||| 0x80#8 else 0x80#8) body })) ∧
    (¬ CanDispatch k p s → exec (requestOfFrame ⟨k, p⟩) s = .next s)

/-- LNK judges the kind and then the length before the owner's conditions (R192). That the second detail byte of an
UNKNOWN refusal is 0 is the model's choice (log entry 19). -/
def Obligations.DispatchJudgesKindAndLength : Prop :=
  ∀ (k : Byte) (p : List Byte) (s : State), CanDispatch k p s →
    (isRequestKind k = false →
      exec (.unknownRequest k p) s = .next { s with lnk := answered s.lnk 0x80#8 [7#8, k, 0#8] }) ∧
    (∀ n, fixedLength k.toNat = some n → p.length ≠ n →
      exec (requestOfFrame ⟨k, p⟩) s =
        .next { s with lnk := answered s.lnk (k ||| 0x80#8) [8#8, 0#8, 0#8] }) ∧
    (k = 0x0E#8 → p.length < 4 →
      exec (.wkld p) s = .next { s with lnk := answered s.lnk 0x8E#8 [8#8, 0#8, 0#8] })

/-- IDNT empties the reset-cause set once it is in the reply, RSET closes dispatch, and NMSK replaces the mask
(R195, R196, R197). CCLR clears the four link error counters, the orphan count and the check-fail count, replies with
the six values as they stood, and changes nothing else (R199). The widths of the family, model and revision and of a
link error counter in the reply are the model's choice (log entry 18). -/
def Obligations.IdntRsetNmskCclrAnswer : Prop :=
  (∀ s : State, CanDispatch 0x01#8 [] s →
    exec (.idnt []) s = .next { s with
      lnk := answered { s.lnk with causes := ⟨false, false, false⟩ } 0x81#8
        [0#8, 0x2C#8, 0x03#8, 0x01#8, originCode s.cal.origin, byteOfBool s.cal.locked,
         causesByte s.lnk.causes] }) ∧
  (∀ s : State, CanDispatch 0x02#8 [] s →
    exec (.rset []) s = .next { s with lnk := answered { s.lnk with rsetTaken := true } 0x82#8 [0#8] }) ∧
  (∀ (s : State) (hi lo : Byte), CanDispatch 0x05#8 [hi, lo] s →
    exec (.nmsk [hi, lo]) s = .next { s with
      lnk := answered { s.lnk with mask := (hi ++ lo).setWidth 10 } 0x85#8
        (0#8 :: (hi &&& 0x03#8) :: lo :: noticeStateBytes s.lnk.notices) }) ∧
  ∀ s : State, CanDispatch 0x04#8 [] s →
    exec (.cclr []) s = .next { s with
      prb := { s.prb with orphans := 0, checkFails := 0 }
      lnk := answered { s.lnk with errors := ⟨0, 0, 0, 0⟩ } 0x84#8
        (0#8 :: (beNat 1 s.lnk.errors.frame ++ beNat 1 s.lnk.errors.crc ++ beNat 1 s.lnk.errors.sync ++
          beNat 1 s.lnk.errors.overrun ++ beNat 4 s.prb.orphans ++ beNat 4 s.prb.checkFails)) }

/-- STAT and CRD change nothing but the reply. STAT is a snapshot of the part once the request has left the request
buffer (R191): the eleven sections in order, each with its number and its length and each holding the items of its
rule at their places; its payload fits a frame while the lists that it carries are within their bounds (R181, R198).
The widths that R201 leaves open, the rounding of times and the order of LNK's flags and counts are the model's
choice (log entry 18), and so is what is sent of an ARMED lead's U_start and H (log entry 31) and of the times of a
trigger frame that waits (log entry 33). -/
def Obligations.StatAndCrdOnlyReply : Prop :=
  (∀ s : State, CanDispatch 0x03#8 [] s →
    exec (.stat []) s = .next { s with
      lnk := answered s.lnk 0x83#8
        (0#8 :: statBytes { s with lnk := { s.lnk with requests := s.lnk.requests.tail } }) }) ∧
  (∀ s : State, CanDispatch 0x09#8 [] s →
    exec (.crd []) s = .next { s with
      lnk := answered s.lnk 0x89#8 (0#8 :: (settingsBytes s.cal.working ++
        [originCode s.cal.origin, byteOfBool s.cal.locked, byteOfBool s.cal.programming.isSome,
         operationByte s.cal.programming])) }) ∧
  (∀ s : State, ∃ enc ang wbk psc hold prb pnt msk gte cal lnk : List Byte,
    statBytes s = statSections [enc, ang, wbk, psc, hold, prb, pnt, msk, gte, cal, lnk] ∧
    statEncHolds enc s ∧ statAngHolds ang s ∧ statWbkHolds wbk s ∧ statPscHolds psc s ∧ statHoldHolds hold s ∧
    statPrbHolds prb s ∧ statPntHolds pnt s ∧ statMskHolds msk s ∧ statGteHolds gte s ∧ statCalHolds cal s ∧
    statLnkHolds lnk s) ∧
  ∀ s : State, queueBounded s → drainBounded s → s.stack.length ≤ stackSize →
    s.wbk.active.warnings.length ≤ 52 → s.wbk.staged.warnings.length ≤ 52 →
    (0#8 :: statBytes s).length ≤ 1023

/-- From IDLE, a part that is LOCKED, or that locks at this frame's sync, takes every frame of at most 1,023 payload
bytes, from its break to its CRC: with a good CRC it joins the request buffer, or is an overrun when that holds 2;
with another CRC byte it is a CRC error. A sync that fails while LOCKED is a sync error, and one that fails while
UNLOCKED counts nothing; a break, a low stop bit and a length above 1,023 inside a frame are frame errors (R187 to
R191). That a frame comes as these measured items is log entry 11; that the low period or low stop bit in which a
sync fails does not also open a frame is the model's choice (log entry 35). -/
def Obligations.HostFrameReceivesFrames : Prop :=
  (∀ (s : State) (f : Frame) (b : Byte) (low span bit : Nat) (spans : List Nat), s.lnk.rx = .idle →
    (s.lnk.lock = some bit ∧ 16 * ((span : Int) - bit).natAbs ≤ bit) ∨
      (s.lnk.lock = none ∧ bit = span ∧ 57600 * span ≤ 800000000 ∧ 800000000 ≤ 4000000 * span) →
    11 * bit ≤ 8 * low → f.payload.length ≤ 1023 → spans.length = f.payload.length + 3 →
    let items := .low low :: .char 0x55#8 span ::
      (List.zipWith RxItem.char (f.kind :: (beNat 2 f.payload.length ++ f.payload)) spans ++ [.char b span])
    let locked := { s with lnk := { s.lnk with lock := some bit } }
    (b = frameCrc f → s.lnk.requests.length < 2 → exec (.hostFrame items) s =
      .next { s with lnk := { s.lnk with lock := some bit, requests := s.lnk.requests ++ [f] } }) ∧
    (b = frameCrc f → 2 ≤ s.lnk.requests.length →
      ∃ t, exec (.hostFrame items) s = .next t ∧ linkErrorCounted .overrun locked t) ∧
    (b ≠ frameCrc f → ∃ t, exec (.hostFrame items) s = .next t ∧ linkErrorCounted .crc locked t)) ∧
  (∀ (s : State) (low span bit : Nat) (b : Byte), s.lnk.rx = .idle → s.lnk.lock = some bit →
    (8 * low < 11 * bit → exec (.hostFrame [.low low]) s = .next s) ∧
    (11 * bit ≤ 8 * low → b ≠ 0x55#8 ∨ bit < 16 * ((span : Int) - bit).natAbs →
      ∃ t, exec (.hostFrame [.low low, .char b span]) s = .next t ∧ linkErrorCounted .sync s t) ∧
    (∀ n, 11 * bit ≤ 8 * low →
      ∃ t, exec (.hostFrame [.low low, .badChar b span n]) s = .next t ∧ linkErrorCounted .sync s t)) ∧
  (∀ (s : State) (low span : Nat) (b : Byte), s.lnk.rx = .idle →
    exec (.hostFrame [.char b span]) s = .next s ∧
    (s.lnk.lock = none →
      (b ≠ 0x55#8 ∨ 800000000 < 57600 * span ∨ 4000000 * span < 800000000 ∨ 8 * low < 11 * span →
        exec (.hostFrame [.low low, .char b span]) s = .next s) ∧
      ∀ n, exec (.hostFrame [.low low, .badChar b span n]) s = .next s)) ∧
  ∀ (s : State) (bytes : List Byte) (bit span n : Nat) (b : Byte), s.lnk.rx = .body bytes →
    s.lnk.lock = some bit →
    let taking := fun r : LinkRx => { s with lnk := { s.lnk with rx := r } }
    (11 * bit ≤ 8 * n → ∀ item, item = .low n ∨ item = .badChar b span n →
      ∃ t, exec (.hostFrame [item]) s = .next t ∧ linkErrorCounted .frame (taking (.sync n)) t) ∧
    (8 * n < 11 * bit →
      ∃ t, exec (.hostFrame [.badChar b span n]) s = .next t ∧ linkErrorCounted .frame (taking .idle) t) ∧
    ∀ kind high, bytes = [kind, high] → 1023 < high.toNat * 256 + b.toNat →
      ∃ t, exec (.hostFrame [.char b span]) s = .next t ∧ linkErrorCounted .frame (taking .idle) t

/-- At a record boundary the break begins of the reply, else of the pending unmasked notice of highest priority, else
of the head of the point buffer; with none the transmitter stays idle. The record leaves its source as its first
character begins, 14 bit times later, and ends with its last character (R193, R194). That this moment belongs to the
tick, and that a boundary commanded while a record is going out does nothing, is the model's choice (log entries 28
and 9). -/
def Obligations.RecordBoundaryTakesByPriority : Prop :=
  (∀ (s : State) (span : Nat), s.lnk.lock = some span →
    (s.lnk.tx = .idle ∨ ∃ f e, s.lnk.tx = .sending f e ∧ e ≤ 8 * s.now) →
    ¬ (s.lnk.rsetTaken = true ∧ s.lnk.reply = none) →
    let opens := fun src : RecordSource => exec .recordBoundary s = .next { s with
      lnk := { s.lnk with tx := .opening src (8 * s.now + 14 * span) } }
    (s.lnk.reply ≠ none → opens .reply) ∧
    (∀ k, s.lnk.reply = none → noticeSlot s.lnk.notices k ≠ none →
      s.lnk.mask.getLsbD (noticePriority k - 1) = true →
      (∀ j, noticePriority j < noticePriority k →
        noticeSlot s.lnk.notices j = none ∨ s.lnk.mask.getLsbD (noticePriority j - 1) = false) →
      opens (.notice k)) ∧
    (s.lnk.reply = none →
      (∀ k, noticeSlot s.lnk.notices k = none ∨ s.lnk.mask.getLsbD (noticePriority k - 1) = false) →
      (s.pnt.buffer ≠ [] → opens .buffer) ∧
      (s.pnt.buffer = [] → exec .recordBoundary s = .next { s with lnk := { s.lnk with tx := .idle } }))) ∧
  (∀ s : State, s.lnk.lock = none ∨ (∃ src first, s.lnk.tx = .opening src first) ∨
    (∃ f e, s.lnk.tx = .sending f e ∧ 8 * s.now < e) → exec .recordBoundary s = .next s) ∧
  ∀ (s : State) (span first : Nat) (src : RecordSource), s.pending = [] → s.lnk.lock = some span →
    s.lnk.tx = .opening src first →
    (8 * (s.now + 1) < first → ∃ due, step s = .next { s with now := s.now + 1, pending := due }) ∧
    (first ≤ 8 * (s.now + 1) →
      (∀ f, src = .reply → s.lnk.reply = some f → ∃ due, step s = .next { s with
        now := s.now + 1, pending := due
        lnk := { s.lnk with
          reply := none, tx := .sending f (first + 10 * (f.payload.length + 5) * span) } }) ∧
      (∀ k p, src = .notice k → noticeSlot s.lnk.notices k = some p → ∃ due, step s = .next { s with
        now := s.now + 1, pending := due
        lnk := { s.lnk with
          notices := setNoticeSlot s.lnk.notices k none
          tx := .sending ⟨0xA2#8, noticeBytes k p⟩ (first + 10 * ((noticeBytes k p).length + 5) * span) } }) ∧
      (∀ r rest, src = .buffer → s.pnt.buffer = r :: rest → ∃ due, step s = .next { s with
        now := s.now + 1, pending := due
        pnt := { s.pnt with buffer := rest }
        lnk := { s.lnk with
          tx := .sending (bufferFrame r) (first + 10 * ((bufferFrame r).payload.length + 5) * span) } }))

/-- What STWN, STGT, ENCF and MNTS echo reads back as the record applied, and a field of `n` bytes, signed or not,
reads back as its value; point record, pass summary and notice record hold each item in its place (section 11.8).
What stands in the fields of an absent gate or range and of an UNUSED record is the model's choice (log entry 18). -/
def Obligations.EchoedRecordsReadBack : Prop :=
  (∀ n v, v < 256 ^ n → natOfBytes (beNat n v) = v) ∧
  (∀ (n : Nat) (v : Int), -(256 ^ n : Int) ≤ 2 * v → 2 * v < (256 ^ n : Int) → intOfBytes (beInt n v) = v) ∧
  (∀ w, windowOk w → readWindow (readStwn (windowBytes w)) = some w) ∧
  (∀ (n : Fin 8) r, (∀ g, r = some g → gateRecordOk g) →
    (readStgt (beNat 1 n.val ++ gateRecordBytes r)).gate = n.val ∧
      readGateRecord (readStgt (beNat 1 n.val ++ gateRecordBytes r)) = some r) ∧
  (∀ e, encSettingsOk e → encfSettings (readEncf (encSettingsBytes e)) = some e) ∧
  (∀ r0 scale, r0 ≤ 100000000 → scale ≤ 65536 →
    readMnts (beNat 4 r0 ++ beNat 4 scale) = { r0 := r0, scale := scale }) ∧
  (∀ p : PointRecord, pointOk p →
    let b := pointBytes p
    let bit := fun i => (b.getD 12 0#8).getLsbD i
    b.length = 29 ∧ fieldNat b 0 2 = p.passId ∧ fieldNat b 2 4 = p.sequence ∧ fieldNat b 6 1 = p.blade ∧
    fieldNat b 7 1 = p.window ∧ fieldNat b 8 4 = p.j ∧
    (bit 0 = p.flags.overlap ∧ bit 1 = p.flags.retry ∧ bit 2 = p.flags.void ∧ bit 3 = p.flags.dim ∧
      bit 4 = p.flags.sat ∧ bit 5 = p.flags.range ∧ bit 6 = p.flags.gate ∧ bit 7 = p.flags.uncal) ∧
    fieldNat b 13 1 = p.attempts ∧
    fieldNat b 14 1 = (match p.lastCause with
      | none => 0
      | some .busy => 1
      | some .held => 2
      | some .timeout => 3
      | some .skipped => 4
      | some .dropout => 5
      | some .full => 6) ∧
    fieldNat b 15 1 = p.exposure ∧ fieldNat b 16 3 = p.theta ∧ fieldNat b 19 4 = p.phase ∧
    fieldInt b 23 4 = p.radius ∧ fieldNat b 27 2 = p.intensity) ∧
  (∀ m : Summary, summaryOk m →
    let b := summaryBytes m
    let k := m.counters
    b.length = 89 ∧ fieldNat b 0 2 = m.passId ∧
    fieldNat b 2 1 = (match m.endStatus with
      | none => 0
      | some .complete => 1
      | some .stalled => 2
      | some .aborted => 3
      | some .encoderFault => 4
      | some .indexFault => 5
      | some .probeFault => 6) ∧
    fieldInt b 3 4 = m.height ∧ fieldNat b 7 1 = m.turnsUsed ∧ fieldNat b 8 1 = m.largestSnap ∧
    (List.range 20).map (fun i => fieldNat b (9 + 4 * i) 4) =
      [k.crossedMain, k.emittedMain, k.emittedRetry, k.blanked, k.held, k.busy, k.missedMain, k.lateMissed,
       k.abandoned, k.retryLost, k.pushes, k.takes, k.overflowLost, k.unresolved, k.void, k.dim, k.range,
       k.timeout, k.skipped, k.full]) ∧
  ∀ (k : NoticeKind) (p : Pending), p.count ≤ 255 →
    (noticeBytes k p).length = 8 ∧ fieldNat (noticeBytes k p) 0 1 = noticePriority k ∧
    fieldNat (noticeBytes k p) 1 1 = p.count ∧
    (noticeBytes k p).drop 2 = (match p.detail with
      | .probeFault tag n => [tag.setWidth 8, BitVec.ofNat 8 n, 0#8, 0#8, 0#8, 0#8]
      | .encoderFault .quadrature => [1#8, 0#8, 0#8, 0#8, 0#8, 0#8]
      | .encoderFault .overrange => [2#8, 0#8, 0#8, 0#8, 0#8, 0#8]
      | .indexSlip d => 1#8 :: (beInt 4 d ++ [0#8])
      | .indexMissing => [2#8, 0#8, 0#8, 0#8, 0#8, 0#8]
      | .gateFault g .ok => [BitVec.ofNat 8 g.val, 0#8, 0#8, 0#8, 0#8, 0#8]
      | .gateFault g .openLoad => [BitVec.ofNat 8 g.val, 1#8, 0#8, 0#8, 0#8, 0#8]
      | .gateFault g .short => [BitVec.ofNat 8 g.val, 2#8, 0#8, 0#8, 0#8, 0#8]
      | .groupConflict q w o =>
        [BitVec.ofNat 8 q.val, BitVec.ofNat 8 w.val, BitVec.ofNat 8 o.val, 0#8, 0#8, 0#8]
      | .passStart id => beNat 2 id ++ [0#8, 0#8, 0#8, 0#8]
      | .swapDone w f e => [BitVec.ofNat 8 w, BitVec.ofNat 8 f, BitVec.ofNat 8 e, 0#8, 0#8, 0#8]
      | .storeDone op r =>
        [(match op with
          | .ccmt => 1#8
          | .clck => 2#8
          | .cers => 3#8), (match r with
          | .ok => 0#8
          | .verifyFail => 1#8), 0#8, 0#8, 0#8, 0#8]
      | .holdChange a => [if a then 1#8 else 0#8, 0#8, 0#8, 0#8, 0#8, 0#8]
      | .linkError c v =>
        [(match c with
          | .frame => 1#8
          | .crc => 2#8
          | .sync => 3#8
          | .overrun => 4#8), BitVec.ofNat 8 v, 0#8, 0#8, 0#8, 0#8])

/-! ### Resets -/

/-- After any of the three resets WBK, PSC, PRB, PNT, MSK and LNK hold the values of their reset rules (R60, R84,
R127, R144, R160, R200). -/
def Obligations.ResetClearsWorkingBlocks : Prop :=
  ∀ (c : Instr) (s : State) (causes : ResetCauses), isReset c s causes →
    ∃ t, exec c s = .next t ∧
      t.wbk = { workpiece := none
                activeState := .empty, active := ⟨[], Eight.all none, []⟩
                stagedState := .editing, staged := ⟨[], Eight.all none, []⟩ } ∧
      t.psc = { lead := none, drain := [], stall := none } ∧
      t.prb = { queue := [], nextTag := 0#4, lastTrigger := none, tmin := 20, tr := 1000, timeouts := 0,
                state := .ready, orphans := 0, checkFails := 0, rx := .hunting, out := none,
                waiting := none } ∧
      t.pnt = { buffer := [], largest := 0 } ∧ t.stack = [] ∧
      t.lnk = { lock := none, rx := .idle, requests := [], reply := none, errors := ⟨0, 0, 0, 0⟩,
                notices := ⟨none, none, none, none, none, none, none, none, none, none⟩, mask := 0x3FF#10,
                causes := causes, tx := .idle, rsetTaken := false }

/-- After any of the three resets CAL has checked its image, ENC has its settings from the working copy, the HOLD
input has taken its pin, and GTE drives the safe levels (chapters 1, 5, 9 and 10). That the accepted levels are
low, no line is noted and the index flag is clear before the first sample (log entry 3), that the first sample is due
at once (log entry 13) and that the pins and the time base are kept over the reset (log entry 23) is the model's
choice. -/
def Obligations.ResetChecksImageAndDrivesSafe : Prop :=
  ∀ (c : Instr) (s : State) (causes : ResetCauses), isReset c s causes →
    ∃ t, exec c s = .next t ∧
      (s.cal.programming = none → imageOk s.cal.image = true →
        t.cal = { image := s.cal.image, working := s.cal.image.settings, origin := .stored,
                  locked := s.cal.image.lockBit, programming := none }) ∧
      (s.cal.programming = none → imageOk s.cal.image = false →
        t.cal = { image := s.cal.image, working := Settings.default, origin := .defaults, locked := false,
                  programming := none }) ∧
      (s.cal.programming ≠ none → imageOk t.cal.image = false ∧ t.cal.working = Settings.default ∧
        t.cal.origin = .defaults ∧ t.cal.locked = false ∧ t.cal.programming = none) ∧
      t.enc = { settings := t.cal.working.enc, primed := false, accepted := ⟨false, false, false⟩,
                noted := ⟨false, false, false⟩, nextSample := s.now, indexArmed := false, c := 0, rev := 0,
                state := .notHomed, uLastIndex := 0, lastDeviation := 0, lastDirection := .forward,
                lastOutcome := .none, largestSnap := 0, quadErrors := 0 } ∧
      t.hold = { sense := .ignore, pin := s.hold.pin, since := none, qualified := s.hold.pin,
                 active := false } ∧
      t.gte.mode = .safe ∧ t.gte.last = none ∧ t.gte.conflicts = 0 ∧
      ∀ n : Fin 8, t.gte.gates.get n =
        { driven := t.cal.working.safe.get n, due := .none, waiting := false, status := .ok
          qual := if (s.gte.gates.get n).sense = t.cal.working.safe.get n then none else some s.now
          sense := (s.gte.gates.get n).sense }

/-! ### Encoder (chapter 1) -/

/-- The first sample after reset sets the accepted levels; a later one at which no line was noted at its new level
only notes the lines that differ (R1). An accepted update in which Z alone changes renews the accepted levels and the
history, sets the index-armed flag where Z falls, and is no count: nothing else changes (R1, R2, R6). At every update a
line takes a level that differs from its accepted one when the line was noted (R1). That the next sample falls one filter
period after this one, also when this one came late, is the model's choice (log entry 13). -/
def Obligations.FilterSampleNotesLines : Prop :=
  ∀ (s : State) (l : Lines), s.enc.nextSample ≤ s.now →
    (s.enc.primed = false → exec (.filterSample l) s = .next { s with
      enc := { s.enc with
        primed := true, accepted := l, noted := ⟨false, false, false⟩, indexArmed := !l.z
        nextSample := s.now + s.enc.settings.filterPeriod * 2 } }) ∧
    (s.enc.primed = true → (l.a ≠ s.enc.accepted.a → s.enc.noted.a = false) →
      (l.b ≠ s.enc.accepted.b → s.enc.noted.b = false) →
      (l.z ≠ s.enc.accepted.z → s.enc.noted.z = false) →
      exec (.filterSample l) s = .next { s with
        enc := { s.enc with
          noted := ⟨l.a != s.enc.accepted.a, l.b != s.enc.accepted.b, l.z != s.enc.accepted.z⟩
          nextSample := s.now + s.enc.settings.filterPeriod * 2 } }) ∧
    (s.enc.primed = true → (l.a ≠ s.enc.accepted.a → s.enc.noted.a = false) →
      (l.b ≠ s.enc.accepted.b → s.enc.noted.b = false) → l.z ≠ s.enc.accepted.z → s.enc.noted.z = true →
      exec (.acceptedUpdate l) s = .next { s with
        enc := { s.enc with
          accepted := { s.enc.accepted with z := l.z }
          noted := ⟨l.a != s.enc.accepted.a, l.b != s.enc.accepted.b, false⟩
          nextSample := s.now + s.enc.settings.filterPeriod * 2
          indexArmed := s.enc.indexArmed || s.enc.accepted.z } }) ∧
    filterAccepted s.enc l =
      { a := if s.enc.noted.a = true then l.a else s.enc.accepted.a
        b := if s.enc.noted.b = true then l.b else s.enc.accepted.b
        z := if s.enc.noted.z = true then l.z else s.enc.accepted.z } ∧
    filterNoted s.enc l =
      { a := l.a != s.enc.accepted.a && !s.enc.noted.a
        b := l.b != s.enc.accepted.b && !s.enc.noted.b
        z := l.z != s.enc.accepted.z && !s.enc.noted.z }

/-- The decoder's table (R2): both lines changed is an error, neither is nothing, and one is a count whose
direction the forward sense turns about. -/
def Obligations.QuadratureTable : Prop :=
  ∀ before after : Lines,
    let forward := [((false, false), (true, false)), ((true, false), (true, true)), ((true, true), (false, true)),
      ((false, true), (false, false))]
    let step := ((before.a, before.b), (after.a, after.b))
    (before.a ≠ after.a ∧ before.b ≠ after.b → ∀ sense, decodePair sense before after = .quadError) ∧
    (before.a = after.a ∧ before.b = after.b → ∀ sense, decodePair sense before after = .none) ∧
    ((before.a = after.a ↔ before.b ≠ after.b) →
      decodePair .aLeads before after = .count (if step ∈ forward then .forward else .reverse) ∧
      decodePair .bLeads before after = .count (if step ∈ forward then .reverse else .forward))

/-- A count that is no index crossing moves U by one and keeps c within the turn and the encoder state, when it
passes no bound and finds no missing index; with the lead IDLE or ARMED nothing changes but ENC in SAFE, and in RUN
GTE, which evaluates the new position. A count past a bound of the revolution number is a revolution overrun: ENC
enters FAULT, and from HOMED that ends a running pass ENCODER_FAULT and takes GTE to SAFE (sections 1.2, 1.3, 1.5,
4.5, 9.1 to 9.3). The instant of the next sample is the model's choice (log entry 13), and so is which candidate a group
without a holder drives when one of them already waits (log entry 32). -/
def Obligations.CountMovesPosition : Prop :=
  ∀ (s : State) (l : Lines) (dir : Dir), countsOnce s l dir → ¬ crossesIndex s l →
    let cpr := s.enc.settings.cpr
    let counted := fun (c : Nat) (rev : Int) => { s.enc with
      c := c, rev := rev
      accepted := filterAccepted s.enc l, noted := filterNoted s.enc l
      nextSample := s.now + s.enc.settings.filterPeriod * 2
      indexArmed := s.enc.indexArmed || (s.enc.accepted.z && !(filterAccepted s.enc l).z) }
    (¬ overrunsBound s dir →
      (s.enc.state = .homed → (countedU s dir - s.enc.uLastIndex).natAbs ≤ cpr + s.enc.settings.tolerance) →
      ∃ t, exec (.acceptedUpdate l) s = .next t ∧
        encU t.enc = countedU s dir ∧ t.enc.c < cpr ∧ t.enc = counted t.enc.c t.enc.rev ∧
        t.wbk = s.wbk ∧ t.hold = s.hold ∧ t.cal = s.cal ∧
        (noRunningLead s → t.psc = s.psc) ∧
        (noRunningLead s → s.gte.mode = .safe → t = { s with enc := t.enc }) ∧
        ∀ w, noRunningLead s → s.gte.mode = .run → s.wbk.workpiece = some w → workpieceOk w →
          groupsExclusive s → noticesOk s →
          gatesEvaluated dir w.blades (bladePhaseAt w cpr (countedU s dir)) { s with enc := t.enc } t) ∧
    (overrunsBound s dir → ∃ t, exec (.acceptedUpdate l) s = .next t ∧
      t.enc = { counted (if dir = .forward then 0 else cpr - 1) 0 with state := .fault } ∧
      noticeSlot t.lnk.notices .encoderFault =
        some (raisedSlot (noticeSlot s.lnk.notices .encoderFault) (.encoderFault .overrange)) ∧
      t.wbk = s.wbk ∧ t.hold = s.hold ∧ t.cal = s.cal ∧
      (s.enc.state = .homed → homedLeft .encoderFault s t) ∧
      (noRunningLead s → t.psc = s.psc ∧ t.prb = s.prb ∧ t.pnt = s.pnt ∧ t.stack = s.stack))

/-- An accepted update in which A and B both change yields no count, raises the error count, takes ENC to FAULT
from any state, raises ENCODER_FAULT and is no index crossing; a fall of Z in it still sets the index flag (R3). From
HOMED it ends a running pass ENCODER_FAULT and takes GTE to SAFE, and an ARMED lead stays as it is (R12, R75); from
another state nothing else changes. The instant of the next sample is the model's choice (log entry 13). -/
def Obligations.QuadratureErrorFaults : Prop :=
  ∀ (s : State) (l : Lines), acceptsUpdate s l → (filterAccepted s.enc l).a ≠ s.enc.accepted.a →
    (filterAccepted s.enc l).b ≠ s.enc.accepted.b →
    ∃ t, exec (.acceptedUpdate l) s = .next t ∧
      t.enc = { s.enc with
        accepted := filterAccepted s.enc l, noted := filterNoted s.enc l
        nextSample := s.now + s.enc.settings.filterPeriod * 2
        quadErrors := min (s.enc.quadErrors + 1) 4294967295, state := .fault
        indexArmed := s.enc.indexArmed || (s.enc.accepted.z && !(filterAccepted s.enc l).z) } ∧
      noticeSlot t.lnk.notices .encoderFault =
        some (raisedSlot (noticeSlot s.lnk.notices .encoderFault) (.encoderFault .quadrature)) ∧
      (∀ k, k ≠ .encoderFault → noticeSlot t.lnk.notices k = noticeSlot s.lnk.notices k) ∧
      (s.enc.state = .homed → homedLeft .encoderFault s t) ∧
      (s.enc.state ≠ .homed → t = { s with enc := t.enc, lnk := { s.lnk with notices := t.lnk.notices } })

/-- What a crossing makes of ENC after its count (sections 1.4 and 1.5): homing, a reverse crossing outside HOMED,
a snap, a slip; a snap or a count that overruns the revolution number (sections 1.3 and 1.5; that a crossing is judged
after the overrun of its count is log entry 14); and a count that is no crossing and finds the index missing. Where
ENC so leaves HOMED a running pass ends, INDEX_FAULT for a slip or a missing index and ENCODER_FAULT for an overrun,
GTE enters SAFE and an ARMED lead stays as it is (R12, R75). That a running pass ends so too where a count overruns in
HOMED and its forward crossing homes again is the model's choice (log entry 36). A crossing that leaves ENC HOMED, and a reverse one out of
HOMED, with the lead IDLE, or ARMED in reverse, and no exchange, moves GTE alone: in RUN it evaluates the new U, and
where a snap leaves U unchanged it stays as it is (R162, R163). The instant of the next sample is the model's choice
(log entry 13). -/
def Obligations.IndexCrossingOutcomes : Prop :=
  ∀ (s : State) (l : Lines) (dir : Dir), countsOnce s l dir →
    let cpr : Int := s.enc.settings.cpr
    let u := countedU s dir
    let rev := u / cpr
    let delta := if 2 * (u % cpr) ≤ cpr then u % cpr else u % cpr - cpr
    let faulted := fun t : State => noticeSlot t.lnk.notices .encoderFault =
      some (raisedSlot (noticeSlot s.lnk.notices .encoderFault) (.encoderFault .overrange))
    let moved := fun e : Enc => { s.enc with
      c := e.c, rev := e.rev, state := e.state, uLastIndex := e.uLastIndex, largestSnap := e.largestSnap
      lastDeviation := e.lastDeviation, lastDirection := e.lastDirection, lastOutcome := e.lastOutcome
      indexArmed := e.indexArmed, accepted := filterAccepted s.enc l, noted := filterNoted s.enc l
      nextSample := s.now + s.enc.settings.filterPeriod * 2 }
    let aside := s.psc.lead = none ∨ (dir = .reverse ∧ noRunningLead s)
    (crossesIndex s l → ¬ overrunsBound s dir → ∃ t, exec (.acceptedUpdate l) s = .next t ∧ t.enc = moved t.enc ∧
      (t.enc.state = .homed ∨ s.enc.state ≠ .homed → aside →
        (s.wbk.stagedState = .pending → t.enc.state ≠ .homed) → gatesFollow t.enc s t) ∧
      t.enc.indexArmed = false ∧ t.enc.lastDeviation = delta ∧ t.enc.lastDirection = dir ∧
      (s.enc.state ≠ .homed → dir = .forward →
        t.enc.state = .homed ∧ t.enc.c = 0 ∧ t.enc.rev = rev ∧ t.enc.uLastIndex = rev * cpr ∧
          t.enc.lastOutcome = .homing ∧ t.enc.largestSnap = s.enc.largestSnap) ∧
      (s.enc.state ≠ .homed → dir = .reverse →
        t.enc.state = s.enc.state ∧ (t.enc.c : Int) = u % cpr ∧ t.enc.rev = rev ∧
          t.enc.uLastIndex = s.enc.uLastIndex ∧ t.enc.lastOutcome = .none ∧
          t.enc.largestSnap = s.enc.largestSnap) ∧
      (s.enc.state = .homed → delta.natAbs ≤ s.enc.settings.tolerance →
        t.enc.c = 0 ∧ t.enc.lastOutcome = .snap ∧
          t.enc.largestSnap = max s.enc.largestSnap delta.natAbs ∧
        (0 ≤ delta ∨ rev < 2147483647 →
          t.enc.state = .homed ∧ encU t.enc = u - delta ∧ t.enc.uLastIndex = u - delta) ∧
        (delta < 0 → rev = 2147483647 → t.enc.state = .fault ∧ t.enc.rev = 0 ∧ faulted t ∧
          homedLeft .encoderFault s t)) ∧
      (s.enc.state = .homed → s.enc.settings.tolerance < delta.natAbs →
        t.enc.state = .notHomed ∧ encU t.enc = u ∧ (t.enc.c : Int) = u % cpr ∧ t.enc.lastOutcome = .slip ∧
          t.enc.uLastIndex = s.enc.uLastIndex ∧ t.enc.largestSnap = s.enc.largestSnap ∧
          noticeSlot t.lnk.notices .indexFault =
            some (raisedSlot (noticeSlot s.lnk.notices .indexFault) (.indexSlip delta)) ∧
          homedLeft .indexFault s t)) ∧
    (crossesIndex s l → overrunsBound s dir → ∃ t, exec (.acceptedUpdate l) s = .next t ∧ t.enc = moved t.enc ∧
      (aside → (s.wbk.stagedState = .pending → t.enc.state ≠ .homed) → t = { s with
        enc := t.enc, gte := t.gte, lnk := { s.lnk with notices := t.lnk.notices } }) ∧
      t.enc.rev = 0 ∧ faulted t ∧ t.enc.lastDirection = dir ∧ t.enc.indexArmed = false ∧
      t.enc.largestSnap = s.enc.largestSnap ∧
      (dir = .forward → t.enc.state = .homed ∧ t.enc.c = 0 ∧ t.enc.uLastIndex = 0 ∧ t.enc.lastOutcome = .homing) ∧
      (dir = .forward → s.enc.state = .homed → leadCountersOk s → ∀ l, s.psc.lead = some l → l.phase ≠ .armed →
        leadAbandoned .encoderFault l s t) ∧
      (dir = .reverse → t.enc.state = .fault ∧ (t.enc.c : Int) = cpr - 1 ∧ t.enc.lastOutcome = .none ∧
        t.enc.uLastIndex = s.enc.uLastIndex ∧ (s.enc.state = .homed → homedLeft .encoderFault s t))) ∧
    (¬ crossesIndex s l → ¬ overrunsBound s dir → s.enc.state = .homed →
      s.enc.settings.cpr + s.enc.settings.tolerance < (u - s.enc.uLastIndex).natAbs →
      ∃ t, exec (.acceptedUpdate l) s = .next t ∧ t.enc.state = .notHomed ∧ encU t.enc = u ∧
        (t.enc.c : Int) = u % cpr ∧
        t.enc = moved { s.enc with
          c := t.enc.c, rev := t.enc.rev, state := .notHomed
          indexArmed := s.enc.indexArmed || (s.enc.accepted.z && !(filterAccepted s.enc l).z) } ∧
        noticeSlot t.lnk.notices .indexFault =
          some (raisedSlot (noticeSlot s.lnk.notices .indexFault) .indexMissing) ∧ homedLeft .indexFault s t)

/-- Whatever command takes ENC out of HOMED leaves GTE in SAFE, driving the safe levels, with no gate due or waiting
and no position evaluated, and leaves no running lead; a command other than a reset enters SAFE from the state as it
is (R12, R161, R162). Where an accepted update does so, a running pass ends ENCODER_FAULT if ENC is then in FAULT, by a
quadrature error or an overrun, and INDEX_FAULT if it is NOT_HOMED, by a slip or a missing index: its tags leave the
queue into abandoned and retry_lost, a waiting trigger frame of such a tag is withdrawn, the stall timer stops, the
stack goes into unresolved and the context drains or is summarised; an ARMED lead stays as it is, and nothing else
changes but ENC and the notices (R73, R75). -/
def Obligations.LeavingHomedTakesGatesToSafe : Prop :=
  ∀ (c : Instr) (s t : State), exec c s = .next t → s.enc.state = .homed → t.enc.state ≠ .homed →
    (t.gte.mode = .safe ∧ t.gte.last = none ∧ (∀ n, (t.gte.gates.get n).due = .none) ∧ safeLevelsDriven t) ∧
    (c ≠ .powerOnReset → c ≠ .pinReset → c ≠ .requestReset → entersSafe s t) ∧
    (∀ l, c = .acceptedUpdate l →
      homedLeft (if t.enc.state = .fault then .encoderFault else .indexFault) s t) ∧
    ∀ l, s.psc.lead = some l → l.phase ≠ .armed → t.psc.lead = none

/-- Every step keeps c within the turn and the revolution number within its bounds, ENC's settings those of the
working copy with a CPR that ENC accepts, and ENC HOMED while GTE is in RUN (R4, R14, R161). -/
def Obligations.EncoderInvariantKept : Prop :=
  ∀ s t : State, step s = .next t → positionOk s → settingsOk s → runHomed s →
    positionOk t ∧ settingsOk t ∧ runHomed t

/-- An ENCF is refused by the first row of R15 that matches. Taken with OK it clamps tolerance and filter period,
edits the working copy and renews ENC's settings; a change of CPR or sense clears c and goes to NOT_HOMED, from HOMED
with GTE entering SAFE, and anything else keeps the position; a change of the filter period restarts the sample
history. No notice is raised, and GTE stays as it is unless ENC leaves HOMED (sections 1.1, 1.7, 10.2); where GTE may
be in RUN outside HOMED, which no run reaches, this is not said of a change of CPR or sense. -/
def Obligations.EncfRenewsSettings : Prop :=
  ∀ (s : State) (p : List Byte), CanDispatch 0x06#8 p s → p.length = 8 →
    let refused := fun st : Byte => exec (.encf p) s =
      .next { s with lnk := answered s.lnk 0x86#8 [st, 0#8, 0#8] }
    if s.cal.locked = true then refused 4#8
    else if s.cal.programming ≠ none then refused 1#8
    else if s.psc.lead ≠ none then refused 1#8
    else if fieldNat p 0 4 < 1024 ∨ 16777216 < fieldNat p 0 4 then refused 3#8
    else if 1 < fieldNat p 4 1 then refused 3#8
    else
      let new : EncSettings :=
        { cpr := fieldNat p 0 4, sense := if fieldNat p 4 1 = 0 then .aLeads else .bLeads
          tolerance := min 255 (fieldNat p 5 2), filterPeriod := max 1 (min 128 (fieldNat p 7 1)) }
      let changed := new.cpr ≠ s.enc.settings.cpr ∨ new.sense ≠ s.enc.settings.sense
      ∃ t, exec (.encf p) s = .next t ∧
        t.cal = { s.cal with working := { s.cal.working with enc := new }, origin := .edited } ∧
        t.enc = { s.enc with
          settings := new
          noted := if new.filterPeriod = s.enc.settings.filterPeriod then s.enc.noted else ⟨false, false, false⟩
          c := if changed then 0 else s.enc.c, state := if changed then .notHomed else s.enc.state } ∧
        t = { s with
          enc := t.enc, cal := t.cal, gte := t.gte
          lnk := { answered s.lnk 0x86#8 (0#8 :: (encSettingsBytes new ++ [encStateCode t.enc.state])) with
            notices := t.lnk.notices } } ∧
        (¬ changed ∨ runHomed s → t.lnk.notices = s.lnk.notices) ∧
        (¬ changed → t.gte = s.gte) ∧ (changed → s.enc.state = .homed → entersSafe s t) ∧
        (changed → s.enc.state ≠ .homed → runHomed s → t.gte = s.gte)

/-! ### Pitch arithmetic (chapter 2) -/

/-- The table angle is the floor of c × 2^24 / CPR; it stays below one turn, rises at every count by the floor or
the ceiling of 2^24 / CPR, and wraps by the ceiling (R22, R23). -/
def Obligations.TableAngleRisesWithCount : Prop :=
  ∀ cpr : Nat, 1024 ≤ cpr → cpr ≤ 16777216 →
    (∀ c, c < cpr → tableAngle cpr c = c * 16777216 / cpr ∧ tableAngle cpr c ≤ 16777215) ∧
    tableAngle cpr 0 = 0 ∧
    tableAngle cpr (cpr - 1) + (16777216 + cpr - 1) / cpr = 16777216 ∧
    (cpr ∣ 16777216 → ∀ c, tableAngle cpr c = c * (16777216 / cpr)) ∧
    (∀ c, c + 1 < cpr →
      tableAngle cpr c < tableAngle cpr (c + 1) ∧
      (tableAngle cpr (c + 1) = tableAngle cpr c + 16777216 / cpr ∨
        tableAngle cpr (c + 1) = tableAngle cpr c + (16777216 + cpr - 1) / cpr)) ∧
    tableAngle 360000 359999 = 16777169

/-- ρ lies between the entries of its segment, and each mode approaches the next entry as the table of R26 says. -/
def Obligations.RunoutBetweenEntries : Prop :=
  ∀ (table : List Int) (theta : Nat), theta < 16777216 →
    (∀ i, -32768 ≤ runoutEntry table i ∧ runoutEntry table i ≤ 32767) →
    let here := runoutEntry table (theta / 65536)
    let next := runoutEntry table ((theta / 65536 + 1) % 256)
    let f := theta % 65536
    let n := (next - here).natAbs
    let rho := fun mode => runoutCorrection table mode theta
    (∀ mode, min here next ≤ rho mode ∧ rho mode ≤ max here next) ∧
    (n = 0 → ∀ mode, rho mode = here) ∧
    (n ≠ 0 → (rho .chop - here).natAbs + 1 ≤ n ∧ (f = 65535 → (rho .chop - here).natAbs + 1 = n)) ∧
    (1 ≤ n → n ≤ 32768 → (rho .nearest = next ↔ 65536 ≤ f + 32768 / n)) ∧
    (32768 < n → (rho .nearest - here).natAbs + 1 ≤ n ∧
      (f = 65535 → (rho .nearest - here).natAbs + 1 = n))

/-- The trimmed blade and phase name Q measured from the start of the blade's trimmed pitch, and the phase stays
within that pitch, whose length is within its bounds (R31). -/
def Obligations.TrimmedPhaseInPitch : Prop :=
  ∀ (w : Workpiece) (theta : Nat), workpieceOk w → theta < 16777216 →
    let n := nominal w theta
    let t := trimmed w n
    let turn : Int := w.blades * 16777216
    t.blade < w.blades ∧ t.phase < pitchLength w t.blade ∧ t.phase ≤ 18874367 ∧
    (pitchLength w t.blade : Int) = 16777216 + trim w ((t.blade + 1) % w.blades) - trim w t.blade ∧
    14680064 ≤ pitchLength w t.blade ∧ pitchLength w t.blade ≤ 18874368 ∧
    ((t.blade : Int) * 16777216 + trim w t.blade + t.phase) % turn = (turnPhase w theta : Int) % turn ∧
    (trimCase w n = .before → 15728640 ≤ t.phase) ∧ (trimCase w n = .after → t.phase < 1048576)

/-- From one count to the next forward count the phase rises on the same blade, or the blade becomes the next and
the phase falls by the old blade's pitch length; the advance of the phase is B × a or B × (a + 1) with
a = floor(2^24 / CPR), at most 2,097,152 (R34, R35). Read backward it is the reverse count. -/
def Obligations.OneCountMovesPhase : Prop :=
  ∀ (w : Workpiece) (cpr : Nat) (u : Int), workpieceOk w → 1024 ≤ cpr → cpr ≤ 16777216 →
    let old := bladePhaseAt w cpr u
    let new := bladePhaseAt w cpr (u + 1)
    ∃ advance : Nat,
      (advance = w.blades * (16777216 / cpr) ∨ advance = w.blades * (16777216 / cpr + 1)) ∧ advance ≤ 2097152 ∧
      ((new.blade = old.blade ∧ new.phase = old.phase + advance) ∨
        (new.blade = (old.blade + 1) % w.blades ∧
          new.phase + pitchLength w old.blade = old.phase + advance))

/-! ### Lattice crossing (chapter 5) -/

/-- The lattice points crossed between two positions are those of the windows that cover the blade whose phases
lie in the interval passed, first on the old blade and then on the new (R86, R87); in a valid bank those of one
blade come in ascending phase, which the model relies on for the order (log entry 21). -/
def Obligations.CrossedPointsAreThosePassed : Prop :=
  ∀ (w : Workpiece) (bank : Bank) (before now : BladePhase), workpieceOk w → before.blade < w.blades →
    now.blade < w.blades → (∀ v ∈ bank.windows, windowOk v) →
    let onBlade := fun (pt : CrossedPoint) (blade : Nat) =>
      pt.blade = blade ∧ bank.windows[pt.index]? = some pt.window ∧
        (∀ r, pt.window.range = some r → ∃ i, i < r.count ∧ blade = (r.first + i) % w.blades) ∧
        pt.j ≤ (pt.window.stop - 1 - pt.window.start) / pt.window.step
    let phase := fun pt : CrossedPoint => pt.window.start + pt.j * pt.window.step
    (before.blade = now.blade ∧ (w.blades ≠ 1 ∨ before.phase ≤ now.phase) →
      ∀ pt, pt ∈ crossedBetween w bank before now ↔
        onBlade pt now.blade ∧ before.phase < phase pt ∧ phase pt ≤ now.phase) ∧
    (¬ (before.blade = now.blade ∧ (w.blades ≠ 1 ∨ before.phase ≤ now.phase)) →
      ∃ old new, crossedBetween w bank before now = old ++ new ∧
        (∀ pt, pt ∈ old ↔
          onBlade pt before.blade ∧ before.phase < phase pt ∧ phase pt < pitchLength w before.blade) ∧
        ∀ pt, pt ∈ new ↔ onBlade pt now.blade ∧ phase pt ≤ now.phase) ∧
    (bankValid bank w.blades → ∀ lo hi,
      (bladePoints bank w.blades now.blade lo hi).Pairwise fun a b => phase a < phase b)

/-- A point crossed in the main span is BLANKED, HELD, BUSY or FIRED by the first test that applies. A BLANKED one
leaves nothing but its counts (R90, R92). A HELD or BUSY one is pushed with attempts 1, onto a full stack in place of
the oldest entry; a key that stands on the stack is not pushed again (R99, R148, R149). A FIRED one on a ready port
joins the queue and the in-flight count, with the next tag; its frame begins at once, or waits for the end of the frame
that is going out, and that moment is its fire time (R108; sections 5.2 and 5.6). -/
def Obligations.MainSpanClassification : Prop :=
  ∀ (s : State) (l : Lead) (u : Int) (overlap : Bool) (pt : CrossedPoint), s.psc.lead = some l →
    l.phase ≠ .armed →
    let lead := fun (c : PassCtx) => { s.psc with lead := some { l with ctx := c } }
    let k := { l.ctx.counters with crossedMain := satInc l.ctx.counters.crossedMain }
    let blanked := ∃ g, pt.window.gate = some g ∧ (s.gte.gates.get g.gate).driven ≠ g.level
    let free := (∀ t, s.prb.lastTrigger = some t → t + s.prb.tmin * 100 ≤ s.now) ∧ s.prb.queue.length < 4
    let missed := fun cause => MissEntry.mk pt.blade pt.index pt.j overlap cause 1
    let refused := fun (c : Counters) => { s with psc := lead { l.ctx with counters := c } }
    let pushed := fun (cause : MissCause) (c : Counters) => { s with
      psc := lead { l.ctx with
        counters := { c with
          pushes := satInc c.pushes
          overflowLost := if 16 ≤ s.stack.length then satInc c.overflowLost else c.overflowLost } }
      stack := missed cause :: if 16 ≤ s.stack.length then s.stack.dropLast else s.stack }
    (blanked → crossMain l u overlap s pt = refused { k with blanked := satInc k.blanked }) ∧
    (¬ blanked → s.hold.active = true → crossMain l u overlap s pt =
      if s.stack.any (sameKey (missed .held)) then refused { k with held := satInc k.held }
      else pushed .held { k with held := satInc k.held }) ∧
    (¬ blanked → s.hold.active = false → ¬ free → crossMain l u overlap s pt =
      if s.stack.any (sameKey (missed .busy)) then refused { k with busy := satInc k.busy }
      else pushed .busy { k with busy := satInc k.busy }) ∧
    (¬ blanked → s.hold.active = false → free → s.prb.state = .ready → s.prb.waiting = none →
      let start := match s.prb.out with
        | none => s.now
        | some f => max s.now (f.start + 300)
      let frame : TriggerFrame := { tag := s.prb.nextTag, exposure := pt.window.exposure, start := start }
      ∃ e : TagEntry, crossMain l u overlap s pt =
        { s with
          psc := lead { l.ctx with counters := k, mainInFlight := l.ctx.mainInFlight + 1 }
          prb := { s.prb with
            queue := s.prb.queue ++ [e], nextTag := s.prb.nextTag + 1, lastTrigger := some start
            out := if start = s.now then some frame else s.prb.out
            waiting := if start = s.now then none else some frame } } ∧
        e.tag = s.prb.nextTag ∧ e.passId = l.ctx.settings.passId ∧
        e.origin = (if overlap then .overlap else .main) ∧ e.overlap = overlap ∧ e.blade = pt.blade ∧
        e.window = pt.index ∧ e.j = pt.j ∧ e.theta = thetaAt s u ∧
        e.rho = rhoAt s l.ctx.settings.rounding u ∧ (∀ q, queryPhase s u = some q → e.phase = q.phase) ∧
        e.exposure = pt.window.exposure ∧ e.floor = pt.window.floor ∧ e.attempts = 0 ∧ e.lastCause = none ∧
        e.fireTime = start ∧ (e.gateFault = true ↔ ∃ n, (s.gte.gates.get n).status ≠ .ok))

/-- One accepted update fires at most one trigger: the next tag moves by one at most (R98), while Tmin is within its
range. An accepted update hands an advance to the lead one position at a time, after GTE has taken the change; the
stall timer then restarts and a snapped crossing raises the largest snap. At each position its points are crossed, in
the main span or in a retry turn, the high-water rises, and a turn boundary enters a retry turn or ends the pass
(sections 4.4 and 5.2). That GTE takes the change first is log entry 16, and which candidate a group without a holder
drives when one of them already waits is log entry 32. -/
def Obligations.OneTriggerPerAdvance : Prop :=
  (∀ (s t : State) (l : Lines), exec (.acceptedUpdate l) s = .next t → probeOk s →
    t.prb.nextTag = s.prb.nextTag ∨ t.prb.nextTag = s.prb.nextTag + 1) ∧
  (∀ (s : State) (l : Lines) (dir : Dir) (lead : Lead), countsOnce s l dir → ¬ overrunsBound s dir →
    s.psc.lead = some lead → lead.phase ≠ .armed → s.enc.state = .homed →
    encU s.enc ≤ lead.ctx.uStart + lead.ctx.highWater →
    ∃ t, exec (.acceptedUpdate l) s = .next t ∧ (t.enc.state = .homed →
      ∃ s1, gatesFollow t.enc s s1 ∧
        let n := (encU t.enc - lead.ctx.uStart - lead.ctx.highWater).toNat
        let s2 := if n = 0 then s1 else advancePositions n s1
        let s3 := if n = 0 then s1 else { s2 with
          psc := { s2.psc with stall := s2.psc.lead.map fun l => s.now + l.ctx.settings.stallMs * 100000 } }
        (¬ crossesIndex s l → t = s3) ∧
        (crossesIndex s l → t = { s3 with
          psc := { s3.psc with
            lead := s3.psc.lead.map fun l => { l with
              ctx := { l.ctx with largestSnap := max l.ctx.largestSnap t.enc.lastDeviation.natAbs } } } }))) ∧
  (∀ (n : Nat) (s : State), advancePositions 0 s = s ∧
    advancePositions (n + 1) s = advancePositions n (advanceOne s) ∧ (s.psc.lead = none → advanceOne s = s)) ∧
  ∀ (s : State) (l : Lead), s.psc.lead = some l → l.phase ≠ .armed →
    let cpr := s.enc.settings.cpr
    let span := cpr + l.ctx.settings.overlap
    let turn := l.ctx.turn
    let prog := l.ctx.highWater + 1
    let u := l.ctx.uStart + prog
    ∃ s' l', s' = { s with psc := s'.psc, prb := s'.prb, stack := s'.stack } ∧
      (prog ≤ span → s' = (crossedAt s u).foldl (crossMain l u (decide (cpr < prog))) s) ∧
      (span < prog → s' = (crossedAt s u).foldl (crossRetry l u) s) ∧
      s'.psc = { s.psc with lead := some l' } ∧ l'.phase = l.phase ∧
      l'.ctx = { l.ctx with
        mainInFlight := l'.ctx.mainInFlight, retryInFlight := l'.ctx.retryInFlight, counters := l'.ctx.counters } ∧
      let c := { l'.ctx with highWater := prog }
      (prog ≠ span + turn * cpr → advanceOne s = { s' with psc := { s.psc with lead := some { l with ctx := c } } }) ∧
      (prog = span + turn * cpr → s'.stack ≠ [] → turn ≠ l.ctx.settings.retryTurns →
        advanceOne s = { s' with
          psc := { s.psc with
            lead := some { phase := .retrying, ctx := { c with turn := turn + 1, turnsUsed := turn + 1 } } } }) ∧
      (prog = span + turn * cpr → s'.stack = [] ∨ turn = l.ctx.settings.retryTurns →
        let ended := { c with
          endStatus := some .complete
          counters := { c.counters with unresolved := satAdd c.counters.unresolved s'.stack.length } }
        (noTags c = true ∧ s.psc.drain = [] → advanceOne s = { s' with
          psc := { lead := none, drain := [], stall := none }, stack := []
          pnt := { buffer := s.pnt.buffer ++ [.summary (summaryOf ended)]
                   largest := max s.pnt.largest (s.pnt.buffer.length + 1) } }) ∧
        (¬ (noTags c = true ∧ s.psc.drain = []) → advanceOne s = { s' with
          psc := { lead := none, drain := s.psc.drain ++ [ended], stall := none }, stack := [] }))

/-- A change of the HOLD pin starts its 10 µs, or cancels them when it returns to the qualified level; a level that
has stood 10 µs becomes the qualified level, and HOLD_CHANGE is raised exactly when the condition changes (sections
5.3; that a repeated level does nothing is log entry 9). -/
def Obligations.HoldPinQualifies : Prop :=
  (∀ (s : State) (level : Bool), level ≠ s.hold.pin →
    exec (.holdPinChange level) s = .next { s with
      hold := { s.hold with pin := level, since := if level = s.hold.qualified then none else some s.now } }) ∧
  (∀ s : State, exec (.holdPinChange s.hold.pin) s = .next s) ∧
  ∀ (s : State) (t : Nat), s.hold.since = some t → t + 1000 ≤ s.now →
    let now := match s.hold.sense with
      | .ignore => false
      | .activeLow => !s.hold.pin
      | .activeHigh => s.hold.pin
    (now = s.hold.active → exec .holdQualified s = .next { s with
      hold := { s.hold with qualified := s.hold.pin, since := none } }) ∧
    (now ≠ s.hold.active → exec .holdQualified s = .next (raise (.holdChange now) { s with
      hold := { s.hold with qualified := s.hold.pin, since := none, active := now } }))

/-- HOLD replaces the sense and works the condition out at once from the qualified level, whatever the lead and the
encoder; an illegal sense code is refused with BAD_ARG (R95). -/
def Obligations.HoldRequestSetsSense : Prop :=
  ∀ (s : State) (b : Byte), CanDispatch 0x14#8 [b] s →
    (3 ≤ b.toNat → exec (.hold [b]) s = .next { s with lnk := answered s.lnk 0x94#8 [3#8, 0#8, 0#8] }) ∧
    ∀ sense : HoldSense, b = holdSenseCode sense →
      let now := match sense with
        | .ignore => false
        | .activeLow => !s.hold.qualified
        | .activeHigh => s.hold.qualified
      let reply := [0#8, b, byteOfBool s.hold.qualified, byteOfBool now]
      (now = s.hold.active → exec (.hold [b]) s = .next { s with
        hold := { s.hold with sense := sense }, lnk := answered s.lnk 0x94#8 reply }) ∧
      (now ≠ s.hold.active → exec (.hold [b]) s = .next { s with
        hold := { s.hold with sense := sense, active := now }
        lnk := answered (raise (.holdChange now) s).lnk 0x94#8 reply })

/-! ### Window banks (chapter 3) -/

/-- A WKLD is refused by the first row of R39 that matches, a trim out of range with the lowest such blade (its
second detail byte is log entry 19). Taken with OK it replaces the workpiece record, empties both banks, cancels a
pending swap, puts GTE into SAFE and raises no notice (R40); its reply gives the least and the greatest pitch length,
each with the lowest blade that has it (R41). -/
def Obligations.WkldReplacesWorkpiece : Prop :=
  ∀ (s : State) (p : List Byte), CanDispatch 0x0E#8 p s → 4 ≤ p.length →
    let blades := fieldNat p 0 1
    let trimLegal := fun k => -1048576 ≤ fieldInt p (4 + 3 * k) 3 ∧ fieldInt p (4 + 3 * k) 3 ≤ 1048576
    let refused := fun st d : Byte => exec (.wkld p) s =
      .next { s with lnk := answered s.lnk 0x8E#8 [st, d, 0#8] }
    (s.psc.lead ≠ none → refused 1#8 0#8) ∧
    (s.psc.lead = none → blades < 1 ∨ 128 < blades → refused 3#8 0#8) ∧
    (s.psc.lead = none → 1 ≤ blades → blades ≤ 128 → p.length ≠ 4 + 3 * blades → refused 8#8 0#8) ∧
    (s.psc.lead = none → 1 ≤ blades → blades ≤ 128 → p.length = 4 + 3 * blades →
      ∀ k, k < blades → ¬ trimLegal k → (∀ i, i < k → trimLegal i) → refused 3#8 (BitVec.ofNat 8 k)) ∧
    (s.psc.lead = none → 1 ≤ blades → blades ≤ 128 → p.length = 4 + 3 * blades → (∀ k, k < blades → trimLegal k) →
      let w : Workpiece := { blades := blades, datum := fieldNat p 1 3
                             trims := (List.range blades).map fun k => fieldInt p (4 + 3 * k) 3 }
      ∃ t least greatest, exec (.wkld p) s = .next t ∧
        least < w.blades ∧ greatest < w.blades ∧
        (∀ k, k < w.blades → pitchLength w least ≤ pitchLength w k ∧
          (k < least → pitchLength w least < pitchLength w k)) ∧
        (∀ k, k < w.blades → pitchLength w k ≤ pitchLength w greatest ∧
          (k < greatest → pitchLength w k < pitchLength w greatest)) ∧
        entersSafe s t ∧ (∀ n, (t.gte.gates.get n).driven = true ↔
          s.cal.working.safe.get n = true ∧ (s.gte.gates.get n).status ≠ .short) ∧
        t = { s with
          wbk := { workpiece := some w, activeState := .empty, active := ⟨[], Eight.all none, []⟩
                   stagedState := .editing, staged := ⟨[], Eight.all none, []⟩ }
          gte := t.gte
          lnk := answered s.lnk 0x8E#8 (0#8 :: (beNat 1 w.blades ++ beNat 3 w.datum ++
            beNat 4 (pitchLength w least) ++ beNat 1 least ++ beNat 4 (pitchLength w greatest) ++
            beNat 1 greatest)) })

/-- STWN with a legal record inserts it, clamped, after every window whose start is at or below its own and before
every other, and replies with the record, its position and the new length; an illegal record, a PENDING bank and a
full list are refused (R44 to R46). The widths of the position and of the length in the reply and the echo of an
absent gate's level and an absent range's count are the model's choice (log entry 18). -/
def Obligations.StwnInsertsInStartOrder : Prop :=
  ∀ (s : State) (p : List Byte), CanDispatch 0x10#8 p s → p.length = 19 →
    let a := readStwn p
    let gateLegal := a.gate = 255 ∨ (a.gate ≤ 7 ∧ a.level ≤ 1)
    let rangeLegal := a.first = 255 ∨ (a.first ≤ 127 ∧ 1 ≤ a.count ∧ a.count ≤ 128)
    let legal := a.start < a.stop ∧ a.stop ≤ 18874368 ∧ 1 ≤ a.step ∧ a.step ≤ 16777216 ∧ gateLegal ∧ rangeLegal
    let old := s.wbk.staged.windows
    let refused := fun st : Byte => Host.Outcome.next (φ := Fault) (ρ := Refusal)
      { s with lnk := answered s.lnk 0x90#8 [st, 0#8, 0#8] }
    (s.wbk.stagedState = .pending → exec (.stwn p) s = refused 1#8) ∧
    (s.wbk.stagedState = .editing → ¬ legal → exec (.stwn p) s = refused 3#8) ∧
    (s.wbk.stagedState = .editing → legal → 24 ≤ old.length → exec (.stwn p) s = refused 5#8) ∧
    (s.wbk.stagedState = .editing → legal → old.length < 24 → old.Pairwise (fun v w => v.start ≤ w.start) →
      ∃ (before after : List Window) (w : Window), old = before ++ after ∧
        (∀ v ∈ before, v.start ≤ w.start) ∧ (∀ v ∈ after, w.start < v.start) ∧
        w.start = a.start ∧ w.stop = a.stop ∧ w.step = a.step ∧ w.exposure = min 15 a.exposure ∧
        w.floor = min 4095 a.floor ∧
        (a.gate = 255 → w.gate = none) ∧
        (a.gate ≠ 255 → ∃ g, w.gate = some g ∧ g.gate.val = a.gate ∧ g.level.toNat = a.level) ∧
        (a.first = 255 → w.range = none) ∧
        (a.first ≠ 255 → w.range = some { first := a.first, count := a.count }) ∧
        exec (.stwn p) s = .next { s with
          wbk := { s.wbk with staged := { s.wbk.staged with windows := before ++ w :: after } }
          lnk := answered s.lnk 0x90#8
            (0#8 :: (windowBytes w ++ beNat 1 before.length ++ beNat 4 (old.length + 1))) })

/-- STGT with a legal record replaces the staged record of its gate and no other: UNUSED whatever the other fields
hold, or PHASE with the extension clamped; what is illegal is refused with BAD_ARG, a PENDING bank with BUSY (R47,
R48). What the reply echoes for the fields of an UNUSED record is the model's choice (log entry 18). -/
def Obligations.StgtReplacesGateRecord : Prop :=
  ∀ (s : State) (p : List Byte), CanDispatch 0x11#8 p s → p.length = 17 →
    let a := readStgt p
    let rangeLegal := a.first = 255 ∨ (a.first ≤ 127 ∧ 1 ≤ a.count ∧ a.count ≤ 128)
    let groupLegal := a.group = 255 ∨ a.group ≤ 3
    let legal := a.gate ≤ 7 ∧ (a.mode = 0 ∨
      (a.mode = 1 ∧ a.on < a.off ∧ a.off ≤ 18874368 ∧ groupLegal ∧ rangeLegal))
    (s.wbk.stagedState = .pending →
      exec (.stgt p) s = .next { s with lnk := answered s.lnk 0x91#8 [1#8, 0#8, 0#8] }) ∧
    (s.wbk.stagedState = .editing → ¬ legal →
      exec (.stgt p) s = .next { s with lnk := answered s.lnk 0x91#8 [3#8, 0#8, 0#8] }) ∧
    (s.wbk.stagedState = .editing → legal → ∃ (n : Fin 8) (r : Option GateRecord) (gates : Eight (Option GateRecord)),
      n.val = a.gate ∧ gates.get n = r ∧ (∀ m, m ≠ n → gates.get m = s.wbk.staged.gates.get m) ∧
      (a.mode = 0 → r = none) ∧
      (a.mode = 1 → ∃ g : GateRecord, r = some g ∧ g.on = a.on ∧ g.off = a.off ∧
        g.extension = min 1048576 a.extension ∧ (a.group = 255 → g.group = none) ∧
        (a.group ≠ 255 → ∃ q : Fin 4, g.group = some q ∧ q.val = a.group) ∧
        (a.first = 255 → g.range = none) ∧
        (a.first ≠ 255 → g.range = some { first := a.first, count := a.count })) ∧
      exec (.stgt p) s = .next { s with
        wbk := { s.wbk with staged := { s.wbk.staged with gates := gates } }
        lnk := answered s.lnk 0x91#8 (0#8 :: (beNat 1 n.val ++ gateRecordBytes r)) })

/-- SWAP is BUSY on a PENDING bank and NOT_READY without a workpiece (R50). It holds the staged bank pending, with its
warnings, when that passes the five checks of R51, and otherwise refuses it with INVALID, the first check that fails
and the first index that fails it (section 3.3). The warnings are those of R52, in its order. The widths of the counts
in the reply are the model's choice (log entry 18). -/
def Obligations.SwapHoldsValidBank : Prop :=
  (∀ s : State, CanDispatch 0x12#8 [] s →
    let refused := fun st d₁ d₂ : Byte => exec (.swap []) s =
      .next { s with lnk := answered s.lnk 0x92#8 [st, d₁, d₂] }
    (s.wbk.stagedState = .pending → refused 1#8 0#8 0#8) ∧
    (s.wbk.stagedState = .editing → s.wbk.workpiece = none → refused 2#8 0#8 0#8) ∧
    ∀ w, s.wbk.stagedState = .editing → s.wbk.workpiece = some w →
      let bank := { s.wbk.staged with warnings := findWarnings s.wbk.staged w.blades s.enc.settings.cpr }
      (bankValid s.wbk.staged w.blades → exec (.swap []) s = .next { s with
        wbk := { s.wbk with stagedState := .pending, staged := bank }
        lnk := answered s.lnk 0x92#8 (0#8 :: 1#8 :: (beNat 1 bank.windows.length ++ beNat 4 (phaseGates bank) ++
          warningListBytes bank.warnings)) }) ∧
      (¬ bankValid s.wbk.staged w.blades → ∃ check index,
        failsCheck s.wbk.staged w.blades check index ∧
        (∀ j, j < index → ¬ failsCheck s.wbk.staged w.blades check j) ∧
        (∀ c j, c < check → ¬ failsCheck s.wbk.staged w.blades c j) ∧
        refused 6#8 (BitVec.ofNat 8 check) (BitVec.ofNat 8 index))) ∧
  ∀ (bank : Bank) (blades cpr : Nat), ∃ (fine : List Nat) (close : List (Fin 8 × Fin 8)),
    findWarnings bank blades cpr = fine.map .stepFine ++ close.map (fun x => .edgeClose x.1 x.2) ∧
    fine.Pairwise (fun a b => a < b) ∧
    close.Pairwise (fun x y => x.1 < y.1 ∨ (x.1 = y.1 ∧ x.2 < y.2)) ∧
    (∀ i, i ∈ fine ↔ ∃ w, bank.windows[i]? = some w ∧ w.step * cpr < blades * 16777216) ∧
    ∀ a b, (a, b) ∈ close ↔ a < b ∧ ∃ x y, bank.gates.get a = some x ∧ bank.gates.get b = some y ∧
      shareABlade x.range y.range blades ∧ ((x.on : Int) - y.on).natAbs * cpr < blades * 16777216

/-- STCL empties the staged bank in EDITING and is refused with BUSY in PENDING, touching neither the active bank nor
the workpiece record (R49). SWCN by the three rows of R54: nothing in EDITING, BUSY while an ARMED pass depends on
the pending bank, and otherwise back to EDITING with windows, gate records and warnings kept. That this last reply
gives EDITING too is the model's choice (log entry 30). -/
def Obligations.StclEmptiesAndSwcnReturnsToEditing : Prop :=
  (∀ s : State, CanDispatch 0x0F#8 [] s →
    (s.wbk.stagedState = .editing → exec (.stcl []) s = .next { s with
      wbk := { s.wbk with staged := { windows := [], gates := Eight.all none, warnings := [] } }
      lnk := answered s.lnk 0x8F#8 [0#8] }) ∧
    (s.wbk.stagedState = .pending → exec (.stcl []) s = .next { s with
      lnk := answered s.lnk 0x8F#8 [1#8, 0#8, 0#8] })) ∧
  ∀ s : State, CanDispatch 0x13#8 [] s →
    let armed := ∃ l, s.psc.lead = some l ∧ l.phase = .armed
    (s.wbk.stagedState = .editing →
      exec (.swcn []) s = .next { s with lnk := answered s.lnk 0x93#8 [0#8, 0#8] }) ∧
    (s.wbk.stagedState = .pending → armed ∧ s.wbk.activeState = .empty →
      exec (.swcn []) s = .next { s with lnk := answered s.lnk 0x93#8 [1#8, 0#8, 0#8] }) ∧
    (s.wbk.stagedState = .pending → ¬ (armed ∧ s.wbk.activeState = .empty) →
      exec (.swcn []) s = .next { s with
        wbk := { s.wbk with stagedState := .editing }, lnk := answered s.lnk 0x93#8 [0#8, 0#8] })

/-- The active bank changes at a reset, at a WKLD, or at an index crossing that leaves ENC HOMED, with the lead IDLE
or ARMED and a swap pending; at no other command. At every such crossing the two banks exchange, with the warnings
found again, SWAP_DONE is raised with the new bank's counts, and GTE, which has taken the position change under the old
records, stands as a fresh arbitration with the new ones leaves it, without a count or a notice of its waits; with the
lead IDLE, or ARMED at a reverse crossing, nothing else changes (sections 3.3, 3.4 and 9.1 to 9.4). In the position
change, which gate a group without a holder drives while another waits is the model's choice (R166 over R167, log
entry 32). -/
def Obligations.ActiveBankChangesOnlyAtExchange : Prop :=
  (∀ (c : Instr) (s t : State), exec c s = .next t → t.wbk.active ≠ s.wbk.active →
    (c = .powerOnReset ∨ c = .pinReset ∨ c = .requestReset ∨ ∃ p, c = .wkld p) ∨
    ((∃ l, c = .acceptedUpdate l) ∧ s.wbk.stagedState = .pending ∧ t.enc.state = .homed ∧
      (∀ l, s.psc.lead = some l → l.phase = .armed) ∧
      t.wbk.workpiece = s.wbk.workpiece ∧ t.wbk.activeState = .active ∧
      t.wbk.active.windows = s.wbk.staged.windows ∧ t.wbk.active.gates = s.wbk.staged.gates ∧
      (∀ w, s.wbk.workpiece = some w →
        t.wbk.active.warnings = findWarnings s.wbk.staged w.blades t.enc.settings.cpr) ∧
      t.wbk.stagedState = .editing ∧ t.wbk.staged = { s.wbk.active with warnings := [] } ∧
      ∃ d, noticeSlot t.lnk.notices .swapDone = some (raisedSlot (noticeSlot s.lnk.notices .swapDone) d) ∧
        noticeKind d = .swapDone)) ∧
  ∀ (s : State) (l : Lines) (dir : Dir) (w : Workpiece), countsOnce s l dir → crossesIndex s l →
    s.wbk.workpiece = some w → s.wbk.stagedState = .pending → (∀ l, s.psc.lead = some l → l.phase = .armed) →
    let warnings := findWarnings s.wbk.staged w.blades s.enc.settings.cpr
    let fine := warnings.countP fun x => match x with
      | .stepFine _ => true
      | .edgeClose _ _ => false
    ∃ t, exec (.acceptedUpdate l) s = .next t ∧
      (t.enc.state ≠ .homed → t.wbk = s.wbk) ∧
      (t.enc.state = .homed →
        t.wbk = { workpiece := some w, activeState := .active
                  active := { s.wbk.staged with warnings := warnings }
                  stagedState := .editing, staged := { s.wbk.active with warnings := [] } } ∧
        noticeSlot t.lnk.notices .swapDone = some (raisedSlot (noticeSlot s.lnk.notices .swapDone)
          (.swapDone s.wbk.staged.windows.length fine (warnings.length - fine))) ∧
        (∀ n, (t.gte.gates.get n).status = (s.gte.gates.get n).status) ∧
        (t.gte.mode = .safe → safeLevelsDriven t) ∧
        (t.gte.mode = .run → workpieceOk w →
          freshlyEvaluated w.blades (bladePhaseAt w s.enc.settings.cpr (encU t.enc)) t) ∧
        (s.psc.lead = none ∨ dir = .reverse →
          t = { s with
            enc := t.enc, wbk := t.wbk, gte := t.gte, lnk := { s.lnk with notices := t.lnk.notices } } ∧
          (¬ overrunsBound s dir → ∃ m, gatesFollow t.enc s m ∧
            (∀ k, k ≠ .swapDone → noticeSlot t.lnk.notices k = noticeSlot m.lnk.notices k) ∧
            t.gte.mode = m.gte.mode ∧ t.gte.conflicts = m.gte.conflicts ∧ qualRule s.now m.gte.gates t.gte.gates ∧
            (∀ n, (t.gte.gates.get n).sense = (m.gte.gates.get n).sense) ∧
            (m.gte.mode = .safe → entersSafe m t))))

/-- Every step keeps both banks well-formed: at most 24 windows in ascending order of start, and every record
within its ranges (R44, R45, R47). It keeps a PENDING staged bank and an ACTIVE bank among those that pass the five
checks of R51 for the loaded workpiece, and an EMPTY active bank without records (R43, R51, R56). -/
def Obligations.BanksStayWellFormed : Prop :=
  ∀ s t : State, step s = .next t →
    (bankOk s.wbk.active → bankOk s.wbk.staged → bankOk t.wbk.active ∧ bankOk t.wbk.staged) ∧
    (banksPassed s → banksPassed t)

/-! ### Passes (chapter 4) -/

/-- ARMP by the rows of R62, the first that matches; taken with OK it fills a fresh ARMED lead with the clamps of
R63 and returns the Probe Port to READY, and changes nothing else. That U_start and H of the ARMED lead are 0 is the
model's choice (log entry 31); R63 gives neither a value. -/
def Obligations.ArmpArmsOrRefuses : Prop :=
  ∀ (s : State) (p : List Byte), CanDispatch 0x17#8 p s → p.length = 24 →
    let a := readArmp p
    let refused := fun st : Byte => Host.Outcome.next (φ := Fault) (ρ := Refusal)
      { s with lnk := answered s.lnk 0x97#8 [st, 0#8, 0#8] }
    let owed := (if s.psc.lead = none then 0 else 1) + s.psc.drain.length
    if s.psc.lead ≠ none then exec (.armp p) s = refused 1#8
    else if 4 ≤ s.psc.drain.length then exec (.armp p) s = refused 1#8
    else if a.passId = 0 ∨ ∃ c ∈ s.psc.drain, c.settings.passId = a.passId then exec (.armp p) s = refused 3#8
    else if 1 < a.rounding ∨ 1 < a.dropout ∨ 1 < a.range then exec (.armp p) s = refused 3#8
    else if 100000000 < a.rLo ∨ 100000000 < a.rHi ∨ a.rHi < a.rLo then exec (.armp p) s = refused 3#8
    else if s.wbk.workpiece = none then exec (.armp p) s = refused 2#8
    else if s.wbk.activeState = .empty ∧ s.wbk.stagedState ≠ .pending then exec (.armp p) s = refused 2#8
    else if 1024 ≤ s.pnt.buffer.length + owed then exec (.armp p) s = refused 5#8
    else
      let settings : PassSettings :=
        { passId := a.passId, height := a.height, overlap := min (s.enc.settings.cpr / 4) a.overlap
          retryTurns := min 3 a.retryTurns
          rounding := if a.rounding = 0 then .chop else .nearest
          dropout := if a.dropout = 0 then .emit else .retry
          range := if a.range = 0 then .keep else .zero
          rLo := a.rLo, rHi := a.rHi, stallMs := max 10 (min 65535 a.stallMs) }
      exec (.armp p) s = .next { s with
        psc := { s.psc with
          lead := some
            { phase := .armed
              ctx :=
                { settings := settings, uStart := 0, highWater := 0, turn := 0, turnsUsed := 0, largestSnap := 0
                  mainInFlight := 0, retryInFlight := 0, endStatus := none
                  counters := ⟨0, 0, 0, 0, 0, 0, 0, 0, 0, 0, 0, 0, 0, 0, 0, 0, 0, 0, 0, 0⟩ } } }
        prb := { s.prb with state := .ready, timeouts := 0 }
        lnk := answered s.lnk 0x97#8 (0#8 :: (beNat 2 settings.passId ++ beNat 4 settings.overlap ++
          beNat 1 settings.retryTurns ++ beNat 2 settings.stallMs)) }

/-- ABRT with a lead ends it ABORTED: its tags leave the queue and count in abandoned or retry_lost, a trigger frame
of such a tag that still waits is not sent, the stack empties into unresolved, GTE enters SAFE, and the context
drains behind others or is summarised at once; draining contexts and their tags stay (sections 4.5 and 4.6). With the
lead IDLE nothing changes but a free value used for the disposition, which the spec does not state (log entry 8). -/
def Obligations.AbrtEndsLead : Prop :=
  (∀ (s : State) (l : Lead), CanDispatch 0x18#8 [] s → s.psc.lead = some l →
    l.ctx.counters.abandoned ≤ 4294967295 → l.ctx.counters.retryLost ≤ 4294967295 →
    ∃ t d, exec (.abrt []) s = .next t ∧ leadAbandoned .aborted l s t ∧
      t = { s with
        psc := t.psc, prb := t.prb, pnt := t.pnt, stack := t.stack, gte := t.gte
        lnk := answered s.lnk 0x98#8 (0#8 :: (beNat 2 l.ctx.settings.passId ++ [d])) } ∧
      (s.psc.drain = [] → d = 0#8) ∧ (s.psc.drain ≠ [] → d = 1#8)) ∧
  ∀ s : State, CanDispatch 0x18#8 [] s → s.psc.lead = none → ∃ d : Byte,
    exec (.abrt []) s = .next { s with
      lnk := answered s.lnk 0x98#8 [0#8, 0#8, 0#8, d], freeNext := s.freeNext + 1 }

/-- When the stall timer of a running lead has expired the pass ends STALLED: its tags stay in flight and GTE stays
as it is, the stack empties into unresolved, and the context drains, or is summarised at once when it has no tags
and nothing drains before it (sections 4.4 and 4.5). -/
def Obligations.StallExpiryEndsLead : Prop :=
  ∀ (s : State) (l : Lead) (due : Nat), s.psc.stall = some due → due ≤ s.now → s.psc.lead = some l →
    l.phase ≠ .armed →
    let k := l.ctx.counters
    let ctx := { l.ctx with
      endStatus := some .stalled, counters := { k with unresolved := satAdd k.unresolved s.stack.length } }
    (ctx.mainInFlight = 0 ∧ ctx.retryInFlight = 0 ∧ s.psc.drain = [] → exec .stallExpiry s = .next { s with
      psc := { lead := none, drain := [], stall := none }, stack := []
      pnt := { buffer := s.pnt.buffer ++ [.summary (summaryOf ctx)]
               largest := max s.pnt.largest (s.pnt.buffer.length + 1) } }) ∧
    (¬ (ctx.mainInFlight = 0 ∧ ctx.retryInFlight = 0 ∧ s.psc.drain = []) →
      exec .stallExpiry s = .next { s with
        psc := { lead := none, drain := s.psc.drain ++ [ctx], stall := none }, stack := [] })

/-- An ARMED lead starts at a forward index crossing that leaves ENC HOMED: U_start is ENC's U after the update, H
and the turn are 0, the largest snap is that of the crossing, the stall timer starts, GTE enters RUN with a fresh
evaluation at that position, and PASS_START is raised (sections 4.3 and 9.1). At a reverse crossing, and at one that
leaves ENC unhomed, it stays ARMED. -/
def Obligations.ArmedPassStartsAtCrossing : Prop :=
  ∀ (s : State) (l : Lines) (dir : Dir) (lead : Lead), countsOnce s l dir → crossesIndex s l →
    s.psc.lead = some lead → lead.phase = .armed →
    ∃ t, exec (.acceptedUpdate l) s = .next t ∧ t.psc.drain = s.psc.drain ∧ t.prb = s.prb ∧ t.pnt = s.pnt ∧
      t.stack = s.stack ∧ t.cal = s.cal ∧ t.hold = s.hold ∧
      (dir = .forward → t.enc.state = .homed →
        t.psc.lead = some
          { phase := .scanning
            ctx := { lead.ctx with
              uStart := encU t.enc, highWater := 0, turn := 0
              largestSnap := if t.enc.lastOutcome = .snap then t.enc.lastDeviation.natAbs else 0 } } ∧
        t.psc.stall = some (s.now + lead.ctx.settings.stallMs * 100000) ∧ t.gte.mode = .run ∧
        (∀ n, (t.gte.gates.get n).status = (s.gte.gates.get n).status) ∧
        (∀ w, s.wbk.workpiece = some w → workpieceOk w →
          freshlyEvaluated w.blades (bladePhaseAt w s.enc.settings.cpr (encU t.enc)) t) ∧
        noticeSlot t.lnk.notices .passStart =
          some (raisedSlot (noticeSlot s.lnk.notices .passStart) (.passStart lead.ctx.settings.passId))) ∧
      (¬ (dir = .forward ∧ t.enc.state = .homed) → t.psc = s.psc)

/-! ### Probe port (chapter 6) -/

/-- A trigger frame that waits begins as the frame before it ends; until then, and with none waiting, the event
does nothing (section 6.1; log entry 9 for the last clause). -/
def Obligations.WaitingTriggerFrameBegins : Prop :=
  ∀ s : State,
    (∀ f, s.prb.waiting = some f → f.start ≤ s.now →
      exec .triggerFrameStart s = .next { s with prb := { s.prb with out := some f, waiting := none } }) ∧
    (∀ f, s.prb.waiting = some f → s.now < f.start → exec .triggerFrameStart s = .next s) ∧
    (s.prb.waiting = none → exec .triggerFrameStart s = .next s)

/-- A whole reading frame whose tag is in flight is matched. An entry ahead of the match is resolved first, as
SKIPPED, and the reading is then taken as if the skip had been made before it. At the head, a reading that does not
drop out and finds room becomes a point record with its flags, radius and sequence number as chapter 7 gives them; a
VOID or DIM one under RETRY is a DROPOUT miss, and one that finds the buffer full a FULL miss. The entry leaves the
queue, the consecutive-timeout count is 0, and the pass's counters rise as the outcome gives (sections 6.4, 6.5 and
7.1 to 7.6). -/
def Obligations.ReadingBecomesPoint : Prop :=
  ∀ (s : State) (e : TagEntry) (rest : List TagEntry) (b1 b2 b3 b4 b5 b6 : Byte),
    s.prb.rx = .hunting → s.prb.queue = e :: rest →
    let tag := (b1 >>> 4).setWidth 4
    let d := (b2.toNat * 256 + b3.toNat) * 256 + b4.toNat
    let i := (b5.toNat % 16) * 256 + b6.toNat
    let void := d = 16777215
    let dim := ¬ void ∧ i < e.floor
    let counts := fun k : Counters => { k with
      void := if void then satInc k.void else k.void, dim := if dim then satInc k.dim else k.dim }
    let chars := [0x7E#8, b1, b2, b3, b4, b5, b6, b1 + b2 + b3 + b4 + b5 + b6].map fun b =>
      ProbeItem.char { byte := b, stopHigh := true }
    let matched := { s with prb := { s.prb with queue := rest, timeouts := 0 } }
    (e.tag ≠ tag → (∃ x ∈ rest, x.tag = tag) →
      ∃ s1, missResolved e .skipped id matched s1 ∧ exec (.reading chars) s = exec (.reading chars) s1) ∧
    ∀ c, e.tag = tag → findCtx e.passId s.psc = some c →
      (c.settings.dropout = .retry → void ∨ dim →
        ∃ t, exec (.reading chars) s = .next t ∧ missResolved e .dropout counts matched t) ∧
      (c.settings.dropout = .emit ∨ ¬ (void ∨ dim) → 1024 ≤ bufferLoad s →
        ∃ t, exec (.reading chars) s = .next t ∧ missResolved e .full counts matched t) ∧
      (c.settings.dropout = .emit ∨ ¬ (void ∨ dim) → bufferLoad s < 1024 →
        let r := (s.cal.working.r0 : Int) - rnd c.settings.rounding (d * s.cal.working.scale) 65536 + e.rho
        let out := ¬ void ∧ (r < c.settings.rLo ∨ (c.settings.rHi : Int) < r)
        ∃ t q, exec (.reading chars) s = .next t ∧
          reportedTo e.passId (resolvedCtx e.origin fun k => { counts k with
              emittedMain := if e.origin = .retry then k.emittedMain else satInc k.emittedMain
              emittedRetry := if e.origin = .retry then satInc k.emittedRetry else k.emittedRetry
              range := if out then satInc k.range else k.range })
            { matched with
              pnt := { buffer := s.pnt.buffer ++ [.point q]
                       largest := max s.pnt.largest (s.pnt.buffer.length + 1) } } t ∧
          q.passId = e.passId ∧ q.sequence = satAdd c.counters.emittedMain c.counters.emittedRetry ∧
          q.blade = e.blade ∧ q.window = e.window ∧ q.j = e.j ∧ q.exposure = e.exposure ∧ q.theta = e.theta ∧
          q.phase = e.phase ∧ q.intensity = i ∧
          (e.origin = .retry → q.attempts = e.attempts ∧ q.lastCause = e.lastCause) ∧
          (e.origin ≠ .retry → q.attempts = 0 ∧ q.lastCause = none) ∧
          (void → q.radius = 0) ∧ (¬ void → ¬ out → q.radius = r) ∧
          (out → q.radius = (match c.settings.range with
            | .keep => r
            | .zero => 0)) ∧
          q.flags.overlap = e.overlap ∧ (q.flags.retry = true ↔ e.origin = .retry) ∧
          (q.flags.void = true ↔ void) ∧ (q.flags.dim = true ↔ dim) ∧
          q.flags.sat = b1.getLsbD 0 ∧ (q.flags.range = true ↔ out) ∧ q.flags.gate = e.gateFault ∧
          (q.flags.uncal = true ↔ s.cal.origin = .defaults))

/-- A reading whose tag is not in flight is an orphan; a body whose sum is wrong, a character with a low stop bit and
a gap above 4 µs each discard the frame and count a check failure; nothing else changes (R112, R114). A character that
begins within the gap ends it, and one that is received goes on the body. That the start of a character is an item of
its own, how long a character takes, and that the tick posts the end of the gap are log entry 12; that the event does
nothing before the gap has passed is log entry 9. -/
def Obligations.UnmatchedReadingsCounted : Prop :=
  (∀ (s : State) (b1 b2 b3 b4 b5 b6 b7 : Byte), s.prb.rx = .hunting →
    let frame := ([0x7E#8, b1, b2, b3, b4, b5, b6, b7]).map fun b => ProbeItem.char { byte := b, stopHigh := true }
    (b7 = b1 + b2 + b3 + b4 + b5 + b6 → (∀ e ∈ s.prb.queue, e.tag ≠ (b1 >>> 4).setWidth 4) →
      exec (.reading frame) s = .next { s with
        prb := { s.prb with orphans := min (s.prb.orphans + 1) 4294967295 } }) ∧
    (b7 ≠ b1 + b2 + b3 + b4 + b5 + b6 →
      exec (.reading frame) s = .next { s with
        prb := { s.prb with checkFails := min (s.prb.checkFails + 1) 4294967295 } }) ∧
    exec (.reading [.start]) s = .next s ∧ exec .readingGapTimeout s = .next s) ∧
  ∀ (s : State) (body : List Byte) (lastEnd : Nat) (begun : Bool) (b : Byte),
    s.prb.rx = .inFrame body lastEnd begun →
    let discarded := { s with
      prb := { s.prb with checkFails := min (s.prb.checkFails + 1) 4294967295, rx := .hunting } }
    let received := fun r : ProbeRx => { s with prb := { s.prb with rx := r } }
    (begun = true ∨ s.now ≤ lastEnd + 500 →
      exec (.reading [.char { byte := b, stopHigh := false }]) s = .next discarded ∧
      (body.length < 6 → exec (.reading [.char { byte := b, stopHigh := true }]) s =
        .next (received (.inFrame (body ++ [b]) s.now false)))) ∧
    (begun = true ∨ s.now ≤ lastEnd + 400 →
      exec (.reading [.start]) s = .next (received (.inFrame body lastEnd true)) ∧
      exec .readingGapTimeout s = .next s) ∧
    (begun = false → lastEnd + 400 < s.now → exec .readingGapTimeout s = .next discarded) ∧
    (∀ items, items ≠ [] → begun = false → lastEnd + 400 + 100 * charCount items < s.now →
      exec (.reading items) s = exec (.reading items) discarded) ∧
    (s.pending = [] → ∃ t, step s = .next t ∧
      (.readingGapTimeout ∈ t.pending ↔ begun = false ∧ lastEnd + 400 ≤ s.now))

/-- An entry at the head whose Tr has passed is resolved as TIMEOUT: it leaves the queue, a miss of a running lead is
pushed, that of a main tag or of a retry tag, and any other miss is late; the consecutive-timeout count rises. At the
eighth in READY, PRB then enters FAULT: every entry left is abandoned and counts in abandoned or retry_lost of its
pass, PROBE_FAULT names the tag and the number abandoned, the drain list is summarised, and a lead there was ends
PROBE_FAULT and is summarised behind it, its stack in unresolved and GTE entering SAFE (R121; sections 6.5 to 6.7 and
4.5). That the drain list is summarised before the lead ends is log entry 16. -/
def Obligations.TagTimeoutMissesOrFaults : Prop :=
  ∀ (s : State) (e : TagEntry) (rest : List TagEntry), s.prb.queue = e :: rest →
    e.fireTime + s.prb.tr * 100 ≤ s.now →
    (∀ l, s.psc.lead = some l → l.phase = .scanning → l.ctx.settings.passId = e.passId → e.origin ≠ .retry →
      s.prb.timeouts < 7 → s.psc.drain = [] → s.stack.length < 16 →
      let miss : MissEntry := { blade := e.blade, window := e.window, j := e.j, overlap := e.overlap,
                                cause := .timeout, attempts := 1 }
      s.stack.any (sameKey miss) = false →
      let k := l.ctx.counters
      exec .tagTimeout s = .next { s with
        prb := { s.prb with queue := rest, timeouts := s.prb.timeouts + 1 }
        stack := miss :: s.stack
        psc := { s.psc with
          lead := some { l with
            ctx := { l.ctx with
              mainInFlight := l.ctx.mainInFlight - 1
              counters := { k with
                pushes := satInc k.pushes, missedMain := satInc k.missedMain
                timeout := satInc k.timeout } } } } }) ∧
    (s.prb.state = .fault ∨ s.prb.timeouts < 7 → ∃ t, exec .tagTimeout s = .next t ∧
      missResolved e .timeout id
        { s with prb := { s.prb with queue := rest, timeouts := min (s.prb.timeouts + 1) 8 } } t) ∧
    (s.prb.state = .ready → s.prb.timeouts = 7 →
      ∃ u t, missResolved e .timeout id { s with prb := { s.prb with queue := rest, timeouts := 8 } } u ∧
        exec .tagTimeout s = .next t ∧
        t.prb = { u.prb with
          queue := [], state := .fault
          waiting := u.prb.waiting.filter fun f => !rest.any fun x => x.tag == f.tag } ∧
        (s.psc.lead ≠ none → entersSafe s t) ∧ (s.psc.lead = none → t.gte = s.gte) ∧
        (t.psc.lead = none ∧ (s.psc.lead ≠ none → t.psc.stall = none ∧ t.stack = []) ∧
          (s.psc.lead = none → t.psc.stall = u.psc.stall ∧ t.stack = u.stack)) ∧
        (inFlightOk s →
          (∀ c ∈ contexts s.psc, c.counters.abandoned ≤ 4294967295 ∧ c.counters.retryLost ≤ 4294967295) →
          let tags := fun (c : PassCtx) (retry : Bool) => rest.countP fun e =>
            e.passId == c.settings.passId && decide (e.origin = .retry) == retry
          let cleared := fun (c : PassCtx) => { c with
            mainInFlight := 0, retryInFlight := 0
            counters := { c.counters with
              abandoned := satAdd c.counters.abandoned (tags c false)
              retryLost := satAdd c.counters.retryLost (tags c true) } }
          let faulted := fun (c : PassCtx) => { cleared c with
            endStatus := some .probeFault
            counters := { (cleared c).counters with unresolved := satAdd c.counters.unresolved u.stack.length } }
          let ended := u.psc.drain.map cleared ++ (u.psc.lead.map fun l => faulted l.ctx).toList
          t.psc.drain = [] ∧ (u.psc.lead = none ↔ s.psc.lead = none) ∧
          t.pnt = { buffer := u.pnt.buffer ++ ended.map fun c => .summary (summaryOf c)
                    largest := if ended = [] then u.pnt.largest
                      else max u.pnt.largest (u.pnt.buffer.length + ended.length) }) ∧
        noticeSlot t.lnk.notices .probeFault =
          some (raisedSlot (noticeSlot s.lnk.notices .probeFault) (.probeFault e.tag rest.length)) ∧
        t.enc = s.enc ∧ t.wbk = s.wbk ∧ t.hold = s.hold ∧ t.cal = s.cal)

/-- PRBF is refused with BUSY while a lead scans or retries; otherwise Tmin and Tr are clamped and applied, the
probe is READY, the consecutive-timeout count is 0, and the entries that have expired under the new Tr are resolved
one at a time from the head, each as a TIMEOUT miss that adds one to the count, with the summaries that this releases;
the reply gives Tmin, Tr and READY, and nothing else changes (R125, sections 6.7 and 6.8). -/
def Obligations.PrbfAppliesTiming : Prop :=
  ∀ (s : State) (a b c d : Byte), CanDispatch 0x16#8 [a, b, c, d] s →
    let tmin := max 2 (min 1000 (a.toNat * 256 + b.toNat))
    let tr := max 10 (min 10000 (c.toNat * 256 + d.toNat))
    ((∃ l, s.psc.lead = some l ∧ l.phase ≠ .armed) →
      exec (.prbf [a, b, c, d]) s = .next { s with lnk := answered s.lnk 0x96#8 [1#8, 0#8, 0#8] }) ∧
    ((∀ l, s.psc.lead = some l → l.phase = .armed) →
      (∃ t, exec (.prbf [a, b, c, d]) s = .next t ∧ t.prb.tmin = tmin ∧ t.prb.tr = tr) ∧
      (s.prb.queue.length ≤ 4 → ∃ u,
        timedOut s.prb.queue
          { s with
            prb := { s.prb with tmin := tmin, tr := tr, state := .ready, timeouts := 0 }
            lnk := { s.lnk with requests := s.lnk.requests.tail } } u ∧
        u.prb.tmin = tmin ∧ u.prb.tr = tr ∧ u.prb.state = .ready ∧
        exec (.prbf [a, b, c, d]) s = .next { u with
          lnk := answered s.lnk 0x96#8 (0#8 :: (beNat 2 tmin ++ beNat 2 tr ++ [0#8])) }) ∧
      ((∀ e ∈ s.prb.queue, s.now < e.fireTime + tr * 100) →
        exec (.prbf [a, b, c, d]) s = .next { s with
          prb := { s.prb with tmin := tmin, tr := tr, state := .ready, timeouts := 0 }
          lnk := answered s.lnk 0x96#8 (0#8 :: (beNat 2 tmin ++ beNat 2 tr ++ [0#8])) }))

/-- Every step keeps PRB, the link error counters, the request buffer and the notices within their bounds (R109,
R120, R124, R190, R191, R194). No two entries in flight share a tag, and fire times rise from head to tail: it keeps that
order and the bound on the tags issued after an entry, on which R109 rests it (R109, R110). -/
def Obligations.ProbeAndLinkStayBounded : Prop :=
  ∀ s t : State, step s = .next t → probeOk s →
    (linkBounded s → noticesOk s → probeOk t ∧ linkBounded t ∧ noticesOk t) ∧
    (inFlightOk s → drainBounded s → tagsOk s → tagsOk t)

/-! ### Point records (chapter 7) -/

/-- The projected distance never exceeds D and equals it at full scale; the radius of every point lies in the range
of section 7.4; and VOID comes neither with DIM nor with RANGE (sections 7.3 to 7.5). -/
def Obligations.PointRecordRanges : Prop :=
  (∀ (mode : Rounding) (d scale : Nat), scale ≤ 65536 → 0 ≤ projected mode d scale ∧ projected mode d scale ≤ d) ∧
  (∀ (mode : Rounding) (d : Nat), projected mode d 65536 = d) ∧
  (∀ (mode : Rounding) (w : Settings) (d : Nat) (rho : Int), d ≤ 16777214 → w.scale ≤ 65536 →
    w.r0 ≤ 100000000 → -32768 ≤ rho → rho ≤ 32767 →
    -16809982 ≤ radius mode w d rho ∧ radius mode w d rho ≤ 100032767) ∧
  ∀ (e : TagEntry) (c : PassCtx) (cal : Cal) (rd : Reading),
    let f := (buildPoint e c cal rd).flags
    ¬ (f.void = true ∧ f.dim = true) ∧ ¬ (f.void = true ∧ f.range = true)

/-- Every step keeps the records held plus the summaries owed within 1,024, and at most 4 summaries owed by the
lead and the drain list together (R78, R139). -/
def Obligations.PointBufferNeverOverfull : Prop :=
  ∀ s t : State, step s = .next t → bufferBounded s → drainBounded s → bufferBounded t ∧ drainBounded t

/-! ### Accounting of a pass (chapter 8) -/

/-- Every step keeps the in-flight counts those of the queue, and with them the identity of R156 for the lead and
for every draining pass. -/
def Obligations.MainAccountingKept : Prop :=
  ∀ s t : State, step s = .next t → inFlightOk s → (∀ c ∈ contexts s.psc, mainBalanced c) →
    inFlightOk t ∧ ∀ c ∈ contexts t.psc, mainBalanced c

/-- Every step keeps the stack at most 16 deep with no key twice, and empty while the lead is IDLE or ARMED, and
with it the identity of R157 for the lead and for every draining pass. -/
def Obligations.StackAccountingKept : Prop :=
  ∀ s t : State, step s = .next t → stackOk s → stackOwned s → stackAccounted s →
    stackOk t ∧ stackOwned t ∧ stackAccounted t

/-- Every step keeps the two lines of R158 for the lead and for every draining pass, and with them their difference,
pushes − held − busy − missed_main = takes − emitted_retry − retry_lost − retry in flight. It rests on R149: every step
keeps the lead's keys exclusive between the stack and its tags in flight, so that no push of the lead is refused. -/
def Obligations.RetryAccountingKept : Prop :=
  ∀ s t : State, step s = .next t → inFlightOk s → stackOk s → stackOwned s → stackAccounted s → settingsOk s →
    bankOk s.wbk.active → workpieceKnown s → keysExclusive s → (∀ c ∈ contexts s.psc, retryBalanced c) →
    keysExclusive t ∧ workpieceKnown t ∧ ∀ c ∈ contexts t.psc, retryBalanced c ∧
      let k := c.counters
      (k.pushes < counterMax → (k.pushes : Int) - k.held - k.busy - k.missedMain =
        (k.takes : Int) - k.emittedRetry - k.retryLost - c.retryInFlight)

/-- A take gives the newest entry that names the point and closes the gap; a push onto a full stack discards the
oldest entry and counts it (R148; section 8.3). A point crossed in a retry turn leaves no trace under HOLD, past its
required gate, while the probe is not free, or when no entry names it; otherwise its newest entry is taken and fired
with origin RETRY, the entry's overlap marker, attempts and cause, at once or behind the frame that is going out (R108;
sections 5.5 and 8.3). -/
def Obligations.StackTakesNewestDropsOldest : Prop :=
  (∀ (s t : State) (b w j : Nat) (e : MissEntry), takeMiss b w j s = (some e, t) →
    ∃ above below, s.stack = above ++ e :: below ∧ t.stack = above ++ below ∧
      (e.blade = b ∧ e.window = w ∧ e.j = j) ∧ (∀ x ∈ above, ¬ (x.blade = b ∧ x.window = w ∧ x.j = j)) ∧
      (∀ l, s.psc.lead = some l → ∃ l', t.psc.lead = some l' ∧
        l'.ctx = { l.ctx with
          counters := { l.ctx.counters with takes := satInc l.ctx.counters.takes } })) ∧
  (∀ (s : State) (e oldest : MissEntry) (newer : List MissEntry) (l : Lead), s.stack = newer ++ [oldest] →
    newer.length = 15 → s.stack.any (sameKey e) = false → s.psc.lead = some l →
    pushMiss e s = { s with
      stack := e :: newer
      psc := { s.psc with
        lead := some { l with
          ctx := { l.ctx with
            counters := { l.ctx.counters with
              pushes := satInc l.ctx.counters.pushes
              overflowLost := satInc l.ctx.counters.overflowLost } } } } }) ∧
  ∀ (s : State) (l : Lead) (u : Int) (pt : CrossedPoint), s.psc.lead = some l →
    let passed := ∃ g, pt.window.gate = some g ∧ (s.gte.gates.get g.gate).driven ≠ g.level
    let free := (∀ t, s.prb.lastTrigger = some t → t + s.prb.tmin * 100 ≤ s.now) ∧ s.prb.queue.length < 4
    let names := fun x : MissEntry => x.blade = pt.blade ∧ x.window = pt.index ∧ x.j = pt.j
    (s.hold.active = true ∨ passed ∨ ¬ free → crossRetry l u s pt = s) ∧
    ((∀ x ∈ s.stack, ¬ names x) → crossRetry l u s pt = s) ∧
    ∀ above below m, s.hold.active = false → ¬ passed → free → s.stack = above ++ m :: below → names m →
      (∀ x ∈ above, ¬ names x) → s.prb.state = .ready → s.prb.waiting = none →
      let start := match s.prb.out with
        | none => s.now
        | some f => max s.now (f.start + 300)
      let frame : TriggerFrame := { tag := s.prb.nextTag, exposure := pt.window.exposure, start := start }
      ∃ e : TagEntry, crossRetry l u s pt =
        { s with
          stack := above ++ below
          psc := { s.psc with
            lead := some { l with
              ctx := { l.ctx with
                retryInFlight := l.ctx.retryInFlight + 1
                counters := { l.ctx.counters with takes := satInc l.ctx.counters.takes } } } }
          prb := { s.prb with
            queue := s.prb.queue ++ [e], nextTag := s.prb.nextTag + 1, lastTrigger := some start
            out := if start = s.now then some frame else s.prb.out
            waiting := if start = s.now then none else some frame } } ∧
        e.tag = s.prb.nextTag ∧ e.passId = l.ctx.settings.passId ∧ e.origin = .retry ∧ e.overlap = m.overlap ∧
        e.blade = pt.blade ∧ e.window = pt.index ∧ e.j = pt.j ∧ e.theta = thetaAt s u ∧
        e.rho = rhoAt s l.ctx.settings.rounding u ∧ (∀ q, queryPhase s u = some q → e.phase = q.phase) ∧
        e.exposure = pt.window.exposure ∧ e.floor = pt.window.floor ∧ e.attempts = m.attempts ∧
        e.lastCause = some m.cause ∧ e.fireTime = start ∧
        (e.gateFault = true ↔ ∃ n, (s.gte.gates.get n).status ≠ .ok)

/-! ### Gate outputs (chapter 9) -/

/-- Every step keeps at most one gate of each exclusion group driven ON, and every SHORT gate driven OFF (R166,
R170). -/
def Obligations.GroupsStayExclusive : Prop :=
  ∀ s t : State, step s = .next t → groupsExclusive s → shortGatesOff s →
    groupsExclusive t ∧ shortGatesOff t

/-- A sense level that changes starts or stops the qualification of an OK gate and touches no other gate; a
qualification that has run 50 µs latches OPEN for a gate driven ON and SHORT for one driven OFF, changes no driven
level, and raises GATE_FAULT for each gate latched, in ascending order, so that the detail names the highest (section
9.5). That the event does nothing where no qualification has run 50 µs is log entry 9. -/
def Obligations.SenseQualifiesAndLatches : Prop :=
  (∀ (s : State) (n : Fin 8) (level : Bool), level ≠ (s.gte.gates.get n).sense →
    ∃ gates : Eight Gate,
      exec (.loadSenseChange n level) s = .next { s with gte := { s.gte with gates := gates } } ∧
      (∀ m, m ≠ n → gates.get m = s.gte.gates.get m) ∧
      gates.get n = { s.gte.gates.get n with
        sense := level
        qual := if (s.gte.gates.get n).status = .ok ∧ level ≠ (s.gte.gates.get n).driven then some s.now
          else none }) ∧
  ∀ s : State, ∃ t, exec .qualificationExpiry s = .next t ∧ t.gte.mode = s.gte.mode ∧
    t.gte.last = s.gte.last ∧ t.gte.conflicts = s.gte.conflicts ∧
    t = { s with gte := t.gte, lnk := { s.lnk with notices := t.lnk.notices } } ∧
    (∀ n, let g := s.gte.gates.get n
      let h := t.gte.gates.get n
      let expired := ∃ since, g.qual = some since ∧ since + 5000 ≤ s.now
      h.driven = g.driven ∧ h.due = g.due ∧ h.sense = g.sense ∧
      (¬ expired → h = g) ∧
      (expired → h.qual = none ∧ h.status = (if g.driven then GateStatus.openLoad else GateStatus.short))) ∧
    (∀ k, k ≠ .gateFault → noticeSlot t.lnk.notices k = noticeSlot s.lnk.notices k) ∧
    ((∀ n, ¬ ∃ since, (s.gte.gates.get n).qual = some since ∧ since + 5000 ≤ s.now) → t = s) ∧
    ∀ n, (∃ since, (s.gte.gates.get n).qual = some since ∧ since + 5000 ≤ s.now) →
      (∀ m, n < m → ¬ ∃ since, (s.gte.gates.get m).qual = some since ∧ since + 5000 ≤ s.now) → noticesOk s →
      noticeSlot t.lnk.notices .gateFault =
        some { count := min (noticeCount s.lnk.notices .gateFault + gateNumbers.countP fun m =>
                 (s.gte.gates.get m).qual.any fun since => decide (since + 5000 ≤ s.now)) 255
               detail := .gateFault n (if (s.gte.gates.get n).driven then .openLoad else .short) }

/-- GCLR sets the status of every latched gate that its mask names to OK, leaves the other statuses, the sense levels
and the conflict count of a mask that names no SHORT gate, and replies with the eight statuses; with no SHORT gate
named no driven level changes and the qualification of a cleared gate starts afresh; with one named GTE arbitrates at
once, in RUN with its due states and the holders it has, in SAFE by the safe levels, and a gate whose level then
changes restarts its qualification (R169, R171, section 9.3). That the reply carries no number of entries is the
model's choice (log entry 18), and so is that a cleared gate which turns ON with its sense high runs no qualification,
where R171 has a remaining short latch again (log entry 34). -/
def Obligations.GclrClearsNamedLatches : Prop :=
  ∀ (s : State) (mask : Byte), CanDispatch 0x15#8 [mask] s →
    ∃ t, exec (.gclr [mask]) s = .next t ∧ t.gte.mode = s.gte.mode ∧
      t.lnk.reply = some ⟨0x95#8, 0#8 :: t.gte.gates.toList.map (fun g => gateStatusCode g.status)⟩ ∧
      t = { s with gte := t.gte, lnk := { answered s.lnk 0 [] with notices := t.lnk.notices, reply := t.lnk.reply } } ∧
      (∀ n : Fin 8, (t.gte.gates.get n).status =
        (if mask.getLsbD n.val then GateStatus.ok else (s.gte.gates.get n).status)) ∧
      ((∀ n : Fin 8, mask.getLsbD n.val = true → (s.gte.gates.get n).status ≠ .short) →
        t.lnk.notices = s.lnk.notices ∧ t.gte.conflicts = s.gte.conflicts ∧ t.gte.last = s.gte.last ∧
        ∀ n : Fin 8, t.gte.gates.get n =
          (if mask.getLsbD n.val = true ∧ (s.gte.gates.get n).status ≠ .ok then
            { s.gte.gates.get n with
              status := .ok
              qual := if (s.gte.gates.get n).sense ≠ (s.gte.gates.get n).driven then some s.now else none }
          else s.gte.gates.get n)) ∧
      ((∃ n : Fin 8, mask.getLsbD n.val = true ∧ (s.gte.gates.get n).status = .short) →
        (∀ n, let g := s.gte.gates.get n
          let h := t.gte.gates.get n
          let timer := if h.status = .ok ∧ h.sense ≠ h.driven then some s.now else none
          h.due = g.due ∧ h.sense = g.sense ∧
          h.qual = (if h.driven ≠ g.driven ∨ (mask.getLsbD n.val = true ∧ g.status ≠ .ok) then timer else g.qual)) ∧
        t.gte.last = s.gte.last ∧
        (s.gte.mode = .safe → safeLevelsDriven t ∧ t.gte.conflicts = s.gte.conflicts ∧
          t.lnk.notices = s.lnk.notices) ∧
        (s.gte.mode = .run → groupsExclusive s → noticesOk s →
          arbitrationRule s.wbk.active (fun n => (s.gte.gates.get n).driven = true) t.gte.gates t.gte.gates ∧
          conflictsReported s.wbk.active s t))

/-! ### Calibration store (chapter 10) -/

/-- MNTS and CWR by the rows of R178 and R179: refused while LOCKED, while a program operation runs or unless the
lead is IDLE, and MNTS out of range; otherwise the constants, or the whole runout table, are replaced, the origin is
EDITED and nothing else changes. -/
def Obligations.MntsAndCwrEdit : Prop :=
  ∀ (s : State) (p : List Byte),
    (CanDispatch 0x07#8 p s → p.length = 8 →
      let refused := fun st : Byte => exec (.mnts p) s =
        .next { s with lnk := answered s.lnk 0x87#8 [st, 0#8, 0#8] }
      if s.cal.locked = true then refused 4#8
      else if s.cal.programming ≠ none then refused 1#8
      else if s.psc.lead ≠ none then refused 1#8
      else if 100000000 < fieldNat p 0 4 then refused 3#8
      else if fieldNat p 4 4 < 32768 ∨ 65536 < fieldNat p 4 4 then refused 3#8
      else exec (.mnts p) s = .next { s with
        cal := { s.cal with
          working := { s.cal.working with r0 := fieldNat p 0 4, scale := fieldNat p 4 4 }, origin := .edited }
        lnk := answered s.lnk 0x87#8 (0#8 :: (beNat 4 (fieldNat p 0 4) ++ beNat 4 (fieldNat p 4 4) ++ [2#8])) }) ∧
    (CanDispatch 0x08#8 p s → p.length = 512 →
      let refused := fun st : Byte => exec (.cwr p) s =
        .next { s with lnk := answered s.lnk 0x88#8 [st, 0#8, 0#8] }
      if s.cal.locked = true then refused 4#8
      else if s.cal.programming ≠ none then refused 1#8
      else if s.psc.lead ≠ none then refused 1#8
      else ∃ table : List Int, table.length = 256 ∧ (∀ i, i < 256 → runoutEntry table i = fieldInt p (2 * i) 2) ∧
        exec (.cwr p) s = .next { s with
          cal := { s.cal with working := { s.cal.working with runout := table }, origin := .edited }
          lnk := answered s.lnk 0x88#8 [0#8, 2#8, 0#8, 0#8, 1#8, 0#8] })

/-- GSAF is refused by the first row of R180 that matches and otherwise replaces the eight safe levels; in RUN the
outputs stay, and in SAFE they are driven at once, each ON unless its gate is SHORT or loses its exclusion group
(section 10.2). -/
def Obligations.GsafSetsSafeLevels : Prop :=
  (∀ (s : State) (p : List Byte), CanDispatch 0x0A#8 p s → p.length = 8 →
    let refused := fun st : Byte => exec (.gsaf p) s =
      .next { s with lnk := answered s.lnk 0x8A#8 [st, 0#8, 0#8] }
    (s.cal.locked = true → refused 4#8) ∧
    (s.cal.locked = false → s.cal.programming ≠ none → refused 1#8) ∧
    (s.cal.locked = false → s.cal.programming = none → (∃ i, i < 8 ∧ 1 < fieldNat p i 1) → refused 3#8)) ∧
  ∀ (s : State) (levels : Eight Bool), CanDispatch 0x0A#8 (levels.toList.map byteOfBool) s →
    s.cal.locked = false → s.cal.programming = none →
    ∃ t, exec (.gsaf (levels.toList.map byteOfBool)) s = .next t ∧
      t = { s with
        cal := { s.cal with working := { s.cal.working with safe := levels }, origin := .edited }
        gte := t.gte
        lnk := answered s.lnk 0x8A#8 (0#8 :: (levels.toList.map byteOfBool ++ [2#8, gateModeCode s.gte.mode])) } ∧
      (s.gte.mode = .run → t.gte = s.gte) ∧
      (s.gte.mode = .safe → safeDriven s t ∧ t.gte.last = s.gte.last ∧
        (∀ n, (t.gte.gates.get n).due = (s.gte.gates.get n).due) ∧ ∀ n, gateGroup s.wbk.active n = none →
        ((t.gte.gates.get n).driven = true ↔ levels.get n = true ∧ (s.gte.gates.get n).status ≠ .short))

/-- CCMT and CLCK begin their operation unless the lock or an operation in progress refuses them; CERS, which the
lock does not refuse but an operation in progress or a lead does, restores the default settings at once, clears the
lock and begins the erase; ENC renews its settings, without a notice, and SAFE drives the default levels, in which
statuses, sense levels, due states, the conflict count and the last position stay unless ENC leaves HOMED (R1, R14, R162,
R183 and section 10.3). -/
def Obligations.ProgramOperationsBegin : Prop :=
  (∀ (s : State) (k : Byte) (op : ProgOp), (k = 0x0B#8 ∧ op = .ccmt) ∨ (k = 0x0C#8 ∧ op = .clck) →
    CanDispatch k [] s →
    let refused := fun st : Byte => exec (requestOfFrame ⟨k, []⟩) s =
      .next { s with lnk := answered s.lnk (k ||| 0x80#8) [st, 0#8, 0#8] }
    if s.cal.locked = true then refused 4#8
    else if s.cal.programming ≠ none then refused 1#8
    else exec (requestOfFrame ⟨k, []⟩) s = .next { s with
      cal := { s.cal with programming := some { op := op, deadline := s.now + 4000000 } }
      lnk := answered s.lnk (k ||| 0x80#8) [0#8, 1#8] }) ∧
  (∀ s : State, CanDispatch 0x0D#8 [] s → s.cal.programming ≠ none ∨ s.psc.lead ≠ none →
    exec (.cers []) s = .next { s with lnk := answered s.lnk 0x8D#8 [1#8, 0#8, 0#8] }) ∧
  ∀ s : State, CanDispatch 0x0D#8 [] s → s.cal.programming = none → s.psc.lead = none →
    ∃ t, exec (.cers []) s = .next t ∧
      t.cal = { image := s.cal.image, working := Settings.default, origin := .defaults, locked := false,
                programming := some { op := .cers, deadline := s.now + 4000000 } } ∧
      let changed := s.enc.settings.cpr ≠ 360000 ∨ s.enc.settings.sense ≠ .aLeads
      t.enc = { s.enc with
        settings := Settings.default.enc
        noted := if s.enc.settings.filterPeriod = 2 then s.enc.noted else ⟨false, false, false⟩
        c := if changed then 0 else s.enc.c, state := if changed then .notHomed else s.enc.state } ∧
      (changed → s.enc.state = .homed → entersSafe s t) ∧
      (¬ changed → s.gte.mode = .run → t.gte = s.gte) ∧
      (s.gte.mode = .safe → ¬ (changed ∧ s.enc.state = .homed) → safeDriven s t ∧ t.gte.last = s.gte.last ∧
        ∀ n, (t.gte.gates.get n).due = (s.gte.gates.get n).due) ∧
      (t.gte.mode = .safe → ∀ n, (t.gte.gates.get n).driven = false) ∧
      (¬ changed ∨ runHomed s → t.lnk.notices = s.lnk.notices) ∧
      t = { s with
        enc := t.enc, cal := t.cal, gte := t.gte
        lnk := { answered s.lnk 0x8D#8 [0#8, 1#8, 0#8, 1#8] with notices := t.lnk.notices } }

/-- A program operation that completes with OK leaves the image with what it wrote and its CRC, the origin STORED,
and the lock set by a CLCK alone; with VERIFY_FAIL the image fails its check, a STORED origin becomes EDITED and
the part is UNLOCKED; either way STORE_DONE is raised (R184). What a spoilt image holds is free
(log entry 6), and each completion uses up its free values (log entry 7). -/
def Obligations.ProgramCompletionSetsStore : Prop :=
  ∀ (s : State) (p : Programming), s.cal.programming = some p →
    let settings := match p.op with
      | .cers => Settings.default
      | _ => s.cal.working
    (∃ image : Image, image.settings = settings ∧ image.lockBit = decide (p.op = .clck) ∧ imageOk image = true ∧
      exec (.programCompletion .ok) s = .next (raise (.storeDone p.op .ok) { s with
        cal := { image := image, working := s.cal.working, origin := .stored, locked := decide (p.op = .clck),
                 programming := none }
        freeNext := s.freeNext + 1 })) ∧
    ∃ image : Image, imageOk image = false ∧
      exec (.programCompletion .verifyFail) s = .next (raise (.storeDone p.op .verifyFail) { s with
        cal := { image := image, working := s.cal.working
                 origin := if s.cal.origin = .stored then .edited else s.cal.origin
                 locked := false, programming := none }
        freeNext := s.freeNext + 1 })

/-- What a program operation wrote survives a pin reset: after an OK the part comes up STORED with what was
written, LOCKED after a CLCK; after a VERIFY_FAIL, or a reset that stops the operation, it comes up on the defaults,
unlocked (R185 with R175). -/
def Obligations.ProgrammedImageSurvivesReset : Prop :=
  ∀ (s : State) (p : Programming), s.cal.programming = some p →
    (∃ t u, exec (.programCompletion .ok) s = .next t ∧ exec .pinReset t = .next u ∧
      u.cal.origin = .stored ∧ u.cal.locked = decide (p.op = .clck) ∧
      (p.op ≠ .cers → u.cal.working = s.cal.working) ∧ (p.op = .cers → u.cal.working = Settings.default)) ∧
    (∃ t u, exec (.programCompletion .verifyFail) s = .next t ∧ exec .pinReset t = .next u ∧
      u.cal.origin = .defaults ∧ u.cal.locked = false ∧ u.cal.working = Settings.default) ∧
    ∃ u, exec .pinReset s = .next u ∧ u.cal.origin = .defaults ∧ u.cal.locked = false ∧
      u.cal.working = Settings.default ∧ u.lnk.notices = Notices.none

/-! ### The invariants at reset -/

/-- The invariants that the statements above show to be kept hold of the part right after a power-on reset. Its
image fails its check and its sense inputs and HOLD pin are low by the model's choice (log entries 4 and 5). -/
def Obligations.InvariantsHoldAtReset : Prop :=
  positionOk State.reset ∧ settingsOk State.reset ∧ runHomed State.reset ∧ groupsExclusive State.reset ∧
    shortGatesOff State.reset ∧ bufferBounded State.reset ∧ drainBounded State.reset ∧ stackOk State.reset ∧
    stackOwned State.reset ∧ stackAccounted State.reset ∧ inFlightOk State.reset ∧ keysExclusive State.reset ∧
    workpieceKnown State.reset ∧ (∀ c ∈ contexts State.reset.psc, mainBalanced c ∧ retryBalanced c) ∧
    probeOk State.reset ∧ tagsOk State.reset ∧ linkBounded State.reset ∧ banksPassed State.reset ∧
    noticesOk State.reset ∧ bankOk State.reset.wbk.active ∧ bankOk State.reset.wbk.staged
end

