-- ==== Sys2Proof/Laws/State.lean ====
section
/-! SUPPORT. Laws/State.lean: one lemma for each field of State under each block update, so that no proof
unfolds a record update. -/

namespace Sys2Proof.Machine

open Sys2Proof

/-! ### setEnc -/

@[simp] theorem State.setEnc_now (s : State) (v : Enc) : (s.setEnc v).now = s.now := rfl
@[simp] theorem State.setEnc_enc (s : State) (v : Enc) : (s.setEnc v).enc = v := rfl
@[simp] theorem State.setEnc_wbk (s : State) (v : Enc) : (s.setEnc v).wbk = s.wbk := rfl
@[simp] theorem State.setEnc_psc (s : State) (v : Enc) : (s.setEnc v).psc = s.psc := rfl
@[simp] theorem State.setEnc_hold (s : State) (v : Enc) : (s.setEnc v).hold = s.hold := rfl
@[simp] theorem State.setEnc_prb (s : State) (v : Enc) : (s.setEnc v).prb = s.prb := rfl
@[simp] theorem State.setEnc_pnt (s : State) (v : Enc) : (s.setEnc v).pnt = s.pnt := rfl
@[simp] theorem State.setEnc_stack (s : State) (v : Enc) : (s.setEnc v).stack = s.stack := rfl
@[simp] theorem State.setEnc_gte (s : State) (v : Enc) : (s.setEnc v).gte = s.gte := rfl
@[simp] theorem State.setEnc_cal (s : State) (v : Enc) : (s.setEnc v).cal = s.cal := rfl
@[simp] theorem State.setEnc_lnk (s : State) (v : Enc) : (s.setEnc v).lnk = s.lnk := rfl
@[simp] theorem State.setEnc_freeNext (s : State) (v : Enc) : (s.setEnc v).freeNext = s.freeNext := rfl
@[simp] theorem State.setEnc_pending (s : State) (v : Enc) : (s.setEnc v).pending = s.pending := rfl

/-! ### setWbk -/

@[simp] theorem State.setWbk_now (s : State) (v : Wbk) : (s.setWbk v).now = s.now := rfl
@[simp] theorem State.setWbk_enc (s : State) (v : Wbk) : (s.setWbk v).enc = s.enc := rfl
@[simp] theorem State.setWbk_wbk (s : State) (v : Wbk) : (s.setWbk v).wbk = v := rfl
@[simp] theorem State.setWbk_psc (s : State) (v : Wbk) : (s.setWbk v).psc = s.psc := rfl
@[simp] theorem State.setWbk_hold (s : State) (v : Wbk) : (s.setWbk v).hold = s.hold := rfl
@[simp] theorem State.setWbk_prb (s : State) (v : Wbk) : (s.setWbk v).prb = s.prb := rfl
@[simp] theorem State.setWbk_pnt (s : State) (v : Wbk) : (s.setWbk v).pnt = s.pnt := rfl
@[simp] theorem State.setWbk_stack (s : State) (v : Wbk) : (s.setWbk v).stack = s.stack := rfl
@[simp] theorem State.setWbk_gte (s : State) (v : Wbk) : (s.setWbk v).gte = s.gte := rfl
@[simp] theorem State.setWbk_cal (s : State) (v : Wbk) : (s.setWbk v).cal = s.cal := rfl
@[simp] theorem State.setWbk_lnk (s : State) (v : Wbk) : (s.setWbk v).lnk = s.lnk := rfl
@[simp] theorem State.setWbk_freeNext (s : State) (v : Wbk) : (s.setWbk v).freeNext = s.freeNext := rfl
@[simp] theorem State.setWbk_pending (s : State) (v : Wbk) : (s.setWbk v).pending = s.pending := rfl

/-! ### setPsc -/

@[simp] theorem State.setPsc_now (s : State) (v : Psc) : (s.setPsc v).now = s.now := rfl
@[simp] theorem State.setPsc_enc (s : State) (v : Psc) : (s.setPsc v).enc = s.enc := rfl
@[simp] theorem State.setPsc_wbk (s : State) (v : Psc) : (s.setPsc v).wbk = s.wbk := rfl
@[simp] theorem State.setPsc_psc (s : State) (v : Psc) : (s.setPsc v).psc = v := rfl
@[simp] theorem State.setPsc_hold (s : State) (v : Psc) : (s.setPsc v).hold = s.hold := rfl
@[simp] theorem State.setPsc_prb (s : State) (v : Psc) : (s.setPsc v).prb = s.prb := rfl
@[simp] theorem State.setPsc_pnt (s : State) (v : Psc) : (s.setPsc v).pnt = s.pnt := rfl
@[simp] theorem State.setPsc_stack (s : State) (v : Psc) : (s.setPsc v).stack = s.stack := rfl
@[simp] theorem State.setPsc_gte (s : State) (v : Psc) : (s.setPsc v).gte = s.gte := rfl
@[simp] theorem State.setPsc_cal (s : State) (v : Psc) : (s.setPsc v).cal = s.cal := rfl
@[simp] theorem State.setPsc_lnk (s : State) (v : Psc) : (s.setPsc v).lnk = s.lnk := rfl
@[simp] theorem State.setPsc_freeNext (s : State) (v : Psc) : (s.setPsc v).freeNext = s.freeNext := rfl
@[simp] theorem State.setPsc_pending (s : State) (v : Psc) : (s.setPsc v).pending = s.pending := rfl

/-! ### setHold -/

@[simp] theorem State.setHold_now (s : State) (v : Hold) : (s.setHold v).now = s.now := rfl
@[simp] theorem State.setHold_enc (s : State) (v : Hold) : (s.setHold v).enc = s.enc := rfl
@[simp] theorem State.setHold_wbk (s : State) (v : Hold) : (s.setHold v).wbk = s.wbk := rfl
@[simp] theorem State.setHold_psc (s : State) (v : Hold) : (s.setHold v).psc = s.psc := rfl
@[simp] theorem State.setHold_hold (s : State) (v : Hold) : (s.setHold v).hold = v := rfl
@[simp] theorem State.setHold_prb (s : State) (v : Hold) : (s.setHold v).prb = s.prb := rfl
@[simp] theorem State.setHold_pnt (s : State) (v : Hold) : (s.setHold v).pnt = s.pnt := rfl
@[simp] theorem State.setHold_stack (s : State) (v : Hold) : (s.setHold v).stack = s.stack := rfl
@[simp] theorem State.setHold_gte (s : State) (v : Hold) : (s.setHold v).gte = s.gte := rfl
@[simp] theorem State.setHold_cal (s : State) (v : Hold) : (s.setHold v).cal = s.cal := rfl
@[simp] theorem State.setHold_lnk (s : State) (v : Hold) : (s.setHold v).lnk = s.lnk := rfl
@[simp] theorem State.setHold_freeNext (s : State) (v : Hold) : (s.setHold v).freeNext = s.freeNext := rfl
@[simp] theorem State.setHold_pending (s : State) (v : Hold) : (s.setHold v).pending = s.pending := rfl

/-! ### setPrb -/

@[simp] theorem State.setPrb_now (s : State) (v : Prb) : (s.setPrb v).now = s.now := rfl
@[simp] theorem State.setPrb_enc (s : State) (v : Prb) : (s.setPrb v).enc = s.enc := rfl
@[simp] theorem State.setPrb_wbk (s : State) (v : Prb) : (s.setPrb v).wbk = s.wbk := rfl
@[simp] theorem State.setPrb_psc (s : State) (v : Prb) : (s.setPrb v).psc = s.psc := rfl
@[simp] theorem State.setPrb_hold (s : State) (v : Prb) : (s.setPrb v).hold = s.hold := rfl
@[simp] theorem State.setPrb_prb (s : State) (v : Prb) : (s.setPrb v).prb = v := rfl
@[simp] theorem State.setPrb_pnt (s : State) (v : Prb) : (s.setPrb v).pnt = s.pnt := rfl
@[simp] theorem State.setPrb_stack (s : State) (v : Prb) : (s.setPrb v).stack = s.stack := rfl
@[simp] theorem State.setPrb_gte (s : State) (v : Prb) : (s.setPrb v).gte = s.gte := rfl
@[simp] theorem State.setPrb_cal (s : State) (v : Prb) : (s.setPrb v).cal = s.cal := rfl
@[simp] theorem State.setPrb_lnk (s : State) (v : Prb) : (s.setPrb v).lnk = s.lnk := rfl
@[simp] theorem State.setPrb_freeNext (s : State) (v : Prb) : (s.setPrb v).freeNext = s.freeNext := rfl
@[simp] theorem State.setPrb_pending (s : State) (v : Prb) : (s.setPrb v).pending = s.pending := rfl

/-! ### setPnt -/

@[simp] theorem State.setPnt_now (s : State) (v : Pnt) : (s.setPnt v).now = s.now := rfl
@[simp] theorem State.setPnt_enc (s : State) (v : Pnt) : (s.setPnt v).enc = s.enc := rfl
@[simp] theorem State.setPnt_wbk (s : State) (v : Pnt) : (s.setPnt v).wbk = s.wbk := rfl
@[simp] theorem State.setPnt_psc (s : State) (v : Pnt) : (s.setPnt v).psc = s.psc := rfl
@[simp] theorem State.setPnt_hold (s : State) (v : Pnt) : (s.setPnt v).hold = s.hold := rfl
@[simp] theorem State.setPnt_prb (s : State) (v : Pnt) : (s.setPnt v).prb = s.prb := rfl
@[simp] theorem State.setPnt_pnt (s : State) (v : Pnt) : (s.setPnt v).pnt = v := rfl
@[simp] theorem State.setPnt_stack (s : State) (v : Pnt) : (s.setPnt v).stack = s.stack := rfl
@[simp] theorem State.setPnt_gte (s : State) (v : Pnt) : (s.setPnt v).gte = s.gte := rfl
@[simp] theorem State.setPnt_cal (s : State) (v : Pnt) : (s.setPnt v).cal = s.cal := rfl
@[simp] theorem State.setPnt_lnk (s : State) (v : Pnt) : (s.setPnt v).lnk = s.lnk := rfl
@[simp] theorem State.setPnt_freeNext (s : State) (v : Pnt) : (s.setPnt v).freeNext = s.freeNext := rfl
@[simp] theorem State.setPnt_pending (s : State) (v : Pnt) : (s.setPnt v).pending = s.pending := rfl

/-! ### setStack -/

@[simp] theorem State.setStack_now (s : State) (v : List MissEntry) : (s.setStack v).now = s.now := rfl
@[simp] theorem State.setStack_enc (s : State) (v : List MissEntry) : (s.setStack v).enc = s.enc := rfl
@[simp] theorem State.setStack_wbk (s : State) (v : List MissEntry) : (s.setStack v).wbk = s.wbk := rfl
@[simp] theorem State.setStack_psc (s : State) (v : List MissEntry) : (s.setStack v).psc = s.psc := rfl
@[simp] theorem State.setStack_hold (s : State) (v : List MissEntry) : (s.setStack v).hold = s.hold := rfl
@[simp] theorem State.setStack_prb (s : State) (v : List MissEntry) : (s.setStack v).prb = s.prb := rfl
@[simp] theorem State.setStack_pnt (s : State) (v : List MissEntry) : (s.setStack v).pnt = s.pnt := rfl
@[simp] theorem State.setStack_stack (s : State) (v : List MissEntry) : (s.setStack v).stack = v := rfl
@[simp] theorem State.setStack_gte (s : State) (v : List MissEntry) : (s.setStack v).gte = s.gte := rfl
@[simp] theorem State.setStack_cal (s : State) (v : List MissEntry) : (s.setStack v).cal = s.cal := rfl
@[simp] theorem State.setStack_lnk (s : State) (v : List MissEntry) : (s.setStack v).lnk = s.lnk := rfl
@[simp] theorem State.setStack_freeNext (s : State) (v : List MissEntry) : (s.setStack v).freeNext = s.freeNext := rfl
@[simp] theorem State.setStack_pending (s : State) (v : List MissEntry) : (s.setStack v).pending = s.pending := rfl

/-! ### setGte -/

@[simp] theorem State.setGte_now (s : State) (v : Gte) : (s.setGte v).now = s.now := rfl
@[simp] theorem State.setGte_enc (s : State) (v : Gte) : (s.setGte v).enc = s.enc := rfl
@[simp] theorem State.setGte_wbk (s : State) (v : Gte) : (s.setGte v).wbk = s.wbk := rfl
@[simp] theorem State.setGte_psc (s : State) (v : Gte) : (s.setGte v).psc = s.psc := rfl
@[simp] theorem State.setGte_hold (s : State) (v : Gte) : (s.setGte v).hold = s.hold := rfl
@[simp] theorem State.setGte_prb (s : State) (v : Gte) : (s.setGte v).prb = s.prb := rfl
@[simp] theorem State.setGte_pnt (s : State) (v : Gte) : (s.setGte v).pnt = s.pnt := rfl
@[simp] theorem State.setGte_stack (s : State) (v : Gte) : (s.setGte v).stack = s.stack := rfl
@[simp] theorem State.setGte_gte (s : State) (v : Gte) : (s.setGte v).gte = v := rfl
@[simp] theorem State.setGte_cal (s : State) (v : Gte) : (s.setGte v).cal = s.cal := rfl
@[simp] theorem State.setGte_lnk (s : State) (v : Gte) : (s.setGte v).lnk = s.lnk := rfl
@[simp] theorem State.setGte_freeNext (s : State) (v : Gte) : (s.setGte v).freeNext = s.freeNext := rfl
@[simp] theorem State.setGte_pending (s : State) (v : Gte) : (s.setGte v).pending = s.pending := rfl

/-! ### setCal -/

@[simp] theorem State.setCal_now (s : State) (v : Cal) : (s.setCal v).now = s.now := rfl
@[simp] theorem State.setCal_enc (s : State) (v : Cal) : (s.setCal v).enc = s.enc := rfl
@[simp] theorem State.setCal_wbk (s : State) (v : Cal) : (s.setCal v).wbk = s.wbk := rfl
@[simp] theorem State.setCal_psc (s : State) (v : Cal) : (s.setCal v).psc = s.psc := rfl
@[simp] theorem State.setCal_hold (s : State) (v : Cal) : (s.setCal v).hold = s.hold := rfl
@[simp] theorem State.setCal_prb (s : State) (v : Cal) : (s.setCal v).prb = s.prb := rfl
@[simp] theorem State.setCal_pnt (s : State) (v : Cal) : (s.setCal v).pnt = s.pnt := rfl
@[simp] theorem State.setCal_stack (s : State) (v : Cal) : (s.setCal v).stack = s.stack := rfl
@[simp] theorem State.setCal_gte (s : State) (v : Cal) : (s.setCal v).gte = s.gte := rfl
@[simp] theorem State.setCal_cal (s : State) (v : Cal) : (s.setCal v).cal = v := rfl
@[simp] theorem State.setCal_lnk (s : State) (v : Cal) : (s.setCal v).lnk = s.lnk := rfl
@[simp] theorem State.setCal_freeNext (s : State) (v : Cal) : (s.setCal v).freeNext = s.freeNext := rfl
@[simp] theorem State.setCal_pending (s : State) (v : Cal) : (s.setCal v).pending = s.pending := rfl

/-! ### setLnk -/

@[simp] theorem State.setLnk_now (s : State) (v : Lnk) : (s.setLnk v).now = s.now := rfl
@[simp] theorem State.setLnk_enc (s : State) (v : Lnk) : (s.setLnk v).enc = s.enc := rfl
@[simp] theorem State.setLnk_wbk (s : State) (v : Lnk) : (s.setLnk v).wbk = s.wbk := rfl
@[simp] theorem State.setLnk_psc (s : State) (v : Lnk) : (s.setLnk v).psc = s.psc := rfl
@[simp] theorem State.setLnk_hold (s : State) (v : Lnk) : (s.setLnk v).hold = s.hold := rfl
@[simp] theorem State.setLnk_prb (s : State) (v : Lnk) : (s.setLnk v).prb = s.prb := rfl
@[simp] theorem State.setLnk_pnt (s : State) (v : Lnk) : (s.setLnk v).pnt = s.pnt := rfl
@[simp] theorem State.setLnk_stack (s : State) (v : Lnk) : (s.setLnk v).stack = s.stack := rfl
@[simp] theorem State.setLnk_gte (s : State) (v : Lnk) : (s.setLnk v).gte = s.gte := rfl
@[simp] theorem State.setLnk_cal (s : State) (v : Lnk) : (s.setLnk v).cal = s.cal := rfl
@[simp] theorem State.setLnk_lnk (s : State) (v : Lnk) : (s.setLnk v).lnk = v := rfl
@[simp] theorem State.setLnk_freeNext (s : State) (v : Lnk) : (s.setLnk v).freeNext = s.freeNext := rfl
@[simp] theorem State.setLnk_pending (s : State) (v : Lnk) : (s.setLnk v).pending = s.pending := rfl

/-! ### setNow -/

@[simp] theorem State.setNow_now (s : State) (v : Nat) : (s.setNow v).now = v := rfl
@[simp] theorem State.setNow_enc (s : State) (v : Nat) : (s.setNow v).enc = s.enc := rfl
@[simp] theorem State.setNow_wbk (s : State) (v : Nat) : (s.setNow v).wbk = s.wbk := rfl
@[simp] theorem State.setNow_psc (s : State) (v : Nat) : (s.setNow v).psc = s.psc := rfl
@[simp] theorem State.setNow_hold (s : State) (v : Nat) : (s.setNow v).hold = s.hold := rfl
@[simp] theorem State.setNow_prb (s : State) (v : Nat) : (s.setNow v).prb = s.prb := rfl
@[simp] theorem State.setNow_pnt (s : State) (v : Nat) : (s.setNow v).pnt = s.pnt := rfl
@[simp] theorem State.setNow_stack (s : State) (v : Nat) : (s.setNow v).stack = s.stack := rfl
@[simp] theorem State.setNow_gte (s : State) (v : Nat) : (s.setNow v).gte = s.gte := rfl
@[simp] theorem State.setNow_cal (s : State) (v : Nat) : (s.setNow v).cal = s.cal := rfl
@[simp] theorem State.setNow_lnk (s : State) (v : Nat) : (s.setNow v).lnk = s.lnk := rfl
@[simp] theorem State.setNow_freeNext (s : State) (v : Nat) : (s.setNow v).freeNext = s.freeNext := rfl
@[simp] theorem State.setNow_pending (s : State) (v : Nat) : (s.setNow v).pending = s.pending := rfl

/-! ### setPending -/

@[simp] theorem State.setPending_now (s : State) (v : List Instr) : (s.setPending v).now = s.now := rfl
@[simp] theorem State.setPending_enc (s : State) (v : List Instr) : (s.setPending v).enc = s.enc := rfl
@[simp] theorem State.setPending_wbk (s : State) (v : List Instr) : (s.setPending v).wbk = s.wbk := rfl
@[simp] theorem State.setPending_psc (s : State) (v : List Instr) : (s.setPending v).psc = s.psc := rfl
@[simp] theorem State.setPending_hold (s : State) (v : List Instr) : (s.setPending v).hold = s.hold := rfl
@[simp] theorem State.setPending_prb (s : State) (v : List Instr) : (s.setPending v).prb = s.prb := rfl
@[simp] theorem State.setPending_pnt (s : State) (v : List Instr) : (s.setPending v).pnt = s.pnt := rfl
@[simp] theorem State.setPending_stack (s : State) (v : List Instr) : (s.setPending v).stack = s.stack := rfl
@[simp] theorem State.setPending_gte (s : State) (v : List Instr) : (s.setPending v).gte = s.gte := rfl
@[simp] theorem State.setPending_cal (s : State) (v : List Instr) : (s.setPending v).cal = s.cal := rfl
@[simp] theorem State.setPending_lnk (s : State) (v : List Instr) : (s.setPending v).lnk = s.lnk := rfl
@[simp] theorem State.setPending_freeNext (s : State) (v : List Instr) : (s.setPending v).freeNext = s.freeNext := rfl
@[simp] theorem State.setPending_pending (s : State) (v : List Instr) : (s.setPending v).pending = v := rfl

/-! ### useFree -/

@[simp] theorem State.useFree_now (s : State) : s.useFree.now = s.now := rfl
@[simp] theorem State.useFree_enc (s : State) : s.useFree.enc = s.enc := rfl
@[simp] theorem State.useFree_wbk (s : State) : s.useFree.wbk = s.wbk := rfl
@[simp] theorem State.useFree_psc (s : State) : s.useFree.psc = s.psc := rfl
@[simp] theorem State.useFree_hold (s : State) : s.useFree.hold = s.hold := rfl
@[simp] theorem State.useFree_prb (s : State) : s.useFree.prb = s.prb := rfl
@[simp] theorem State.useFree_pnt (s : State) : s.useFree.pnt = s.pnt := rfl
@[simp] theorem State.useFree_stack (s : State) : s.useFree.stack = s.stack := rfl
@[simp] theorem State.useFree_gte (s : State) : s.useFree.gte = s.gte := rfl
@[simp] theorem State.useFree_cal (s : State) : s.useFree.cal = s.cal := rfl
@[simp] theorem State.useFree_lnk (s : State) : s.useFree.lnk = s.lnk := rfl
@[simp] theorem State.useFree_freeNext (s : State) : s.useFree.freeNext = s.freeNext + 1 := rfl
@[simp] theorem State.useFree_pending (s : State) : s.useFree.pending = s.pending := rfl

end Sys2Proof.Machine
end

