-- ==== Sys2Proof/Laws/Frame.lean ====
section
/-! SUPPORT. Laws/Frame.lean: for each operation that the blocks share, one lemma that says which parts of the
state it leaves alone. simp takes each conjunct as a rewrite rule. -/

namespace Sys2Proof.Machine

open Sys2Proof

/-- A fold of steps that each keep a part of the state keeps it. -/
theorem foldl_keeps {α β γ : Type} (part : β → γ) (f : β → α → β) (h : ∀ b a, part (f b a) = part b)
    (l : List α) (b : β) : part (l.foldl f b) = part b := by
  induction l generalizing b with
  | nil => rfl
  | cons a l ih => rw [List.foldl_cons, ih, h]

/-- Raising a notice changes LNK alone (R194). -/
@[simp] theorem raise_frame (n : Notice) (s : State) :
    (raise n s).now = s.now ∧ (raise n s).enc = s.enc ∧ (raise n s).wbk = s.wbk ∧ (raise n s).psc = s.psc ∧
    (raise n s).hold = s.hold ∧ (raise n s).prb = s.prb ∧ (raise n s).pnt = s.pnt ∧
    (raise n s).stack = s.stack ∧ (raise n s).gte = s.gte ∧ (raise n s).cal = s.cal ∧
    (raise n s).freeNext = s.freeNext ∧ (raise n s).pending = s.pending := by
  simp [raise]

/-- A change of the lead context changes PSC alone. -/
@[simp] theorem modLead_frame (f : PassCtx → PassCtx) (s : State) :
    (modLead f s).now = s.now ∧ (modLead f s).enc = s.enc ∧ (modLead f s).wbk = s.wbk ∧
    (modLead f s).hold = s.hold ∧ (modLead f s).prb = s.prb ∧ (modLead f s).pnt = s.pnt ∧
    (modLead f s).stack = s.stack ∧ (modLead f s).gte = s.gte ∧ (modLead f s).cal = s.cal ∧
    (modLead f s).lnk = s.lnk ∧ (modLead f s).freeNext = s.freeNext ∧ (modLead f s).pending = s.pending := by
  simp [modLead]

/-- A change of a context changes PSC alone (R79). -/
@[simp] theorem modCtx_frame (id : Nat) (f : PassCtx → PassCtx) (s : State) :
    (modCtx id f s).now = s.now ∧ (modCtx id f s).enc = s.enc ∧ (modCtx id f s).wbk = s.wbk ∧
    (modCtx id f s).hold = s.hold ∧ (modCtx id f s).prb = s.prb ∧ (modCtx id f s).pnt = s.pnt ∧
    (modCtx id f s).stack = s.stack ∧ (modCtx id f s).gte = s.gte ∧ (modCtx id f s).cal = s.cal ∧
    (modCtx id f s).lnk = s.lnk ∧ (modCtx id f s).freeNext = s.freeNext ∧
    (modCtx id f s).pending = s.pending := by
  unfold modCtx; split <;> simp

/-- Appending a record changes PNT alone. -/
@[simp] theorem appendRecord_frame (r : BufferRecord) (s : State) :
    (appendRecord r s).now = s.now ∧ (appendRecord r s).enc = s.enc ∧ (appendRecord r s).wbk = s.wbk ∧
    (appendRecord r s).psc = s.psc ∧ (appendRecord r s).hold = s.hold ∧ (appendRecord r s).prb = s.prb ∧
    (appendRecord r s).stack = s.stack ∧ (appendRecord r s).gte = s.gte ∧ (appendRecord r s).cal = s.cal ∧
    (appendRecord r s).lnk = s.lnk ∧ (appendRecord r s).freeNext = s.freeNext ∧
    (appendRecord r s).pending = s.pending := by
  simp [appendRecord]

/-- Appending a summary changes PNT alone (R80). -/
@[simp] theorem appendSummary_frame (c : PassCtx) (s : State) :
    (appendSummary c s).now = s.now ∧ (appendSummary c s).enc = s.enc ∧ (appendSummary c s).wbk = s.wbk ∧
    (appendSummary c s).psc = s.psc ∧ (appendSummary c s).hold = s.hold ∧ (appendSummary c s).prb = s.prb ∧
    (appendSummary c s).stack = s.stack ∧ (appendSummary c s).gte = s.gte ∧
    (appendSummary c s).cal = s.cal ∧ (appendSummary c s).lnk = s.lnk ∧
    (appendSummary c s).freeNext = s.freeNext ∧ (appendSummary c s).pending = s.pending := by
  simp [appendSummary]

/-- Summarising the head of the drain list changes PSC and PNT alone (R80). -/
@[simp] theorem flushDrain_frame (s : State) :
    (flushDrain s).now = s.now ∧ (flushDrain s).enc = s.enc ∧ (flushDrain s).wbk = s.wbk ∧
    (flushDrain s).hold = s.hold ∧ (flushDrain s).prb = s.prb ∧ (flushDrain s).stack = s.stack ∧
    (flushDrain s).gte = s.gte ∧ (flushDrain s).cal = s.cal ∧ (flushDrain s).lnk = s.lnk ∧
    (flushDrain s).freeNext = s.freeNext ∧ (flushDrain s).pending = s.pending := by
  simp only [flushDrain]
  refine ⟨?_, ?_, ?_, ?_, ?_, ?_, ?_, ?_, ?_, ?_, ?_⟩ <;>
    · refine (foldl_keeps _ _ (fun b a => ?_) _ _).trans ?_ <;> simp

/-- A push changes the stack and the lead's counters alone (R147 to R149). -/
@[simp] theorem pushMiss_frame (e : MissEntry) (s : State) :
    (pushMiss e s).now = s.now ∧ (pushMiss e s).enc = s.enc ∧ (pushMiss e s).wbk = s.wbk ∧
    (pushMiss e s).hold = s.hold ∧ (pushMiss e s).prb = s.prb ∧ (pushMiss e s).pnt = s.pnt ∧
    (pushMiss e s).gte = s.gte ∧ (pushMiss e s).cal = s.cal ∧ (pushMiss e s).lnk = s.lnk ∧
    (pushMiss e s).freeNext = s.freeNext ∧ (pushMiss e s).pending = s.pending := by
  unfold pushMiss; split <;> simp

/-- A take changes the stack and the lead's counters alone (R150). -/
@[simp] theorem takeMiss_frame (b w j : Nat) (s : State) :
    ((takeMiss b w j s).2).now = s.now ∧ ((takeMiss b w j s).2).enc = s.enc ∧
    ((takeMiss b w j s).2).wbk = s.wbk ∧ ((takeMiss b w j s).2).hold = s.hold ∧
    ((takeMiss b w j s).2).prb = s.prb ∧ ((takeMiss b w j s).2).pnt = s.pnt ∧
    ((takeMiss b w j s).2).gte = s.gte ∧ ((takeMiss b w j s).2).cal = s.cal ∧
    ((takeMiss b w j s).2).lnk = s.lnk ∧ ((takeMiss b w j s).2).freeNext = s.freeNext ∧
    ((takeMiss b w j s).2).pending = s.pending := by
  unfold takeMiss; split <;> simp

/-- Counting an abandoned entry changes PSC alone. -/
@[simp] theorem abandonOne_frame (s : State) (e : TagEntry) :
    (abandonOne s e).now = s.now ∧ (abandonOne s e).enc = s.enc ∧ (abandonOne s e).wbk = s.wbk ∧
    (abandonOne s e).hold = s.hold ∧ (abandonOne s e).prb = s.prb ∧ (abandonOne s e).pnt = s.pnt ∧
    (abandonOne s e).stack = s.stack ∧ (abandonOne s e).gte = s.gte ∧ (abandonOne s e).cal = s.cal ∧
    (abandonOne s e).lnk = s.lnk ∧ (abandonOne s e).freeNext = s.freeNext ∧
    (abandonOne s e).pending = s.pending := by
  simp [abandonOne]

/-- Abandonment changes PSC and PRB alone (R122). -/
@[simp] theorem abandon_frame (which : TagEntry → Bool) (s : State) :
    (abandon which s).now = s.now ∧ (abandon which s).enc = s.enc ∧ (abandon which s).wbk = s.wbk ∧
    (abandon which s).hold = s.hold ∧ (abandon which s).pnt = s.pnt ∧ (abandon which s).stack = s.stack ∧
    (abandon which s).gte = s.gte ∧ (abandon which s).cal = s.cal ∧ (abandon which s).lnk = s.lnk ∧
    (abandon which s).freeNext = s.freeNext ∧ (abandon which s).pending = s.pending := by
  simp only [abandon]
  refine ⟨?_, ?_, ?_, ?_, ?_, ?_, ?_, ?_, ?_, ?_, ?_⟩ <;>
    · refine (foldl_keeps _ _ (fun b a => ?_) _ _).trans ?_ <;> simp

/-- Firing changes PSC and PRB alone (R101, R111). -/
@[simp] theorem fire_frame (r : TriggerRequest) (s : State) :
    (fire r s).now = s.now ∧ (fire r s).enc = s.enc ∧ (fire r s).wbk = s.wbk ∧ (fire r s).hold = s.hold ∧
    (fire r s).pnt = s.pnt ∧ (fire r s).stack = s.stack ∧ (fire r s).gte = s.gte ∧ (fire r s).cal = s.cal ∧
    (fire r s).lnk = s.lnk ∧ (fire r s).freeNext = s.freeNext ∧ (fire r s).pending = s.pending := by
  unfold fire; split <;> simp

/-- Driving the safe levels changes GTE alone (R162). -/
@[simp] theorem driveSafe_frame (s : State) :
    (driveSafe s).now = s.now ∧ (driveSafe s).enc = s.enc ∧ (driveSafe s).wbk = s.wbk ∧
    (driveSafe s).psc = s.psc ∧ (driveSafe s).hold = s.hold ∧ (driveSafe s).prb = s.prb ∧
    (driveSafe s).pnt = s.pnt ∧ (driveSafe s).stack = s.stack ∧ (driveSafe s).cal = s.cal ∧
    (driveSafe s).lnk = s.lnk ∧ (driveSafe s).freeNext = s.freeNext ∧ (driveSafe s).pending = s.pending := by
  simp [driveSafe]

/-- Finding the due states changes GTE alone (R163). -/
@[simp] theorem setDue_frame (dir : Dir) (u : Int) (s : State) :
    (setDue dir u s).now = s.now ∧ (setDue dir u s).enc = s.enc ∧ (setDue dir u s).wbk = s.wbk ∧
    (setDue dir u s).psc = s.psc ∧ (setDue dir u s).hold = s.hold ∧ (setDue dir u s).prb = s.prb ∧
    (setDue dir u s).pnt = s.pnt ∧ (setDue dir u s).stack = s.stack ∧ (setDue dir u s).cal = s.cal ∧
    (setDue dir u s).lnk = s.lnk ∧ (setDue dir u s).freeNext = s.freeNext ∧
    (setDue dir u s).pending = s.pending := by
  unfold setDue; split <;> split <;> simp

/-- Clearing the due states changes GTE alone. -/
@[simp] theorem clearDue_frame (s : State) :
    (clearDue s).now = s.now ∧ (clearDue s).enc = s.enc ∧ (clearDue s).wbk = s.wbk ∧
    (clearDue s).psc = s.psc ∧ (clearDue s).hold = s.hold ∧ (clearDue s).prb = s.prb ∧
    (clearDue s).pnt = s.pnt ∧ (clearDue s).stack = s.stack ∧ (clearDue s).cal = s.cal ∧
    (clearDue s).lnk = s.lnk ∧ (clearDue s).freeNext = s.freeNext ∧ (clearDue s).pending = s.pending := by
  simp [clearDue]

/-- Entering SAFE changes GTE alone (R161). -/
@[simp] theorem enterSafe_frame (s : State) :
    (enterSafe s).now = s.now ∧ (enterSafe s).enc = s.enc ∧ (enterSafe s).wbk = s.wbk ∧
    (enterSafe s).psc = s.psc ∧ (enterSafe s).hold = s.hold ∧ (enterSafe s).prb = s.prb ∧
    (enterSafe s).pnt = s.pnt ∧ (enterSafe s).stack = s.stack ∧ (enterSafe s).cal = s.cal ∧
    (enterSafe s).lnk = s.lnk ∧ (enterSafe s).freeNext = s.freeNext ∧ (enterSafe s).pending = s.pending := by
  simp [enterSafe]

/-- New safe levels change GTE alone (R162). -/
@[simp] theorem safeLevelsChanged_frame (s : State) :
    (safeLevelsChanged s).now = s.now ∧ (safeLevelsChanged s).enc = s.enc ∧
    (safeLevelsChanged s).wbk = s.wbk ∧ (safeLevelsChanged s).psc = s.psc ∧
    (safeLevelsChanged s).hold = s.hold ∧ (safeLevelsChanged s).prb = s.prb ∧
    (safeLevelsChanged s).pnt = s.pnt ∧ (safeLevelsChanged s).stack = s.stack ∧
    (safeLevelsChanged s).cal = s.cal ∧ (safeLevelsChanged s).lnk = s.lnk ∧
    (safeLevelsChanged s).freeNext = s.freeNext ∧ (safeLevelsChanged s).pending = s.pending := by
  unfold safeLevelsChanged; split <;> simp

/-- GTE's reset changes GTE alone (R174). -/
@[simp] theorem gatesReset_frame (s : State) :
    (gatesReset s).now = s.now ∧ (gatesReset s).enc = s.enc ∧ (gatesReset s).wbk = s.wbk ∧
    (gatesReset s).psc = s.psc ∧ (gatesReset s).hold = s.hold ∧ (gatesReset s).prb = s.prb ∧
    (gatesReset s).pnt = s.pnt ∧ (gatesReset s).stack = s.stack ∧ (gatesReset s).cal = s.cal ∧
    (gatesReset s).lnk = s.lnk ∧ (gatesReset s).freeNext = s.freeNext ∧ (gatesReset s).pending = s.pending := by
  simp [gatesReset]

/-- A begun wait changes GTE and LNK alone (R167). -/
@[simp] theorem beginWait_frame (group : Fin 8 → Option (Fin 4)) (q : Fin 4) (s : State) (n : Fin 8) :
    (beginWait group q s n).now = s.now ∧ (beginWait group q s n).enc = s.enc ∧
    (beginWait group q s n).wbk = s.wbk ∧ (beginWait group q s n).psc = s.psc ∧
    (beginWait group q s n).hold = s.hold ∧ (beginWait group q s n).prb = s.prb ∧
    (beginWait group q s n).pnt = s.pnt ∧ (beginWait group q s n).stack = s.stack ∧
    (beginWait group q s n).cal = s.cal ∧ (beginWait group q s n).freeNext = s.freeNext ∧
    (beginWait group q s n).pending = s.pending := by
  simp [beginWait]

/-- Reporting waits changes GTE and LNK alone (R167). -/
@[simp] theorem reportWaits_frame (group : Fin 8 → Option (Fin 4)) (old : Gte) (s : State) :
    (reportWaits group old s).now = s.now ∧ (reportWaits group old s).enc = s.enc ∧
    (reportWaits group old s).wbk = s.wbk ∧ (reportWaits group old s).psc = s.psc ∧
    (reportWaits group old s).hold = s.hold ∧ (reportWaits group old s).prb = s.prb ∧
    (reportWaits group old s).pnt = s.pnt ∧ (reportWaits group old s).stack = s.stack ∧
    (reportWaits group old s).cal = s.cal ∧ (reportWaits group old s).freeNext = s.freeNext ∧
    (reportWaits group old s).pending = s.pending := by
  simp only [reportWaits]
  refine ⟨?_, ?_, ?_, ?_, ?_, ?_, ?_, ?_, ?_, ?_, ?_⟩ <;>
    · refine foldl_keeps _ _ (fun b a => ?_) _ _
      exact foldl_keeps _ _ (fun c n => by simp) _ _

/-- An arbitration in RUN changes GTE and LNK alone (R166, R167). -/
@[simp] theorem arbitrateRun_frame (fresh : Bool) (s : State) :
    (arbitrateRun fresh s).now = s.now ∧ (arbitrateRun fresh s).enc = s.enc ∧
    (arbitrateRun fresh s).wbk = s.wbk ∧ (arbitrateRun fresh s).psc = s.psc ∧
    (arbitrateRun fresh s).hold = s.hold ∧ (arbitrateRun fresh s).prb = s.prb ∧
    (arbitrateRun fresh s).pnt = s.pnt ∧ (arbitrateRun fresh s).stack = s.stack ∧
    (arbitrateRun fresh s).cal = s.cal ∧ (arbitrateRun fresh s).freeNext = s.freeNext ∧
    (arbitrateRun fresh s).pending = s.pending := by
  unfold arbitrateRun; dsimp only; split <;> simp

/-- Entering RUN changes GTE and LNK alone (R161). -/
@[simp] theorem enterRun_frame (s : State) :
    (enterRun s).now = s.now ∧ (enterRun s).enc = s.enc ∧ (enterRun s).wbk = s.wbk ∧
    (enterRun s).psc = s.psc ∧ (enterRun s).hold = s.hold ∧ (enterRun s).prb = s.prb ∧
    (enterRun s).pnt = s.pnt ∧ (enterRun s).stack = s.stack ∧ (enterRun s).cal = s.cal ∧
    (enterRun s).freeNext = s.freeNext ∧ (enterRun s).pending = s.pending := by
  simp [enterRun]

/-- GTE's part of an exchange changes GTE and LNK alone (R168). -/
@[simp] theorem gatesExchange_frame (s : State) :
    (gatesExchange s).now = s.now ∧ (gatesExchange s).enc = s.enc ∧ (gatesExchange s).wbk = s.wbk ∧
    (gatesExchange s).psc = s.psc ∧ (gatesExchange s).hold = s.hold ∧ (gatesExchange s).prb = s.prb ∧
    (gatesExchange s).pnt = s.pnt ∧ (gatesExchange s).stack = s.stack ∧ (gatesExchange s).cal = s.cal ∧
    (gatesExchange s).freeNext = s.freeNext ∧ (gatesExchange s).pending = s.pending := by
  unfold gatesExchange; dsimp only; split <;> simp

/-- A position change that GTE takes changes GTE and LNK alone (R163). -/
@[simp] theorem gatesPosition_frame (dir : Dir) (u : Int) (s : State) :
    (gatesPosition dir u s).now = s.now ∧ (gatesPosition dir u s).enc = s.enc ∧
    (gatesPosition dir u s).wbk = s.wbk ∧ (gatesPosition dir u s).psc = s.psc ∧
    (gatesPosition dir u s).hold = s.hold ∧ (gatesPosition dir u s).prb = s.prb ∧
    (gatesPosition dir u s).pnt = s.pnt ∧ (gatesPosition dir u s).stack = s.stack ∧
    (gatesPosition dir u s).cal = s.cal ∧ (gatesPosition dir u s).freeNext = s.freeNext ∧
    (gatesPosition dir u s).pending = s.pending := by
  unfold gatesPosition; split <;> simp

/-- Clearing latches changes GTE and LNK alone (R171). -/
@[simp] theorem clearLatches_frame (mask : Fin 8 → Bool) (s : State) :
    (clearLatches mask s).now = s.now ∧ (clearLatches mask s).enc = s.enc ∧
    (clearLatches mask s).wbk = s.wbk ∧ (clearLatches mask s).psc = s.psc ∧
    (clearLatches mask s).hold = s.hold ∧ (clearLatches mask s).prb = s.prb ∧
    (clearLatches mask s).pnt = s.pnt ∧ (clearLatches mask s).stack = s.stack ∧
    (clearLatches mask s).cal = s.cal ∧ (clearLatches mask s).freeNext = s.freeNext ∧
    (clearLatches mask s).pending = s.pending := by
  unfold clearLatches; dsimp only; split
  · split <;> simp
  · simp

/-- Latching a fault changes GTE and LNK alone (R170). -/
@[simp] theorem latchExpired_frame (s : State) (n : Fin 8) :
    (latchExpired s n).now = s.now ∧ (latchExpired s n).enc = s.enc ∧ (latchExpired s n).wbk = s.wbk ∧
    (latchExpired s n).psc = s.psc ∧ (latchExpired s n).hold = s.hold ∧ (latchExpired s n).prb = s.prb ∧
    (latchExpired s n).pnt = s.pnt ∧ (latchExpired s n).stack = s.stack ∧ (latchExpired s n).cal = s.cal ∧
    (latchExpired s n).freeNext = s.freeNext ∧ (latchExpired s n).pending = s.pending := by
  unfold latchExpired; dsimp only; split <;> simp

/-- Emptying the stack changes it and the lead's counters alone (R154). -/
@[simp] theorem emptyStack_frame (s : State) :
    (emptyStack s).now = s.now ∧ (emptyStack s).enc = s.enc ∧ (emptyStack s).wbk = s.wbk ∧
    (emptyStack s).hold = s.hold ∧ (emptyStack s).prb = s.prb ∧ (emptyStack s).pnt = s.pnt ∧
    (emptyStack s).gte = s.gte ∧ (emptyStack s).cal = s.cal ∧ (emptyStack s).lnk = s.lnk ∧
    (emptyStack s).freeNext = s.freeNext ∧ (emptyStack s).pending = s.pending := by
  simp [emptyStack]

/-- Steps 4 and 5 of a pass's end change PSC and PNT alone (R73). -/
@[simp] theorem retireLead_frame (s : State) :
    (retireLead s).now = s.now ∧ (retireLead s).enc = s.enc ∧ (retireLead s).wbk = s.wbk ∧
    (retireLead s).hold = s.hold ∧ (retireLead s).prb = s.prb ∧ (retireLead s).stack = s.stack ∧
    (retireLead s).gte = s.gte ∧ (retireLead s).cal = s.cal ∧ (retireLead s).lnk = s.lnk ∧
    (retireLead s).freeNext = s.freeNext ∧ (retireLead s).pending = s.pending := by
  unfold retireLead; split
  · simp
  · split <;> simp

/-- Recording an end status changes PSC alone. -/
@[simp] theorem recordEnd_frame (st : EndStatus) (s : State) :
    (recordEnd st s).now = s.now ∧ (recordEnd st s).enc = s.enc ∧ (recordEnd st s).wbk = s.wbk ∧
    (recordEnd st s).hold = s.hold ∧ (recordEnd st s).prb = s.prb ∧ (recordEnd st s).pnt = s.pnt ∧
    (recordEnd st s).stack = s.stack ∧ (recordEnd st s).gte = s.gte ∧ (recordEnd st s).cal = s.cal ∧
    (recordEnd st s).lnk = s.lnk ∧ (recordEnd st s).freeNext = s.freeNext ∧
    (recordEnd st s).pending = s.pending := by
  simp [recordEnd]

/-- Step 2 of a pass's end changes PSC, PRB and GTE alone (R73). -/
@[simp] theorem abandonLead_frame (id : Nat) (s : State) :
    (abandonLead id s).now = s.now ∧ (abandonLead id s).enc = s.enc ∧ (abandonLead id s).wbk = s.wbk ∧
    (abandonLead id s).hold = s.hold ∧ (abandonLead id s).pnt = s.pnt ∧
    (abandonLead id s).stack = s.stack ∧ (abandonLead id s).cal = s.cal ∧ (abandonLead id s).lnk = s.lnk ∧
    (abandonLead id s).freeNext = s.freeNext ∧ (abandonLead id s).pending = s.pending := by
  simp [abandonLead]

/-- A pass's end changes PSC, PRB, PNT, the stack and GTE alone (R73). -/
@[simp] theorem endLead_frame (st : EndStatus) (s : State) :
    (endLead st s).now = s.now ∧ (endLead st s).enc = s.enc ∧ (endLead st s).wbk = s.wbk ∧
    (endLead st s).hold = s.hold ∧ (endLead st s).cal = s.cal ∧ (endLead st s).lnk = s.lnk ∧
    (endLead st s).freeNext = s.freeNext ∧ (endLead st s).pending = s.pending := by
  unfold endLead; split
  · simp
  · split <;> simp

/-- The end of a running lead changes PSC, PRB, PNT, the stack and GTE alone (R75). -/
@[simp] theorem endRunningLead_frame (st : EndStatus) (s : State) :
    (endRunningLead st s).now = s.now ∧ (endRunningLead st s).enc = s.enc ∧
    (endRunningLead st s).wbk = s.wbk ∧ (endRunningLead st s).hold = s.hold ∧
    (endRunningLead st s).cal = s.cal ∧ (endRunningLead st s).lnk = s.lnk ∧
    (endRunningLead st s).freeNext = s.freeNext ∧ (endRunningLead st s).pending = s.pending := by
  unfold endRunningLead; split
  · simp
  · split <;> simp

/-- A pass that ends COMPLETE or STALLED leaves its tags and GTE as they are (R73). -/
theorem endLead_keeps_tags (st : EndStatus) (h : abandons st = false) (s : State) :
    (endLead st s).prb = s.prb ∧ (endLead st s).gte = s.gte := by
  unfold endLead; split <;> simp [h]

/-- A COMPLETE pass leaves its tags and GTE as they are (R73). -/
@[simp] theorem endLead_complete_frame (s : State) :
    (endLead .complete s).prb = s.prb ∧ (endLead .complete s).gte = s.gte :=
  endLead_keeps_tags .complete rfl s

/-- The test of R70 changes PSC, PNT and the stack alone. -/
@[simp] theorem testRetryDone_frame (s : State) :
    (testRetryDone s).now = s.now ∧ (testRetryDone s).enc = s.enc ∧ (testRetryDone s).wbk = s.wbk ∧
    (testRetryDone s).hold = s.hold ∧ (testRetryDone s).prb = s.prb ∧ (testRetryDone s).gte = s.gte ∧
    (testRetryDone s).cal = s.cal ∧ (testRetryDone s).lnk = s.lnk ∧
    (testRetryDone s).freeNext = s.freeNext ∧ (testRetryDone s).pending = s.pending := by
  unfold testRetryDone; split
  · simp
  · split <;> simp

/-- PSC's tests after a fallen count change PSC, PNT and the stack alone (R118). -/
@[simp] theorem passTests_frame (id : Nat) (s : State) :
    (passTests id s).now = s.now ∧ (passTests id s).enc = s.enc ∧ (passTests id s).wbk = s.wbk ∧
    (passTests id s).hold = s.hold ∧ (passTests id s).prb = s.prb ∧ (passTests id s).gte = s.gte ∧
    (passTests id s).cal = s.cal ∧ (passTests id s).lnk = s.lnk ∧ (passTests id s).freeNext = s.freeNext ∧
    (passTests id s).pending = s.pending := by
  unfold passTests; split <;> simp

/-- Steps 5 and 6 of a resolution change PSC, PNT and the stack alone (R118). -/
@[simp] theorem settle_frame (e : TagEntry) (s : State) :
    (settle e s).now = s.now ∧ (settle e s).enc = s.enc ∧ (settle e s).wbk = s.wbk ∧
    (settle e s).hold = s.hold ∧ (settle e s).prb = s.prb ∧ (settle e s).gte = s.gte ∧
    (settle e s).cal = s.cal ∧ (settle e s).lnk = s.lnk ∧ (settle e s).freeNext = s.freeNext ∧
    (settle e s).pending = s.pending := by
  simp [settle]

/-- Routing a miss changes PSC and the stack alone (R119). -/
@[simp] theorem routeMiss_frame (e : TagEntry) (c : MissCause) (s : State) :
    (routeMiss e c s).now = s.now ∧ (routeMiss e c s).enc = s.enc ∧ (routeMiss e c s).wbk = s.wbk ∧
    (routeMiss e c s).hold = s.hold ∧ (routeMiss e c s).prb = s.prb ∧ (routeMiss e c s).pnt = s.pnt ∧
    (routeMiss e c s).gte = s.gte ∧ (routeMiss e c s).cal = s.cal ∧ (routeMiss e c s).lnk = s.lnk ∧
    (routeMiss e c s).freeNext = s.freeNext ∧ (routeMiss e c s).pending = s.pending := by
  unfold routeMiss; split
  · split <;> simp
  · simp

/-- Resolving a miss changes PSC, PNT and the stack alone (R118). -/
@[simp] theorem resolveMiss_frame (e : TagEntry) (c : MissCause) (s : State) :
    (resolveMiss e c s).now = s.now ∧ (resolveMiss e c s).enc = s.enc ∧ (resolveMiss e c s).wbk = s.wbk ∧
    (resolveMiss e c s).hold = s.hold ∧ (resolveMiss e c s).prb = s.prb ∧ (resolveMiss e c s).gte = s.gte ∧
    (resolveMiss e c s).cal = s.cal ∧ (resolveMiss e c s).lnk = s.lnk ∧
    (resolveMiss e c s).freeNext = s.freeNext ∧ (resolveMiss e c s).pending = s.pending := by
  simp [resolveMiss]

/-- Resolving a reading changes PSC, PNT and the stack alone (R118, R128). -/
@[simp] theorem resolveReading_frame (e : TagEntry) (rd : Reading) (s : State) :
    (resolveReading e rd s).now = s.now ∧ (resolveReading e rd s).enc = s.enc ∧
    (resolveReading e rd s).wbk = s.wbk ∧ (resolveReading e rd s).hold = s.hold ∧
    (resolveReading e rd s).prb = s.prb ∧ (resolveReading e rd s).gte = s.gte ∧
    (resolveReading e rd s).cal = s.cal ∧ (resolveReading e rd s).lnk = s.lnk ∧
    (resolveReading e rd s).freeNext = s.freeNext ∧ (resolveReading e rd s).pending = s.pending := by
  unfold resolveReading; split
  · simp
  · split <;> simp

/-- Resolving the head as a miss changes PSC, PRB, PNT and the stack alone. -/
@[simp] theorem resolveHeadMiss_frame (c : MissCause) (s : State) :
    (resolveHeadMiss c s).now = s.now ∧ (resolveHeadMiss c s).enc = s.enc ∧
    (resolveHeadMiss c s).wbk = s.wbk ∧ (resolveHeadMiss c s).hold = s.hold ∧
    (resolveHeadMiss c s).gte = s.gte ∧ (resolveHeadMiss c s).cal = s.cal ∧
    (resolveHeadMiss c s).lnk = s.lnk ∧ (resolveHeadMiss c s).freeNext = s.freeNext ∧
    (resolveHeadMiss c s).pending = s.pending := by
  unfold resolveHeadMiss; split <;> simp

/-- Resolving the head with a reading changes PSC, PRB, PNT and the stack alone. -/
@[simp] theorem resolveHeadReading_frame (rd : Reading) (s : State) :
    (resolveHeadReading rd s).now = s.now ∧ (resolveHeadReading rd s).enc = s.enc ∧
    (resolveHeadReading rd s).wbk = s.wbk ∧ (resolveHeadReading rd s).hold = s.hold ∧
    (resolveHeadReading rd s).gte = s.gte ∧ (resolveHeadReading rd s).cal = s.cal ∧
    (resolveHeadReading rd s).lnk = s.lnk ∧ (resolveHeadReading rd s).freeNext = s.freeNext ∧
    (resolveHeadReading rd s).pending = s.pending := by
  unfold resolveHeadReading; split <;> simp

/-- Skipping entries changes PSC, PRB, PNT and the stack alone (R115). -/
@[simp] theorem skipEntries_frame (n : Nat) (s : State) :
    (skipEntries n s).now = s.now ∧ (skipEntries n s).enc = s.enc ∧ (skipEntries n s).wbk = s.wbk ∧
    (skipEntries n s).hold = s.hold ∧ (skipEntries n s).gte = s.gte ∧ (skipEntries n s).cal = s.cal ∧
    (skipEntries n s).lnk = s.lnk ∧ (skipEntries n s).freeNext = s.freeNext ∧
    (skipEntries n s).pending = s.pending := by
  induction n generalizing s with
  | zero => simp [skipEntries]
  | succ n ih => simpa [skipEntries] using ih (resolveHeadMiss .skipped s)

/-- Matching a reading changes PSC, PRB, PNT and the stack alone (R114). -/
@[simp] theorem matchReading_frame (rd : Reading) (s : State) :
    (matchReading rd s).now = s.now ∧ (matchReading rd s).enc = s.enc ∧ (matchReading rd s).wbk = s.wbk ∧
    (matchReading rd s).hold = s.hold ∧ (matchReading rd s).gte = s.gte ∧ (matchReading rd s).cal = s.cal ∧
    (matchReading rd s).lnk = s.lnk ∧ (matchReading rd s).freeNext = s.freeNext ∧
    (matchReading rd s).pending = s.pending := by
  unfold matchReading; split <;> simp

/-- Discarding a reading frame changes PRB alone (R112). -/
@[simp] theorem discardFrame_frame (s : State) :
    (discardFrame s).now = s.now ∧ (discardFrame s).enc = s.enc ∧ (discardFrame s).wbk = s.wbk ∧
    (discardFrame s).psc = s.psc ∧ (discardFrame s).hold = s.hold ∧ (discardFrame s).pnt = s.pnt ∧
    (discardFrame s).stack = s.stack ∧ (discardFrame s).gte = s.gte ∧ (discardFrame s).cal = s.cal ∧
    (discardFrame s).lnk = s.lnk ∧ (discardFrame s).freeNext = s.freeNext ∧
    (discardFrame s).pending = s.pending := by
  simp [discardFrame]

/-- A gap within a reading frame changes PRB alone (R112). -/
@[simp] theorem discardAtGap_frame (b : Nat) (s : State) :
    (discardAtGap b s).now = s.now ∧ (discardAtGap b s).enc = s.enc ∧ (discardAtGap b s).wbk = s.wbk ∧
    (discardAtGap b s).psc = s.psc ∧ (discardAtGap b s).hold = s.hold ∧ (discardAtGap b s).pnt = s.pnt ∧
    (discardAtGap b s).stack = s.stack ∧ (discardAtGap b s).gte = s.gte ∧ (discardAtGap b s).cal = s.cal ∧
    (discardAtGap b s).lnk = s.lnk ∧ (discardAtGap b s).freeNext = s.freeNext ∧
    (discardAtGap b s).pending = s.pending := by
  unfold discardAtGap; split <;> simp

/-- The start of a character changes the framing state of the reading receiver alone (R112). -/
@[simp] theorem beginProbeChar_frame (s : State) :
    (beginProbeChar s).now = s.now ∧ (beginProbeChar s).enc = s.enc ∧ (beginProbeChar s).wbk = s.wbk ∧
    (beginProbeChar s).psc = s.psc ∧ (beginProbeChar s).hold = s.hold ∧ (beginProbeChar s).pnt = s.pnt ∧
    (beginProbeChar s).stack = s.stack ∧ (beginProbeChar s).gte = s.gte ∧ (beginProbeChar s).cal = s.cal ∧
    (beginProbeChar s).lnk = s.lnk ∧ (beginProbeChar s).freeNext = s.freeNext ∧
    (beginProbeChar s).pending = s.pending ∧ (beginProbeChar s).prb.queue = s.prb.queue ∧
    (beginProbeChar s).prb.checkFails = s.prb.checkFails := by
  unfold beginProbeChar; split <;> simp

/-- A received character changes PSC, PRB, PNT and the stack alone (R112). -/
@[simp] theorem takeProbeChar_frame (s : State) (ch : ProbeChar) :
    (takeProbeChar s ch).now = s.now ∧ (takeProbeChar s ch).enc = s.enc ∧
    (takeProbeChar s ch).wbk = s.wbk ∧ (takeProbeChar s ch).hold = s.hold ∧
    (takeProbeChar s ch).gte = s.gte ∧ (takeProbeChar s ch).cal = s.cal ∧
    (takeProbeChar s ch).lnk = s.lnk ∧ (takeProbeChar s ch).freeNext = s.freeNext ∧
    (takeProbeChar s ch).pending = s.pending := by
  unfold takeProbeChar takeBody
  repeat' (first | split | simp)

/-- An item of PRB_IN changes PSC, PRB, PNT and the stack alone (R112). -/
@[simp] theorem takeProbeItem_frame (s : State) (i : ProbeItem) :
    (takeProbeItem s i).now = s.now ∧ (takeProbeItem s i).enc = s.enc ∧
    (takeProbeItem s i).wbk = s.wbk ∧ (takeProbeItem s i).hold = s.hold ∧
    (takeProbeItem s i).gte = s.gte ∧ (takeProbeItem s i).cal = s.cal ∧
    (takeProbeItem s i).lnk = s.lnk ∧ (takeProbeItem s i).freeNext = s.freeNext ∧
    (takeProbeItem s i).pending = s.pending := by
  cases i <;> simp [takeProbeItem]

/-- Entering FAULT changes PSC, PRB, PNT, the stack, GTE and LNK alone (R121). -/
@[simp] theorem enterProbeFault_frame (tag : BitVec 4) (s : State) :
    (enterProbeFault tag s).now = s.now ∧ (enterProbeFault tag s).enc = s.enc ∧
    (enterProbeFault tag s).wbk = s.wbk ∧ (enterProbeFault tag s).hold = s.hold ∧
    (enterProbeFault tag s).cal = s.cal ∧ (enterProbeFault tag s).freeNext = s.freeNext ∧
    (enterProbeFault tag s).pending = s.pending := by
  simp [enterProbeFault]

/-- Counting a timeout changes PSC, PRB, PNT, the stack, GTE and LNK alone (R120). -/
@[simp] theorem countTimeout_frame (tag : BitVec 4) (s : State) :
    (countTimeout tag s).now = s.now ∧ (countTimeout tag s).enc = s.enc ∧
    (countTimeout tag s).wbk = s.wbk ∧ (countTimeout tag s).hold = s.hold ∧
    (countTimeout tag s).cal = s.cal ∧ (countTimeout tag s).freeNext = s.freeNext ∧
    (countTimeout tag s).pending = s.pending := by
  unfold countTimeout; dsimp only; split <;> simp

/-- A timeout changes PSC, PRB, PNT, the stack, GTE and LNK alone (R117). -/
@[simp] theorem timeoutHead_frame (s : State) :
    (timeoutHead s).now = s.now ∧ (timeoutHead s).enc = s.enc ∧ (timeoutHead s).wbk = s.wbk ∧
    (timeoutHead s).hold = s.hold ∧ (timeoutHead s).cal = s.cal ∧ (timeoutHead s).freeNext = s.freeNext ∧
    (timeoutHead s).pending = s.pending := by
  unfold timeoutHead; split
  · simp
  · split <;> simp

/-- Timeouts change PSC, PRB, PNT, the stack, GTE and LNK alone (R125). -/
@[simp] theorem timeoutHeads_frame (n : Nat) (s : State) :
    (timeoutHeads n s).now = s.now ∧ (timeoutHeads n s).enc = s.enc ∧ (timeoutHeads n s).wbk = s.wbk ∧
    (timeoutHeads n s).hold = s.hold ∧ (timeoutHeads n s).cal = s.cal ∧
    (timeoutHeads n s).freeNext = s.freeNext ∧ (timeoutHeads n s).pending = s.pending := by
  induction n generalizing s with
  | zero => simp [timeoutHeads]
  | succ n ih => simpa [timeoutHeads] using ih (timeoutHead s)

/-- Restarting the stall timer changes PSC alone (R71). -/
@[simp] theorem restartStall_frame (s : State) :
    (restartStall s).now = s.now ∧ (restartStall s).enc = s.enc ∧ (restartStall s).wbk = s.wbk ∧
    (restartStall s).hold = s.hold ∧ (restartStall s).prb = s.prb ∧ (restartStall s).pnt = s.pnt ∧
    (restartStall s).stack = s.stack ∧ (restartStall s).gte = s.gte ∧ (restartStall s).cal = s.cal ∧
    (restartStall s).lnk = s.lnk ∧ (restartStall s).freeNext = s.freeNext ∧
    (restartStall s).pending = s.pending := by
  unfold restartStall; split <;> simp

/-- A pass start changes PSC, GTE and LNK alone (R65). -/
@[simp] theorem startPass_frame (l : Lead) (n : Nat) (s : State) :
    (startPass l n s).now = s.now ∧ (startPass l n s).enc = s.enc ∧ (startPass l n s).wbk = s.wbk ∧
    (startPass l n s).hold = s.hold ∧ (startPass l n s).prb = s.prb ∧ (startPass l n s).pnt = s.pnt ∧
    (startPass l n s).stack = s.stack ∧ (startPass l n s).cal = s.cal ∧
    (startPass l n s).freeNext = s.freeNext ∧ (startPass l n s).pending = s.pending := by
  simp [startPass]

/-- A crossing that PSC takes changes PSC, GTE and LNK alone (R65, R72). -/
@[simp] theorem passCrossing_frame (d : Dir) (x : Int) (o : IndexOutcome) (st : EncState) (s : State) :
    (passCrossing d x o st s).now = s.now ∧ (passCrossing d x o st s).enc = s.enc ∧
    (passCrossing d x o st s).wbk = s.wbk ∧ (passCrossing d x o st s).hold = s.hold ∧
    (passCrossing d x o st s).prb = s.prb ∧ (passCrossing d x o st s).pnt = s.pnt ∧
    (passCrossing d x o st s).stack = s.stack ∧ (passCrossing d x o st s).cal = s.cal ∧
    (passCrossing d x o st s).freeNext = s.freeNext ∧ (passCrossing d x o st s).pending = s.pending := by
  unfold passCrossing; split
  · simp
  · dsimp only; split
    · split <;> simp
    · simp

/-- A point crossed in the main span changes PSC, PRB and the stack alone (R90). -/
@[simp] theorem crossMain_frame (l : Lead) (u : Int) (o : Bool) (s : State) (pt : CrossedPoint) :
    (crossMain l u o s pt).now = s.now ∧ (crossMain l u o s pt).enc = s.enc ∧
    (crossMain l u o s pt).wbk = s.wbk ∧ (crossMain l u o s pt).hold = s.hold ∧
    (crossMain l u o s pt).pnt = s.pnt ∧ (crossMain l u o s pt).gte = s.gte ∧
    (crossMain l u o s pt).cal = s.cal ∧ (crossMain l u o s pt).lnk = s.lnk ∧
    (crossMain l u o s pt).freeNext = s.freeNext ∧ (crossMain l u o s pt).pending = s.pending := by
  unfold crossMain; dsimp only; split <;> simp

/-- A point crossed in a retry turn changes PSC, PRB and the stack alone (R100). -/
@[simp] theorem crossRetry_frame (l : Lead) (u : Int) (s : State) (pt : CrossedPoint) :
    (crossRetry l u s pt).now = s.now ∧ (crossRetry l u s pt).enc = s.enc ∧
    (crossRetry l u s pt).wbk = s.wbk ∧ (crossRetry l u s pt).hold = s.hold ∧
    (crossRetry l u s pt).pnt = s.pnt ∧ (crossRetry l u s pt).gte = s.gte ∧
    (crossRetry l u s pt).cal = s.cal ∧ (crossRetry l u s pt).lnk = s.lnk ∧
    (crossRetry l u s pt).freeNext = s.freeNext ∧ (crossRetry l u s pt).pending = s.pending := by
  unfold crossRetry; split
  · simp
  · have h := takeMiss_frame pt.blade pt.index pt.j s
    split <;> rename_i heq <;> rw [heq] at h <;> simp_all

/-- The points of one position change PSC, PRB and the stack alone (R85). -/
@[simp] theorem crossPosition_frame (l : Lead) (u : Int) (p : Nat) (s : State) :
    (crossPosition l u p s).now = s.now ∧ (crossPosition l u p s).enc = s.enc ∧
    (crossPosition l u p s).wbk = s.wbk ∧ (crossPosition l u p s).hold = s.hold ∧
    (crossPosition l u p s).pnt = s.pnt ∧ (crossPosition l u p s).gte = s.gte ∧
    (crossPosition l u p s).cal = s.cal ∧ (crossPosition l u p s).lnk = s.lnk ∧
    (crossPosition l u p s).freeNext = s.freeNext ∧ (crossPosition l u p s).pending = s.pending := by
  unfold crossPosition; split
  · refine ⟨?_, ?_, ?_, ?_, ?_, ?_, ?_, ?_, ?_, ?_⟩ <;> exact foldl_keeps _ _ (fun b a => by simp) _ _
  · refine ⟨?_, ?_, ?_, ?_, ?_, ?_, ?_, ?_, ?_, ?_⟩ <;> exact foldl_keeps _ _ (fun b a => by simp) _ _

/-- Entering a retry turn changes PSC alone (R68, R69). -/
@[simp] theorem enterTurn_frame (t : Nat) (s : State) :
    (enterTurn t s).now = s.now ∧ (enterTurn t s).enc = s.enc ∧ (enterTurn t s).wbk = s.wbk ∧
    (enterTurn t s).hold = s.hold ∧ (enterTurn t s).prb = s.prb ∧ (enterTurn t s).pnt = s.pnt ∧
    (enterTurn t s).stack = s.stack ∧ (enterTurn t s).gte = s.gte ∧ (enterTurn t s).cal = s.cal ∧
    (enterTurn t s).lnk = s.lnk ∧ (enterTurn t s).freeNext = s.freeNext ∧
    (enterTurn t s).pending = s.pending := by
  simp [enterTurn]

/-- A turn boundary changes PSC, PNT and the stack alone (R68, R69). -/
@[simp] theorem turnBoundary_frame (s : State) :
    (turnBoundary s).now = s.now ∧ (turnBoundary s).enc = s.enc ∧ (turnBoundary s).wbk = s.wbk ∧
    (turnBoundary s).hold = s.hold ∧ (turnBoundary s).prb = s.prb ∧ (turnBoundary s).gte = s.gte ∧
    (turnBoundary s).cal = s.cal ∧ (turnBoundary s).lnk = s.lnk ∧ (turnBoundary s).freeNext = s.freeNext ∧
    (turnBoundary s).pending = s.pending := by
  unfold turnBoundary; split
  · simp
  · dsimp only
    split
    · split <;> simp
    · simp

/-- One position of an advance changes PSC, PRB, PNT and the stack alone (R66). -/
@[simp] theorem advanceOne_frame (s : State) :
    (advanceOne s).now = s.now ∧ (advanceOne s).enc = s.enc ∧ (advanceOne s).wbk = s.wbk ∧
    (advanceOne s).hold = s.hold ∧ (advanceOne s).gte = s.gte ∧ (advanceOne s).cal = s.cal ∧
    (advanceOne s).lnk = s.lnk ∧ (advanceOne s).freeNext = s.freeNext ∧ (advanceOne s).pending = s.pending := by
  unfold advanceOne; split
  · simp
  · split <;> simp

/-- An advance changes PSC, PRB, PNT and the stack alone (R66). -/
@[simp] theorem advancePositions_frame (n : Nat) (s : State) :
    (advancePositions n s).now = s.now ∧ (advancePositions n s).enc = s.enc ∧
    (advancePositions n s).wbk = s.wbk ∧ (advancePositions n s).hold = s.hold ∧
    (advancePositions n s).gte = s.gte ∧ (advancePositions n s).cal = s.cal ∧
    (advancePositions n s).lnk = s.lnk ∧ (advancePositions n s).freeNext = s.freeNext ∧
    (advancePositions n s).pending = s.pending := by
  induction n generalizing s with
  | zero => simp [advancePositions]
  | succ n ih => simpa [advancePositions] using ih (advanceOne s)

/-- A position change that PSC takes changes PSC, PRB, PNT and the stack alone (R66). -/
@[simp] theorem passPosition_frame (u : Int) (s : State) :
    (passPosition u s).now = s.now ∧ (passPosition u s).enc = s.enc ∧ (passPosition u s).wbk = s.wbk ∧
    (passPosition u s).hold = s.hold ∧ (passPosition u s).gte = s.gte ∧ (passPosition u s).cal = s.cal ∧
    (passPosition u s).lnk = s.lnk ∧ (passPosition u s).freeNext = s.freeNext ∧
    (passPosition u s).pending = s.pending := by
  unfold passPosition; split
  · simp
  · dsimp only; split <;> simp

/-- Working out the HOLD condition changes it and LNK alone (R94). -/
@[simp] theorem updateHold_frame (s : State) :
    (updateHold s).now = s.now ∧ (updateHold s).enc = s.enc ∧ (updateHold s).wbk = s.wbk ∧
    (updateHold s).psc = s.psc ∧ (updateHold s).prb = s.prb ∧ (updateHold s).pnt = s.pnt ∧
    (updateHold s).stack = s.stack ∧ (updateHold s).gte = s.gte ∧ (updateHold s).cal = s.cal ∧
    (updateHold s).freeNext = s.freeNext ∧ (updateHold s).pending = s.pending := by
  unfold updateHold; dsimp only; split <;> simp

end Sys2Proof.Machine
end

