-- ==== Sys2Proof/Laws/Ops.lean ====
section
/-! SUPPORT. Laws/Ops.lean: for each shared operation one lemma that says what it can do, which later proofs
cite in place of its definition. -/

namespace Sys2Proof.Machine

open Sys2Proof

/-! ### One value per gate -/

/-- The value of gate `n` of a record given as a function. -/
@[simp] theorem Eight.get_ofFn {α : Type} (f : Fin 8 → α) (n : Fin 8) : (Eight.ofFn f).get n = f n := by
  match n with
  | 0 => rfl
  | 1 => rfl
  | 2 => rfl
  | 3 => rfl
  | 4 => rfl
  | 5 => rfl
  | 6 => rfl
  | 7 => rfl

/-- The value of gate `n` after one gate's value is replaced. -/
@[simp] theorem Eight.get_set {α : Type} (e : Eight α) (m n : Fin 8) (x : α) :
    (e.set m x).get n = if n = m then x else e.get n := by
  simp [Eight.set]

/-- Every gate is listed. -/
@[simp] theorem mem_gateNumbers (n : Fin 8) : n ∈ gateNumbers := by
  revert n; decide

/-- Every group is listed. -/
@[simp] theorem mem_groupNumbers (q : Fin 4) : q ∈ groupNumbers := by
  revert q; decide

/-! ### Notices (R194) -/

/-- The slot of a kind after the slot of a kind is replaced. -/
@[simp] theorem noticeSlot_set (n : Notices) (k j : NoticeKind) (v : Option Pending) :
    noticeSlot (setNoticeSlot n k v) j = if j = k then v else noticeSlot n j := by
  cases k <;> cases j <;> rfl

/-- A raise changes the slot of its kind alone (R194). -/
@[simp] theorem raise_slot (n : Notice) (s : State) (k : NoticeKind) :
    noticeSlot (raise n s).lnk.notices k =
      if k = noticeKind n then some (raisedSlot (noticeSlot s.lnk.notices k) n)
      else noticeSlot s.lnk.notices k := by
  simp only [raise, State.setLnk_lnk, noticeSlot_set]
  split <;> simp_all

/-- A raise leaves the rest of LNK as it is (R194). -/
@[simp] theorem raise_lnk (n : Notice) (s : State) :
    (raise n s).lnk.lock = s.lnk.lock ∧ (raise n s).lnk.rx = s.lnk.rx ∧
    (raise n s).lnk.requests = s.lnk.requests ∧ (raise n s).lnk.reply = s.lnk.reply ∧
    (raise n s).lnk.errors = s.lnk.errors ∧ (raise n s).lnk.mask = s.lnk.mask ∧
    (raise n s).lnk.causes = s.lnk.causes ∧ (raise n s).lnk.tx = s.lnk.tx ∧
    (raise n s).lnk.rsetTaken = s.lnk.rsetTaken := by
  simp [raise]

/-! ### Pass contexts -/

/-- A change of the lead's context, as PSC then stands. -/
@[simp] theorem modLead_psc (f : PassCtx → PassCtx) (s : State) :
    (modLead f s).psc.lead = (s.psc.lead.map fun l => { l with ctx := f l.ctx }) ∧
    (modLead f s).psc.drain = s.psc.drain ∧ (modLead f s).psc.stall = s.psc.stall := by
  simp [modLead]

/-- A change of a context is a change of the lead's or of those of the drain list with its ID (R79). -/
theorem modCtx_cases (id : Nat) (f : PassCtx → PassCtx) (s : State) :
    (leadIs id s.psc = true ∧ modCtx id f s = modLead f s) ∨
    (leadIs id s.psc = false ∧ (modCtx id f s).psc.lead = s.psc.lead ∧
      (modCtx id f s).psc.stall = s.psc.stall ∧
      (modCtx id f s).psc.drain = s.psc.drain.map fun c => if c.settings.passId == id then f c else c) := by
  unfold modCtx
  cases h : leadIs id s.psc <;> simp

/-- A change of a context changes neither how many summaries are owed nor the state of the lead. -/
theorem modCtx_owed (id : Nat) (f : PassCtx → PassCtx) (s : State) :
    summariesOwed (modCtx id f s).psc = summariesOwed s.psc ∧
      (modCtx id f s).psc.lead.map Lead.phase = s.psc.lead.map Lead.phase := by
  unfold modCtx
  split
  · cases h : s.psc.lead <;> simp [modLead, summariesOwed, h]
  · simp [summariesOwed]

/-! ### Point buffer -/

/-- An appended record stands last, and the largest occupancy follows (R143). -/
@[simp] theorem appendRecord_pnt (r : BufferRecord) (s : State) :
    (appendRecord r s).pnt.buffer = s.pnt.buffer ++ [r] ∧
      (appendRecord r s).pnt.largest = max s.pnt.largest (s.pnt.buffer.length + 1) := by
  simp [appendRecord]

/-- Appending summaries one after another lengthens the buffer by one each. -/
theorem appendSummaries_length (l : List PassCtx) (s : State) :
    (l.foldl (fun t c => appendSummary c t) s).pnt.buffer.length = s.pnt.buffer.length + l.length := by
  induction l generalizing s with
  | nil => simp
  | cons c l ih => rw [List.foldl_cons, ih]; simp [appendSummary]; omega

/-- Summarising the head of the drain list leaves PSC with the rest of the list (R80). -/
theorem flushDrain_psc (s : State) :
    (flushDrain s).psc = { s.psc with drain := s.psc.drain.dropWhile noTags } := by
  simp only [flushDrain]
  exact (foldl_keeps State.psc _ (fun b a => by simp) _ _).trans (by simp)

/-- Each summary appended is one owed no longer, so their sum stays (R139). -/
theorem flushDrain_load (s : State) : bufferLoad (flushDrain s) = bufferLoad s := by
  have h := congrArg List.length (List.takeWhile_append_dropWhile (p := noTags) (l := s.psc.drain))
  have hl : (flushDrain s).pnt.buffer.length =
      s.pnt.buffer.length + (s.psc.drain.takeWhile noTags).length := by
    simp only [flushDrain]; rw [appendSummaries_length]; simp
  rw [List.length_append] at h
  simp only [bufferLoad, summariesOwed, flushDrain_psc, hl]
  omega

/-! ### Miss Stack -/

/-- What a push can do (R147, R148, R149): a key that stands on the stack refuses it; otherwise the entry
stands on top, over all the others or over all but the oldest of a full stack. -/
theorem pushMiss_cases (e : MissEntry) (s : State) :
    (s.stack.any (sameKey e) = true ∧ pushMiss e s = s) ∨
    (s.stack.any (sameKey e) = false ∧ s.stack.length < stackSize ∧ (pushMiss e s).stack = e :: s.stack) ∨
    (s.stack.any (sameKey e) = false ∧ stackSize ≤ s.stack.length ∧
      (pushMiss e s).stack = e :: s.stack.dropLast) := by
  unfold pushMiss
  cases h : s.stack.any (sameKey e)
  · by_cases hl : stackSize ≤ s.stack.length
    · right; right; simp [hl]
    · right; left; simp [hl]; omega
  · left; simp

/-- What a take can do (R150): no entry names the point and nothing changes, or the newest that does leaves. -/
theorem takeMiss_cases (b w j : Nat) (s : State) :
    (takeMiss b w j s).1 = s.stack.find? (namesPoint b w j) ∧
      ((takeMiss b w j s).1 = none → (takeMiss b w j s).2 = s) ∧
      (takeMiss b w j s).2.stack = s.stack.eraseP (namesPoint b w j) := by
  unfold takeMiss
  cases h : s.stack.find? (namesPoint b w j)
  · refine ⟨rfl, fun _ => rfl, ?_⟩
    rw [List.eraseP_of_forall_not]
    simpa using h
  · simp

/-! ### Requests (R191, R192) -/

/-- A frame may be dispatched exactly when it is the oldest of the request buffer, the reply slot is empty and
no RSET has been taken. -/
theorem dispatchable_iff (f : Frame) (s : State) :
    dispatchable f s = true ↔
      s.lnk.reply = none ∧ s.lnk.rsetTaken = false ∧ s.lnk.requests.head? = some f := by
  simp [dispatchable, and_assoc]

/-- What a dispatch can do (R192): the owner's rule answers a payload of the right length, BAD_LENGTH another;
a frame that may not be dispatched does nothing. -/
theorem dispatch_cases (kind : Byte) (p : List Byte) (ok : Bool) (owner : State → Answer) (s : State) :
    (dispatchable ⟨kind, p⟩ s = true ∧ ok = true ∧
      dispatch kind p ok owner s = .next (placeReply (replyKind kind) (owner (takeRequest s)))) ∨
    (dispatchable ⟨kind, p⟩ s = true ∧ ok = false ∧
      dispatch kind p ok owner s = .next (placeReply (replyKind kind) (refuse .badLength (takeRequest s)))) ∨
    (dispatchable ⟨kind, p⟩ s = false ∧ dispatch kind p ok owner s = .next s) := by
  cases h : dispatchable ⟨kind, p⟩ s <;> cases ok <;> simp [dispatch, h]

/-- Placing a reply changes LNK alone. -/
@[simp] theorem placeReply_frame (kind : Byte) (a : Answer) :
    (placeReply kind a).now = a.2.now ∧ (placeReply kind a).enc = a.2.enc ∧
    (placeReply kind a).wbk = a.2.wbk ∧ (placeReply kind a).psc = a.2.psc ∧
    (placeReply kind a).hold = a.2.hold ∧ (placeReply kind a).prb = a.2.prb ∧
    (placeReply kind a).pnt = a.2.pnt ∧ (placeReply kind a).stack = a.2.stack ∧
    (placeReply kind a).gte = a.2.gte ∧ (placeReply kind a).cal = a.2.cal ∧
    (placeReply kind a).freeNext = a.2.freeNext ∧ (placeReply kind a).pending = a.2.pending := by
  simp [placeReply]

/-- Taking a frame from the request buffer changes LNK alone. -/
@[simp] theorem takeRequest_frame (s : State) :
    (takeRequest s).now = s.now ∧ (takeRequest s).enc = s.enc ∧ (takeRequest s).wbk = s.wbk ∧
    (takeRequest s).psc = s.psc ∧ (takeRequest s).hold = s.hold ∧ (takeRequest s).prb = s.prb ∧
    (takeRequest s).pnt = s.pnt ∧ (takeRequest s).stack = s.stack ∧ (takeRequest s).gte = s.gte ∧
    (takeRequest s).cal = s.cal ∧ (takeRequest s).freeNext = s.freeNext ∧
    (takeRequest s).pending = s.pending := by
  simp [takeRequest]

/-- A refusal changes no state (R192). -/
@[simp] theorem refuseWith_state (st : Status) (d₁ d₂ : Byte) (s : State) : (refuseWith st d₁ d₂ s).2 = s := rfl

/-- A refusal changes no state (R192). -/
@[simp] theorem refuse_state (st : Status) (s : State) : (refuse st s).2 = s := rfl

/-- A reply with OK leaves the state that its rule gives. -/
@[simp] theorem accept_state (content : List Byte) (s : State) : (accept content s).2 = s := rfl

/-! ### Gates (R162, R166) -/

/-- The winner of a group is a candidate of that group. -/
theorem groupWinner_candidate {group : Fin 8 → Option (Fin 4)} {held cand : Fin 8 → Bool} {q : Fin 4}
    {n : Fin 8} (h : groupWinner group held cand q = some n) : group n = some q ∧ cand n = true := by
  unfold groupWinner at h
  split at h
  · rename_i m hm
    have := List.find?_some hm
    simp_all
  · have := List.find?_some h
    simp_all

/-- A gate that an arbitration drives ON is a candidate (R166). -/
theorem arbitrated_candidate {group : Fin 8 → Option (Fin 4)} {held cand : Fin 8 → Bool} {n : Fin 8}
    (h : arbitrated group held cand n = true) : cand n = true := by
  unfold arbitrated at h
  split at h
  · exact h
  · exact (groupWinner_candidate (by simpa using h)).2

/-- The level that a gate is driven to becomes its driven level. -/
@[simp] theorem driveGate_driven (now : Nat) (level : Bool) (g : Gate) :
    (driveGate now level g).driven = level := by
  unfold driveGate startQual; split <;> simp_all

/-- Driving a level leaves the status, the due state and the sense as they are. -/
@[simp] theorem driveGate_frame (now : Nat) (level : Bool) (g : Gate) :
    (driveGate now level g).status = g.status ∧ (driveGate now level g).due = g.due ∧
      (driveGate now level g).sense = g.sense := by
  unfold driveGate startQual; split <;> simp

/-- The levels that SAFE drives (R162). -/
@[simp] theorem driveSafe_driven (s : State) (n : Fin 8) :
    ((driveSafe s).gte.gates.get n).driven =
      arbitrated (gateGroup s.wbk.active) (fun _ => false) (safeCandidate s) n := by
  simp [driveSafe]

/-- SAFE leaves the mode and the statuses as they are and clears the waiting flags (R162). -/
@[simp] theorem driveSafe_gate (s : State) (n : Fin 8) :
    (driveSafe s).gte.mode = s.gte.mode ∧
    ((driveSafe s).gte.gates.get n).status = (s.gte.gates.get n).status ∧
      ((driveSafe s).gte.gates.get n).waiting = false := by
  simp [driveSafe]

/-- Reporting waits leaves the gates and the mode as they are (R167). -/
@[simp] theorem reportWaits_gates (group : Fin 8 → Option (Fin 4)) (old : Gte) (s : State) :
    (reportWaits group old s).gte.gates = s.gte.gates ∧ (reportWaits group old s).gte.mode = s.gte.mode := by
  simp only [reportWaits]
  constructor
  · refine foldl_keeps (fun t : State => t.gte.gates) _ (fun b a => ?_) _ _
    exact foldl_keeps (fun t : State => t.gte.gates) _ (fun c n => by simp [beginWait]) _ _
  · refine foldl_keeps (fun t : State => t.gte.mode) _ (fun b a => ?_) _ _
    exact foldl_keeps (fun t : State => t.gte.mode) _ (fun c n => by simp [beginWait]) _ _

/-- The levels that an arbitration in RUN drives, and the waits it leaves (R163, R166, R167). -/
theorem arbitrateRun_gate (fresh : Bool) (s : State) (n : Fin 8) :
    (arbitrateRun fresh s).gte.mode = s.gte.mode ∧
    ((arbitrateRun fresh s).gte.gates.get n).driven =
      arbitrated (gateGroup s.wbk.active) (holders fresh s.gte) (fun m => runCandidate (s.gte.gates.get m)) n ∧
    ((arbitrateRun fresh s).gte.gates.get n).status = (s.gte.gates.get n).status := by
  unfold arbitrateRun
  dsimp only
  split <;> simp

/-- Entering SAFE leaves the mode SAFE, no due state and no last evaluated position (R161). -/
theorem enterSafe_gte (s : State) (n : Fin 8) :
    (enterSafe s).gte.mode = .safe ∧ (enterSafe s).gte.last = none ∧
      ((enterSafe s).gte.gates.get n).due = .none := by
  simp [enterSafe, clearDue, driveSafe]

end Sys2Proof.Machine
end

