-- ==== Sys2Proof/Laws/Resolution.lean ====
section
/-! SUPPORT. Laws/Resolution.lean: what PSC's tests and the resolution of a tag as a miss do, in the terms of
Safety.lean, which later proofs cite in place of the definitions. -/

namespace Sys2Proof.Machine

open Sys2Proof

/-- Summarising the head of the drain list appends its summaries in order (R80). -/
theorem appendSummaries_pnt (l : List PassCtx) (s : State) :
    (l.foldl (fun t c => appendSummary c t) s).pnt =
      { buffer := s.pnt.buffer ++ l.map fun c => .summary (summaryOf c)
        largest := if l = [] then s.pnt.largest else max s.pnt.largest (s.pnt.buffer.length + l.length) } := by
  induction l generalizing s with
  | nil => simp
  | cons c l ih =>
    rw [List.foldl_cons, ih]
    cases l with
    | nil => simp [appendSummary, appendRecord]
    | cons d l => simp [appendSummary, appendRecord]; omega

/-- What summarising the head of the drain list does (R80). -/
theorem flushDrain_rule (s : State) :
    summarised s.psc.drain s (flushDrain s) ∧
      flushDrain s = { s with psc := { s.psc with drain := s.psc.drain.dropWhile noTags }, pnt := (flushDrain s).pnt } := by
  have hp := flushDrain_psc s
  refine ⟨⟨by rw [hp], ?_⟩, ?_⟩
  · simp only [flushDrain]; rw [appendSummaries_pnt]; simp
  · have h := flushDrain_frame s
    revert hp h
    generalize flushDrain s = t
    rintro hp ⟨h1, h2, h3, h4, h5, h6, h7, h8, h9, h10, h11⟩
    cases t; cases s
    simp_all

/-- Two changes of one context, of which the first keeps its settings, are one. -/
theorem modCtx_comp {f g : PassCtx → PassCtx} (hg : ∀ c, (g c).settings = c.settings) (id : Nat) (s : State) :
    modCtx id f (modCtx id g s) = modCtx id (fun c => f (g c)) s := by
  unfold modCtx
  cases h : leadIs id s.psc
  · have h' : leadIs id { s.psc with drain := s.psc.drain.map fun c => if c.settings.passId == id then g c else c } = false := h
    simp only [Bool.false_eq_true, ↓reduceIte, h', State.setPsc, List.map_map]
    congr 3
    funext c
    simp only [Function.comp]
    split <;> simp [*]
  · have h' : leadIs id (modLead g s).psc = true := by
      unfold leadIs at h ⊢
      cases hl : s.psc.lead <;> simp_all [modLead]
    simp only [↓reduceIte, h']
    simp only [modLead, State.setPsc, Option.map_map]
    rfl

/-- A change of the lead's context is one of the context of its pass. -/
theorem modLead_eq {id : Nat} {s : State} (h : leadIs id s.psc = true) (f : PassCtx → PassCtx) :
    modLead f s = modCtx id f s := by
  unfold modCtx; rw [if_pos h]

/-- The lead is the pass with an ID exactly when its context has it. -/
theorem leadIs_iff {id : Nat} {p : Psc} : leadIs id p = true ↔ ∃ l, p.lead = some l ∧ l.ctx.settings.passId = id := by
  unfold leadIs
  cases p.lead <;> simp

/-- A lead with an empty stack and no tags that ends COMPLETE is summarised behind the drain list (R73, R80). -/
theorem endComplete_rule {s : State} {l : Lead} (hl : s.psc.lead = some l) (hs : s.stack = [])
    (hn : noTags l.ctx = true) :
    let t := flushDrain (endLead .complete s)
    t = { s with psc := t.psc, pnt := t.pnt } ∧ t.psc.lead = none ∧ t.psc.stall = none ∧
      summarised (s.psc.drain ++ [{ l.ctx with
        endStatus := some .complete
        counters := { l.ctx.counters with unresolved := satAdd l.ctx.counters.unresolved 0 } }]) s t := by
  intro t
  let c : PassCtx := { l.ctx with
    endStatus := some .complete
    counters := { l.ctx.counters with unresolved := satAdd l.ctx.counters.unresolved 0 } }
  have hc : noTags c = true := hn
  have he : endLead .complete s =
      if s.psc.drain.isEmpty then
        appendSummary c { s with psc := { s.psc with lead := none, stall := none } }
      else { s with psc := { lead := none, drain := s.psc.drain ++ [c], stall := none } } := by
    simp only [endLead, hl, recordEnd, abandons, Bool.false_eq_true, ↓reduceIte, emptyStack, modLead, Option.map_some,
      hs, List.length_nil, retireLead, State.setStack, State.setPsc, onCounters]
    have : noTags { l.ctx with
      endStatus := some .complete
      counters := { l.ctx.counters with unresolved := satAdd l.ctx.counters.unresolved 0 } } = true := hn
    simp only [this, Bool.true_and]
    cases s
    simp_all only
    rfl
  cases hd : s.psc.drain with
  | nil =>
    rw [hd] at he
    have ht : t = appendSummary c { s with psc := { s.psc with lead := none, stall := none } } := by
      show flushDrain _ = _
      rw [he]
      simp [flushDrain, appendSummary, appendRecord, hd, State.setPsc, State.setPnt]
    rw [ht]
    refine ⟨by simp [appendSummary, appendRecord, State.setPnt], rfl, rfl, ?_⟩
    have hc' : noTags { l.ctx with
        endStatus := some .complete
        counters := { l.ctx.counters with unresolved := satAdd l.ctx.counters.unresolved 0 } } = true := hn
    constructor
    · simp [appendSummary, appendRecord, State.setPnt, hd, hc']
    · simp [appendSummary, appendRecord, State.setPnt, hc', c]
  | cons d rest =>
    rw [hd] at he
    have ht : t = flushDrain { s with psc := { lead := none, drain := d :: rest ++ [c], stall := none } } := by
      show flushDrain _ = _
      rw [he]; simp
    obtain ⟨r1, r2⟩ := flushDrain_rule { s with psc := { lead := none, drain := d :: rest ++ [c], stall := none } }
    rw [ht]
    exact ⟨by rw [r2], by rw [r2], by rw [r2], r1⟩

/-- PSC's tests after a change of a context (R70, R80). -/
theorem passTests_rule (id : Nat) (f : PassCtx → PassCtx) (hf : ∀ c, (f c).settings = c.settings) (s : State) :
    reportedTo id f s (passTests id (modCtx id f s)) := by
  unfold passTests
  cases h : leadIs id s.psc with
  | false =>
    have hm : modCtx id f s = s.setPsc { s.psc with
        drain := s.psc.drain.map fun c => if c.settings.passId == id then f c else c } := by
      unfold modCtx; rw [if_neg (by simp [h])]
    have hl : leadIs id (modCtx id f s).psc = false := by rw [hm]; exact h
    rw [hl, if_neg (by simp), hm]
    obtain ⟨r1, r2⟩ := flushDrain_rule (s.setPsc { s.psc with
        drain := s.psc.drain.map fun c => if c.settings.passId == id then f c else c })
    refine ⟨?_, fun l hls hid => ?_, fun _ => ?_⟩
    · rw [r2]; rfl
    · exact absurd (leadIs_iff.2 ⟨l, hls, hid⟩) (by simp [h])
    · have hmap : (s.psc.drain.map fun d => if d.settings.passId = id then f d else d) =
        s.psc.drain.map fun c => if c.settings.passId == id then f c else c := by
        simp only [beq_iff_eq]
      rw [hmap]
      exact ⟨by rw [r2]; rfl, by rw [r2]; rfl, r1⟩
  | true =>
    obtain ⟨l, hls, hid⟩ := leadIs_iff.1 h
    let m := s.setPsc { s.psc with lead := some { l with ctx := f l.ctx } }
    have hm : modCtx id f s = m := by
      unfold modCtx; rw [if_pos h]; simp [modLead, hls, m]
    have hml : m.psc.lead = some { l with ctx := f l.ctx } := rfl
    have hl : leadIs id m.psc = true := leadIs_iff.2 ⟨_, hml, by simp [hf, hid]⟩
    rw [hm, hl, if_pos rfl]
    have ht : testRetryDone m =
        if l.phase = .retrying ∧ s.stack.isEmpty = true ∧ noTags (f l.ctx) = true then endLead .complete m else m := by
      unfold testRetryDone; rw [hml]; rfl
    rw [ht]
    by_cases hd : l.phase = .retrying ∧ s.stack.isEmpty = true ∧ noTags (f l.ctx) = true
    · rw [if_pos hd]
      have hs : s.stack = [] := by simpa using hd.2.1
      obtain ⟨e1, e2, e3, e4⟩ := endComplete_rule hml (show m.stack = [] from hs) hd.2.2
      refine ⟨by rw [e1]; rfl, fun l' hl' _ => ?_, fun hno => absurd hid (hno l hls)⟩
      rw [hls] at hl'; cases hl'
      exact ⟨fun hx => absurd ⟨hd.1, hs, hd.2.2⟩ hx, fun _ => ⟨e2, e3, e4⟩⟩
    · rw [if_neg hd]
      obtain ⟨r1, r2⟩ := flushDrain_rule m
      refine ⟨by rw [r2]; rfl, fun l' hl' _ => ?_, fun hno => absurd hid (hno l hls)⟩
      rw [hls] at hl'; cases hl'
      refine ⟨fun _ => ⟨by rw [r2]; rfl, by rw [r2]; rfl, r1⟩, fun hx => ?_⟩
      exact absurd ⟨hx.1, by simpa using hx.2.1, hx.2.2⟩ hd

/-- A change of a context stands apart from one of the stack. -/
theorem modCtx_setStack (id : Nat) (f : PassCtx → PassCtx) (x : List MissEntry) (s : State) :
    (modCtx id f s).setStack x = modCtx id f (s.setStack x) := by
  unfold modCtx
  by_cases h : leadIs id s.psc = true
  · rw [if_pos h, if_pos (show leadIs id (s.setStack x).psc = true from h)]; rfl
  · rw [if_neg h, if_neg (show ¬ leadIs id (s.setStack x).psc = true from h)]; rfl

/-- The pass of a running lead is the lead. -/
theorem leadIs_of_running {id : Nat} {s : State} (h : runningLeadIs id s = true) : leadIs id s.psc = true := by
  unfold runningLeadIs at h
  unfold leadIs
  cases hl : s.psc.lead <;> simp_all

/-- A change that keeps a context's settings changes neither the lead's ID nor whether it runs. -/
theorem modCtx_running {f : PassCtx → PassCtx} (hf : ∀ c, (f c).settings = c.settings) (id : Nat) (s : State) :
    leadIs id (modCtx id f s).psc = leadIs id s.psc ∧ runningLeadIs id (modCtx id f s) = runningLeadIs id s := by
  unfold modCtx
  split
  · unfold leadIs runningLeadIs
    cases hl : s.psc.lead <;> simp [modLead, hl, hf, leadRunning]
  · exact ⟨rfl, rfl⟩

/-- Steps 5 and 6 of R118 after a change of the entry's context, as reportedTo states them. -/
theorem settle_rule (e : TagEntry) {f : PassCtx → PassCtx} (hf : ∀ c, (f c).settings = c.settings)
    {g : Counters → Counters} (hg : ∀ c, f c = onCounters g c) (s : State) :
    reportedTo e.passId (resolvedCtx e.origin g) s (settle e (modCtx e.passId f s)) := by
  have hd : ∀ c, dropInFlight e.origin (f c) = resolvedCtx e.origin g c := by
    intro c
    rw [hg]
    cases e.origin <;> rfl
  unfold settle
  rw [modCtx_comp hf, show (fun c => dropInFlight e.origin (f c)) = resolvedCtx e.origin g from funext hd]
  exact passTests_rule e.passId (resolvedCtx e.origin g) (fun _ => rfl) s

/-- An entry that has left the queue is resolved as a miss by the rules of missResolved, once the class of its reading
is counted (R118, R119, R140). -/
theorem resolveMiss_rule (e : TagEntry) (cause : MissCause) (counts : Counters → Counters)
    (hc : ∀ k, (counts k).pushes = k.pushes ∧ (counts k).overflowLost = k.overflowLost ∧
      (counts k).lateMissed = k.lateMissed ∧
      (counts k).retryLost = k.retryLost ∧ (counts k).timeout = k.timeout ∧ (counts k).skipped = k.skipped ∧
      (counts k).full = k.full) (s : State) :
    missResolved e cause counts s (resolveMiss e cause (modCtx e.passId (onCounters counts) s)) := by
  have hkeep : ∀ g : Counters → Counters, ∀ c, (onCounters g c).settings = c.settings := fun _ _ => rfl
  have hrun : runningLeadIs e.passId (modCtx e.passId (onCounters counts) s) = true ↔
      ∃ l, s.psc.lead = some l ∧ l.phase ≠ .armed ∧ l.ctx.settings.passId = e.passId := by
    rw [(modCtx_running (hkeep counts) e.passId s).2]
    unfold runningLeadIs
    cases s.psc.lead <;> simp [leadRunning]
  have hlead := (modCtx_running (hkeep counts) e.passId s).1
  have hmiss : missOf e cause =
      { blade := e.blade, window := e.window, j := e.j, overlap := e.overlap, cause := cause
        attempts := if e.origin ≠ .retry then 1 else min (e.attempts + 1) 255 } := by
    simp only [missOf, ne_eq, ite_not]
  have hstack : (modCtx e.passId (onCounters counts) s).stack = s.stack := by
    unfold modCtx; split <;> rfl
  -- a settled change `f` is reported as the change `g`
  have report : ∀ (f : PassCtx → PassCtx) (g : Counters → Counters) (s₁ : State),
      (∀ c, f c = onCounters g c) → reportedTo e.passId (resolvedCtx e.origin g) s₁
        (settle e (modCtx e.passId f s₁)) := fun f g s₁ h =>
    settle_rule e (fun c => by rw [h]; rfl) h s₁
  refine ⟨fun hr hk => ?_, fun hr hk => ?_, fun hr => ?_⟩
  · have hr' := hrun.2 hr
    have hl := leadIs_of_running hr'
    replace hk : s.stack.any (sameKey (missOf e cause)) = true := by rw [hmiss]; exact hk
    have hroute : resolveMiss e cause (modCtx e.passId (onCounters counts) s) = settle e (modCtx e.passId
        (fun c => onCounters (countCause cause) (match e.origin with
          | .retry => onCounters counts c
          | _ => onCounters (fun k => { k with missedMain := satInc k.missedMain }) (onCounters counts c))) s) := by
      rw [resolveMiss, routeMiss, if_pos hr', pushMiss, hstack, if_pos hk]
      cases e.origin with
      | retry => simp only; rw [modCtx_comp (hkeep _)]
      | main => simp only; rw [modLead_eq hl, modCtx_comp (hkeep _), modCtx_comp (hkeep _)]
      | overlap => simp only; rw [modLead_eq hl, modCtx_comp (hkeep _), modCtx_comp (hkeep _)]
    rw [hroute]
    refine report _ _ s fun c => ?_
    have hcc := hc c.counters
    simp only [onCounters]
    generalize counts c.counters = k at hcc
    obtain ⟨⟩ := k
    obtain ⟨rfl, rfl, rfl, rfl, rfl, rfl, rfl⟩ := hcc
    cases e.origin <;> cases cause <;> rfl
  · have hr' := hrun.2 hr
    have hl := leadIs_of_running hr'
    replace hk : ¬ s.stack.any (sameKey (missOf e cause)) = true := by rw [hmiss, Bool.not_eq_true]; exact hk
    let kept := if 16 ≤ s.stack.length then s.stack.dropLast else s.stack
    let pushed := fun k : Counters => { k with
      pushes := satInc k.pushes
      overflowLost := if 16 ≤ s.stack.length then satInc k.overflowLost else k.overflowLost }
    have hpush : pushMiss (missOf e cause) (modCtx e.passId (onCounters counts) s) =
        modCtx e.passId (onCounters fun k => pushed (counts k)) (s.setStack (missOf e cause :: kept)) := by
      rw [pushMiss, hstack, if_neg hk]
      simp only [stackSize]
      rw [modCtx_setStack]
      rw [modLead_eq (id := e.passId), modCtx_comp (hkeep _)]
      · by_cases hf : 16 ≤ s.stack.length
        · simp only [kept, pushed, hf, decide_true, ↓reduceIte]; rfl
        · simp only [kept, pushed, hf, decide_false, Bool.false_eq_true, ↓reduceIte]; rfl
      · rw [(modCtx_running (hkeep counts) e.passId _).1]
        rw [hlead] at hl
        exact hl
    have hl' : ∀ g, leadIs e.passId (modCtx e.passId (onCounters g) (s.setStack (missOf e cause :: kept))).psc = true := by
      intro g
      rw [(modCtx_running (hkeep g) e.passId _).1]
      rw [hlead] at hl
      exact hl
    have hroute : resolveMiss e cause (modCtx e.passId (onCounters counts) s) = settle e (modCtx e.passId
        (fun c => onCounters (countCause cause) (match e.origin with
          | .retry => onCounters (fun k => pushed (counts k)) c
          | _ => onCounters (fun k => { k with missedMain := satInc k.missedMain })
              (onCounters (fun k => pushed (counts k)) c))) (s.setStack (missOf e cause :: kept))) := by
      rw [resolveMiss, routeMiss, if_pos hr', hpush]
      cases e.origin with
      | retry => simp only; rw [modCtx_comp (hkeep _)]
      | main => simp only; rw [modLead_eq (hl' _), modCtx_comp (hkeep _), modCtx_comp (hkeep _)]
      | overlap => simp only; rw [modLead_eq (hl' _), modCtx_comp (hkeep _), modCtx_comp (hkeep _)]
    rw [hroute, hmiss]
    refine report _ _ _ fun c => ?_
    have hcc := hc c.counters
    simp only [onCounters]
    generalize counts c.counters = k at hcc
    obtain ⟨⟩ := k
    obtain ⟨rfl, rfl, rfl, rfl, rfl, rfl, rfl⟩ := hcc
    cases e.origin <;> cases cause <;> rfl
  · have hroute : resolveMiss e cause (modCtx e.passId (onCounters counts) s) = settle e (modCtx e.passId
        (fun c => onCounters (countCause cause) (onCounters (fun k =>
          match e.origin with
          | .retry => { k with retryLost := satInc k.retryLost }
          | _ => { k with lateMissed := satInc k.lateMissed }) (onCounters counts c))) s) := by
      rw [resolveMiss, routeMiss, if_neg (fun h => hr (hrun.1 h)), modCtx_comp (hkeep _),
        modCtx_comp (g := onCounters counts) (hkeep counts)]
      all_goals rfl
    rw [hroute]
    refine report _ _ s fun c => ?_
    have hcc := hc c.counters
    simp only [onCounters]
    generalize counts c.counters = k at hcc
    obtain ⟨⟩ := k
    obtain ⟨rfl, rfl, rfl, rfl, rfl, rfl, rfl⟩ := hcc
    cases e.origin <;> cases cause <;> rfl

/-- What is reported of a resolved tag has nothing to do with the Probe Port. -/
theorem reportedTo_setPrb {id : Nat} {f : PassCtx → PassCtx} {s t : State} (p : Prb) (h : reportedTo id f s t) :
    reportedTo id f (s.setPrb p) (t.setPrb p) := by
  refine ⟨?_, h.2⟩
  rw [h.1]; rfl

theorem missResolved_setPrb {e : TagEntry} {cause : MissCause} {counts : Counters → Counters} {s t : State} (p : Prb)
    (h : missResolved e cause counts s t) : missResolved e cause counts (s.setPrb p) (t.setPrb p) :=
  ⟨fun a b => reportedTo_setPrb p (h.1 a b), fun a b => reportedTo_setPrb p (h.2.1 a b),
    fun a => reportedTo_setPrb p (h.2.2 a)⟩

theorem timeoutHead_waits {s : State} (h : ∀ e rest, s.prb.queue = e :: rest → s.now < e.fireTime + s.prb.tr * 100) :
    timeoutHead s = s := by
  unfold timeoutHead
  split
  · rfl
  · rename_i e rest he
    have := h e rest he
    exact if_neg (by unfold expired usTicks; rw [decide_eq_true_eq]; omega)

theorem timeoutHeads_wait (n : Nat) {s : State}
    (h : ∀ e rest, s.prb.queue = e :: rest → s.now < e.fireTime + s.prb.tr * 100) : timeoutHeads n s = s := by
  induction n with
  | zero => rfl
  | succ n ih => rw [timeoutHeads, timeoutHead_waits h, ih]

/-- A change that changes nothing. -/
theorem modCtx_id (id : Nat) (s : State) : modCtx id (fun c => c) s = s := by
  unfold modCtx modLead
  obtain ⟨⟨lead, drain, stall⟩, hp⟩ : ∃ p, p = s.psc := ⟨_, rfl⟩
  cases s
  subst hp
  cases lead <;> simp [State.setPsc]

/-- The expired entry at the head leaves the queue, is resolved and counted; below 8 timeouts nothing more happens
(R117, R120). -/
theorem timeoutHead_rule {s : State} {e : TagEntry} {rest : List TagEntry} (hq : s.prb.queue = e :: rest)
    (hx : e.fireTime + s.prb.tr * 100 ≤ s.now) (hn : s.prb.timeouts < 7) :
    let p := { s.prb with queue := rest, timeouts := min (s.prb.timeouts + 1) 8 }
    missResolved e .timeout id { s with prb := p } (timeoutHead s) ∧ (timeoutHead s).prb = p := by
  intro p
  have hm := resolveMiss_rule e .timeout id (fun _ => ⟨rfl, rfl, rfl, rfl, rfl, rfl, rfl⟩)
    (s.setPrb { s.prb with queue := rest })
  rw [show modCtx e.passId (onCounters id) _ = _ from modCtx_id e.passId (s.setPrb { s.prb with queue := rest })] at hm
  have ht : timeoutHead s = (resolveMiss e .timeout (s.setPrb { s.prb with queue := rest })).setPrb p := by
    have he : expired s.prb s.now e = true := by simp [expired, usTicks, hx]
    have hc : ¬ min (s.prb.timeouts + 1) timeoutLimit = timeoutLimit := by simp only [timeoutLimit]; omega
    simp only [timeoutHead, hq, he, if_true, countTimeout, resolveHeadMiss, resolveMiss_frame, State.setPrb_prb, hc,
      and_false, if_false]
    rfl
  rw [ht]
  have hs : ({ s with prb := p } : State) = (s.setPrb { s.prb with queue := rest }).setPrb p := rfl
  rw [hs]
  exact ⟨missResolved_setPrb p hm, rfl⟩

/-- The expired entries at the head of the queue are resolved by the rules of timedOut while the count stays below 8
(R117, R120, R125). -/
theorem timeoutHeads_rule {q : List TagEntry} {s : State} (hq : s.prb.queue = q) (h : s.prb.timeouts + q.length < 8) :
    timedOut q s (timeoutHeads q.length s) := by
  induction q generalizing s with
  | nil => rfl
  | cons e rest ih =>
    refine ⟨fun hn => timeoutHeads_wait _ fun e' rest' he => ?_, fun hx => ?_⟩
    · rw [hq, List.cons.injEq] at he; rw [← he.1]; exact hn
    · rw [List.length_cons] at h
      obtain ⟨hm, hp⟩ := timeoutHead_rule hq hx (by omega)
      exact ⟨timeoutHead s, hm, ih (by rw [hp]) (by rw [hp]; simp only; omega)⟩
end Sys2Proof.Machine
end

