-- ==== Sys2Proof/Laws/Advance.lean ====
section
/-! SUPPORT. Laws/Advance.lean: what crossing the points of a position leaves of the lead, which later proofs cite in
place of the definitions. -/

namespace Sys2Proof.Machine

open Sys2Proof

/-- From `s` to `t` nothing of PSC changes but the in-flight counts and the counters of the lead `l`. -/
def countsAlone (l : Lead) (s t : State) : Prop :=
  ∃ l', t.psc = { s.psc with lead := some l' } ∧ l'.phase = l.phase ∧
    l'.ctx = { l.ctx with
      mainInFlight := l'.ctx.mainInFlight, retryInFlight := l'.ctx.retryInFlight, counters := l'.ctx.counters }

/-- A change of a context that touches its in-flight counts and counters alone. -/
def touchesCounts (f : PassCtx → PassCtx) : Prop :=
  ∀ c, f c = { c with
    mainInFlight := (f c).mainInFlight, retryInFlight := (f c).retryInFlight, counters := (f c).counters }

theorem countsAlone_psc {l : Lead} {s t u : State} (h : countsAlone l s t) (e : u.psc = t.psc) : countsAlone l s u := by
  obtain ⟨l', h1, h2, h3⟩ := h
  exact ⟨l', by rw [e, h1], h2, h3⟩

theorem countsAlone_modLead {l : Lead} {s t : State} {f : PassCtx → PassCtx} (hf : touchesCounts f)
    (h : countsAlone l s t) : countsAlone l s (modLead f t) := by
  obtain ⟨l', h1, h2, h3⟩ := h
  refine ⟨{ l' with ctx := f l'.ctx }, ?_, h2, ?_⟩
  · simp [modLead, h1]
  · simp only
    rw [hf]; simp only; rw [h3]

theorem countsAlone_modCtx {l : Lead} {s t : State} {f : PassCtx → PassCtx} (hf : touchesCounts f)
    (h : countsAlone l s t) : countsAlone l s (modCtx l.ctx.settings.passId f t) := by
  have hl : leadIs l.ctx.settings.passId t.psc = true := by
    obtain ⟨l', h1, -, h3⟩ := h
    rw [h1, leadIs_iff]; exact ⟨l', rfl, by rw [h3]⟩
  rw [← modLead_eq hl]
  exact countsAlone_modLead hf h

theorem countsAlone_pushMiss {l : Lead} {s t : State} (e : MissEntry) (h : countsAlone l s t) :
    countsAlone l s (pushMiss e t) := by
  unfold pushMiss
  split
  · exact h
  · exact countsAlone_modLead (fun _ => rfl) (countsAlone_psc h rfl)

theorem countsAlone_fire {l : Lead} {s t : State} {r : TriggerRequest} (hr : r.passId = l.ctx.settings.passId)
    (h : countsAlone l s t) : countsAlone l s (fire r t) := by
  unfold fire
  rw [hr]
  split <;> exact countsAlone_modCtx (fun c => by cases r.origin <;> rfl) (countsAlone_psc h rfl)

theorem countsAlone_crossMain {l m : Lead} {s t : State} (hm : m.ctx.settings = l.ctx.settings) (u : Int) (o : Bool)
    (pt : CrossedPoint) (h : countsAlone l s t) : countsAlone l s (crossMain m u o t pt) := by
  have h' := countsAlone_modLead (f := onCounters (countCrossing (crossingOf t pt.window))) (fun _ => rfl) h
  unfold crossMain
  dsimp only
  split
  · exact h'
  · exact countsAlone_pushMiss _ h'
  · exact countsAlone_pushMiss _ h'
  · exact countsAlone_fire (by simp [requestFor, hm]) h'

theorem countsAlone_crossRetry {l m : Lead} {s t : State} (hm : m.ctx.settings = l.ctx.settings) (u : Int)
    (pt : CrossedPoint) (h : countsAlone l s t) : countsAlone l s (crossRetry m u t pt) := by
  unfold crossRetry
  split
  · exact h
  · cases hf : t.stack.find? (namesPoint pt.blade pt.index pt.j) with
    | none => simpa [takeMiss, hf] using h
    | some e =>
      simp only [takeMiss, hf]
      exact countsAlone_fire (by simp [requestFor, hm]) (countsAlone_modLead (fun _ => rfl) (countsAlone_psc h rfl))

/-- Crossing the points of a position changes, of PSC, the in-flight counts and counters of the lead alone (R85). -/
theorem crossPosition_countsAlone {s : State} {l : Lead} (hl : s.psc.lead = some l) (u : Int) (prog : Nat) :
    countsAlone l s (crossPosition l u prog s) := by
  have fold : ∀ (f : State → CrossedPoint → State), (∀ t pt, countsAlone l s t → countsAlone l s (f t pt)) →
      ∀ (pts : List CrossedPoint) (t : State), countsAlone l s t → countsAlone l s (pts.foldl f t) := by
    intro f hf pts
    induction pts with
    | nil => exact fun _ h => h
    | cons pt pts ih => exact fun t h => ih _ (hf _ _ h)
  have h0 : countsAlone l s s := ⟨l, by rw [← hl], rfl, rfl⟩
  unfold crossPosition
  split
  · exact fold _ (fun _ _ h => countsAlone_crossMain rfl _ _ _ h) _ _ h0
  · exact fold _ (fun _ _ h => countsAlone_crossRetry rfl _ _ h) _ _ h0

end Sys2Proof.Machine
end

