-- ==== Sys2Proof/Laws/Gates.lean ====
section
/-! SUPPORT. Laws/Gates.lean: what an evaluation, an arbitration and the safe levels do to the gates, in the terms of
Safety.lean, which later proofs cite in place of the definitions. -/

namespace Sys2Proof.Machine

open Sys2Proof

/-- A blade range covers a blade of the workpiece exactly when it reaches it, counted on from its first (R42). -/
theorem covers_iff {r : Option BladeRange} {blades k : Nat} (h : k < blades) :
    covers r blades k = true ↔ coversBlade r blades k := by
  cases r with
  | none => simp [covers, coversBlade]
  | some x =>
    have hb : 0 < blades := by omega
    have hf : x.first % blades < blades := Nat.mod_lt _ hb
    simp only [covers, coversBlade, decide_eq_true_eq, Option.some.injEq, forall_eq']
    constructor
    · intro hc
      refine ⟨_, hc, ?_⟩
      rw [Nat.add_mod_mod, ← Nat.mod_add_mod, show x.first % blades + (k + blades - x.first % blades) = k + blades by omega,
        Nat.add_mod_right, Nat.mod_eq_of_lt h]
    · rintro ⟨i, hi, rfl⟩
      refine lt_of_le_of_lt ?_ hi
      have key : ((x.first + i) % blades + blades - x.first % blades) % blades = i % blades := by
        have e1 : x.first = blades * (x.first / blades) + x.first % blades := (Nat.div_add_mod _ _).symm
        have e2 : (x.first + i) % blades = (x.first % blades + i % blades) % blades := Nat.add_mod _ _ _
        have hi' : i % blades < blades := Nat.mod_lt _ hb
        rw [e2]
        rcases Nat.lt_or_ge (x.first % blades + i % blades) blades with hl | hl
        · rw [Nat.mod_eq_of_lt hl, show x.first % blades + i % blades + blades - x.first % blades = i % blades + blades by omega,
            Nat.add_mod_right, Nat.mod_mod]
        · rw [Nat.mod_eq_sub_mod hl, Nat.mod_eq_of_lt (a := x.first % blades + i % blades - blades) (by omega),
            show x.first % blades + i % blades - blades + blades - x.first % blades = i % blades by omega, Nat.mod_mod]
      rw [key]; exact Nat.mod_le _ _

/-- The due state that a position gives follows the table of R163. -/
theorem dueAt_rule {rec : Option GateRecord} {blades : Nat} {dir : Dir} {last : Option BladePhase} {old : DueState}
    {p : BladePhase} (h : p.blade < blades) :
    dueRule rec blades dir last p old (dueAt rec blades dir last old p) := by
  cases rec with
  | none => simp [dueRule, dueAt]
  | some r =>
    have hc := covers_iff (r := r.range) h
    simp only [dueRule, dueAt, Option.some.injEq, exists_eq_left', ← hc]
    cases hcov : covers r.range blades p.blade
    · simp
    · have hs : samePitchForward last p = true ↔ ∃ q, last = some q ∧ q.blade = p.blade ∧ q.phase ≤ p.phase := by
        cases last <;> simp [samePitchForward]
      simp only [Bool.not_true, Bool.false_eq_true, ↓reduceIte, ← hs, inBase, inExtension, Bool.and_eq_true,
        decide_eq_true_eq, true_and]
      by_cases hb : r.on ≤ p.phase ∧ p.phase < r.off
      · simp only [hb, and_self, ↓reduceIte, reduceCtorEq, false_iff, true_and]
        rintro ⟨-, -, -, h5, -⟩
        omega
      · simp only [hb, ↓reduceIte]
        constructor
        · split <;> simp
        · split <;> rename_i hx
          · simp only [true_iff]; exact hx
          · simp only [reduceCtorEq, false_iff]; exact hx

/-- The first gate in ascending order that meets a test is the lowest-numbered one that does. -/
theorem find_gateNumbers {p : Fin 8 → Bool} {n : Fin 8} :
    gateNumbers.find? p = some n ↔ p n = true ∧ ∀ m, p m = true → n ≤ m := by
  have sorted : gateNumbers.Pairwise (· < ·) := by decide
  rw [List.find?_eq_some_iff_append]
  constructor
  · rintro ⟨hn, before, behind, hl, hb⟩
    refine ⟨hn, fun m hm => ?_⟩
    have hmem := mem_gateNumbers m
    rw [hl, List.mem_append, List.mem_cons] at hmem
    rw [hl, List.pairwise_append, List.pairwise_cons] at sorted
    rcases hmem with h | rfl | h
    · have := hb m h; simp [hm] at this
    · exact le_refl _
    · exact le_of_lt (sorted.2.1.1 m h)
  · rintro ⟨hn, hmin⟩
    obtain ⟨before, behind, hl⟩ := List.append_of_mem (mem_gateNumbers n)
    refine ⟨hn, before, behind, hl, fun m hm => ?_⟩
    rw [hl, List.pairwise_append] at sorted
    have := sorted.2.2 m hm n (List.mem_cons_self ..)
    cases hp : p m
    · rfl
    · exact absurd (hmin m hp) (not_le.mpr this)

/-- A gate of a group is driven ON exactly when it wins its group (R166). -/
theorem arbitrated_winner {group : Fin 8 → Option (Fin 4)} {held cand : Fin 8 → Bool} {n : Fin 8} {q : Fin 4}
    (h : group n = some q) : arbitrated group held cand n = true ↔ groupWinner group held cand q = some n := by
  unfold arbitrated; rw [h]; exact decide_eq_true_iff

/-- The level that an arbitration gives a gate, when at most one gate of each group was held (R166). -/
theorem arbitrated_iff {group : Fin 8 → Option (Fin 4)} {held cand : Fin 8 → Bool}
    (one : ∀ m n q, group m = some q → group n = some q → held m = true → held n = true → m = n) (n : Fin 8) :
    (group n = none → (arbitrated group held cand n = true ↔ cand n = true)) ∧
    ∀ q, group n = some q → (arbitrated group held cand n = true ↔ cand n = true ∧
      (held n = true ∨ ∀ m, group m = some q → cand m = true → ¬ held m = true ∧ n ≤ m)) := by
  refine ⟨fun h => by simp [arbitrated, h], fun q h => ?_⟩
  rw [arbitrated_winner h, groupWinner]
  cases hf : gateNumbers.find? fun m => decide (group m = some q) && held m && cand m with
  | some m =>
    obtain ⟨hm, -⟩ := find_gateNumbers.1 hf
    simp only [Bool.and_eq_true, decide_eq_true_eq] at hm
    obtain ⟨⟨hg, hh⟩, hc⟩ := hm
    simp only [Option.some.injEq]
    constructor
    · rintro rfl; exact ⟨hc, .inl hh⟩
    · rintro ⟨-, hn | hn⟩
      · exact one m n q hg h hh hn
      · exact absurd hh (hn m hg hc).1
  | none =>
    rw [List.find?_eq_none] at hf
    have hno : ∀ m, group m = some q → cand m = true → ¬ held m = true := fun m hg hc hh =>
      hf m (mem_gateNumbers m) (by simp [hg, hc, hh])
    simp only [find_gateNumbers, Bool.and_eq_true, decide_eq_true_eq]
    constructor
    · rintro ⟨⟨-, hc⟩, hmin⟩
      exact ⟨hc, .inr fun m hg hm => ⟨hno m hg hm, hmin m ⟨hg, hm⟩⟩⟩
    · rintro ⟨hc, hn | hn⟩
      · exact absurd hn (hno n h hc)
      · exact ⟨⟨h, hc⟩, fun m hm => (hn m hm.1 hm.2).2⟩

/-- A pending notice has a count of at most 255, and one that is not pending the count 0 (R194). -/
theorem noticeCount_le {s : State} (h : noticesOk s) (k : NoticeKind) : noticeCount s.lnk.notices k ≤ 255 := by
  unfold noticeCount
  split
  · omega
  · exact (h k _ ‹_›).2.2

/-- The waits that an arbitration began, in the order in which they are reported (R167). -/
def waitList (group : Fin 8 → Option (Fin 4)) (old new : Gte) : List (Fin 4 × Fin 8) :=
  groupNumbers.flatMap fun q => (newWaiters group old new q).map fun n => (q, n)

theorem reportWaits_eq (group : Fin 8 → Option (Fin 4)) (old : Gte) (s : State) :
    reportWaits group old s =
      (waitList group old s.gte).foldl (fun t x => beginWait group x.1 t x.2) s := by
  simp only [reportWaits, waitList, List.foldl_flatMap, List.foldl_map]

/-- What reporting a list of waits does to the conflict count and to the notices (R167). -/
theorem beginWaits_rule (group : Fin 8 → Option (Fin 4)) (l : List (Fin 4 × Fin 8)) (s : State) :
    let t := l.foldl (fun t x => beginWait group x.1 t x.2) s
    t.gte.gates = s.gte.gates ∧ t.gte.mode = s.gte.mode ∧ t.gte.last = s.gte.last ∧
    t = { s with gte := t.gte, lnk := { s.lnk with notices := t.lnk.notices } } ∧
    t.gte.conflicts = (if l.length = 0 then s.gte.conflicts else min (s.gte.conflicts + l.length) counterMax) ∧
    (∀ j, j ≠ .groupConflict ∨ l.length = 0 → noticeSlot t.lnk.notices j = noticeSlot s.lnk.notices j) ∧
    ∀ x, l.getLast? = some x → noticeCount s.lnk.notices .groupConflict ≤ 255 → noticeSlot t.lnk.notices .groupConflict =
      some { count := min (noticeCount s.lnk.notices .groupConflict + l.length) 255
             detail := .groupConflict x.1 x.2 (gateOnIn group s.gte x.1) } := by
  induction l generalizing s with
  | nil => simp
  | cons y l ih =>
    have hb : (beginWait group y.1 s y.2).gte = { s.gte with conflicts := satInc s.gte.conflicts } := by
      simp [beginWait]
    have hslot : noticeSlot (beginWait group y.1 s y.2).lnk.notices .groupConflict =
        some (raisedSlot (noticeSlot s.lnk.notices .groupConflict) (.groupConflict y.1 y.2 (gateOnIn group s.gte y.1))) := by
      simp [beginWait, noticeKind]
    have hcount : noticeCount (beginWait group y.1 s y.2).lnk.notices .groupConflict =
        min (noticeCount s.lnk.notices .groupConflict + 1) 255 := by
      simp only [noticeCount, hslot]
      cases noticeSlot s.lnk.notices .groupConflict <;> simp [raisedSlot]
    have hother : ∀ j, j ≠ .groupConflict → noticeSlot (beginWait group y.1 s y.2).lnk.notices j =
        noticeSlot s.lnk.notices j := by
      intro j hj; simp [beginWait, noticeKind, hj]
    have hshape : beginWait group y.1 s y.2 = { s with
        gte := (beginWait group y.1 s y.2).gte
        lnk := { s.lnk with notices := (beginWait group y.1 s y.2).lnk.notices } } := by
      simp [beginWait, raise, State.setLnk, State.setGte]
    have := ih (beginWait group y.1 s y.2)
    simp only [List.foldl_cons]
    generalize l.foldl (fun t x => beginWait group x.1 t x.2) (beginWait group y.1 s y.2) = t at *
    obtain ⟨h1, h2, h3, h4, h5, h6, h7⟩ := this
    refine ⟨by rw [h1, hb], by rw [h2, hb], by rw [h3, hb], ?_, ?_, ?_, ?_⟩
    · rw [h4, hshape]
    · rw [h5, hb]
      simp only [satInc, satAdd, List.length_cons, Nat.add_eq_zero_iff, one_ne_zero, and_false, ↓reduceIte]
      split <;> omega
    · intro j hj
      have hj' : j ≠ .groupConflict := by simpa using hj
      rw [h6 j (.inl hj'), hother j hj']
    · intro x hx hs
      cases l with
      | nil =>
        simp only [List.getLast?_singleton, Option.some.injEq] at hx
        subst hx
        rw [h6 _ (.inr rfl), hslot]
        simp only [noticeCount, List.length_cons, List.length_nil]
        cases h : noticeSlot s.lnk.notices .groupConflict <;> simp [raisedSlot]
      | cons z l =>
        rw [List.getLast?_cons_cons] at hx
        rw [h7 x hx (by rw [hcount]; omega), hcount]
        simp only [gateOnIn, hb, List.length_cons, Option.some.injEq, Pending.mk.injEq, and_true]
        omega

/-- A gate that an arbitration leaves waiting has a group. -/
theorem waitList_mem (group : Fin 8 → Option (Fin 4)) (old new : Gte) (q : Fin 4) (n : Fin 8) :
    (q, n) ∈ waitList group old new ↔
      group n = some q ∧ (new.gates.get n).waiting = true ∧ (old.gates.get n).waiting = false := by
  simp [waitList, newWaiters, and_assoc]

/-- The waits are listed by group and then by gate. -/
theorem waitList_sorted (group : Fin 8 → Option (Fin 4)) (old new : Gte) :
    (waitList group old new).Pairwise fun a b => a.1 < b.1 ∨ (a.1 = b.1 ∧ a.2 < b.2) := by
  have sg : groupNumbers.Pairwise (· < ·) := by decide
  have sn : gateNumbers.Pairwise (· < ·) := by decide
  unfold waitList
  rw [List.pairwise_flatMap]
  refine ⟨fun q _ => ?_, sg.imp fun {a b} h x hx y hy => ?_⟩
  · rw [List.pairwise_map]
    exact (sn.filter _).imp fun {a b} h => .inr ⟨rfl, h⟩
  · simp only [List.mem_map] at hx hy
    obtain ⟨_, _, rfl⟩ := hx
    obtain ⟨_, _, rfl⟩ := hy
    exact .inl h

/-- Each gate that begins to wait is listed once, under its group. -/
theorem waitList_length (group : Fin 8 → Option (Fin 4)) (old new : Gte)
    (h : ∀ n, (new.gates.get n).waiting = true → group n ≠ none) :
    (waitList group old new).length =
      gateNumbers.countP fun n => (new.gates.get n).waiting && !(old.gates.get n).waiting := by
  simp only [waitList, groupNumbers, newWaiters, List.flatMap_cons, List.flatMap_nil, List.length_append,
    List.length_map, List.length_nil, ← List.countP_eq_length_filter]
  generalize gateNumbers = l
  induction l with
  | nil => rfl
  | cons n l ih =>
    simp only [List.countP_cons]
    rw [← ih]
    cases hw : (new.gates.get n).waiting
    · simp
    · cases hg : group n with
      | none => exact absurd hg (h n hw)
      | some q =>
        cases ho : (old.gates.get n).waiting
        · match q with
          | 0 => simp; omega
          | 1 => simp; omega
          | 2 => simp; omega
          | 3 => simp; omega
        · simp

/-- The greatest element of a strictly ordered list is its last. -/
theorem getLast_of_max {α : Type} {r : α → α → Prop} {l : List α} (hs : l.Pairwise r) {x : α} (hx : x ∈ l)
    (hmax : ∀ y ∈ l, ¬ r x y) : l.getLast? = some x := by
  obtain ⟨a, b, rfl⟩ := List.append_of_mem hx
  rw [List.pairwise_append, List.pairwise_cons] at hs
  cases b with
  | nil => simp
  | cons y b => exact absurd (hs.2.1.1 y (by simp)) (hmax y (by simp))

/-- What an arbitration in RUN does to the gates whose due states GTE holds (R163, R166, R167, R169). -/
theorem arbitrateRun_rule (fresh : Bool) (s : State) (one : fresh = false → groupsExclusive s) :
    let t := arbitrateRun fresh s
    t = { s with gte := t.gte, lnk := { s.lnk with notices := t.lnk.notices } } ∧ t.gte.mode = s.gte.mode ∧
    t.gte.last = s.gte.last ∧ (∀ n, (t.gte.gates.get n).due = (s.gte.gates.get n).due) ∧
    arbitrationRule s.wbk.active (fun n => fresh = false ∧ (s.gte.gates.get n).driven = true) s.gte.gates t.gte.gates ∧
    qualRule s.now s.gte.gates t.gte.gates ∧
    (fresh = true → t.gte.conflicts = s.gte.conflicts ∧ t.lnk = s.lnk) ∧
    (fresh = false → noticesOk s → conflictsReported s.wbk.active s t) := by
  intro t
  let group := gateGroup s.wbk.active
  let cand := fun n => runCandidate (s.gte.gates.get n)
  let on := arbitrated group (holders fresh s.gte) cand
  let mid := s.setGte { s.gte with
    gates := Eight.ofFn fun n => { driveGate s.now (on n) (s.gte.gates.get n) with waiting := cand n && !on n } }
  have hmid : ∀ n, mid.gte.gates.get n =
      { driveGate s.now (on n) (s.gte.gates.get n) with waiting := cand n && !on n } := fun n => by simp [mid]
  have ht : t = if fresh then mid else reportWaits group s.gte mid := rfl
  have hgates : t.gte.gates = mid.gte.gates := by rw [ht]; split <;> simp
  have hget : ∀ n, t.gte.gates.get n =
      { driveGate s.now (on n) (s.gte.gates.get n) with waiting := cand n && !on n } := fun n => by rw [hgates, hmid]
  have hdriven : ∀ n, (t.gte.gates.get n).driven = on n := fun n => by rw [hget]; simp
  have hdue : ∀ n, (t.gte.gates.get n).due = (s.gte.gates.get n).due := fun n => by rw [hget]; simp
  have hstatus : ∀ n, (t.gte.gates.get n).status = (s.gte.gates.get n).status := fun n => by rw [hget]; simp
  have hsense : ∀ n, (t.gte.gates.get n).sense = (s.gte.gates.get n).sense := fun n => by rw [hget]; simp
  have hwait : ∀ n, (t.gte.gates.get n).waiting = (cand n && !on n) := fun n => by rw [hget]
  have hcand : ∀ n, cand n = true ↔ (t.gte.gates.get n).due ≠ .none ∧ (s.gte.gates.get n).status ≠ .short := by
    intro n; simp [cand, runCandidate, hdue]
  have hheld : ∀ n, holders fresh s.gte n = true ↔ fresh = false ∧ (s.gte.gates.get n).driven = true := by
    intro n; simp [holders]
  have hone : ∀ m n q, group m = some q → group n = some q → holders fresh s.gte m = true →
      holders fresh s.gte n = true → m = n := by
    intro m n q hm hn h1 h2
    rw [hheld] at h1 h2
    exact one h1.1 m n q hm hn h1.2 h2.2
  have hon := arbitrated_iff (cand := cand) hone
  have hrule : arbitrationRule s.wbk.active (fun n => fresh = false ∧ (s.gte.gates.get n).driven = true)
      s.gte.gates t.gte.gates := by
    intro n
    show _ ∧ _ ∧ _ ∧ _ ∧ _
    refine ⟨hstatus n, hsense n, ?_, fun h => ?_, fun q h => ?_⟩
    · rw [hwait, hdriven]; simp [← hcand]
    · rw [hdriven, (hon n).1 h, hcand]
    · rw [hdriven, (hon n).2 q h, hcand]
      simp only [hheld, hcand]; rfl
  have hgroup : ∀ n, (mid.gte.gates.get n).waiting = true → group n ≠ none := by
    intro n h hg
    rw [← hgates, hwait] at h
    have := (hon n).1 hg
    cases hc : cand n <;> simp_all [on]
  have hlast : mid.gte.last = s.gte.last := rfl
  have hmode : mid.gte.mode = s.gte.mode := rfl
  have hqual : qualRule s.now s.gte.gates t.gte.gates := by
    intro n
    rw [hdriven, hget]
    simp only [driveGate, startQual]
    by_cases hc : (s.gte.gates.get n).driven = on n
    · simp [hc]
    · simp [hc, Ne.symm hc]
  cases fresh with
  | true =>
    have ht' : t = mid := ht
    refine ⟨?_, by rw [ht']; rfl, by rw [ht']; rfl, hdue, hrule, hqual, fun _ => ?_, by simp⟩
    · rw [ht']; rfl
    · rw [ht']; exact ⟨rfl, rfl⟩
  | false =>
    have ht' : t = reportWaits group s.gte mid := ht
    have hk : (waitList group s.gte mid.gte).length = gateNumbers.countP (beginsToWait s t) := by
      rw [waitList_length group s.gte mid.gte hgroup]
      exact List.countP_congr fun n _ => by simp [beginsToWait, hgates]
    have rule := beginWaits_rule group (waitList group s.gte mid.gte) mid
    rw [← reportWaits_eq, ← ht'] at rule
    obtain ⟨-, r2, r3, r4, h5, h6, h7⟩ := rule
    refine ⟨r4, r2, r3, hdue, hrule, hqual, by simp, fun _ hn => ?_⟩
    · rw [hk] at h5 h6
      refine ⟨h5, h6, fun n m q hb hg hgm hm hmax => ?_⟩
      have hmem : (q, n) ∈ waitList group s.gte mid.gte := by
        rw [waitList_mem, ← hgates]
        exact ⟨hg, by simpa [beginsToWait] using hb⟩
      have hl := getLast_of_max (waitList_sorted group s.gte mid.gte) hmem (by
        rintro ⟨q', n'⟩ hy
        rw [waitList_mem, ← hgates] at hy
        have := hmax n' q' (by simp [beginsToWait, hy.2]) hy.1
        simp only
        omega)
      rw [h7 _ hl (noticeCount_le hn .groupConflict), hk]
      have hg' : gateOnIn group mid.gte q = m := by
        unfold gateOnIn
        rw [← hgates]
        rw [(find_gateNumbers (n := m)).2 ?_]
        · rfl
        · refine ⟨by simp [show group m = some q from hgm, hm], fun x hx => ?_⟩
          simp only [Bool.and_eq_true, decide_eq_true_eq] at hx
          have e1 := hx.2
          rw [hdriven] at e1 hm
          have w1 := (arbitrated_winner hx.1).1 e1
          have w2 := (arbitrated_winner (show group m = some q from hgm)).1 hm
          rw [w1] at w2; cases w2; exact le_refl _
      rw [hg']
      rfl

/-- The levels that SAFE drives, as safeLevelsDriven states them (R162, R166). -/
theorem driveSafe_rule (s : State) : safeLevelsDriven (driveSafe s) := by
  intro n
  have hcand : ∀ m, safeCandidate s m = true ↔ (driveSafe s).cal.working.safe.get m = true ∧
      ((driveSafe s).gte.gates.get m).status ≠ .short := by
    intro m; simp [safeCandidate]
  have hon := arbitrated_iff (group := gateGroup s.wbk.active) (held := fun _ => false) (cand := safeCandidate s)
    (by simp) n
  refine ⟨by simp, ?_⟩
  rw [driveSafe_driven]
  cases hg : gateGroup s.wbk.active n with
  | none =>
    rw [hon.1 hg, hcand]
    simp only [driveSafe_frame, hg, reduceCtorEq, false_implies, implies_true, and_true]
  | some q =>
    rw [hon.2 q hg, hcand]
    simp only [driveSafe_frame, Bool.false_eq_true, not_false_eq_true, true_and, false_or, hcand, hg,
      Option.some.injEq]
    exact and_congr_right fun _ => ⟨fun h q' m e => by subst e; exact h m, fun h m => h q m rfl⟩

/-- SAFE comes to drive the safe levels as safeDriven states it (R162, R169). -/
theorem driveSafe_driven_rule (s : State) (h : s.gte.mode = .safe) :
    safeDriven s (driveSafe s) ∧ (driveSafe s).gte.last = s.gte.last ∧
      ∀ n, ((driveSafe s).gte.gates.get n).due = (s.gte.gates.get n).due := by
  refine ⟨⟨by simp [driveSafe, h], rfl, driveSafe_rule s, fun n => ?_, fun n => by simp [driveSafe]⟩, rfl,
    fun n => by simp [driveSafe]⟩
  rw [driveSafe_driven]
  simp only [driveSafe, State.setGte_gte, Eight.get_ofFn, driveGate, startQual]
  split
  · rename_i e; simp [e]
  · rename_i e; simp [Ne.symm e]

/-- Entering SAFE, from either mode (R161, R162). -/
theorem enterSafe_rule (s : State) : entersSafe s (enterSafe s) := by
  let m := (clearDue s).setGte { (clearDue s).gte with mode := .safe }
  obtain ⟨⟨h1, h2, h3, h4, h5⟩, h6, h7⟩ := driveSafe_driven_rule m rfl
  have hg : ∀ n, m.gte.gates.get n = { s.gte.gates.get n with due := .none, waiting := false } := fun n => by
    simp [m, clearDue]
  refine ⟨⟨h1, h2, h3, fun n => ?_, fun n => ?_⟩, h6, fun n => ?_⟩
  · have := h4 n; simp only [hg] at this; exact this
  · have := h5 n; simp only [hg] at this; exact this
  · have := h7 n; simp only [hg] at this; exact this

/-- The safe levels are determined by the working copy, the records of the active bank and the statuses (R162). -/
theorem safeLevels_determined {s t : State} (hs : safeLevelsDriven s) (ht : safeLevelsDriven t)
    (hc : t.cal.working.safe = s.cal.working.safe) (hb : t.wbk.active = s.wbk.active)
    (hg : ∀ n, (t.gte.gates.get n).status = (s.gte.gates.get n).status) (n : Fin 8) :
    (t.gte.gates.get n).driven = (s.gte.gates.get n).driven := by
  have h1 := (hs n).2
  have h2 := (ht n).2
  simp only [hc, hb, hg] at h2
  exact Bool.eq_iff_iff.2 (h2.trans h1.symm)

/-- Driving the safe levels again, with the same levels, records and statuses, leaves what entering SAFE left (R161). -/
theorem entersSafe_again {s m t : State} (h : entersSafe s m) (h' : safeDriven m t) (hl : t.gte.last = m.gte.last)
    (hd : ∀ n, (t.gte.gates.get n).due = (m.gte.gates.get n).due) (hc : t.cal.working.safe = m.cal.working.safe)
    (hb : t.wbk.active = m.wbk.active) : entersSafe s t := by
  obtain ⟨⟨-, a2, a3, a4, a5⟩, a6, a7⟩ := h
  obtain ⟨b1, b2, b3, b4, b5⟩ := h'
  have e := safeLevels_determined a3 b3 hc hb fun n => (b5 n).1
  refine ⟨⟨b1, b2.trans a2, b3, fun n => ?_, fun n => ?_⟩, hl.trans a6, fun n => (hd n).trans (a7 n)⟩
  · rw [b4 n, if_pos (e n), a4 n, e n]
  · exact ⟨(b5 n).1.trans (a5 n).1, (b5 n).2.trans (a5 n).2⟩
/-- Entering SAFE looks at GTE, the time, the safe levels and the active bank alone. -/
theorem entersSafe_congr {s t s' t' : State} (h : entersSafe s t) (h1 : s'.gte = s.gte) (h2 : s'.now = s.now)
    (h3 : t'.gte = t.gte) (h4 : t'.cal = t.cal) (h5 : t'.wbk = t.wbk) : entersSafe s' t' := by
  simp only [entersSafe, safeDriven, safeLevelsDriven, h1, h2, h3, h4, h5] at h ⊢
  exact h

/-- A lead that ends ABORTED or by a fault leaves GTE entering SAFE (R73, R161). -/
theorem endLead_enters {st : EndStatus} {s : State} (ha : abandons st = true) (hl : s.psc.lead ≠ none) :
    entersSafe s (endLead st s) := by
  unfold endLead
  split
  · contradiction
  · rename_i l _
    simp only [ha, if_true]
    let m := modLead (fun c => { c with mainInFlight := 0, retryInFlight := 0 })
      (abandon (fun e => e.passId == l.ctx.settings.passId) (recordEnd st s))
    exact entersSafe_congr (enterSafe_rule m) (by simp [m]) (by simp [m]) (by simp [abandonLead, m])
      (by simp [abandonLead, m]) (by simp [abandonLead, m])

/-- ENC's leaving HOMED leaves GTE entering SAFE, whether a running lead ends or not (R12, R75). -/
theorem handState_enters {st : EndStatus} (ha : abandons st = true) (s : State) :
    entersSafe s (handState (some st) s) := by
  have h := enterSafe_rule s
  unfold handState endRunningLead
  dsimp only
  split
  · exact h
  · split
    · rename_i hl _
      have h' := endLead_enters (s := enterSafe s) ha (by rw [hl]; simp)
      obtain ⟨h1, h2, h3⟩ := h'
      exact entersSafe_again h h1 (h2.trans h.2.1.symm) (fun n => (h3 n).trans (h.2.2 n).symm) (by simp) (by simp)
    · exact h
/-- The blade that a position is on lies within the workpiece. -/
theorem setDue_rule {dir : Dir} {u : Int} {s : State} {w : Workpiece} (hw : s.wbk.workpiece = some w)
    (hb : (bladePhaseAt w s.enc.settings.cpr u).blade < w.blades) :
    let p := bladePhaseAt w s.enc.settings.cpr u
    let t := setDue dir u s
    t.gte.last = some p ∧ t.gte.mode = s.gte.mode ∧ t.gte.conflicts = s.gte.conflicts ∧
    t = { s with gte := t.gte } ∧ ∀ n,
      t.gte.gates.get n = { s.gte.gates.get n with due := (t.gte.gates.get n).due } ∧
      dueRule (s.wbk.active.gates.get n) w.blades dir s.gte.last p (s.gte.gates.get n).due (t.gte.gates.get n).due := by
  have hq : queryPhase s u = some (bladePhaseAt w s.enc.settings.cpr u) := by simp [queryPhase, hw]
  have ht : setDue dir u s = s.setGte { s.gte with
      gates := Eight.ofFn fun n =>
        { s.gte.gates.get n with
          due := dueAt (s.wbk.active.gates.get n) w.blades dir s.gte.last (s.gte.gates.get n).due
            (bladePhaseAt w s.enc.settings.cpr u) }
      last := some (bladePhaseAt w s.enc.settings.cpr u) } := by
    simp only [setDue, hq, hw]
  intro p t
  have ht' : t = _ := ht
  rw [ht']
  refine ⟨rfl, rfl, rfl, rfl, fun n => ?_⟩
  simp only [State.setGte_gte, Eight.get_ofFn, true_and]
  exact dueAt_rule hb

/-- GTE in RUN takes a position change by the rules of gatesEvaluated (R163, R164, R166, R167). -/
theorem gatesPosition_rule {dir : Dir} {u : Int} {s : State} {w : Workpiece} (hw : s.wbk.workpiece = some w)
    (hb : (bladePhaseAt w s.enc.settings.cpr u).blade < w.blades) (hr : s.gte.mode = .run)
    (hx : groupsExclusive s) (hn : noticesOk s) :
    gatesEvaluated dir w.blades (bladePhaseAt w s.enc.settings.cpr u) s (gatesPosition dir u s) := by
  obtain ⟨h1, h2, h3, h4, h5⟩ := setDue_rule (dir := dir) hw hb
  have hp : gatesPosition dir u s = arbitrateRun false (setDue dir u s) := by simp [gatesPosition, hr]
  rw [hp]
  generalize setDue dir u s = m at *
  have hlnk : m.lnk = s.lnk := by rw [h4]
  have hact : m.wbk = s.wbk := by rw [h4]
  have hnow : m.now = s.now := by rw [h4]
  have hd : ∀ n, (m.gte.gates.get n).driven = (s.gte.gates.get n).driven := fun n => by rw [(h5 n).1]
  have hst : ∀ n, (m.gte.gates.get n).status = (s.gte.gates.get n).status := fun n => by rw [(h5 n).1]
  have hse : ∀ n, (m.gte.gates.get n).sense = (s.gte.gates.get n).sense := fun n => by rw [(h5 n).1]
  have hq : ∀ n, (m.gte.gates.get n).qual = (s.gte.gates.get n).qual := fun n => by rw [(h5 n).1]
  have hwt : ∀ n, (m.gte.gates.get n).waiting = (s.gte.gates.get n).waiting := fun n => by rw [(h5 n).1]
  have one : false = false → groupsExclusive m := fun _ => by
    unfold groupsExclusive; simp only [hact, hd]; exact hx
  obtain ⟨r1, r2, r3, r4, r5, r6, -, r8⟩ := arbitrateRun_rule false m one
  have r8 := r8 rfl (by unfold noticesOk; rw [hlnk]; exact hn)
  generalize arbitrateRun false m = t at *
  refine ⟨?_, by rw [r2, h2, hr], by rw [r3, h1], fun n => by rw [r4]; exact (h5 n).2, ?_, ?_, ?_⟩
  · rw [r1, h4]
  · intro n
    have := r5 n
    simp only [hst, hse, hd, hact, true_and] at this ⊢
    exact this
  · intro n
    have := r6 n
    simp only [hst, hse, hd, hq, hnow] at this
    exact this
  · unfold conflictsReported at r8 ⊢
    have hbw : ∀ n, beginsToWait m t n = beginsToWait s t n := fun n => by simp [beginsToWait, hwt]
    simp only [hbw, hlnk, hact, h3, show beginsToWait m t = beginsToWait s t from funext hbw] at r8
    exact r8

/-- A fresh evaluation in RUN leaves GTE as freshlyEvaluated states (R161, R166, R168). -/
theorem freshEvaluation_rule {u : Int} {s : State} {w : Workpiece} (hw : s.wbk.workpiece = some w)
    (hb : (bladePhaseAt w s.enc.settings.cpr u).blade < w.blades) (hl : s.gte.last = none)
    (hd : ∀ n, (s.gte.gates.get n).due = .none) :
    freshlyEvaluated w.blades (bladePhaseAt w s.enc.settings.cpr u) (arbitrateRun true (setDue .forward u s)) ∧
      ∀ n, ((arbitrateRun true (setDue .forward u s)).gte.gates.get n).status = (s.gte.gates.get n).status := by
  obtain ⟨h1, h2, h3, h4, h5⟩ := setDue_rule (dir := .forward) hw hb
  generalize setDue .forward u s = m at *
  have hact : m.wbk = s.wbk := by rw [h4]
  obtain ⟨r1, r2, r3, r4, r5, -, -, -⟩ := arbitrateRun_rule true m (by simp)
  generalize arbitrateRun true m = t at *
  have hact' : t.wbk = s.wbk := by rw [r1, hact]
  refine ⟨⟨by rw [r3, h1], fun n => ?_, fun n => ?_⟩, fun n => ?_⟩
  · have := (h5 n).2
    rw [hl, hd] at this
    rw [r4, hact']
    exact this
  · have := r5 n
    simp only [Bool.true_eq_false, false_and, hact, (r5 _).1, hact'] at this ⊢
    exact ⟨trivial, trivial, this.2.2⟩
  · rw [(r5 n).1, (h5 n).1]

end Sys2Proof.Machine
end

