-- ==== Sys2Proof/Laws/Banks.lean ====
section
/-! SUPPORT. Laws/Banks.lean: validation passes the banks that R51 passes, and what an exchange makes of GTE. -/

namespace Sys2Proof.Machine

open Sys2Proof

/-- Two blade ranges share a blade (R42). -/
theorem sharesBlade_iff (r q : Option BladeRange) (b : Nat) : sharesBlade r q b = true ↔ shareABlade r q b := by
  simp [sharesBlade, shareABlade]

/-- A bank in which validation finds no failure passes the five checks of R51. -/
theorem validate_valid {b : Bank} {n : Nat} (h : validate b n = none) : bankValid b n := by
  unfold validate at h
  split at h
  · cases h
  rename_i h0
  split at h
  · cases h
  rename_i h1
  split at h
  · cases h
  rename_i h2
  split at h
  · cases h
  rename_i h3
  rw [List.findIdx?_eq_none_iff] at h1 h2 h3
  refine ⟨by simpa using h0, fun w hw => by simpa using h1 w hw, ?_, ?_, ?_⟩
  · intro w hw g hg
    have := h2 w hw
    simp only [needsUnused, hg] at this
    intro hn; simp [hn] at this
  · intro k r hr
    have := h3 (b.gates.get k) (by fin_cases k <;> simp [Eight.toList, Eight.get])
    simpa [gateRangeBad, hr] using this
  · rw [List.pairwise_iff_getElem]
    intro i j hi hj hij hs
    simp only [Option.map_eq_none_iff, overlapAt, List.find?_eq_none, List.mem_range] at h
    have := h j hj
    simp only [List.getElem?_eq_getElem hj, List.any_eq_true, not_exists, not_and] at this
    have := this b.windows[i] (by rw [List.mem_take_iff_getElem]; exact ⟨i, by omega, rfl⟩)
    simp only [windowsOverlap, Bool.and_eq_true, decide_eq_true_eq, sharesBlade_iff, not_and] at this
    by_contra hlt
    exact this (by omega) hs

/-- An arbitration in RUN changes the gates, the conflict count and the notices alone (R166, R167). -/
theorem arbitrateRun_shape (fresh : Bool) (s : State) :
    let t := arbitrateRun fresh s
    t = { s with gte := t.gte, lnk := { s.lnk with notices := t.lnk.notices } } ∧ t.gte.mode = s.gte.mode ∧
      t.gte.last = s.gte.last := by
  unfold arbitrateRun
  dsimp only
  split
  · exact ⟨rfl, rfl, rfl⟩
  · rw [reportWaits_eq]
    obtain ⟨-, h2, h3, h4, -⟩ := beginWaits_rule (gateGroup s.wbk.active) (waitList (gateGroup s.wbk.active) s.gte _)
      (s.setGte _)
    exact ⟨h4, h2, h3⟩

/-- Setting the due states changes them and the last evaluated position alone (R163). -/
theorem setDue_shape (dir : Dir) (u : Int) (s : State) :
    let t := setDue dir u s
    t = { s with gte := t.gte } ∧ t.gte.mode = s.gte.mode ∧ t.gte.conflicts = s.gte.conflicts ∧
      ∀ n, t.gte.gates.get n = { s.gte.gates.get n with due := (t.gte.gates.get n).due } := by
  unfold setDue
  dsimp only
  split <;> exact ⟨rfl, rfl, rfl, fun n => by simp⟩

/-- A position change that GTE takes changes GTE and the notices alone, and not its mode (R162, R163). -/
theorem gatesPosition_shape (dir : Dir) (u : Int) (s : State) :
    let t := gatesPosition dir u s
    t = { s with gte := t.gte, lnk := { s.lnk with notices := t.lnk.notices } } ∧ t.gte.mode = s.gte.mode := by
  unfold gatesPosition
  split
  · exact ⟨rfl, rfl⟩
  · obtain ⟨h1, h2, -⟩ := setDue_shape dir u s
    obtain ⟨r1, r2, -⟩ := arbitrateRun_shape false (setDue dir u s)
    refine ⟨?_, r2.trans h2⟩
    dsimp only
    rw [r1, h1]

/-- An exchange leaves GTE in its mode with the records that then stand, without a count or a notice of the waits that
begin; in SAFE as entering SAFE leaves it (R168). -/
theorem gatesExchange_rule (s : State) :
    let t := gatesExchange s
    t = { s with gte := t.gte } ∧ t.gte.mode = s.gte.mode ∧ t.gte.conflicts = s.gte.conflicts ∧
    qualRule s.now s.gte.gates t.gte.gates ∧
    (∀ n, (t.gte.gates.get n).status = (s.gte.gates.get n).status ∧
      (t.gte.gates.get n).sense = (s.gte.gates.get n).sense) ∧
    (s.gte.mode = .safe → entersSafe s t) := by
  have hc : ∀ n, (clearDue s).gte.gates.get n = { s.gte.gates.get n with due := .none, waiting := false } := fun n => by
    simp [clearDue]
  unfold gatesExchange
  cases hm : s.gte.mode with
  | safe =>
    have hm' : (clearDue s).gte.mode = .safe := hm
    simp only [hm']
    obtain ⟨⟨h1, h2, h3, h4, h5⟩, h6, h7⟩ := driveSafe_driven_rule (clearDue s) hm'
    have q : qualRule s.now s.gte.gates (driveSafe (clearDue s)).gte.gates := fun n => by
      have := h4 n; simp only [hc] at this; exact this
    have st : ∀ n, ((driveSafe (clearDue s)).gte.gates.get n).status = (s.gte.gates.get n).status ∧
        ((driveSafe (clearDue s)).gte.gates.get n).sense = (s.gte.gates.get n).sense := fun n => by
      have := h5 n; simp only [hc] at this; exact this
    refine ⟨rfl, h1, h2, q, st, fun _ => ⟨⟨h1, h2, h3, q, st⟩, h6, fun n => ?_⟩⟩
    have := h7 n; simp only [hc] at this; exact this
  | run =>
    have hm' : (clearDue s).gte.mode = .run := hm
    simp only [hm']
    obtain ⟨d1, d2, d3, d4⟩ := setDue_shape .forward (encU s.enc) (clearDue s)
    obtain ⟨r1, r2, -, -, r5, r6, r7, -⟩ := arbitrateRun_rule true (setDue .forward (encU s.enc) (clearDue s)) (by simp)
    obtain ⟨r7, r7'⟩ := r7 rfl
    have hnow : (setDue .forward (encU s.enc) (clearDue s)).now = s.now := by rw [d1]; rfl
    rw [show encU (clearDue s).enc = encU s.enc from rfl]
    generalize setDue .forward (encU s.enc) (clearDue s) = m at *
    refine ⟨?_, by rw [r2, d2, hm'], by rw [r7, d3]; rfl, fun n => ?_, fun n => ?_, by simp⟩
    · rw [r1, r7', d1]; rfl
    · have := r6 n
      rw [d4, hc, hnow] at this
      exact this
    · have := r5 n
      rw [d4, hc] at this
      exact ⟨this.1, this.2.1⟩

/-- WBK at a crossing with a swap pending exchanges the banks, and GTE and SWAP_DONE follow; at any other crossing nothing
changes (R55, R56, R168). -/
theorem banksCrossing_cases (st : EncState) (s : State) :
    (st = .homed ∧ s.wbk.stagedState = .pending ∧ banksCrossing true st s = exchange s) ∨
      (¬ (st = .homed ∧ s.wbk.stagedState = .pending) ∧ banksCrossing true st s = s) := by
  unfold banksCrossing swapPending
  by_cases h : st = .homed ∧ s.wbk.stagedState = .pending
  · exact .inl ⟨h.1, h.2, by simp [h]⟩
  · refine .inr ⟨h, ?_⟩
    rw [if_neg]
    simpa using h

end Sys2Proof.Machine
end

