-- ==== Sys2Proof/Laws/Endings.lean ====
section
/-! SUPPORT. Laws/Endings.lean: what the ending of a pass that abandons its tags and ENC's leaving HOMED do, in the
terms of Safety.lean, which later proofs cite in place of the definitions. -/

namespace Sys2Proof.Machine

open Sys2Proof

/-! ### The ending of a pass -/

theorem satAdd_zero {n : Nat} (h : n ≤ counterMax) : satAdd n 0 = n := by simp [satAdd, h]

theorem satAdd_le (n k : Nat) : satAdd n k ≤ counterMax := by unfold satAdd; omega

theorem satAdd_satAdd (n j k : Nat) : satAdd (satAdd n j) k = satAdd n (j + k) := by unfold satAdd; omega

/-- Counting the abandoned entries of the lead's pass, one by one (R73, R122). -/
theorem abandonOnes_rule {gone : List TagEntry} {s : State} {l : Lead} (hl : s.psc.lead = some l)
    (hg : ∀ e ∈ gone, e.passId = l.ctx.settings.passId) (h1 : l.ctx.counters.abandoned ≤ counterMax)
    (h2 : l.ctx.counters.retryLost ≤ counterMax) :
    ∃ m r, gone.foldl abandonOne s = { s with
      psc := { s.psc with
        lead := some { l with
          ctx := { l.ctx with
            mainInFlight := m, retryInFlight := r
            counters := { l.ctx.counters with
              abandoned := satAdd l.ctx.counters.abandoned (gone.countP fun e => decide (e.origin ≠ .retry))
              retryLost := satAdd l.ctx.counters.retryLost (gone.countP fun e => decide (e.origin = .retry)) } } } } } := by
  induction gone generalizing s l with
  | nil =>
    refine ⟨l.ctx.mainInFlight, l.ctx.retryInFlight, ?_⟩
    simp only [List.foldl_nil, List.countP_nil, satAdd_zero h1, satAdd_zero h2]
    obtain ⟨psc, hp⟩ : ∃ p, s.psc = p := ⟨_, rfl⟩
    cases s; cases psc; simp_all
  | cons e gone ih =>
    have hid : leadIs e.passId s.psc = true := leadIs_iff.2 ⟨l, hl, (hg e (by simp)).symm⟩
    have hone : abandonOne s e = { s with
        psc := { s.psc with
          lead := some { l with ctx := countAbandoned e.origin (dropInFlight e.origin l.ctx) } } } := by
      simp [abandonOne, ← modLead_eq hid, modLead, hl, State.setPsc]
    have hset : (countAbandoned e.origin (dropInFlight e.origin l.ctx)).settings = l.ctx.settings := by
      cases e.origin <;> rfl
    rw [List.foldl_cons, hone]
    obtain ⟨m, r, h⟩ := ih (l := { l with ctx := countAbandoned e.origin (dropInFlight e.origin l.ctx) })
      (s := { s with psc := { s.psc with lead := some { l with ctx := countAbandoned e.origin (dropInFlight e.origin l.ctx) } } })
      rfl (fun x hx => by simp only [hset]; exact hg x (by simp [hx]))
      (by cases e.origin <;> first | exact h1 | exact satAdd_le _ _)
      (by cases e.origin <;> first | exact h2 | exact satAdd_le _ _)
    refine ⟨m, r, h.trans ?_⟩
    cases ho : e.origin <;>
      simp [countAbandoned, dropInFlight, onCounters, ho, satInc, satAdd_satAdd, Nat.add_comm]

/-- A waiting frame whose entry is abandoned is not sent (R108, R122). -/
theorem dropWaiting_eq (which : TagEntry → Bool) (q : List TagEntry) (p : Prb) :
    dropWaiting (q.filter which) p =
      { p with waiting := p.waiting.filter fun f => !q.any fun e => which e && e.tag == f.tag } := by
  unfold dropWaiting
  cases h : p.waiting with
  | none => cases p; simp_all
  | some f =>
    cases hc : q.any fun e => which e && e.tag == f.tag <;>
      simp only [List.any_filter, hc, Option.filter_some] <;> cases p <;> simp_all

/-- Entering SAFE changes GTE alone (R161). -/
theorem enterSafe_eq (s : State) : enterSafe s = { s with gte := (enterSafe s).gte } := rfl

/-- A lead that ends with a status that abandons its tags, whatever its phase (R73). -/
theorem endLead_abandoned {st : EndStatus} {s : State} {l : Lead} (ha : abandons st = true) (hl : s.psc.lead = some l)
    (h1 : l.ctx.counters.abandoned ≤ counterMax) (h2 : l.ctx.counters.retryLost ≤ counterMax) :
    leadAbandoned st l s (endLead st s) := by
  let id := l.ctx.settings.passId
  let which := fun e : TagEntry => e.passId == id
  let r : State := { s with
    psc := { s.psc with lead := some { l with ctx := { l.ctx with endStatus := some st } }, stall := none }
    prb := dropWaiting (s.prb.queue.filter which) { s.prb with queue := s.prb.queue.filter fun e => !which e } }
  obtain ⟨m, n, hr⟩ := abandonOnes_rule (gone := s.prb.queue.filter which) (s := r)
    (l := { l with ctx := { l.ctx with endStatus := some st } }) rfl
    (fun e he => by simpa [which, id] using (List.mem_filter.1 he).2) h1 h2
  have habandon : abandon which (recordEnd st s) = (s.prb.queue.filter which).foldl abandonOne r := by
    simp only [abandon, recordEnd, modLead, hl, Option.map_some]; rfl
  have hend : endLead st s = retireLead (emptyStack (enterSafe (modLead (fun c =>
      { c with mainInFlight := 0, retryInFlight := 0 }) ((s.prb.queue.filter which).foldl abandonOne r)))) := by
    rw [← habandon]
    simp only [endLead, hl, ha, if_true]; rfl
  have hen := endLead_enters (s := s) ha (by rw [hl]; simp)
  rw [hr, enterSafe_eq] at hend
  simp only [List.countP_filter] at hend
  refine ⟨hen, ?_⟩
  rw [hend]
  simp only [retireLead, emptyStack, modLead, onCounters, State.setPsc, State.setStack, Option.map_some, noTags,
    beq_self_eq_true, Bool.true_and]
  cases hd : s.psc.drain <;>
    simp [r, which, id, bne, Bool.and_comm, appendSummary, appendRecord, State.setPnt, dropWaiting_eq]

theorem retireLead_lead (s : State) : (retireLead s).psc.lead = none := by
  unfold retireLead
  split
  · assumption
  · split <;> simp

/-- A lead that ends leaves the lead IDLE (R73). -/
theorem endLead_lead (st : EndStatus) (s : State) : (endLead st s).psc.lead = none := by
  unfold endLead
  split
  · assumption
  · exact retireLead_lead _

/-- ENC's report that it has left HOMED leaves no running lead (R75). -/
theorem handState_idle (st : EndStatus) (s : State) : noRunningLead (handState (some st) s) := by
  intro l hl
  simp only [handState, endRunningLead] at hl
  split at hl
  · simp_all
  · split at hl
    · rw [endLead_lead] at hl; cases hl
    · rename_i m hm hr
      rw [hm, Option.some.injEq] at hl; subst hl
      simpa [leadRunning] using hr

/-- ENC's report that it has left HOMED (R12, R75). -/
theorem handState_left {st : EndStatus} (ha : abandons st = true) (s : State) : homedLeft st s (handState (some st) s) := by
  have hen := handState_enters ha s
  cases hl : s.psc.lead with
  | none =>
    have he : handState (some st) s = enterSafe s := by
      simp [handState, endRunningLead, hl]
    rw [he] at hen ⊢
    exact ⟨rfl, hen, fun _ l h => by simp [hl] at h, fun _ => ⟨rfl, rfl, rfl, rfl⟩⟩
  | some l =>
    cases hp : leadRunning l with
    | false =>
      have he : handState (some st) s = enterSafe s := by
        simp [handState, endRunningLead, hl, hp]
      rw [he] at hen ⊢
      refine ⟨rfl, hen, fun _ x h hx => ?_, fun _ => ⟨rfl, rfl, rfl, rfl⟩⟩
      rw [hl, Option.some.injEq] at h; subst h
      simp [leadRunning] at hp; exact absurd hp hx
    | true =>
      have he : handState (some st) s = endLead st (enterSafe s) := by
        simp [handState, endRunningLead, hl, hp]
      rw [he] at hen ⊢
      have hbound := fun h1 h2 => endLead_abandoned (s := enterSafe s) ha hl h1 h2
      refine ⟨?_, hen, fun hok x h hx => ?_, fun h => ?_⟩
      · have f := endLead_frame st (enterSafe s)
        revert f
        generalize endLead st (enterSafe s) = t
        rintro ⟨f1, f2, f3, f4, f5, f6, f7, f8⟩
        cases t; cases s; simp_all
      · rw [hl, Option.some.injEq] at h; subst h
        obtain ⟨-, h2⟩ := hbound (hok l hl).1 (hok l hl).2
        exact ⟨hen, h2⟩
      · have := h l hl
        simp [leadRunning, this] at hp

/-- In SAFE with no running lead a position change moves nothing (R66, R162). -/
theorem handPosition_idle {s : State} (h : s.gte.mode = .safe) (hl : noRunningLead s) (old : Int) :
    handPosition old s = s := by
  unfold handPosition gatesPosition passPosition
  simp only [h]
  split
  · rfl
  · split
    · rfl
    · rename_i l e
      simp [leadRunning, hl l e]

/-- What ENC hands on when it has left HOMED and stays out of it: the ending of a running pass, and nothing of its
position or its crossing (R12, R55, R65, R75). -/
theorem handOn_left {w : EncWork} {s : State} {st : EndStatus} (hw : w.leftHomed = some st) (ha : abandons st = true)
    (hx : ∀ x, w.crossing = some x → x.state ≠ .homed) :
    handOn w s = handState (some st) (w.notices.foldl (fun t n => raise n t) (s.setEnc w.enc)) := by
  unfold handOn
  rw [hw]
  dsimp only
  generalize w.notices.foldl (fun t n => raise n t) (s.setEnc w.enc) = m
  have hsafe := (handState_enters ha m).1.1
  have hidle := handState_idle st m
  generalize handState (some st) m = t at *
  rw [handPosition_idle hsafe hidle]
  unfold handCrossing banksCrossing passCrossing
  cases hc : w.crossing with
  | none => rfl
  | some x =>
    have hne := hx x hc
    simp only [hne, decide_false, Bool.and_false, Bool.false_and, Bool.false_eq_true, if_false]
    cases hl : t.psc.lead with
    | none => rfl
    | some l => simp [hidle l hl]

/-- Raising notices changes the notices alone (R194). -/
theorem raises_eq (ns : List Notice) (s : State) :
    ns.foldl (fun t n => raise n t) s =
      { s with lnk := { s.lnk with notices := (ns.foldl (fun t n => raise n t) s).lnk.notices } } := by
  induction ns generalizing s with
  | nil => rfl
  | cons n ns ih => rw [List.foldl_cons, ih]; rfl

/-- ENC's own changes and its notices come before its leaving HOMED is reported. -/
theorem homedLeft_of {st : EndStatus} {s m t : State} (h : homedLeft st m t)
    (hm : m = { s with enc := m.enc, lnk := { s.lnk with notices := m.lnk.notices } }) : homedLeft st s t := by
  obtain ⟨h1, h2, h3, h4⟩ := h
  have e : m.psc = s.psc ∧ m.prb = s.prb ∧ m.pnt = s.pnt ∧ m.stack = s.stack ∧ m.gte = s.gte ∧ m.now = s.now := by
    rw [hm]; simp
  obtain ⟨e1, e2, e3, e4, e5, e6⟩ := e
  have hen : entersSafe s t := entersSafe_congr h2 e5.symm e6.symm rfl rfl rfl
  simp only [leadCountersOk, noRunningLead, leadAbandoned, e1, e2, e3, e4] at h3 h4
  refine ⟨?_, hen, fun hk l hl hp => ⟨hen, (h3 hk l hl hp).2⟩, h4⟩
  rw [h1, hm]

/-- What an accepted update that takes ENC out of HOMED does to the rest of the part (R12, R13, R75). -/
theorem acceptUpdate_left {l : Lines} {s : State} {st : EndStatus}
    (hw : (encWork (filterAccepted s.enc l) { s.enc with noted := filterNoted s.enc l }).leftHomed = some st)
    (ha : abandons st = true)
    (hx : ∀ x, (encWork (filterAccepted s.enc l) { s.enc with noted := filterNoted s.enc l }).crossing = some x →
      x.state ≠ .homed) :
    homedLeft st s (acceptUpdate l s) := by
  unfold acceptUpdate
  dsimp only
  rw [handOn_left hw ha hx]
  refine homedLeft_of (handState_left ha _) ?_
  rw [raises_eq]; rfl

/-! ### ENC's work -/

theorem setRev_state (r : Int) (e : Enc) : (setRev r e).state = if overruns r = true then .fault else e.state := by
  unfold setRev overruns
  simp only [Bool.or_eq_true, decide_eq_true_eq]
  split <;> rfl

theorem setRev_within (r : Int) (e : Enc) : overruns (setRev r e).rev = false := by
  unfold setRev
  split
  · show overruns 0 = false; decide
  · rename_i h
    simp only [not_or, Int.not_lt] at h
    simp [overruns, h]

/-- The status with which ENC reports its leaving HOMED, by the state that it enters (R12, R75). -/
def leavingStatus (st : EncState) : EndStatus := if st = .fault then .encoderFault else .indexFault

/-- ENC's work shows that it has left HOMED: with the status that its new state gives, and no crossing in HOMED. -/
def reportsLeaving (w : EncWork) : Prop :=
  w.leftHomed = some (leavingStatus w.enc.state) ∧ ∀ x, w.crossing = some x → x.state ≠ .homed

theorem checkCrossing_left {dir : Dir} {w : EncWork} (hn : w.crossing = none) (hr : overruns w.enc.rev = false)
    (hw : w.enc.state ≠ .homed → reportsLeaving w) (h : (checkCrossing dir w).enc.state ≠ .homed) :
    reportsLeaving (checkCrossing dir w) := by
  revert h
  unfold checkCrossing
  dsimp only
  generalize indexDeviation _ _ = delta
  split
  · rename_i hs
    split
    · by_cases hd : delta < 0
      · cases ho : overruns (w.enc.rev + 1) <;>
          simp [recordCrossing, snap, setRev_state, hd, ho, hs, reportsLeaving, leavingStatus]
      · simp [recordCrossing, snap, setRev_state, hd, hr, hs]
    · intro _
      simp [recordCrossing, reportsLeaving, leavingStatus]
  · rename_i hs
    cases dir with
    | forward => simp [recordCrossing, home]
    | reverse =>
      intro h
      have := hw hs
      simp only [recordCrossing, reportsLeaving, hn] at this ⊢
      exact ⟨this.1, fun x hx => by cases hx; exact hs⟩

theorem checkMissing_left {w : EncWork} (hw : w.enc.state ≠ .homed → reportsLeaving w) (hn : w.crossing = none)
    (h : (checkMissing w).enc.state ≠ .homed) : reportsLeaving (checkMissing w) := by
  revert h
  unfold checkMissing
  split
  · intro _
    simp [reportsLeaving, leavingStatus, hn]
  · exact hw

/-- ENC's work that takes it out of HOMED reports so (R12, R13). -/
theorem encWork_left {after : Lines} {e : Enc} (h : e.state = .homed) (h' : (encWork after e).enc.state ≠ .homed) :
    reportsLeaving (encWork after e) := by
  have rearm_keeps : ∀ b w, (rearm b w).enc.state = w.enc.state ∧ (rearm b w).leftHomed = w.leftHomed ∧
      (rearm b w).crossing = w.crossing := fun b w => by unfold rearm; split <;> exact ⟨rfl, rfl, rfl⟩
  unfold encWork reportsLeaving at *
  simp only [rearm_keeps] at h' ⊢
  split at h' <;> rename_i hd
  · exact absurd h h'
  · rename_i dir
    clear hd
    revert h'
    unfold workCount
    dsimp only
    split
    · refine checkCrossing_left rfl (setRev_within _ _) fun hs => ⟨?_, by simp⟩
      revert hs
      simp only [applyCount, setRev_state, h]
      cases overruns _ <;> simp [leavingStatus]
    · refine checkMissing_left (fun hs => ⟨?_, by simp⟩) rfl
      revert hs
      simp only [applyCount, setRev_state, h]
      cases overruns _ <;> simp [leavingStatus]
  · simp [workError, leavingStatus, h]

end Sys2Proof.Machine
end

