-- ==== Sys2Proof/Laws/Link.lean ====
section
/-! SUPPORT. Laws/Link.lean: what the transmitter's operations do, which later proofs cite in place of the
definitions. -/

namespace Sys2Proof.Machine

open Sys2Proof

/-- A record that leaves its source changes LNK or PNT alone (R141, R193). -/
@[simp] theorem leaveSource_frame (src : RecordSource) (s : State) :
    (leaveSource src s).now = s.now ∧ (leaveSource src s).enc = s.enc ∧ (leaveSource src s).wbk = s.wbk ∧
    (leaveSource src s).psc = s.psc ∧ (leaveSource src s).hold = s.hold ∧ (leaveSource src s).prb = s.prb ∧
    (leaveSource src s).stack = s.stack ∧ (leaveSource src s).gte = s.gte ∧ (leaveSource src s).cal = s.cal ∧
    (leaveSource src s).freeNext = s.freeNext ∧ (leaveSource src s).pending = s.pending := by
  cases src <;> simp [leaveSource]

/-- The transmitter's state changes alone. -/
@[simp] theorem setTx_frame (x : LinkTx) (s : State) :
    (setTx x s).now = s.now ∧ (setTx x s).enc = s.enc ∧ (setTx x s).wbk = s.wbk ∧ (setTx x s).psc = s.psc ∧
    (setTx x s).hold = s.hold ∧ (setTx x s).prb = s.prb ∧ (setTx x s).pnt = s.pnt ∧
    (setTx x s).stack = s.stack ∧ (setTx x s).gte = s.gte ∧ (setTx x s).cal = s.cal ∧
    (setTx x s).lnk = { s.lnk with tx := x } ∧ (setTx x s).freeNext = s.freeNext ∧
    (setTx x s).pending = s.pending := by
  simp [setTx]

/-- The first character of a record changes LNK and PNT alone (R193). -/
@[simp] theorem beginRecord_frame (src : RecordSource) (first : Nat) (s : State) :
    let t := beginRecord src first s
    t.now = s.now ∧ t.enc = s.enc ∧ t.wbk = s.wbk ∧ t.psc = s.psc ∧ t.hold = s.hold ∧ t.prb = s.prb ∧
    t.stack = s.stack ∧ t.gte = s.gte ∧ t.cal = s.cal ∧ t.freeNext = s.freeNext ∧ t.pending = s.pending := by
  unfold beginRecord
  split <;> simp

/-- The record that opens either waits for its first character or begins with it (R193). -/
theorem startCharacters_cases (s : State) :
    startCharacters s = s ∨
      ∃ src first, s.lnk.tx = .opening src first ∧ first ≤ 8 * s.now ∧ startCharacters s = beginRecord src first s := by
  unfold startCharacters
  split
  · split
    · exact .inr ⟨_, _, ‹_›, ‹_›, rfl⟩
    · exact .inl rfl
  · exact .inl rfl

/-- The first character changes LNK and PNT alone (R193). -/
@[simp] theorem startCharacters_frame (s : State) :
    let t := startCharacters s
    t.now = s.now ∧ t.enc = s.enc ∧ t.wbk = s.wbk ∧ t.psc = s.psc ∧ t.hold = s.hold ∧ t.prb = s.prb ∧
    t.stack = s.stack ∧ t.gte = s.gte ∧ t.cal = s.cal ∧ t.freeNext = s.freeNext ∧ t.pending = s.pending := by
  obtain h | ⟨src, first, -, -, h⟩ := startCharacters_cases s
  · simp only [h, and_self]
  · have := beginRecord_frame src first s
    simp only [h]
    exact this

/-- A record boundary changes the transmitter alone (R193). -/
theorem openRecord_cases (span : Nat) (s : State) :
    (∃ src, chosenSource s = some src ∧
      openRecord span s = { s with lnk := { s.lnk with tx := .opening src (8 * s.now + 14 * span) } }) ∨
    (chosenSource s = none ∧ openRecord span s = { s with lnk := { s.lnk with tx := .idle } }) := by
  unfold openRecord
  cases h : chosenSource s with
  | none => exact .inr ⟨rfl, rfl⟩
  | some src => exact .inl ⟨src, rfl, rfl⟩

/-- The record chosen stands at its source (R193). -/
theorem chosenSource_stands {s : State} {src : RecordSource} (h : chosenSource s = some src) :
    sourceFrame src s ≠ none := by
  unfold chosenSource at h
  split at h
  · cases h; rename_i hr; exact fun hn => by simp_all [sourceFrame]
  · split at h
    · cases h
      rename_i k hk
      simp only [selectedKind] at hk
      have := List.find?_some hk
      simp only [sourceFrame, ne_eq, Option.map_eq_none_iff]
      intro hn
      simp [hn] at this
    · split at h
      · cases h
      · cases h
        rename_i hb
        cases hl : s.pnt.buffer <;> simp_all [sourceFrame]

end Sys2Proof.Machine
end

