-- ==== Sys2Proof/Laws/Stat.lean ====
section
/-! SUPPORT. Laws/Stat.lean: fields of a payload read back, and each section of STAT holds the items that Safety.lean
says it holds (R198, R201), which later proofs cite in place of the layouts. -/

namespace Sys2Proof.Machine

open Sys2Proof

/-! ### Fields read back -/

/-- Bytes behind a value already read. -/
theorem natOfBytes_from (bs : List Byte) (a : Nat) :
    bs.foldl (fun acc b => acc * 256 + b.toNat) a = a * 256 ^ bs.length + natOfBytes bs := by
  unfold natOfBytes
  induction bs generalizing a with
  | nil => simp
  | cons b bs ih =>
    rw [List.foldl_cons, ih, List.foldl_cons, ih (0 * 256 + b.toNat), List.length_cons]
    ring

@[simp] theorem beNat_length (n v : Nat) : (beNat n v).length = n := by
  induction n with
  | zero => rfl
  | succ n ih => simp [beNat, ih]

/-- The bytes of a value read back as the value mod 256 to their number. -/
theorem natOfBytes_beNat (n v : Nat) : natOfBytes (beNat n v) = v % 256 ^ n := by
  induction n with
  | zero => simp [beNat, natOfBytes, Nat.mod_one]
  | succ n ih =>
    have h : natOfBytes (beNat (n + 1) v) = v / 256 ^ n % 256 * 256 ^ n + natOfBytes (beNat n v) := by
      show List.foldl _ _ _ = _
      rw [beNat, List.foldl_cons, natOfBytes_from, beNat_length]
      simp
    rw [h, ih, Nat.pow_succ, Nat.mod_mul]
    ac_rfl

/-- The bytes of a signed value read back as the value, wrapped. -/
theorem intOfBytes_beInt (n : Nat) (v : Int) : intOfBytes (beInt n v) = Int.bmod v (256 ^ n) := by
  have hp : (0 : Int) < ((256 ^ n : Nat) : Int) := by positivity
  have h1 := Int.emod_nonneg v (ne_of_gt hp)
  have h2 := Int.emod_lt_of_pos v hp
  unfold intOfBytes beInt
  simp only [natOfBytes_beNat, beNat_length]
  rw [Nat.mod_eq_of_lt (by omega), Int.bmod_def]
  generalize ((256 ^ n : Nat)) = m at *
  split <;> split <;> omega

/-- A field behind the bytes `a`. -/
theorem fieldBytes_behind (a b : List Byte) (m n : Nat) : fieldBytes (a ++ b) (a.length + m) n = fieldBytes b m n := by
  unfold fieldBytes
  rw [← List.drop_drop, List.drop_left]

/-- A field within the bytes `a`. -/
theorem fieldBytes_within {a : List Byte} (b : List Byte) {m n : Nat} (h : m + n ≤ a.length) :
    fieldBytes (a ++ b) m n = fieldBytes a m n := by
  unfold fieldBytes
  rw [List.drop_append_of_le_length (by omega), List.take_append_of_le_length (by simp; omega)]

/-- A field read in one of a row of records of one length is that field of the record. -/
theorem fieldBytes_row {α : Type} {f : α → List Byte} {k : Nat} (hf : ∀ x, (f x).length = k) {xs : List α} {i : Nat}
    {x : α} (h : xs[i]? = some x) (before behind : List Byte) {r n : Nat} (hr : r + n ≤ k) :
    fieldBytes (before ++ (xs.flatMap f ++ behind)) (before.length + k * i + r) n = fieldBytes (f x) r n := by
  induction xs generalizing before i with
  | nil => simp at h
  | cons y xs ih =>
    cases i with
    | zero =>
      simp only [List.getElem?_cons_zero, Option.some.injEq] at h
      subst h
      rw [Nat.mul_zero, Nat.add_zero, fieldBytes_behind, List.flatMap_cons, List.append_assoc,
        fieldBytes_within _ (by rw [hf]; exact hr)]
    | succ i =>
      have := ih (i := i) (by simpa using h) (before ++ f y)
      simp only [List.length_append, hf, List.append_assoc] at this
      rw [← this]
      simp only [List.flatMap_cons, List.append_assoc]
      congr 1
      ring

/-- A field behind a row of records of one length. -/
theorem fieldBytes_behindRow {α : Type} {f : α → List Byte} {k : Nat} (hf : ∀ x, (f x).length = k) (xs : List α)
    (before behind : List Byte) (m n : Nat) :
    fieldBytes (before ++ (xs.flatMap f ++ behind)) (before.length + k * xs.length + m) n = fieldBytes behind m n := by
  have : (xs.flatMap f).length = k * xs.length := by
    simp [List.length_flatMap, hf, Nat.mul_comm]
  rw [← this, Nat.add_assoc, fieldBytes_behind, fieldBytes_behind]

/-- Bytes that are those of a value hold it. -/
theorem holdsNat_of {b : List Byte} {off n v : Nat} (h : fieldBytes b off n = beNat n v) : holdsNat b off n v := by
  unfold holdsNat fieldNat; rw [h, natOfBytes_beNat]

/-- Bytes that are those of a signed value hold it. -/
theorem holdsInt_of {b : List Byte} {off n : Nat} {v : Int} (h : fieldBytes b off n = beInt n v) :
    holdsInt b off n v := by
  unfold holdsInt fieldInt; rw [h, intOfBytes_beInt]

/-- The bytes of 0. -/
theorem beNat_zero (n : Nat) : beNat n 0 = List.replicate n 0#8 := by
  induction n with
  | zero => rfl
  | succ n ih => rw [beNat, ih, Nat.zero_div]; rfl

/-- A field of a field. -/
theorem fieldBytes_sub {b : List Byte} {off n m k : Nat} (h : m + k ≤ n) :
    fieldBytes (fieldBytes b off n) m k = fieldBytes b (off + m) k := by
  unfold fieldBytes
  rw [List.drop_take, List.take_take, List.drop_drop, Nat.min_eq_left (by omega)]

/-- What stands behind the bytes `a`. -/
theorem fieldBytes_skip {a b : List Byte} {off n : Nat} (h : a.length ≤ off) :
    fieldBytes (a ++ b) off n = fieldBytes b (off - a.length) n := by
  have := fieldBytes_behind a b (off - a.length) n
  rwa [Nat.add_sub_cancel' h] at this

/-- The first bytes, of a part with that length. -/
theorem fieldBytes_first {a b : List Byte} {n : Nat} (h : a.length = n) : fieldBytes (a ++ b) 0 n = a := by
  unfold fieldBytes
  rw [List.drop_zero, List.take_append_of_le_length (by omega), List.take_of_length_le (by omega)]

/-- All of the bytes. -/
theorem fieldBytes_all {a : List Byte} {n : Nat} (h : a.length = n) : fieldBytes a 0 n = a := by
  have := fieldBytes_first (b := []) h
  rwa [List.append_nil] at this

/-- A value that may be absent takes one byte more than its width. -/
theorem optBytes_length {α : Type} {n : Nat} {v : Option α} {f : α → List Byte} (h : ∀ x, (f x).length = n) :
    (optBytes n (v.map f)).length = n + 1 := by
  cases v <;> simp [optBytes, h]

/-- One byte with a code is that code as a value. -/
theorem codeBytes {b : Byte} {v : Nat} (h : b = BitVec.ofNat 8 v) : [b] = beNat 1 v := by
  rw [h]; simp [beNat]

/-- A flag as a value. -/
theorem byteOfBool_eq (v : Bool) : byteOfBool v = BitVec.ofNat 8 v.toNat := by cases v <;> rfl

/-- Bytes that are a presence byte and a value at its width hold that value, present or absent. -/
theorem holdsOption_of {b : List Byte} {off n : Nat} {v : Option Nat}
    (h : fieldBytes b off (1 + n) = optBytes n (v.map (beNat n))) : holdsOption b off n v := by
  have h0 := fieldBytes_sub (b := b) (off := off) (n := 1 + n) (m := 0) (k := 1) (by omega)
  have h1 := fieldBytes_sub (b := b) (off := off) (n := 1 + n) (m := 1) (k := n) (by omega)
  rw [h] at h0 h1
  constructor
  · refine holdsNat_of (h0.symm.trans ?_)
    cases v <;> exact codeBytes rfl
  · refine holdsNat_of (h1.symm.trans ?_)
    cases v with
    | none => show List.take n (List.replicate n 0#8) = _; rw [List.take_of_length_le (by simp)]; exact (beNat_zero n).symm
    | some v => show List.take n (beNat n v) = _; rw [List.take_of_length_le (by simp)]; rfl

/-- The same for a signed value. -/
theorem holdsOptionInt_of {b : List Byte} {off n : Nat} {v : Option Int}
    (h : fieldBytes b off (1 + n) = optBytes n (v.map (beInt n))) : holdsOptionInt b off n v := by
  have h0 := fieldBytes_sub (b := b) (off := off) (n := 1 + n) (m := 0) (k := 1) (by omega)
  have h1 := fieldBytes_sub (b := b) (off := off) (n := 1 + n) (m := 1) (k := n) (by omega)
  rw [h] at h0 h1
  constructor
  · refine holdsNat_of (h0.symm.trans ?_)
    cases v <;> exact codeBytes rfl
  · refine holdsInt_of (h1.symm.trans ?_)
    cases v with
    | none =>
      show List.take n (List.replicate n 0#8) = beNat n (0 % ((256 ^ n : Nat) : Int)).toNat
      rw [List.take_of_length_le (by simp), Int.zero_emod]; exact (beNat_zero n).symm
    | some v => show List.take n (beNat n _) = _; rw [List.take_of_length_le (by simp)]; rfl

@[simp] theorem beInt_length (n : Nat) (v : Int) : (beInt n v).length = n := beNat_length n _

/-- What stands behind one byte. -/
theorem fieldBytes_cons {b : Byte} {l : List Byte} {off n : Nat} (h : 0 < off) :
    fieldBytes (b :: l) off n = fieldBytes l (off - 1) n :=
  fieldBytes_skip (a := [b]) h

/-- One byte is its value. -/
theorem oneByte (v : Nat) : [BitVec.ofNat 8 v] = beNat 1 v := codeBytes rfl

/-- The code of an enumeration, as one byte. -/
theorem fieldBytes_code {b : Byte} {l : List Byte} : fieldBytes (b :: l) 0 1 = [b] := rfl

/-! ### The sections -/

/-- Section 1 holds the items of R17. -/
theorem statEnc_holds (s : State) : statEncHolds (statEnc s) s := by
  unfold statEncHolds statEnc encSettingsBytes
  refine ⟨?_, holdsNat_of ?_, holdsInt_of ?_, holdsInt_of ?_, holdsInt_of ?_, holdsNat_of ?_, holdsNat_of ?_,
    holdsNat_of ?_, holdsInt_of ?_, holdsNat_of ?_, holdsNat_of ?_, holdsNat_of ?_, holdsNat_of ?_, holdsNat_of ?_,
    holdsNat_of ?_, holdsNat_of ?_, holdsNat_of ?_⟩
  all_goals
    simp [fieldBytes_cons, oneByte, fieldBytes_code, fieldBytes_skip, fieldBytes_first, fieldBytes_all,
      byteOfBool_eq]
  · exact codeBytes (by cases s.enc.state <;> rfl)
  · exact codeBytes (by cases s.enc.lastDirection <;> rfl)
  · exact codeBytes (by cases s.enc.lastOutcome <;> rfl)
  · exact codeBytes (by cases s.enc.settings.sense <;> rfl)

/-- Section 2 holds the items of R38. -/
theorem statAng_holds (s : State) : statAngHolds (statAng s) s := by
  unfold statAngHolds statAng statRounding
  generalize tableAngle s.enc.settings.cpr s.enc.c = theta
  refine ⟨?_, holdsNat_of ?_, holdsOption_of ?_, holdsOption_of ?_, holdsNat_of ?_, holdsInt_of ?_,
      holdsNat_of ?_, holdsOption_of ?_, holdsOption_of ?_, holdsOption_of ?_, holdsOption_of ?_,
      holdsOption_of ?_, holdsOption_of ?_⟩
  all_goals
    simp [fieldBytes_cons, oneByte, fieldBytes_code, fieldBytes_skip, fieldBytes_first, fieldBytes_all,
      byteOfBool_eq, optBytes_length, Function.comp_def]
  all_goals try rfl
  · refine codeBytes ?_
    cases s.psc.lead with
    | none => rfl
    | some l => dsimp only; cases l.ctx.settings.rounding <;> rfl
  · congr 2
    funext w
    exact codeBytes (by cases trimCase w (nominal w theta) <;> rfl)

/-- The gate records in PHASE, counted by gate. -/
theorem phaseGates_eq (b : Bank) : phaseGates b = gateNumbers.countP fun n => (b.gates.get n).isSome := by
  unfold phaseGates
  rw [← List.countP_eq_length_filter]
  show List.countP _ (gateNumbers.map b.gates.get) = _
  rw [List.countP_map]
  rfl

/-- A warning list as warningsSent gives it. -/
theorem warningListBytes_eq (ws : List Warning) : warningListBytes ws = warningsSent ws := by
  unfold warningListBytes warningsSent
  rw [show beNat 1 ws.length = [BitVec.ofNat 8 ws.length] by simp [beNat]]
  simp only [List.singleton_append, List.cons.injEq, true_and]
  congr 1

/-- Section 3 holds the items of R59. -/
theorem statWbk_holds (s : State) : statWbkHolds (statWbk s) s := by
  unfold statWbkHolds statWbk bankBytes
  simp only [warningListBytes_eq, phaseGates_eq]
  generalize warningsSent s.wbk.active.warnings = wa
  generalize warningsSent s.wbk.staged.warnings = ws
  generalize ha : [activeStateCode s.wbk.activeState] ++ (beNat 1 s.wbk.active.windows.length ++
    beNat 4 (gateNumbers.countP fun n => (s.wbk.active.gates.get n).isSome)) = active
  generalize hb : [stagedStateCode s.wbk.stagedState] ++ (beNat 1 s.wbk.staged.windows.length ++
    beNat 4 (gateNumbers.countP fun n => (s.wbk.staged.gates.get n).isSome)) = staged
  have hla : active.length = 6 := by simp [← ha]
  have hlb : staged.length = 6 := by simp [← hb]
  generalize he : [activeStateCode s.wbk.activeState] ++ _ ++ _ ++ _ = b
  have hbytes : b = active ++ (wa ++ (staged ++ ws)) := by simp [← he, ← ha, ← hb]
  have hin : ∀ m n, m + n ≤ 6 → fieldBytes b m n = fieldBytes active m n := fun m n h => by
    rw [hbytes, fieldBytes_within _ (by omega)]
  have hbehind : ∀ m n, m + n ≤ 6 → fieldBytes b (6 + wa.length + m) n = fieldBytes staged m n := fun m n h => by
    rw [hbytes, ← hla, Nat.add_assoc, fieldBytes_behind, fieldBytes_behind, fieldBytes_within _ (by omega)]
  refine ⟨holdsNat_of ?_, holdsNat_of ?_, holdsNat_of ?_, ?_, holdsNat_of ?_, holdsNat_of ?_, holdsNat_of ?_, ?_⟩
  · rw [hin 0 1 (by omega), ← ha]; exact codeBytes (by cases s.wbk.activeState <;> rfl)
  · rw [hin 1 1 (by omega), ← ha]; simp [fieldBytes_cons, fieldBytes_first]
  · rw [hin 2 4 (by omega), ← ha]; simp [fieldBytes_skip, fieldBytes_cons, fieldBytes_all]
  · rw [hbytes, ← hla]
    exact (fieldBytes_behind active _ 0 _).trans (fieldBytes_first rfl)
  · rw [← Nat.add_zero (6 + wa.length), hbehind 0 1 (by omega), ← hb]
    exact codeBytes (by cases s.wbk.stagedState <;> rfl)
  · rw [hbehind 1 1 (by omega), ← hb]; simp [fieldBytes_cons, fieldBytes_first]
  · rw [hbehind 2 4 (by omega), ← hb]; simp [fieldBytes_skip, fieldBytes_cons, fieldBytes_all]
  · rw [hbytes, ← List.append_assoc, ← List.append_assoc]
    exact List.drop_left' (by simp; omega)

/-- The summaries owed, one for the lead and one for each draining context (R80). -/
theorem summariesOwed_eq (p : Psc) : summariesOwed p = (if p.lead = none then 0 else 1) + p.drain.length := by
  unfold summariesOwed
  cases p.lead <;> simp

/-- A draining context takes 11 bytes. -/
theorem drainBytes_length (c : PassCtx) : (drainBytes c).length = 11 := by simp [drainBytes]

/-- Section 4 holds the items of R83. -/
theorem statPsc_holds (s : State) : statPscHolds (statPsc s) s := by
  let c := s.psc.lead.map Lead.ctx
  let counters := countersList (match c with
    | none => Counters.zero
    | some c => c.counters)
  let counter := fun v => optBytes 4 (c.map fun _ => beNat 4 v)
  generalize hh : [leadCode s.psc.lead] ++ (
    optBytes 2 (c.map fun c => beNat 2 c.settings.passId) ++ (
    optBytes 4 (c.map fun c => beNat 4 c.turn) ++ (
    optBytes 8 (c.map fun c => beInt 8 c.uStart) ++ (
    optBytes 4 (c.map fun c => beInt 4 c.highWater) ++ (
    optBytes 4 (c.map fun c => beInt 4 (encU s.enc - c.uStart)) ++ (
    optBytes 4 (c.map fun _ => beNat 4 (stallRemaining s)) ++ (
    optBytes 4 (c.map fun c => beNat 4 c.mainInFlight) ++
    optBytes 4 (c.map fun c => beNat 4 c.retryInFlight)))))))) = items
  have hl : items.length = 43 := by simp [← hh, optBytes_length]
  have hc : ∀ v, (counter v).length = 5 := fun v => optBytes_length (by simp)
  have hn : counters.length = 20 := rfl
  have hm : (counters.flatMap counter).length = 100 := by simp [List.length_flatMap, hc, hn]
  have hb : statPsc s = items ++ (counters.flatMap counter ++
      (beNat 1 s.psc.drain.length ++ (s.psc.drain.flatMap drainBytes ++ beNat 4 (summariesOwed s.psc)))) := by
    simp only [statPsc, listBytes, ← hh, List.append_assoc]; rfl
  have hin : ∀ m n, m + n ≤ 43 → fieldBytes (statPsc s) m n = fieldBytes items m n := fun m n h => by
    rw [hb, fieldBytes_within _ (by omega)]
  have hbehind : ∀ m n, fieldBytes (statPsc s) (143 + m) n =
      fieldBytes (beNat 1 s.psc.drain.length ++
        (s.psc.drain.flatMap drainBytes ++ beNat 4 (summariesOwed s.psc))) m n := fun m n => by
    rw [show 143 + m = items.length + ((counters.flatMap counter).length + m) by omega, hb, fieldBytes_behind,
      fieldBytes_behind]
  refine ⟨?_, holdsNat_of ?_, holdsOption_of ?_, holdsOption_of ?_, holdsOptionInt_of ?_, holdsOptionInt_of ?_,
    holdsOptionInt_of ?_, holdsOption_of ?_, holdsOption_of ?_, holdsOption_of ?_, fun i hi => holdsOption_of ?_,
    holdsNat_of ?_, fun i d hd => ?_, holdsNat_of ?_⟩
  · rw [hb]; simp [hl, hm, List.length_flatMap, drainBytes_length]; omega
  · rw [hin 0 1 (by omega), ← hh]
    refine codeBytes ?_
    cases s.psc.lead with
    | none => rfl
    | some l => rcases l with ⟨p, c⟩; cases p <;> rfl
  · rw [hin _ _ (by omega), ← hh]
    simp [fieldBytes_cons, fieldBytes_first, optBytes_length, c, Function.comp_def]
  · rw [hin _ _ (by omega), ← hh]
    simp [fieldBytes_cons, fieldBytes_skip, fieldBytes_first, optBytes_length, c, Function.comp_def]
  · rw [hin _ _ (by omega), ← hh]
    simp [fieldBytes_cons, fieldBytes_skip, fieldBytes_first, optBytes_length, c, Function.comp_def]
  · rw [hin _ _ (by omega), ← hh]
    simp [fieldBytes_cons, fieldBytes_skip, fieldBytes_first, optBytes_length, c, Function.comp_def]
  · rw [hin _ _ (by omega), ← hh]
    simp [fieldBytes_cons, fieldBytes_skip, fieldBytes_first, optBytes_length, c, Function.comp_def]
  · rw [hin _ _ (by omega), ← hh]
    simp [fieldBytes_cons, fieldBytes_skip, fieldBytes_first, optBytes_length, c, Function.comp_def]
    rfl
  · rw [hin _ _ (by omega), ← hh]
    simp [fieldBytes_cons, fieldBytes_skip, fieldBytes_first, optBytes_length, c, Function.comp_def]
  · rw [hin _ _ (by omega), ← hh]
    simp [fieldBytes_cons, fieldBytes_skip, fieldBytes_all, optBytes_length, c, Function.comp_def]
  · have hx : counters[i]? = some (counters.getD i 0) := by
      rw [List.getD_eq_getElem?_getD]
      rw [List.getElem?_eq_getElem (by omega)]; rfl
    have := fieldBytes_row hc hx items (beNat 1 s.psc.drain.length ++
      (s.psc.drain.flatMap drainBytes ++ beNat 4 (summariesOwed s.psc))) (r := 0) (n := 5) (by omega)
    rw [← hb, hl, fieldBytes_all (hc _)] at this
    refine this.trans ?_
    simp only [counter, counters, c]
    cases s.psc.lead <;> rfl
  · rw [← Nat.add_zero 143, hbehind 0 1, fieldBytes_first (by simp)]
  · have row := fun r n (h : r + n ≤ 11) => fieldBytes_row drainBytes_length hd (beNat 1 s.psc.drain.length)
      (beNat 4 (summariesOwed s.psc)) (r := r) (n := n) h
    have at' : ∀ r n, r + n ≤ 11 → fieldBytes (statPsc s) (144 + 11 * i + r) n = fieldBytes (drainBytes d) r n :=
      fun r n h => by
        rw [← row r n h, ← hbehind, beNat_length]; congr 1; omega
    refine ⟨holdsNat_of ?_, holdsNat_of ?_, holdsNat_of ?_, holdsNat_of ?_⟩
    · rw [← Nat.add_zero (144 + 11 * i), at' 0 2 (by omega)]
      simp [drainBytes, fieldBytes_first]
    · rw [at' 2 1 (by omega)]
      simp [drainBytes, fieldBytes_skip, fieldBytes_code]
      refine codeBytes ?_
      cases d.endStatus with
      | none => rfl
      | some e => cases e <;> rfl
    · rw [at' 3 4 (by omega)]
      simp [drainBytes, fieldBytes_skip, fieldBytes_cons, fieldBytes_first]
    · rw [at' 7 4 (by omega)]
      simp [drainBytes, fieldBytes_skip, fieldBytes_cons, fieldBytes_all]
  · rw [← summariesOwed_eq]
    have := fieldBytes_behindRow drainBytes_length s.psc.drain (beNat 1 s.psc.drain.length)
      (beNat 4 (summariesOwed s.psc)) 0 4
    rw [← hbehind, fieldBytes_all (by simp), beNat_length] at this
    rw [← this]; congr 1; omega

/-- An entry in flight takes 8 bytes. -/
theorem tagBytes_length (now : Nat) (e : TagEntry) : (tagBytes now e).length = 8 := by simp [tagBytes]

/-- Section 6 holds the items of R126. -/
theorem statPrb_holds (s : State) : statPrbHolds (statPrb s) s := by
  generalize hh : [probeStateCode s.prb.state] ++ (beNat 2 s.prb.tmin ++ (beNat 2 s.prb.tr ++
    (beNat 1 s.prb.nextTag.toNat ++ (optBytes 4 (s.prb.lastTrigger.map fun t => beNat 4 (usSince s.now t)) ++
    (beNat 4 s.prb.timeouts ++ (beNat 4 s.prb.orphans ++ (beNat 4 s.prb.checkFails ++
    beNat 1 s.prb.queue.length))))))) = items
  have hl : items.length = 24 := by simp [← hh, optBytes_length]
  have hb : statPrb s = items ++ (s.prb.queue.flatMap (tagBytes s.now) ++ []) := by
    simp only [statPrb, listBytes, ← hh, List.append_assoc, List.append_nil]
  have hin : ∀ m n, m + n ≤ 24 → fieldBytes (statPrb s) m n = fieldBytes items m n := fun m n h => by
    rw [hb, fieldBytes_within _ (by omega)]
  have hu : ∀ t, min ((s.now - t) / 100) 4294967295 = usSince s.now t := fun _ => rfl
  refine ⟨?_, holdsNat_of ?_, holdsNat_of ?_, holdsNat_of ?_, holdsNat_of ?_, holdsOption_of ?_, holdsNat_of ?_,
    holdsNat_of ?_, holdsNat_of ?_, holdsNat_of ?_, fun i e he => ?_⟩
  · rw [hb]; simp [hl, List.length_flatMap, tagBytes_length]; omega
  · rw [hin 0 1 (by omega), ← hh]; exact codeBytes (by cases s.prb.state <;> rfl)
  · rw [hin _ _ (by omega), ← hh]; simp [fieldBytes_cons, fieldBytes_first]
  · rw [hin _ _ (by omega), ← hh]; simp [fieldBytes_cons, fieldBytes_skip, fieldBytes_first]
  · rw [hin _ _ (by omega), ← hh]; simp [fieldBytes_cons, fieldBytes_skip, fieldBytes_first]
  · rw [hin _ _ (by omega), ← hh]
    simp [fieldBytes_cons, fieldBytes_skip, fieldBytes_first, optBytes_length, Function.comp_def, hu]
  · rw [hin _ _ (by omega), ← hh]; simp [fieldBytes_cons, fieldBytes_skip, fieldBytes_first, optBytes_length]
  · rw [hin _ _ (by omega), ← hh]; simp [fieldBytes_cons, fieldBytes_skip, fieldBytes_first, optBytes_length]
  · rw [hin _ _ (by omega), ← hh]; simp [fieldBytes_cons, fieldBytes_skip, fieldBytes_first, optBytes_length]
  · rw [hin _ _ (by omega), ← hh]; simp [fieldBytes_cons, fieldBytes_skip, fieldBytes_all, optBytes_length]
  · have at' : ∀ r n, r + n ≤ 8 → fieldBytes (statPrb s) (24 + 8 * i + r) n = fieldBytes (tagBytes s.now e) r n :=
      fun r n h => by rw [← fieldBytes_row (tagBytes_length s.now) he items [] h, hl, hb]
    refine ⟨holdsNat_of ?_, holdsNat_of ?_, holdsNat_of ?_, holdsNat_of ?_⟩
    · rw [← Nat.add_zero (24 + 8 * i), at' 0 1 (by omega)]; simp [tagBytes, fieldBytes_first]
    · rw [at' 1 2 (by omega)]; simp [tagBytes, fieldBytes_skip, fieldBytes_first]
    · rw [at' 3 1 (by omega)]
      simp [tagBytes, fieldBytes_skip, fieldBytes_code]
      exact codeBytes (by cases e.origin <;> rfl)
    · rw [at' 4 4 (by omega)]; simp [hu, tagBytes, fieldBytes_skip, fieldBytes_cons, fieldBytes_all]

/-- Section 7 holds the items of R143. -/
theorem statPnt_holds (s : State) : statPntHolds (statPnt s) s := by
  unfold statPntHolds statPnt bufferLoad bufferSize
  rw [← List.countP_eq_length_filter, ← summariesOwed_eq]
  refine ⟨?_, holdsNat_of ?_, holdsNat_of ?_, holdsNat_of ?_, holdsNat_of ?_, holdsNat_of ?_⟩
  all_goals simp [fieldBytes_skip, fieldBytes_first, fieldBytes_all]
  · congr 2

/-- A miss entry takes 9 bytes. -/
theorem missBytes_length (m : MissEntry) : (missBytes m).length = 9 := by simp [missBytes]

/-- Section 8 holds the items of R159. -/
theorem statMsk_holds (s : State) : statMskHolds (statMsk s) s := by
  have hb : statMsk s = (beNat 4 s.stack.length ++ beNat 1 s.stack.length) ++ (s.stack.flatMap missBytes ++ []) := by
    simp [statMsk, listBytes]
  refine ⟨?_, holdsNat_of ?_, holdsNat_of ?_, fun i m hm => ?_⟩
  · rw [hb]; simp [List.length_flatMap, missBytes_length]; omega
  · rw [hb]; simp [fieldBytes_first]
  · rw [hb]; simp [fieldBytes_skip, fieldBytes_first]
  · have at' : ∀ r n, r + n ≤ 9 → fieldBytes (statMsk s) (5 + 9 * i + r) n = fieldBytes (missBytes m) r n :=
      fun r n h => by
        rw [← fieldBytes_row missBytes_length hm (beNat 4 s.stack.length ++ beNat 1 s.stack.length) [] h, hb]
        simp
    refine ⟨holdsNat_of ?_, holdsNat_of ?_, holdsNat_of ?_, holdsNat_of ?_, holdsNat_of ?_, holdsNat_of ?_⟩
    · rw [← Nat.add_zero (5 + 9 * i), at' 0 1 (by omega)]; simp [missBytes, fieldBytes_first]
    · rw [at' 1 1 (by omega)]; simp [missBytes, fieldBytes_skip, fieldBytes_first]
    · rw [at' 2 4 (by omega)]; simp [missBytes, fieldBytes_skip, fieldBytes_first]
    · rw [at' 6 1 (by omega)]; simp [missBytes, fieldBytes_skip, fieldBytes_code, byteOfBool_eq, oneByte]
    · rw [at' 7 1 (by omega)]
      simp [missBytes, fieldBytes_skip, fieldBytes_cons, fieldBytes_code]
      exact codeBytes (by cases m.cause <;> rfl)
    · rw [at' 8 1 (by omega)]; simp [missBytes, fieldBytes_skip, fieldBytes_cons, fieldBytes_all]

/-- A gate takes 6 bytes. -/
theorem gateBytes_length (g : Gate) : (gateBytes g).length = 6 := rfl

/-- Section 9 holds the items of R172. -/
theorem statGte_holds (s : State) : statGteHolds (statGte s) s := by
  let last := optBytes 5 (s.gte.last.map fun p => beNat 1 p.blade ++ beNat 4 p.phase)
  have hb : statGte s = [gateModeCode s.gte.mode] ++ (s.gte.gates.toList.flatMap gateBytes ++
      (last ++ beNat 4 s.gte.conflicts)) := by simp [statGte, last]
  have hl : last.length = 6 := optBytes_length (by simp)
  have hbehind : ∀ m n, fieldBytes (statGte s) (49 + m) n = fieldBytes (last ++ beNat 4 s.gte.conflicts) m n :=
    fun m n => by
      rw [← fieldBytes_behindRow gateBytes_length s.gte.gates.toList [gateModeCode s.gte.mode]
        (last ++ beNat 4 s.gte.conflicts), hb]
      rfl
  refine ⟨?_, holdsNat_of ?_, fun n => ?_, holdsOption_of ?_, holdsNat_of ?_, holdsNat_of ?_⟩
  · rw [hb]; simp [gateBytes_length, hl, Eight.toList]
  · rw [hb]; exact codeBytes (by cases s.gte.mode <;> rfl)
  · have hn : s.gte.gates.toList[n.val]? = some (s.gte.gates.get n) := by
      revert n; intro n
      match n with
      | 0 | 1 | 2 | 3 | 4 | 5 | 6 | 7 => rfl
    have at' : ∀ r k, r + k ≤ 6 → fieldBytes (statGte s) (1 + 6 * n.val + r) k =
        fieldBytes (gateBytes (s.gte.gates.get n)) r k := fun r k h => by
      rw [← fieldBytes_row gateBytes_length hn [gateModeCode s.gte.mode] (last ++ beNat 4 s.gte.conflicts) h, hb]
      rfl
    refine ⟨holdsNat_of ?_, holdsNat_of ?_, holdsNat_of ?_, holdsNat_of ?_, holdsNat_of ?_, holdsNat_of ?_⟩
    · rw [← Nat.add_zero (1 + 6 * n.val), at' 0 1 (by omega)]; exact codeBytes (byteOfBool_eq _)
    · rw [at' 1 1 (by omega)]; exact codeBytes (by cases (s.gte.gates.get n).due <;> rfl)
    · rw [at' 2 1 (by omega)]; exact codeBytes (byteOfBool_eq _)
    · rw [at' 3 1 (by omega)]; exact codeBytes (by cases (s.gte.gates.get n).status <;> rfl)
    · rw [at' 4 1 (by omega)]; exact codeBytes (byteOfBool_eq _)
    · rw [at' 5 1 (by omega)]; exact codeBytes (byteOfBool_eq _)
  · rw [← Nat.add_zero 49, hbehind]
    cases h : s.gte.last <;> simp [last, h, optBytes, fieldBytes, beNat]
  · rw [show 51 = 49 + 2 from rfl, hbehind]
    cases h : s.gte.last <;> simp [last, h, optBytes, fieldBytes, beNat]
  · rw [show 55 = 49 + 6 from rfl, hbehind, fieldBytes_skip (by omega), hl]
    exact fieldBytes_all (by simp)

/-- Section 11 holds the items of R198. -/
theorem statLnk_holds (s : State) : statLnkHolds (statLnk s) s := by
  unfold statLnkHolds statLnk linkErrorBytes
  dsimp only
  generalize s.lnk.lock = lock
  have hn : ∀ n, (noticeStateBytes n).length = 20 := fun n => rfl
  have hs : (optBytes 4 (lock.map (beNat 4))).length = 5 := optBytes_length (beNat_length 4)
  refine ⟨?_, holdsNat_of ?_, holdsOption_of ?_, holdsNat_of ?_, holdsNat_of ?_, holdsNat_of ?_,
    holdsNat_of ?_, holdsNat_of ?_, holdsNat_of ?_, fun k => ⟨holdsNat_of ?_, holdsNat_of ?_⟩, holdsNat_of ?_⟩
  case refine_10 => cases lock <;> cases k <;> exact codeBytes (byteOfBool_eq _)
  case refine_11 => cases lock <;> cases k <;> rfl
  all_goals
    simp [hs, oneByte, fieldBytes_skip, fieldBytes_first, fieldBytes_all, byteOfBool_eq, hn, causesByte]

/-- Section 5 holds the items of R105. -/
theorem statHold_holds (s : State) : statHoldHolds (statHold s) s := by
  refine ⟨rfl, holdsNat_of (codeBytes ?_), holdsNat_of (codeBytes ?_), holdsNat_of (codeBytes ?_)⟩
  · cases s.hold.sense <;> rfl
  · cases s.hold.qualified <;> rfl
  · cases s.hold.active <;> rfl

/-- Section 10 holds the items of R186. -/
theorem statCal_holds (s : State) : statCalHolds (statCal s) s := by
  refine ⟨rfl, holdsNat_of (codeBytes ?_), holdsNat_of (codeBytes ?_), holdsNat_of (codeBytes ?_), holdsNat_of (codeBytes ?_)⟩
  · cases s.cal.origin <;> rfl
  · cases s.cal.locked <;> rfl
  · cases s.cal.programming <;> rfl
  · rcases s.cal.programming with _ | ⟨op, _⟩
    · rfl
    · cases op <;> rfl

/-- The STAT reply is its eleven sections, each holding what its rule gives (R198). -/
theorem statBytes_sections (s : State) :
    statBytes s = statSections [statEnc s, statAng s, statWbk s, statPsc s, statHold s, statPrb s, statPnt s,
      statMsk s, statGte s, statCal s, statLnk s] := by
  simp [statBytes, statSection, statSections, List.zipIdx, ← oneByte]

end Sys2Proof.Machine
end

