-- ==== Sys2Proof/Laws/Tags.lean ====
section
/-! SUPPORT. Laws/Tags.lean: the order of the tags in flight and of their fire times, as tagsOk says it, when a trigger
is taken. -/

namespace Sys2Proof.Machine

open Sys2Proof

/-- Each issue adds one to the tags issued after an entry, while fewer than 15 have been (R109). -/
theorem issuedAfter_next {s t : State} {e : TagEntry} (ht : t.prb.nextTag = s.prb.nextTag + 1#4)
    (h : issuedAfter s e < 15) : issuedAfter t e = issuedAfter s e + 1 := by
  have all : ∀ n g : BitVec 4, (n - 1#4 - g).toNat < 15 → (n + 1#4 - 1#4 - g).toNat = (n - 1#4 - g).toNat + 1 := by
    decide
  unfold issuedAfter at *
  rw [ht]
  exact all _ _ h

/-- No tag has been issued after the one just issued (R109). -/
theorem issuedAfter_new {s : State} {e : TagEntry} (h : s.prb.nextTag = e.tag + 1#4) : issuedAfter s e = 0 := by
  have all : ∀ g : BitVec 4, (g + 1#4 - 1#4 - g).toNat = 0 := by decide
  unfold issuedAfter
  rw [h]
  exact all _

/-- Before 15 tags have been issued after an entry, the next tag is not its own (R109). -/
theorem issuedAfter_differs {s : State} {e : TagEntry} (h : issuedAfter s e < 15) : e.tag ≠ s.prb.nextTag := by
  have all : ∀ n : BitVec 4, ¬ (n - 1#4 - n).toNat < 15 := by decide
  rintro heq
  unfold issuedAfter at h
  rw [heq] at h
  exact all _ h

/-- Taking a trigger issues the next tag, appends its entry and sets the time of the last trigger to the entry's fire
time, which lies after the last one when Tmin has passed since that (R97, R108, R109). -/
theorem takeTrigger_rule (r : TriggerRequest) (now : Nat) (p : Prb) :
    let t := takeTrigger r now p
    t.nextTag = p.nextTag + 1#4 ∧ t.state = p.state ∧ t.tmin = p.tmin ∧ t.tr = p.tr ∧ t.timeouts = p.timeouts ∧
    ∃ start, now ≤ start ∧ t.lastTrigger = some start ∧ t.queue = p.queue ++ [entryOf r p.nextTag start] ∧
      (tminPassed p now = true → 0 < p.tmin → ∀ last, p.lastTrigger = some last → last < start) := by
  have hw : ∃ out waiting, startWaiting now p = { p with out := out, waiting := waiting } := by
    unfold startWaiting
    split
    · exact ⟨_, _, rfl⟩
    · split
      · exact ⟨_, _, rfl⟩
      · exact ⟨_, _, rfl⟩
  obtain ⟨out, waiting, hw⟩ := hw
  have hn : now ≤ frameStart (startWaiting now p) now := by
    unfold frameStart
    split
    · exact le_refl _
    · split <;> omega
  have hlast : tminPassed p now = true → 0 < p.tmin → ∀ last, p.lastTrigger = some last →
      last < frameStart (startWaiting now p) now := by
    intro h1 h2 last hl
    have h1 : last + p.tmin * 100 ≤ now := by
      rw [tminPassed, hl] at h1
      exact of_decide_eq_true h1
    omega
  unfold takeTrigger
  dsimp only
  generalize frameStart (startWaiting now p) now = start at *
  rw [hw]
  split <;> exact ⟨rfl, rfl, rfl, rfl, rfl, start, hn, rfl, rfl, hlast⟩

end Sys2Proof.Machine
end

