-- ==== Sys2Proof/Laws/Tick.lean ====
section
/-! SUPPORT. Laws/Tick.lean: what a tick posts, each event under the condition of its rule, as Safety.lean says it. -/

namespace Sys2Proof.Machine

open Sys2Proof

/-- An event stands in the queue under its condition alone. -/
theorem eventIf_posted {p : Prop} {d : Bool} (h : d = true ↔ p) (c : Instr) : postedWhen p c (eventIf d c) := by
  unfold postedWhen eventIf
  rw [← h]; cases d <;> simp

/-- The transmitter is idle or has sent its record to the end (R193). -/
theorem txDone_iff (s : State) : txDone s = true ↔ s.lnk.tx = .idle ∨ ∃ f e, s.lnk.tx = .sending f e ∧ e ≤ 8 * s.now := by
  unfold txDone; cases s.lnk.tx <;> simp

/-- The arbiter finds a record when one waits at some source (R193, R195). -/
theorem chosenSource_iff (s : State) : (chosenSource s).isSome = true ↔ recordWaits s := by
  unfold chosenSource recordWaits
  by_cases h : s.lnk.reply.isSome
  · simp only [h, if_true, Option.isSome_some, true_iff]; left; intro hn; simp [hn] at h
  · have hn : s.lnk.reply = none := by simpa using h
    simp only [hn, Option.isSome_none, Bool.false_eq_true, if_false, ne_eq, not_true_eq_false, false_or]
    cases hk : selectedKind s.lnk.notices s.lnk.mask with
    | some k =>
      have := List.find?_some hk
      simp only [Option.isSome_some, true_iff]
      right; refine ⟨k, ?_⟩
      simp only [Bool.and_eq_true, maskEnables] at this
      refine ⟨fun hn => ?_, this.2⟩
      rw [hn] at this; simp at this
    | none =>
      simp only [selectedKind, List.find?_eq_none, Bool.and_eq_true, maskEnables, not_and] at hk
      have : ¬ ∃ k, ¬ noticeSlot s.lnk.notices k = none ∧ s.lnk.mask.getLsbD (noticePriority k - 1) = true := by
        rintro ⟨k, h1, h2⟩
        refine hk k (by cases k <;> decide) ?_ h2
        cases h : noticeSlot s.lnk.notices k <;> simp_all
      simp only [this, or_false]
      cases s.pnt.buffer <;> simp

/-- The eight gates, one by one. -/
theorem mem_gates {t : State} {g : Gate} : g ∈ t.gte.gates.toList ↔ ∃ n, t.gte.gates.get n = g := by
  constructor
  · intro h
    simp only [Eight.toList, List.mem_cons, List.not_mem_nil, or_false] at h
    rcases h with h | h | h | h | h | h | h | h
    exacts [⟨0, h.symm⟩, ⟨1, h.symm⟩, ⟨2, h.symm⟩, ⟨3, h.symm⟩, ⟨4, h.symm⟩, ⟨5, h.symm⟩, ⟨6, h.symm⟩, ⟨7, h.symm⟩]
  · rintro ⟨n, rfl⟩
    fin_cases n <;> simp [Eight.toList, Eight.get]

/-- The qualification of a gate expires 50 µs after its start (R169, R170). -/
theorem qualExpired_iff {now : Nat} {g : Gate} : qualExpired now g = true ↔ ∃ d, g.qual = some d ∧ d + 5000 ≤ now := by
  unfold qualExpired
  cases g.qual <;> simp [show qualTicks = 5000 from rfl]

/-- A record boundary is due as R193 says. -/
theorem boundaryDue_iff (t : State) : boundaryDue t = true ↔ atBoundary t := by
  have hlock : t.lnk.lock.isSome = true ↔ t.lnk.lock ≠ none := Option.isSome_iff_ne_none
  have hrset : rsetReplyTaken t = true ↔ t.lnk.rsetTaken = true ∧ t.lnk.reply = none := by simp [rsetReplyTaken]
  simp only [boundaryDue, atBoundary, Bool.and_eq_true, Bool.or_eq_true, Bool.not_eq_true', ← Bool.not_eq_true, hlock,
    hrset, txDone_iff, chosenSource_iff, txBusy, decide_eq_true_eq]
  cases t.lnk.tx <;> simp
  all_goals tauto

/-- The events that a tick posts are those due, in the order of log entry 2. -/
theorem dueEvents_rule (t : State) : dueEventsWait { t with pending := dueEvents t } := by
  refine ⟨_, _, _, _, _, _, _, _, dispatchDue t, freeVerify t.freeNext, rfl, ?_, ?_, ?_, ?_, ?_, ?_, ?_, ?_, ?_, ?_⟩
  · refine eventIf_posted ?_ _
    simp only [resetDue, rsetReplyTaken, rsetReplySent, Bool.and_eq_true, txDone_iff, Option.isNone_iff_eq_none, and_assoc]
  · refine eventIf_posted ?_ _
    unfold stallDue
    cases t.psc.stall <;> simp
  · refine eventIf_posted ?_ _
    unfold holdDue
    cases t.hold.since <;> simp [show holdTicks = 1000 from rfl]
  · refine eventIf_posted ?_ _
    unfold gapDue gapPassed
    cases h : t.prb.rx with
    | hunting => simp
    | inFrame b l g => cases g <;> simp [show probeGapTicks = 400 from rfl]
  · refine eventIf_posted ?_ _
    unfold waitingDue
    cases t.prb.waiting <;> simp
  · refine eventIf_posted ?_ _
    simp only [qualDue, List.any_eq_true, qualExpired_iff]
    constructor
    · rintro ⟨g, hg, d, h⟩
      obtain ⟨n, rfl⟩ := mem_gates.1 hg
      exact ⟨n, d, h⟩
    · rintro ⟨n, d, h⟩
      exact ⟨_, mem_gates.2 ⟨n, rfl⟩, d, h⟩
  · refine eventIf_posted ?_ _
    unfold programDue
    cases t.cal.programming <;> simp
  · exact eventIf_posted (boundaryDue_iff t) _
  · intro f rest h
    have h : t.lnk.requests = f :: rest := h
    unfold dispatchDue
    rw [h]
    refine eventIf_posted ?_ _
    simp
  · intro h
    have h : t.lnk.requests = [] := h
    unfold dispatchDue
    rw [h]

end Sys2Proof.Machine
end

