-- ==== Sys2Proof/Laws/Updates.lean ====
section
/-! SUPPORT. Laws/Updates.lean: the input filter, and what an accepted update or a change of settings hands on while no
pass runs and ENC does not leave HOMED. -/

namespace Sys2Proof.Machine

open Sys2Proof

/-- A line takes a level that differs from its accepted one when it was noted (R1). -/
theorem filterAccepted_eq (e : Enc) (l : Lines) : filterAccepted e l =
      { a := if e.noted.a = true then l.a else e.accepted.a
        b := if e.noted.b = true then l.b else e.accepted.b
        z := if e.noted.z = true then l.z else e.accepted.z } := by
  unfold filterAccepted filterLine
  congr 1 <;> (split <;> [simp_all; split <;> simp_all])

/-- A line is noted when it differs from its accepted level and was not noted before (R1). -/
theorem filterNoted_eq (e : Enc) (l : Lines) : filterNoted e l =
      { a := l.a != e.accepted.a && !e.noted.a
        b := l.b != e.accepted.b && !e.noted.b
        z := l.z != e.accepted.z && !e.noted.z } := by
  unfold filterNoted filterLine
  congr 1 <;> (split <;> [simp_all; split <;> simp_all])

/-- With no running lead ENC's position moves GTE alone (R5, R162, R163). -/
theorem handPosition_follows {s : State} (e : Enc) (hr : noRunningLead s) (hc : e.settings = s.enc.settings)
    (hb : ∀ w u, workpieceOk w → (bladePhaseAt w s.enc.settings.cpr u).blade < w.blades) :
    gatesFollow e s (handPosition (encU s.enc) (s.setEnc e)) := by
  by_cases hu : encU e = encU s.enc
  · have : handPosition (encU s.enc) (s.setEnc e) = s.setEnc e := by simp [handPosition, hu]
    rw [this]
    exact ⟨rfl, fun _ => rfl, fun w _ _ _ _ _ h => absurd hu h⟩
  · have hp : handPosition (encU s.enc) (s.setEnc e) =
        gatesPosition (changeDir (encU s.enc) (encU e)) (encU e) (s.setEnc e) := by
      unfold handPosition
      simp only [State.setEnc_enc, hu, if_false]
      unfold passPosition
      split
      · rfl
      · rename_i l h
        have : l.phase = .armed := hr l (by simpa using h)
        simp [leadRunning, this]
    rw [hp]
    refine ⟨?_, ?_, ?_⟩
    · obtain ⟨h, -⟩ := gatesPosition_shape (changeDir (encU s.enc) (encU e)) (encU e) (s.setEnc e)
      rw [h]; rfl
    · rintro (h | h)
      · unfold gatesPosition; simp only [State.setEnc_gte, h]; rfl
      · exact absurd h hu
    · intro w hm hw hk hg hn _
      have := gatesPosition_rule (dir := changeDir (encU s.enc) (encU e)) (u := encU e) (s := s.setEnc e) (w := w) hw
        (by rw [State.setEnc_enc, hc]; exact hb w _ hk) hm hg hn
      rw [State.setEnc_enc, hc] at this
      exact this

/-- What ENC hands on with no running lead, while it does not leave HOMED and raises nothing: its position to GTE, and a
crossing to WBK; an ARMED lead does not start at a reverse crossing (R13, R55, R65). -/
theorem handOn_stays {w : EncWork} {s : State} (hl : w.leftHomed = none) (hn : w.notices = []) (hr : noRunningLead s)
    (ha : s.psc.lead = none ∨ ∀ x, w.crossing = some x → x.dir = .reverse) :
    handOn w s =
      match w.crossing with
      | none => handPosition (encU s.enc) (s.setEnc w.enc)
      | some x => banksCrossing true x.state (handPosition (encU s.enc) (s.setEnc w.enc)) := by
  have he : leadEligible s.psc = true := by
    unfold leadEligible
    split
    · rfl
    · rename_i l h
      simp [hr l h]
  unfold handOn
  simp only [he, hl, hn, List.foldl_nil, handState]
  unfold handCrossing
  cases hc : w.crossing with
  | none => rfl
  | some x =>
    have hpsc : (banksCrossing true x.state (handPosition (encU s.enc) (s.setEnc w.enc))).psc = s.psc := by
      have h1 : (handPosition (encU s.enc) (s.setEnc w.enc)).psc = s.psc := by
        unfold handPosition passPosition
        dsimp only
        split
        · rfl
        · split
          · simp
          · rename_i l h
            have : l.phase = .armed := hr l (by simpa using h)
            simp [leadRunning, this]
      unfold banksCrossing
      split
      · simp [exchange, h1]
      · exact h1
    dsimp only
    unfold passCrossing
    rw [hpsc]
    rcases ha with h | h
    · rw [h]
    · split
      · rfl
      · rename_i l e
        simp [hr l e, h x hc]

/-- A change of settings in SAFE with no running lead, in which ENC does not leave HOMED, moves ENC alone (R14). -/
theorem renewSettings_idle {s : State} (h : s.gte.mode = .safe) (hl : noRunningLead s)
    (hn : s.enc.state = .homed → cprOrSenseChanges s.enc.settings s.cal.working.enc = false) :
    renewSettings s = s.setEnc (renewedEnc s.cal.working.enc s.enc) := by
  have : (decide (s.enc.state = .homed) && cprOrSenseChanges s.enc.settings s.cal.working.enc) = false := by
    by_cases hs : s.enc.state = .homed
    · simp [hn hs]
    · simp [hs]
  unfold renewSettings
  rw [this]
  exact handPosition_idle (s := s.setEnc (renewedEnc s.cal.working.enc s.enc)) h hl _

end Sys2Proof.Machine
end

