-- ==== Sys2Proof/Tests/Slice0.lean ====
section
/-! SUPPORT. Tests/Slice0.lean: tests of single commands, with results from the manual's worked cases and rules
(named in each comment), the smoke test of WellFormed, and for each obligation with hypotheses a witness that they
can be met together, clause by clause. -/

namespace Sys2Proof.Tests

open Sys2Proof Sys2Proof.Machine

-- Each test asks the kernel; one after another they need one thread, side by side one each.
set_option Elab.async false

/-! ### States and payloads -/

/-- The state after a command. -/
def after (c : Instr) (s : State) : State :=
  match exec c s with
  | .next t => t
  | .fault _ => s
  | .refused _ => s

/-- `s` with a request waiting in the request buffer and the reply slot empty. -/
def asking (k : Byte) (p : List Byte) (s : State) : State :=
  { s with lnk := { s.lnk with requests := [⟨k, p⟩], reply := none, rsetTaken := false } }

theorem asking_dispatches (k : Byte) (p : List Byte) (s : State) : CanDispatch k p (asking k p s) :=
  ⟨rfl, rfl, rfl⟩

/-- The state after a request has been dispatched. -/
def asked (k : Byte) (p : List Byte) (s : State) : State := after (requestOfFrame ⟨k, p⟩) (asking k p s)

/-- The reply payload to a request. -/
def answer (k : Byte) (p : List Byte) (s : State) : Option (List Byte) := (asked k p s).lnk.reply.map Frame.payload

/-- The workpiece of section 2.8. -/
def work : Workpiece where
  blades := 37
  datum := 1000000
  trims := List.replicate 9 0 ++ [-30000, 120000, -40000] ++ List.replicate 25 0

/-- The settings of section 2.8. -/
def settings : Settings where
  enc := { cpr := 360000, sense := .aLeads, tolerance := 4, filterPeriod := 2 }
  r0 := 30000000
  scale := 62000
  runout := List.replicate 87 0 ++ [1250, 1192] ++ List.replicate 167 0
  safe := Eight.all false

/-- The window of section 2.8.1. -/
def window : Window where
  start := 7900000
  stop := 8300000
  step := 21950
  exposure := 3
  floor := 100
  gate := none
  range := none

/-- A gate record in PHASE, ON in the phases of the window, in group 0. -/
def gateRecord : GateRecord := { on := 7900000, off := 8300000, extension := 0, group := some 0, range := none }

/-- A bank with the window, and gates 0 and 1 in one exclusion group. -/
def bank : Bank where
  windows := [window]
  gates := ((Eight.all none).set 0 (some gateRecord)).set 1 (some gateRecord)
  warnings := []

/-- The settings of a pass with ID 7 and the radius limits of section 2.8.1. -/
def passSettings : PassSettings where
  passId := 7
  height := 0
  overlap := 1000
  retryTurns := 1
  rounding := .chop
  dropout := .emit
  range := .keep
  rLo := 28000000
  rHi := 29500000
  stallMs := 100

/-- The context of a pass that has crossed two points: one held and on the stack, one in flight. -/
def ctx : PassCtx :=
  { freshCtx passSettings with
    highWater := 123456
    mainInFlight := 1
    counters := { Counters.zero with crossedMain := 2, held := 1, pushes := 1 } }

/-- The tag of section 2.8.1. -/
def tag : TagEntry where
  tag := 5#4
  passId := 7
  origin := .main
  overlap := false
  blade := 10
  window := 0
  j := 4
  phase := 7987821
  theta := 5753513
  rho := 1205
  exposure := 3
  floor := 100
  gateFault := false
  attempts := 0
  lastCause := none
  fireTime := 900000

/-- The held point of the pass. -/
def miss : MissEntry := { blade := 10, window := 0, j := 3, overlap := false, cause := .held, attempts := 1 }

/-- Encoder Interface at turn count `c` of revolution 0, HOMED, with A noted high, so that a sample with A high is a
forward count. -/
def encAt (c : Nat) : Enc :=
  { Enc.reset settings.enc 0 with primed := true, noted := ⟨true, false, false⟩, c := c, state := .homed }

/-- The sample that makes the forward count. -/
def forwardA : Lines := ⟨true, false, false⟩

/-- A part at 10 ms, LOCKED at 115,200 bit/s, with the workpiece, the bank and the settings above, ENC HOMED at turn
count 123,456, GTE in SAFE and the lead IDLE. -/
def idle : State :=
  { State.reset with
    now := 1000000
    enc := encAt 123456
    wbk := { Wbk.reset with workpiece := some work, activeState := .active, active := bank }
    cal := { Cal.reset with working := settings, origin := .edited }
    lnk := { Lnk.reset ⟨true, false, false⟩ with lock := some 6944 } }

/-- The same part with the pass SCANNING, GTE in RUN, one tag in flight and one miss on the stack. -/
def scanning : State :=
  { idle with
    psc := { lead := some { phase := .scanning, ctx := ctx }, drain := [], stall := some 2000000 }
    gte := { idle.gte with mode := .run }
    prb := { Prb.reset with queue := [tag], nextTag := 6#4, lastTrigger := some 900000 }
    stack := [miss] }

/-- The same part with the pass ARMED. -/
def armed : State :=
  { idle with psc := { lead := some { phase := .armed, ctx := freshCtx passSettings }, drain := [], stall := none } }

/-- The index mark within `d` counts of the expected place: a forward count to turn count `c` with Z high and the
index-armed flag set. -/
def atIndex (c : Nat) (s : State) : State :=
  { s with enc := { s.enc with c := c, indexArmed := true, accepted := ⟨false, false, true⟩ } }

/-- The sample that makes that forward count. -/
def forwardAZ : Lines := ⟨true, false, true⟩

/-- The reading frame of a tag, a distance and an intensity. -/
def readingFrame (b1 b2 b3 b4 b5 b6 : Byte) : List ProbeItem :=
  [0x7E#8, b1, b2, b3, b4, b5, b6, b1 + b2 + b3 + b4 + b5 + b6].map fun b => .char ⟨b, true⟩

/-- An STWN payload for the window of section 2.8.1. -/
def stwnPayload : List Byte := windowBytes window

/-- An STGT payload for gate 3. -/
def stgtPayload : List Byte := beNat 1 3 ++ gateRecordBytes (some gateRecord)

/-- An ARMP payload with a pass ID, an overlap and a stall time. -/
def armpPayload (id overlap stall : Nat) : List Byte :=
  beNat 2 id ++ beInt 4 (-5) ++ beNat 4 overlap ++ [1#8, 0#8, 0#8, 0#8] ++ beNat 4 28000000 ++ beNat 4 29500000 ++
    beNat 2 stall

/-! ### WellFormed -/

/-- A payload of 1,024 bytes is refused (R188). -/
theorem test_wellFormed_longPayload : WellFormed (.cwr (List.replicate 1024 0#8)) = false := by decide +kernel

/-- An UNKNOWN_REQUEST with the kind of IDNT is refused (R192). -/
theorem test_wellFormed_knownKind : WellFormed (.unknownRequest 0x01#8 []) = false := by decide

/-- A low period of no ticks is refused, alone or under a character (R187). -/
theorem test_wellFormed_noLow : WellFormed (.hostFrame [.low 0]) = false ∧
    WellFormed (.hostFrame [.badChar 0#8 0 0]) = false := by decide

/-- Section 6.3: a character that begins inside a READING, before another, is refused. -/
theorem test_wellFormed_startInside : WellFormed (.reading [.start, .char ⟨0x7E#8, true⟩]) = false ∧
    WellFormed (.reading [.char ⟨0x7E#8, true⟩, .start]) = true := by decide

/-- The command that a frame spells is well-formed. -/
theorem test_wellFormed_request : WellFormed (requestOfFrame ⟨0x19#8, [1#8]⟩) = true ∧
    WellFormed (requestOfFrame ⟨0x18#8, []⟩) = true := by decide

/-! ### Resets -/

/-- R196: the set becomes POWER_ON alone. -/
theorem test_powerOnReset_causes :
    (after .powerOnReset { idle with lnk := Lnk.reset ⟨false, true, true⟩ }).lnk.causes = ⟨true, false, false⟩ := by
  decide +kernel

/-- R196: PIN is added; R84: the lead is IDLE. -/
theorem test_pinReset_causes : (after .pinReset scanning).lnk.causes = ⟨true, true, false⟩ ∧
    (after .pinReset scanning).psc.lead = none := by decide +kernel

/-- R197: REQUEST is added once the RSET reply has been sent, and not before. -/
theorem test_requestReset_waits :
    (after .requestReset { idle with lnk := { idle.lnk with rsetTaken := true } }).lnk.causes = ⟨true, false, true⟩ ∧
    (after .requestReset { idle with
      lnk := { idle.lnk with rsetTaken := true, tx := .sending ⟨0x82#8, [0#8]⟩ 8000001 } }).lnk.lock = some 6944 := by
  decide +kernel

/-! ### Encoder and firing -/

/-- R1: the first sample sets the levels; R6: Z low sets the index-armed flag. -/
theorem test_filterSample_first : (after (.filterSample ⟨true, false, false⟩) State.reset).enc.accepted =
      ⟨true, false, false⟩ ∧
    (after (.filterSample ⟨true, false, false⟩) State.reset).enc.indexArmed = true := by decide +kernel

/-- R1: a single differing sample is discarded. -/
theorem test_filterSample_discards : (after (.filterSample ⟨false, false, false⟩) idle).enc.noted =
      ⟨false, false, false⟩ := by decide +kernel

/-- Section 2.8.1: the count to 123,457 crosses point 4 of the window on blade 10, whose tag stores θ, g′ and ρ. -/
theorem test_acceptedUpdate_fires :
    (after (.acceptedUpdate forwardA) scanning).prb.queue.tail.map
        (fun e => (e.tag, e.blade, e.j, e.theta, e.phase, e.rho)) =
      [(6#4, 10, 4, 5753513, 7987821, 1205)] := by decide +kernel

/-- R9: a crossing four counts early is snapped at tolerance 4 and U moves by −δ; R10: five counts early slips. -/
theorem test_acceptedUpdate_snaps :
    (after (.acceptedUpdate forwardAZ) (atIndex 359995 idle)).enc.rev = 1 ∧
    (after (.acceptedUpdate forwardAZ) (atIndex 359995 idle)).enc.lastDeviation = -4 ∧
    (after (.acceptedUpdate forwardAZ) (atIndex 359994 idle)).enc.state = .notHomed := by decide +kernel

/-- Section 2.8.2 and R25: ρ by both modes about the threshold 64,972. -/
theorem test_runout_threshold :
    runoutCorrection settings.runout .nearest 5766603 = 1193 ∧ runoutCorrection settings.runout .nearest 5766604 = 1192 ∧
    runoutCorrection settings.runout .chop 5767167 = 1193 ∧ runoutCorrection settings.runout .nearest 5753513 = 1204 := by
  decide +kernel

/-- Section 2.8.3: the carry into the tail and past it, and L(9). -/
theorem test_trimmed_tail : bladePhaseAt work 360000 118824 = ⟨9, 16926219⟩ ∧
    bladePhaseAt work 360000 118825 = ⟨10, 742⟩ ∧ pitchLength work 9 = 16927216 ∧
    trimmed work ⟨10, 16750000⟩ = ⟨11, 12784⟩ := by decide +kernel

/-! ### Time and pins -/

/-- R71, R73: the pass ends STALLED and, with a tag in flight, drains. -/
theorem test_stallExpiry_drains :
    (after .stallExpiry { scanning with now := 2000000 }).psc.drain.map PassCtx.endStatus = [some .stalled] ∧
    (after .stallExpiry { scanning with now := 1999999 }).psc.drain = [] := by decide +kernel

/-- R93: the pin starts its 10 µs. -/
theorem test_holdPinChange_starts : (after (.holdPinChange true) idle).hold.since = some 1000000 := by decide +kernel

/-- R93, R94: after 10 µs the level is qualified and, under ACTIVE_HIGH, the condition is true. -/
theorem test_holdQualified_sets :
    (after .holdQualified { idle with
      hold := { Hold.reset false with sense := .activeHigh, pin := true, since := some 999000 } }).hold.active = true ∧
    (after .holdQualified { idle with
      hold := { Hold.reset false with sense := .activeHigh, pin := true, since := some 999001 } }).hold.active = false := by
  decide +kernel

/-! ### Probe Port and Point Builder -/

/-- Section 2.8.1: D = 1,234,567 gives the radius 28,833,250 LU under CHOP. -/
theorem test_reading_radius :
    (after (.reading (readingFrame 0x50#8 0x12#8 0xD6#8 0x87#8 0x01#8 0x00#8)) scanning).pnt.buffer.map
      (fun r => match r with
        | .point p => (p.radius, p.intensity)
        | .summary _ => (0, 0)) = [(28833250, 256)] := by decide +kernel

/-- R112: a frame with a bad check character is counted. -/
theorem test_reading_checkFail :
    (after (.reading ([0x7E#8, 0x50#8, 0#8, 0#8, 0#8, 0#8, 0#8, 0x51#8].map fun b => .char ⟨b, true⟩)) scanning).prb.checkFails =
      1 := by decide +kernel

/-- R112: the next character begins 4 µs after the last one, still within the gap, and the five characters from it
on end 5 µs later: the frame goes on. -/
theorem test_reading_beginsWithinGap :
    let p := { Prb.reset with rx := .inFrame [0x50#8] 999600 false }
    (after (.reading (List.replicate 5 (.char ⟨0#8, true⟩)))
        { after (.reading [.start]) { idle with prb := p } with now := 1000500 }).prb =
      { p with rx := .inFrame [0x50#8, 0#8, 0#8, 0#8, 0#8, 0#8] 1000500 false } := by decide +kernel

/-- R112: a gap of more than 4 µs discards the frame, when no character has begun. -/
theorem test_readingGapTimeout_discards :
    (after .readingGapTimeout { idle with prb := { Prb.reset with rx := .inFrame [] 999599 false } }).prb.checkFails = 1 ∧
    (after .readingGapTimeout { idle with prb := { Prb.reset with rx := .inFrame [] 999600 false } }).prb.checkFails = 0 ∧
    (after .readingGapTimeout { idle with prb := { Prb.reset with rx := .inFrame [] 999599 true } }).prb.checkFails = 0 := by
  decide +kernel

/-- R117, R119: at Tr = 1,000 µs from the fire time the tag is a TIMEOUT miss, pushed on the stack. -/
theorem test_tagTimeout_pushes :
    (after .tagTimeout scanning).stack.map MissEntry.cause = [.timeout, .held] ∧
    (after .tagTimeout { scanning with now := 999999 }).prb.queue.length = 1 := by decide +kernel

/-- R108: the waiting frame begins at its start. -/
theorem test_triggerFrameStart_begins :
    (after .triggerFrameStart { idle with prb := { Prb.reset with waiting := some ⟨1#4, 0, 1000000⟩ } }).prb.out =
      some ⟨1#4, 0, 1000000⟩ := by decide +kernel

/-- R108: the trigger characters of tag 5 with exposure 3 are 0x7E, 0x53 and its complement. -/
theorem test_trigger_characters : triggerCharacters ⟨5#4, 3, 0⟩ = [0x7E#8, 0x53#8, 0xAC#8] := by decide

/-! ### Gates -/

/-- R169: a sense that differs from the driven level starts the qualification. -/
theorem test_loadSenseChange_starts : ((after (.loadSenseChange 2 true) idle).gte.gates.get 2).qual = some 1000000 := by
  decide +kernel

/-- R170: after 50 µs a gate driven OFF whose sense is ON latches SHORT, one driven ON latches OPEN. -/
theorem test_qualificationExpiry_latches :
    ((after .qualificationExpiry { idle with
      gte := { idle.gte with
        gates := (idle.gte.gates.set 2 { Gate.reset true with qual := some 995000 }).set 3
          { Gate.reset false with driven := true, qual := some 995000 } } }).gte.gates.toList.map Gate.status).take 4 =
      [.ok, .ok, .short, .openLoad] := by decide +kernel

/-! ### Calibration store -/

/-- R184: VERIFY_FAIL leaves EDITED for a STORED origin and UNLOCKED. -/
theorem test_programCompletion_fail :
    (after (.programCompletion .verifyFail) { idle with
      cal := { idle.cal with origin := .stored, programming := some ⟨.clck, 2000000⟩ } }).cal.origin = .edited ∧
    (after (.programCompletion .ok) { idle with
      cal := { idle.cal with programming := some ⟨.clck, 2000000⟩ } }).cal.locked = true := by decide +kernel

/-! ### Host link -/

/-- Section 11.7: the IDNT frame at 115,200 bit/s locks the rate (8 × 868 ticks) and enters the buffer. -/
theorem test_hostFrame_idnt :
    (after (.hostFrame [.low 17360, .char 0x55#8 6944, .char 0x01#8 0, .char 0#8 0, .char 0#8 0, .char 0x6B#8 0])
      State.reset).lnk.requests = [⟨0x01#8, []⟩] ∧
    (after (.hostFrame [.low 17360, .char 0x55#8 6944]) State.reset).lnk.lock = some 6944 := by decide +kernel

/-- R198 and R201: the span of the rate lock is absent while UNLOCKED, and a presence byte and 4 bytes once locked. -/
theorem test_stat_lockSpan :
    (statLnk State.reset).take 6 = [0#8, 0#8, 0#8, 0#8, 0#8, 0#8] ∧
    (statLnk idle).take 6 = [1#8, 1#8, 0#8, 0#8, 0x1B#8, 0x20#8] := by decide +kernel

/-- R187: at LOCKED, a low period of 11 bit times less one tick is no break. -/
theorem test_hostFrame_break :
    (after (.hostFrame [.low 9548]) idle).lnk.rx = .sync 9548 ∧ (after (.hostFrame [.low 9547]) idle).lnk.rx = .idle := by
  decide +kernel

/-- R193: the break of the reply begins before that of a notice, and the reply stays in its slot until its first
character, 14 bit times later. -/
theorem test_recordBoundary_reply :
    let s := after .recordBoundary { idle with
      lnk := { idle.lnk with
        reply := some ⟨0x81#8, [0#8]⟩
        notices := { Notices.none with holdChange := some ⟨1, .holdChange true⟩ } } }
    s.lnk.tx = .opening .reply 8097216 ∧ s.lnk.reply = some ⟨0x81#8, [0#8]⟩ := by decide +kernel

/-- R193, R194: a notice leaves its slot in the tick in which its first character begins, and not before. -/
theorem test_step_firstCharacter :
    (let held := fun first => step { idle with
      lnk := { idle.lnk with
        tx := .opening (.notice .holdChange) first
        notices := { Notices.none with holdChange := some ⟨1, .holdChange true⟩ } } };
    [8000008, 8000009].map fun first => (match held first with
      | .next t => (t.lnk.notices.holdChange.isSome, decide (t.lnk.tx = .opening (.notice .holdChange) first))
      | _ => (false, false))) = [(false, false), (true, true)] := by decide +kernel

/-- R192: the reply to a kind that is no request has kind 0x80 and carries the kind. -/
theorem test_unknownRequest_reply : (asked 0x19#8 [] idle).lnk.reply = some ⟨0x80#8, [7#8, 0x19#8, 0#8]⟩ := by
  decide +kernel

/-- Section 11.7: the IDNT reply after a power-on of a part whose image is stored. -/
theorem test_idnt_reply :
    answer 0x01#8 [] { idle with cal := { idle.cal with origin := .stored } } =
      some [0#8, 0x2C#8, 0x03#8, 0x01#8, 0#8, 0#8, 1#8] ∧
    (asked 0x01#8 [] idle).lnk.causes = ⟨false, false, false⟩ := by decide +kernel

/-- R197: after an RSET no further request is dispatched. -/
theorem test_rset_closes : (asked 0x02#8 [] idle).lnk.rsetTaken = true := by decide +kernel

/-- R198, R201: the STAT reply opens with OK, section 1 and its length: ENC has 39 bytes of items. -/
theorem test_stat_opens : (answer 0x03#8 [] idle).map (List.take 5) = some [0#8, 1#8, 0#8, 39#8, 1#8] := by
  decide +kernel

/-- R199: the counts as they stood, cleared. -/
theorem test_cclr_clears :
    answer 0x04#8 [] { idle with prb := { Prb.reset with orphans := 258 } } =
      some [0#8, 0#8, 0#8, 0#8, 0#8, 0#8, 0#8, 1#8, 2#8, 0#8, 0#8, 0#8, 0#8] ∧
    (asked 0x04#8 [] { idle with prb := { Prb.reset with orphans := 258 } }).prb.orphans = 0 := by decide +kernel

/-- R195: bit 0 is PROBE_FAULT, and bits 10 … 15 are disregarded. -/
theorem test_nmsk_mask : (asked 0x05#8 [0xFC#8, 0x01#8] idle).lnk.mask = 1#10 := by decide +kernel

/-- R14, R16: a new CPR clears c and unhomes; the tolerance is clamped to 255. -/
theorem test_encf_renews :
    (asked 0x06#8 (beNat 4 1024 ++ [0#8, 1#8, 0#8, 2#8]) idle).enc.state = .notHomed ∧
    (asked 0x06#8 (beNat 4 1024 ++ [0#8, 1#8, 0#8, 2#8]) idle).cal.working.enc.tolerance = 255 := by decide +kernel

/-- R178: an S below 32,768 is refused with BAD_ARG. -/
theorem test_mnts_range : answer 0x07#8 (beNat 4 0 ++ beNat 4 32767) idle = some [3#8, 0#8, 0#8] ∧
    (asked 0x07#8 (beNat 4 1 ++ beNat 4 32768) idle).cal.working.r0 = 1 := by decide +kernel

/-- R179: the entries are signed, and the last is the last two bytes. -/
theorem test_cwr_table :
    runoutEntry (asked 0x08#8 (List.replicate 511 0xFF#8 ++ [0x00#8]) idle).cal.working.runout 255 = -256 := by
  decide +kernel

/-- R181: CRD carries every setting at its width and the store's state. -/
theorem test_crd_length : (answer 0x09#8 [] idle).map List.length = some 541 := by decide +kernel

/-- R180, R162: in SAFE the new level is driven at once. -/
theorem test_gsaf_drives :
    ((asked 0x0A#8 [0#8, 0#8, 0#8, 1#8, 0#8, 0#8, 0#8, 0#8] idle).gte.gates.get 3).driven = true := by decide +kernel

/-- R182: an operation completes within 40 ms; LOCKED refuses it. -/
theorem test_ccmt_begins : (asked 0x0B#8 [] idle).cal.programming = some ⟨.ccmt, 5000000⟩ ∧
    answer 0x0B#8 [] { idle with cal := { idle.cal with locked := true } } = some [4#8, 0#8, 0#8] := by decide +kernel

/-- R182: CLCK begins likewise. -/
theorem test_clck_begins : (asked 0x0C#8 [] idle).cal.programming = some ⟨.clck, 5000000⟩ := by decide +kernel

/-- R183: CERS is not refused by the lock, which it clears, and restores the defaults. -/
theorem test_cers_restores :
    (asked 0x0D#8 [] { idle with cal := { idle.cal with locked := true } }).cal.locked = false ∧
    (asked 0x0D#8 [] { idle with cal := { idle.cal with locked := true } }).cal.working.scale = 65536 := by
  decide +kernel

/-- R41: with trims 0, −5 and 5 the pitches are 2^24 − 5, 2^24 + 10 and 2^24 − 5: the shortest is blade 0's. -/
theorem test_wkld_lengths :
    answer 0x0E#8 ([3#8, 0#8, 0#8, 7#8] ++ [0, -5, 5].flatMap (beInt 3)) idle =
      some ([0#8, 3#8, 0#8, 0#8, 7#8] ++ beNat 4 16777211 ++ [0#8] ++ beNat 4 16777226 ++ [1#8]) := by decide +kernel

/-- R39: the blade whose trim is out of range is named. -/
theorem test_wkld_trim :
    answer 0x0E#8 ([2#8, 0#8, 0#8, 0#8] ++ [0, 1048577].flatMap (beInt 3)) idle = some [3#8, 1#8, 0#8] := by decide +kernel

/-- R49: STCL empties the staged bank. -/
theorem test_stcl_empties :
    (asked 0x0F#8 [] { idle with wbk := { idle.wbk with staged := bank } }).wbk.staged = Bank.empty := by decide +kernel

/-- R45: a window goes after those whose start is at or below its own; the reply gives its position. -/
theorem test_stwn_position :
    answer 0x10#8 stwnPayload { idle with wbk := { idle.wbk with staged := bank } } =
      some (0#8 :: (stwnPayload ++ [1#8, 0#8, 0#8, 0#8, 2#8])) := by decide +kernel

/-- R47: an off phase that is not above the on phase is refused; R48: UNUSED disregards it. -/
theorem test_stgt_fields :
    answer 0x11#8 ([3#8, 1#8] ++ beNat 4 5 ++ beNat 4 5 ++ beNat 4 0 ++ [0xFF#8, 0xFF#8, 0#8]) idle =
      some [3#8, 0#8, 0#8] ∧
    (asked 0x11#8 ([3#8, 0#8] ++ beNat 4 5 ++ beNat 4 5 ++ beNat 4 0 ++ [0xFF#8, 0xFF#8, 0#8]) idle).wbk.staged.gates.g3 =
      none := by decide +kernel

/-- R50, R52: the window of section 2.8.1 draws no warning; the two gate records turn ON together. -/
theorem test_swap_warnings :
    answer 0x12#8 [] { idle with wbk := { idle.wbk with staged := bank } } =
      some [0#8, 1#8, 1#8, 0#8, 0#8, 0#8, 2#8, 1#8, 2#8, 0#8, 1#8] := by decide +kernel

/-- R51: a bank with no windows is INVALID. -/
theorem test_swap_empty : answer 0x12#8 [] idle = some [6#8, 1#8, 0#8] := by decide +kernel

/-- R54: the pending bank returns to EDITING. -/
theorem test_swcn_cancels :
    (asked 0x13#8 [] { idle with wbk := { idle.wbk with stagedState := .pending } }).wbk.stagedState = .editing := by
  decide +kernel

/-- R95: ACTIVE_LOW with the qualified level low makes the condition true at once. -/
theorem test_hold_request : answer 0x14#8 [1#8] idle = some [0#8, 1#8, 0#8, 1#8] := by decide +kernel

/-- R171: the mask names gate 2. -/
theorem test_gclr_clears :
    answer 0x15#8 [0x04#8] { idle with
      gte := { idle.gte with
        gates := (idle.gte.gates.set 2 { Gate.reset true with status := .short }).set 3
          { Gate.reset true with status := .short } } } =
      some [0#8, 0#8, 0#8, 0#8, 2#8, 0#8, 0#8, 0#8, 0#8] := by decide +kernel

/-- R124: Tmin and Tr are clamped to 2 … 1,000 and 10 … 10,000 µs. -/
theorem test_prbf_clamps : answer 0x16#8 [0#8, 1#8, 0xFF#8, 0xFF#8] idle = some [0#8, 0#8, 2#8, 0x27#8, 0x10#8, 0#8] := by
  decide +kernel

/-- R63: the overlap is clamped to CPR / 4 and the stall time to 10 ms. -/
theorem test_armp_clamps :
    answer 0x17#8 (armpPayload 7 100000 5) idle = some ([0#8, 0#8, 7#8] ++ beNat 4 90000 ++ [1#8, 0#8, 10#8]) ∧
    answer 0x17#8 (armpPayload 0 0 5) idle = some [3#8, 0#8, 0#8] := by decide +kernel

/-- R74: the pass ends ABORTED, its tag is abandoned and its summary appended. -/
theorem test_abrt_summary :
    (asked 0x18#8 [] scanning).pnt.buffer.map (fun r => match r with
      | .point _ => 0
      | .summary m => m.counters.abandoned) = [1] ∧
    (asked 0x18#8 [] scanning).prb.queue = [] := by decide +kernel

/-! ### The queue -/

/-- A step takes the first command; with none, the time base advances (log entry 1). -/
theorem test_step_queue :
    (match step { idle with pending := [.holdPinChange true, .recordBoundary] } with
      | .next t => (t.hold.pin, t.pending)
      | _ => (false, [])) = (true, [.recordBoundary]) ∧
    (match step idle with
      | .next t => t.now
      | _ => 0) = 1000001 := by decide +kernel

/-! ### Witnesses: the hypotheses of each obligation are met together -/

/-- Hypotheses of StepTakesFrontCommand, with the kinds beside the request kinds, and a tick that finds a request, an
expired tag and a stall time due. -/
theorem witness_StepTakesFrontCommand :
    ({ idle with pending := [.recordBoundary] }.pending = .recordBoundary :: [] ∧ idle.pending = []) ∧
    (isRequestKind 0x00#8 = false ∧ isRequestKind 0x19#8 = false) ∧
    (let s := asking 0x18#8 [] { scanning with psc := { scanning.psc with stall := some 1000001 } };
      s.pending = [] ∧ dueEvents { s with now := s.now + 1 } = [.stallExpiry, .tagTimeout, .abrt []]) := by
  refine ⟨⟨rfl, rfl⟩, by decide, rfl, by decide +kernel⟩

/-- Hypotheses of EachRequestGetsOneReply: a request that may be dispatched, of either sort of kind, and one that
may not. -/
theorem witness_EachRequestGetsOneReply :
    CanDispatch 0x01#8 [] (asking 0x01#8 [] idle) ∧ CanDispatch 0x19#8 [] (asking 0x19#8 [] idle) ∧
      ¬ CanDispatch 0x01#8 [] idle :=
  ⟨asking_dispatches _ _ _, asking_dispatches _ _ _, by unfold CanDispatch; decide⟩

/-- Hypotheses of DispatchJudgesKindAndLength, clause by clause, at the kinds beside the request kinds. -/
theorem witness_DispatchJudgesKindAndLength :
    (CanDispatch 0x00#8 [] (asking 0x00#8 [] idle) ∧ isRequestKind 0x00#8 = false ∧ isRequestKind 0x19#8 = false) ∧
    (CanDispatch 0x18#8 [0#8] (asking 0x18#8 [0#8] idle) ∧ fixedLength (0x18#8).toNat = some 0 ∧ [0#8].length ≠ 0) ∧
    (CanDispatch 0x0E#8 [0#8, 0#8, 0#8] (asking 0x0E#8 [0#8, 0#8, 0#8] idle) ∧ [0#8, 0#8, 0#8].length < 4) :=
  ⟨⟨asking_dispatches _ _ _, by decide, by decide⟩, ⟨asking_dispatches _ _ _, by decide, by decide⟩,
    asking_dispatches _ _ _, by decide⟩

/-- Hypotheses of IdntRsetNmskCclrAnswer, StclEmptiesAndSwcnReturnsToEditing and the like: any request stands
dispatchable in `asking`. -/
theorem witness_IdntRsetNmskCclrAnswer :
    CanDispatch 0x01#8 [] (asking 0x01#8 [] idle) ∧ CanDispatch 0x02#8 [] (asking 0x02#8 [] idle) ∧
      CanDispatch 0x05#8 [0xFF#8, 0xFF#8] (asking 0x05#8 [0xFF#8, 0xFF#8] idle) ∧
      CanDispatch 0x04#8 [] (asking 0x04#8 [] scanning) :=
  ⟨asking_dispatches _ _ _, asking_dispatches _ _ _, asking_dispatches _ _ _, asking_dispatches _ _ _⟩

/-- Hypotheses of StatAndCrdOnlyReply, with every list at its bound. -/
theorem witness_StatAndCrdOnlyReply :
    (CanDispatch 0x03#8 [] (asking 0x03#8 [] scanning) ∧ CanDispatch 0x09#8 [] (asking 0x09#8 [] scanning)) ∧
    let s := { scanning with
      prb := { scanning.prb with queue := List.replicate 4 tag }
      psc := { scanning.psc with drain := List.replicate 3 ctx }
      stack := List.replicate 16 miss
      wbk := { scanning.wbk with
        active := { bank with warnings := List.replicate 52 (.edgeClose 0 1) }
        staged := { bank with warnings := List.replicate 52 (.edgeClose 0 1) } } }
    queueBounded s ∧ drainBounded s ∧ s.stack.length ≤ stackSize ∧ s.wbk.active.warnings.length ≤ 52 ∧
      s.wbk.staged.warnings.length ≤ 52 :=
  ⟨⟨asking_dispatches _ _ _, asking_dispatches _ _ _⟩, by unfold queueBounded drainBounded; decide +kernel⟩

/-- Hypotheses of HostFrameReceivesFrames: the longest and the shortest sync that lock an UNLOCKED part and those a
tick beyond; at LOCKED the shortest break and one a tick shorter, a sync at the bound and one past it; a good CRC with
room and without, and another CRC byte; an error counter below 15 and at 15; and a length of 1,024. -/
theorem witness_HostFrameReceivesFrames :
    ((State.reset.lnk.lock = none ∧ State.reset.lnk.rx = .idle) ∧
      (57600 * 13888 ≤ 800000000 ∧ 800000000 ≤ 4000000 * 13888 ∧ 11 * 13888 ≤ 8 * 19096) ∧
      (57600 * 200 ≤ 800000000 ∧ 800000000 ≤ 4000000 * 200) ∧ 800000000 < 57600 * 13889 ∧
      4000000 * 199 < 800000000 ∧ 8 * 19095 < 11 * 13888) ∧
    (idle.lnk.lock = some 6944 ∧ idle.lnk.rx = .idle ∧ 11 * 6944 ≤ 8 * 9548 ∧ 8 * 9547 < 11 * 6944 ∧
      16 * ((7378 : Int) - (6944 : Nat)).natAbs ≤ 6944 ∧ 6944 < 16 * ((7379 : Int) - (6944 : Nat)).natAbs ∧
      ([] : List Byte).length ≤ 1023 ∧ [0, 0, 0].length = ([] : List Byte).length + 3) ∧
    ((0x6B#8 = frameCrc ⟨0x01#8, []⟩ ∧ idle.lnk.requests.length < 2) ∧
      2 ≤ ({ idle with lnk := { idle.lnk with requests := [⟨1#8, []⟩, ⟨1#8, []⟩] } } : State).lnk.requests.length ∧
      0x6A#8 ≠ frameCrc ⟨0x01#8, []⟩) ∧
    (∀ c, linkErrorCount idle.lnk.errors c < 15) ∧ (∀ c, 15 ≤ linkErrorCount ⟨15, 15, 15, 15⟩ c) ∧
    (let s := { idle with lnk := { idle.lnk with rx := .body [0x03#8, 0x04#8] } };
      s.lnk.rx = .body [0x03#8, 0x04#8] ∧ s.lnk.lock = some 6944 ∧
        1023 < (0x04#8).toNat * 256 + (0x00#8).toNat) :=
  ⟨by decide +kernel, by decide +kernel, by decide +kernel, fun c => by cases c <;> decide,
    fun c => by cases c <;> decide, by decide +kernel⟩

/-- Hypotheses of RecordBoundaryTakesByPriority for a reply, for a masked and an unmasked notice, for a point
record, for nothing to send, while a record opens or goes out, and for an opening record whose first character begins
in this very tick and one whose first character does not. -/
theorem witness_RecordBoundaryTakesByPriority :
    (idle.lnk.lock = some 6944 ∧ idle.lnk.tx = .idle ∧ ¬ (idle.lnk.rsetTaken = true ∧ idle.lnk.reply = none)) ∧
    ({ idle with lnk := { idle.lnk with reply := some ⟨0x81#8, [0#8]⟩ } } : State).lnk.reply = some ⟨0x81#8, [0#8]⟩ ∧
    (let s := { idle with
      lnk := { idle.lnk with
        mask := 0x200#10
        notices := { Notices.none with
          holdChange := some ⟨1, .holdChange true⟩, linkError := some ⟨1, .linkError .crc 1⟩ } } };
      s.lnk.reply = none ∧ noticeSlot s.lnk.notices .linkError = some ⟨1, .linkError .crc 1⟩ ∧
        s.lnk.mask.getLsbD (noticePriority .linkError - 1) = true ∧
        ∀ j, noticePriority j < noticePriority .linkError →
          noticeSlot s.lnk.notices j = none ∨ s.lnk.mask.getLsbD (noticePriority j - 1) = false) ∧
    ((∀ k, noticeSlot idle.lnk.notices k = none ∨ idle.lnk.mask.getLsbD (noticePriority k - 1) = false) ∧
      idle.pnt.buffer = [] ∧
      ({ idle with pnt := ⟨[.summary (summaryOf ctx)], 1⟩ } : State).pnt.buffer = .summary (summaryOf ctx) :: []) ∧
    ((∃ src first, ({ idle.lnk with tx := .opening .reply 8000008 } : Lnk).tx = .opening src first) ∧
      ∃ f e, ({ idle.lnk with tx := .sending ⟨0x81#8, [0#8]⟩ 8000001 } : Lnk).tx = .sending f e ∧ 8 * idle.now < e) ∧
    (idle.pending = [] ∧ 8 * (idle.now + 1) < 8000009 ∧ 8000008 ≤ 8 * (idle.now + 1)) :=
  ⟨by decide +kernel, rfl,
    ⟨rfl, rfl, by decide +kernel, fun j h => by cases j <;> first | exact .inl rfl | exact .inr rfl | exact absurd h (by decide)⟩,
    ⟨fun k => by cases k <;> exact .inl rfl, rfl, rfl⟩, ⟨⟨_, _, rfl⟩, _, _, rfl, by decide⟩, by decide⟩

/-- Hypotheses of EchoedRecordsReadBack, at the bounds of the records. -/
theorem witness_EchoedRecordsReadBack :
    (65535 < 256 ^ 2 ∧ -(256 ^ 2 : Int) ≤ 2 * -32768 ∧ 2 * (32767 : Int) < (256 ^ 2 : Int)) ∧
    windowOk { window with start := 18874367, stop := 18874368, step := 16777216, exposure := 15, floor := 4095,
                           range := some ⟨127, 128⟩ } ∧
    (∀ g, some { gateRecord with off := 18874368, extension := 1048576 } = some g → gateRecordOk g) ∧
    encSettingsOk ⟨16777216, .bLeads, 255, 128⟩ ∧ 100000000 ≤ 100000000 ∧ 65536 ≤ 65536 ∧
    pointOk { buildPoint tag ctx idle.cal ⟨5#4, true, 1234567, 4095⟩ with
      passId := 65535, sequence := 4294967295, j := 4294967295, radius := -2147483648, theta := 16777215 } ∧
    summaryOk { summaryOf ctx with passId := 65535, height := -2147483648, largestSnap := 255 } ∧ 255 ≤ 255 := by
  refine ⟨by decide, ?_, ?_, ?_, by decide, by decide, ?_, ?_, by decide⟩
  · refine ⟨by decide, by decide, by decide, by decide, by decide, by decide, ?_⟩
    rintro x ⟨⟩; decide
  · rintro g ⟨⟩; exact ⟨by decide, by decide, by decide, by rintro x ⟨⟩⟩
  · unfold encSettingsOk; decide
  · unfold pointOk; decide +kernel
  · unfold summaryOk; decide +kernel

/-- Hypotheses of ResetClearsWorkingBlocks and ResetChecksImageAndDrivesSafe: each reset takes place. -/
theorem witness_ResetClearsWorkingBlocks :
    isReset .powerOnReset scanning ⟨true, false, false⟩ ∧ isReset .pinReset scanning ⟨true, true, false⟩ ∧
      isReset .requestReset { scanning with lnk := { scanning.lnk with rsetTaken := true } } ⟨true, false, true⟩ :=
  ⟨.inl ⟨rfl, rfl⟩, .inr (.inl ⟨rfl, rfl⟩), .inr (.inr ⟨rfl, rfl, rfl, rfl, .inl rfl⟩)⟩

/-- Hypotheses of ResetChecksImageAndDrivesSafe: an image that passes its check, one that fails it, and an operation
in progress. -/
theorem witness_ResetChecksImageAndDrivesSafe :
    (isReset .pinReset idle ⟨true, true, false⟩ ∧ idle.cal.programming = none) ∧
      imageOk (wholeImage settings true) = true ∧ imageOk (spoiltImage 0) = false ∧
      ({ idle.cal with programming := some ⟨.ccmt, 2000000⟩ } : Cal).programming ≠ none :=
  ⟨⟨.inr (.inl ⟨rfl, rfl⟩), rfl⟩, by simp [imageOk, wholeImage],
    by simp only [imageOk, spoiltImage, beq_eq_false_iff_ne]; intro h; have := congrArg (fun x => x.getLsbD 0) h; simp at this,
    by simp⟩

/-- Hypotheses of FilterSampleNotesLines: the first sample, a later one that notes a line, and an update in which Z alone
falls, and rises while A is noted. -/
theorem witness_FilterSampleNotesLines :
    (State.reset.enc.nextSample ≤ State.reset.now ∧ State.reset.enc.primed = false) ∧
    (idle.enc.nextSample ≤ idle.now ∧ idle.enc.primed = true ∧
      ((false : Bool) ≠ idle.enc.accepted.a → idle.enc.noted.a = false) ∧
      ((true : Bool) ≠ idle.enc.accepted.b → idle.enc.noted.b = false) ∧
      ((false : Bool) ≠ idle.enc.accepted.z → idle.enc.noted.z = false)) ∧
    ∀ z : Bool, let e := { idle.enc with accepted := ⟨false, false, !z⟩, noted := ⟨false, false, true⟩ }
      e.primed = true ∧ e.nextSample ≤ idle.now ∧ ((true : Bool) ≠ e.accepted.a → e.noted.a = false) ∧
      ((false : Bool) ≠ e.accepted.b → e.noted.b = false) ∧ z ≠ e.accepted.z ∧ e.noted.z = true := by decide +kernel

theorem work_ok : workpieceOk work := by unfold workpieceOk; decide +kernel

/-- Hypotheses of CountMovesPosition: a count in HOMED at the bound |U − U_last_index| = CPR + tolerance with the lead
IDLE, one with GTE in RUN, and one past each bound of the revolution number. -/
theorem witness_CountMovesPosition :
    (let s := { idle with enc := { encAt 4 with uLastIndex := -359999 } };
      countsOnce s forwardA .forward ∧ ¬ crossesIndex s forwardA ∧ ¬ overrunsBound s .forward ∧
        (s.enc.state = .homed →
          (countedU s .forward - s.enc.uLastIndex).natAbs ≤ s.enc.settings.cpr + s.enc.settings.tolerance) ∧
        s.psc.lead = none ∧ s.gte.mode = .safe) ∧
    (let s := { idle with gte := { idle.gte with mode := .run } };
      countsOnce s forwardA .forward ∧ s.psc.lead = none ∧ s.gte.mode = .run ∧ s.wbk.workpiece = some work ∧
        workpieceOk work ∧ groupsExclusive s ∧ noticesOk s) ∧
    (let s := { idle with enc := { encAt 359999 with rev := 2147483647 } };
      countsOnce s forwardA .forward ∧ ¬ crossesIndex s forwardA ∧ overrunsBound s .forward) ∧
    (let s := { idle with enc := { encAt 0 with rev := -2147483648, accepted := ⟨true, false, false⟩ } };
      countsOnce s ⟨false, false, false⟩ .reverse ∧ ¬ crossesIndex s ⟨false, false, false⟩ ∧
        overrunsBound s .reverse) := by
  refine ⟨?_, ⟨?_, rfl, rfl, rfl, work_ok, ?_, fun k p h => by cases k <;> cases h⟩, ?_, ?_⟩
  · unfold countsOnce acceptsUpdate crossesIndex positionOk overrunsBound; decide +kernel
  · unfold countsOnce acceptsUpdate positionOk; decide +kernel
  · unfold groupsExclusive; decide +kernel
  · unfold countsOnce acceptsUpdate crossesIndex positionOk overrunsBound; decide +kernel
  · unfold countsOnce acceptsUpdate crossesIndex positionOk overrunsBound; decide +kernel

/-- `s` with the lead, the drain list and the stall timer of `t`. -/
def carrying (t s : State) : State := { s with psc := t.psc }

theorem scanning_runs (s : State) : leadCountersOk (carrying scanning s) ∧
    ∃ l, (carrying scanning s).psc.lead = some l ∧ l.phase ≠ .armed :=
  ⟨by rintro l ⟨⟩; decide, _, rfl, by decide⟩

theorem armed_waits (s : State) : noRunningLead (carrying armed s) := by rintro l ⟨⟩; rfl

theorem idle_waits (s : State) : noRunningLead (carrying idle s) := by rintro l ⟨⟩

/-- Hypotheses of CountMovesPosition on a lead: a count with an ARMED lead in SAFE and in RUN, and an overrun in HOMED
with a running and with an ARMED lead. -/
theorem witness_CountMovesPosition_lead :
    (let s := carrying armed idle;
      countsOnce s forwardA .forward ∧ ¬ crossesIndex s forwardA ∧ ¬ overrunsBound s .forward ∧
        (s.enc.state = .homed →
          (countedU s .forward - s.enc.uLastIndex).natAbs ≤ s.enc.settings.cpr + s.enc.settings.tolerance) ∧
        s.gte.mode = .safe ∧ { s.gte with mode := .run }.mode = .run) ∧
    noRunningLead (carrying armed idle) ∧
    (let s := { idle with enc := { encAt 359999 with rev := 2147483647 } };
      countsOnce s forwardA .forward ∧ ¬ crossesIndex s forwardA ∧ overrunsBound s .forward ∧ s.enc.state = .homed ∧
        countsOnce (carrying scanning s) forwardA .forward ∧ overrunsBound (carrying scanning s) .forward ∧
        countsOnce (carrying armed s) forwardA .forward ∧ overrunsBound (carrying armed s) .forward) ∧
    (let s := { idle with enc := { encAt 359999 with rev := 2147483647 } };
      leadCountersOk (carrying scanning s) ∧ (∃ l, (carrying scanning s).psc.lead = some l ∧ l.phase ≠ .armed) ∧
        noRunningLead (carrying armed s)) := by
  refine ⟨?_, armed_waits _, ?_, (scanning_runs _).1, (scanning_runs _).2, armed_waits _⟩ <;>
    unfold countsOnce acceptsUpdate crossesIndex positionOk overrunsBound <;> decide +kernel

/-- Hypotheses of QuadratureTable: both lines changed, neither, and one. -/
theorem witness_QuadratureTable :
    (false ≠ forwardA.a ∧ false ≠ (⟨true, true, false⟩ : Lines).b) ∧ (forwardA.a = forwardAZ.a ∧ forwardA.b = forwardAZ.b) ∧
      (false = forwardA.a ↔ false ≠ forwardA.b) := by decide

/-- Hypotheses of QuadratureErrorFaults: in HOMED with a running, an ARMED and no lead, and out of HOMED. -/
theorem witness_QuadratureErrorFaults :
    (let s := { idle with enc := { idle.enc with noted := ⟨true, true, false⟩ } }
     (∀ t ∈ [scanning, armed, idle], acceptsUpdate (carrying t s) ⟨true, true, false⟩) ∧
      (filterAccepted s.enc ⟨true, true, false⟩).a ≠ s.enc.accepted.a ∧
      (filterAccepted s.enc ⟨true, true, false⟩).b ≠ s.enc.accepted.b ∧ s.enc.state = .homed) ∧
    (let s := { idle with enc := { idle.enc with noted := ⟨true, true, false⟩, state := .fault } }
     acceptsUpdate s ⟨true, true, false⟩ ∧ s.enc.state ≠ .homed) := by
  unfold acceptsUpdate; decide +kernel

/-- Hypotheses of IndexCrossingOutcomes: a homing crossing, a reverse crossing out of HOMED, a snap at the
tolerance, a slip one count past it, a snap that leaves the revolution bound, a crossing whose count overruns it in
either direction, and a count that finds the index missing. -/
theorem witness_IndexCrossingOutcomes :
    (let s := atIndex 5 { idle with enc := { idle.enc with state := .notHomed } };
      countsOnce s forwardAZ .forward ∧ crossesIndex s forwardAZ ∧ ¬ overrunsBound s .forward ∧
        s.enc.state ≠ .homed) ∧
    (let s := { idle with enc := { encAt 5 with
        indexArmed := true, accepted := ⟨true, false, true⟩, state := .fault } };
      countsOnce s ⟨false, false, true⟩ .reverse ∧ crossesIndex s ⟨false, false, true⟩ ∧ s.enc.state ≠ .homed) ∧
    (countsOnce (atIndex 3 idle) forwardAZ .forward ∧ crossesIndex (atIndex 3 idle) forwardAZ ∧
      (atIndex 3 idle).enc.state = .homed ∧ ((countedU (atIndex 3 idle) .forward).natAbs = 4)) ∧
    (countsOnce (atIndex 4 idle) forwardAZ .forward ∧ crossesIndex (atIndex 4 idle) forwardAZ ∧
      (countedU (atIndex 4 idle) .forward).natAbs = 5) ∧
    (let s := atIndex 359997 { idle with enc := { idle.enc with rev := 2147483647 } };
      countsOnce s forwardAZ .forward ∧ crossesIndex s forwardAZ ∧ ¬ overrunsBound s .forward ∧
        s.enc.state = .homed ∧ countedU s .forward / 360000 = 2147483647 ∧ countedU s .forward % 360000 = 359998) ∧
    (let s := atIndex 359999 { idle with enc := { idle.enc with rev := 2147483647 } };
      countsOnce s forwardAZ .forward ∧ crossesIndex s forwardAZ ∧ overrunsBound s .forward) ∧
    (let s := { idle with enc := { encAt 0 with
        indexArmed := true, accepted := ⟨true, false, true⟩, rev := -2147483648 } };
      countsOnce s ⟨false, false, true⟩ .reverse ∧ crossesIndex s ⟨false, false, true⟩ ∧ overrunsBound s .reverse) ∧
    (let s := { idle with enc := { encAt 4 with uLastIndex := -360000 } };
      countsOnce s forwardA .forward ∧ ¬ crossesIndex s forwardA ∧ ¬ overrunsBound s .forward ∧
        s.enc.state = .homed ∧
        s.enc.settings.cpr + s.enc.settings.tolerance < (countedU s .forward - s.enc.uLastIndex).natAbs) := by
  refine ⟨?_, ?_, ?_, ?_, ?_, ?_, ?_, ?_⟩ <;>
    (unfold countsOnce acceptsUpdate crossesIndex positionOk; try unfold overrunsBound) <;> decide +kernel

/-- Hypotheses of IndexCrossingOutcomes on a lead: a slip, a snap that leaves the revolution bound, an overrun on a
crossing in either direction and a missing index, each with a running and with an ARMED lead. -/
theorem witness_IndexCrossingOutcomes_lead :
    ∀ t, t = scanning ∨ t = armed →
    (let s := carrying t (atIndex 4 idle);
      countsOnce s forwardAZ .forward ∧ crossesIndex s forwardAZ ∧ s.enc.state = .homed ∧
        ((countedU s .forward).natAbs = 5)) ∧
    (let s := carrying t (atIndex 359997 { idle with enc := { idle.enc with rev := 2147483647 } });
      countsOnce s forwardAZ .forward ∧ crossesIndex s forwardAZ ∧ s.enc.state = .homed ∧
        countedU s .forward / 360000 = 2147483647 ∧ countedU s .forward % 360000 = 359998) ∧
    (let s := carrying t (atIndex 359999 { idle with enc := { idle.enc with rev := 2147483647 } });
      countsOnce s forwardAZ .forward ∧ crossesIndex s forwardAZ ∧ overrunsBound s .forward ∧ s.enc.state = .homed) ∧
    (let s := carrying t { idle with enc := { encAt 0 with
        indexArmed := true, accepted := ⟨true, false, true⟩, rev := -2147483648 } };
      countsOnce s ⟨false, false, true⟩ .reverse ∧ crossesIndex s ⟨false, false, true⟩ ∧ overrunsBound s .reverse ∧
        s.enc.state = .homed) ∧
    (let s := carrying t { idle with enc := { encAt 4 with uLastIndex := -360000 } };
      countsOnce s forwardA .forward ∧ ¬ crossesIndex s forwardA ∧ ¬ overrunsBound s .forward ∧ s.enc.state = .homed ∧
        s.enc.settings.cpr + s.enc.settings.tolerance < (countedU s .forward - s.enc.uLastIndex).natAbs) ∧
    ∀ s, (t = scanning → leadCountersOk (carrying t s) ∧ ∃ l, (carrying t s).psc.lead = some l ∧ l.phase ≠ .armed) ∧
      (t = armed → noRunningLead (carrying t s)) := by
  rintro t ht
  refine ⟨?_, ?_, ?_, ?_, ?_, fun s => ⟨?_, ?_⟩⟩
  on_goal 6 => rintro rfl; exact scanning_runs s
  on_goal 6 => rintro rfl; exact armed_waits s
  all_goals
    rcases ht with rfl | rfl <;> unfold countsOnce acceptsUpdate crossesIndex positionOk <;>
      (try unfold overrunsBound) <;> decide +kernel

/-- Hypotheses of IndexCrossingOutcomes on a crossing that moves GTE alone: in RUN a snap that changes U and one that does
not, and a reverse crossing out of HOMED with an ARMED lead. -/
theorem witness_IndexCrossingOutcomes_gates :
    (∀ c ∈ [3, 0], let s := atIndex c { idle with gte := { idle.gte with mode := .run } }
      countsOnce s forwardAZ .forward ∧ crossesIndex s forwardAZ ∧ ¬ overrunsBound s .forward ∧
        (after (.acceptedUpdate forwardAZ) s).enc.state = .homed ∧ s.psc.lead = none ∧ s.wbk.stagedState ≠ .pending ∧
        s.gte.mode = .run ∧ s.wbk.workpiece = some work ∧
        (encU (after (.acceptedUpdate forwardAZ) s).enc = encU s.enc ↔ c = 0)) ∧
    (workpieceOk work ∧ groupsExclusive (atIndex 3 { idle with gte := { idle.gte with mode := .run } }) ∧
      noticesOk idle) ∧
    (let s := { armed with enc := { encAt 5 with
        indexArmed := true, accepted := ⟨true, false, true⟩, state := .notHomed } };
      countsOnce s ⟨false, false, true⟩ .reverse ∧ crossesIndex s ⟨false, false, true⟩ ∧ ¬ overrunsBound s .reverse ∧
        s.enc.state ≠ .homed) ∧ noRunningLead armed := by
  refine ⟨?_, ⟨work_ok, ?_, fun k p h => by cases k <;> cases h⟩, ?_, by rintro l ⟨⟩; rfl⟩
  · unfold countsOnce acceptsUpdate crossesIndex positionOk overrunsBound; decide +kernel
  · unfold groupsExclusive; decide +kernel
  · unfold countsOnce acceptsUpdate crossesIndex positionOk overrunsBound; decide +kernel

/-- Hypotheses of LeavingHomedTakesGatesToSafe: a quadrature error during a pass. -/
theorem witness_LeavingHomedTakesGatesToSafe :
    let s := { scanning with enc := { scanning.enc with noted := ⟨true, true, false⟩ } }
    ∃ t, exec (.acceptedUpdate ⟨true, true, false⟩) s = .next t ∧ s.enc.state = .homed ∧ t.enc.state ≠ .homed ∧
      (Instr.acceptedUpdate ⟨true, true, false⟩ ≠ .powerOnReset ∧ Instr.acceptedUpdate ⟨true, true, false⟩ ≠ .pinReset ∧
        Instr.acceptedUpdate ⟨true, true, false⟩ ≠ .requestReset) ∧ leadCountersOk s ∧
      ∃ l, s.psc.lead = some l ∧ l.phase ≠ .armed :=
  ⟨_, rfl, rfl, by decide +kernel, by decide, by rintro l ⟨⟩; decide, _, rfl, by decide⟩

/-- Hypotheses of its clause on an accepted update, for a slip, with an ARMED lead. -/
theorem witness_LeavingHomedTakesGatesToSafe_armed :
    let s := atIndex 4 armed
    (∃ t, exec (.acceptedUpdate forwardAZ) s = .next t ∧ s.enc.state = .homed ∧ t.enc.state = .notHomed) ∧
      noRunningLead s :=
  ⟨⟨_, rfl, rfl, by decide +kernel⟩, by rintro l ⟨⟩; rfl⟩

/-- A step during a pass: the entry in flight has expired. -/
def stepping : State := { scanning with pending := [.tagTimeout] }

theorem stepping_steps : ∃ t, step stepping = .next t := ⟨_, rfl⟩

/-- Hypotheses of EncoderInvariantKept. -/
theorem witness_EncoderInvariantKept :
    (∃ t, step stepping = .next t) ∧ positionOk stepping ∧ settingsOk stepping ∧ runHomed stepping :=
  ⟨stepping_steps, by unfold positionOk; decide +kernel, ⟨rfl, by decide +kernel, fun _ => by decide +kernel⟩, fun _ => rfl⟩

/-- Hypotheses of EncfRenewsSettings: each row of R15, the least CPR, which differs from the old one, in HOMED and out
of it, and the same CPR and sense with the filter period held and with another. -/
theorem witness_EncfRenewsSettings :
    (let p := beNat 4 1024 ++ [1#8, 0xFF#8, 0xFF#8, 0#8];
      CanDispatch 0x06#8 p (asking 0x06#8 p idle) ∧ p.length = 8 ∧ idle.cal.locked = false ∧
        idle.cal.programming = none ∧ idle.psc.lead = none ∧ fieldNat p 0 4 = 1024 ∧ fieldNat p 4 1 = 1 ∧
        fieldNat p 0 4 ≠ idle.enc.settings.cpr) ∧
    (let p := beNat 4 360000 ++ [0#8, 0#8, 4#8, 2#8];
      CanDispatch 0x06#8 p (asking 0x06#8 p idle) ∧ p.length = 8 ∧ fieldNat p 4 1 = 0 ∧
        fieldNat p 0 4 = idle.enc.settings.cpr ∧ idle.enc.settings.sense = .aLeads ∧
        fieldNat p 7 1 = idle.enc.settings.filterPeriod ∧
        fieldNat (beNat 4 360000 ++ [0#8, 0#8, 4#8, 128#8]) 7 1 ≠ idle.enc.settings.filterPeriod) ∧
    (runHomed idle ∧ idle.enc.state = .homed ∧ runHomed State.reset ∧ State.reset.enc.state ≠ .homed) ∧
    (({ idle.cal with locked := true } : Cal).locked = true ∧ scanning.psc.lead ≠ none ∧
      fieldNat (beNat 4 1023 ++ [0#8, 0#8, 4#8, 2#8]) 0 4 < 1024 ∧
      16777216 < fieldNat (beNat 4 16777217 ++ [0#8, 0#8, 4#8, 2#8]) 0 4 ∧
      1 < fieldNat (beNat 4 1024 ++ [2#8, 0#8, 4#8, 2#8]) 4 1) :=
  ⟨⟨asking_dispatches _ _ _, by decide +kernel⟩, ⟨asking_dispatches _ _ _, by decide +kernel⟩,
    ⟨fun _ => rfl, rfl, fun _ => by contradiction, by decide⟩, by decide +kernel⟩

/-- Hypotheses of TableAngleRisesWithCount at both bounds of CPR. -/
theorem witness_TableAngleRisesWithCount :
    (1024 ≤ 1024 ∧ 1024 ≤ 16777216 ∧ 1024 ∣ 16777216 ∧ 1022 + 1 < 1024) ∧ 1024 ≤ 16777216 ∧
      16777216 ∣ 16777216 ∧ 16777214 + 1 < 16777216 := by decide

/-- Hypotheses of RunoutBetweenEntries: equal entries, |Δ| = 1, 32,768 and 65,535, at the last fraction. -/
theorem witness_RunoutBetweenEntries :
    65535 < 16777216 ∧ (∀ i, -32768 ≤ runoutEntry [-32768, 32767] i ∧ runoutEntry [-32768, 32767] i ≤ 32767) ∧
    (runoutEntry [-32768, 32767] 1 - runoutEntry [-32768, 32767] 0).natAbs = 65535 ∧
    (runoutEntry [-32768, 0] 1 - runoutEntry [-32768, 0] 0).natAbs = 32768 ∧
    (runoutEntry [0, 1] 1 - runoutEntry [0, 1] 0).natAbs = 1 ∧ (runoutEntry [] 1 - runoutEntry [] 0).natAbs = 0 := by
  refine ⟨by decide, ?_, by decide, by decide, by decide, by decide⟩
  rintro (_ | _ | i) <;> simp [runoutEntry]

/-- Hypotheses of TrimmedPhaseInPitch, with a position of each outer case (sections 2.8.3 and 2.8.4). -/
theorem witness_TrimmedPhaseInPitch :
    workpieceOk work ∧ 5534617 < 16777216 ∧ trimCase work (nominal work 5534617) = .before ∧
      5987130 < 16777216 ∧ trimCase work (nominal work 5987130) = .after :=
  ⟨work_ok, by decide +kernel⟩

/-- Hypotheses of OneCountMovesPhase. -/
theorem witness_OneCountMovesPhase : workpieceOk work ∧ 1024 ≤ 360000 ∧ 360000 ≤ 16777216 := ⟨work_ok, by decide⟩

theorem window_ok : windowOk window := by
  refine ⟨by decide, by decide, by decide, by decide, by decide, by decide, ?_⟩
  rintro x ⟨⟩

theorem bank_valid : bankValid bank 37 := by
  refine ⟨by decide, by decide, ?_, by decide +kernel, List.pairwise_singleton _ _⟩
  intro w h g hg
  simp only [bank, List.mem_singleton] at h
  subst h
  simp [window] at hg

/-- Hypotheses of CrossedPointsAreThosePassed: within a pitch, and from one pitch to the next (section 2.8.3). -/
theorem witness_CrossedPointsAreThosePassed :
    workpieceOk work ∧ 9 < work.blades ∧ 10 < work.blades ∧ (∀ v ∈ bank.windows, windowOk v) ∧
    ((10 : Nat) = 10 ∧ (work.blades ≠ 1 ∨ 7986082 ≤ 7987821)) ∧
    (¬ ((9 : Nat) = 10 ∧ (work.blades ≠ 1 ∨ 16926219 ≤ 742))) ∧ bankValid bank work.blades :=
  ⟨work_ok, by decide, by decide, fun v h => by simp only [bank, List.mem_singleton] at h; subst h; exact window_ok,
    by decide, by decide, bank_valid⟩

/-- The point that the pass is about to cross. -/
def point : CrossedPoint := { blade := 10, index := 0, j := 4, window := window }

/-- A trigger frame that began 2 µs ago and is still going out, decided with a Tmin of 2 µs (R108). -/
def sending : Prb :=
  { scanning.prb with
    tmin := 2, lastTrigger := some 999800, out := some { tag := 5#4, exposure := 3, start := 999800 } }

/-- Hypotheses of MainSpanClassification: a lead that runs, and each outcome in turn: HELD and BUSY with a key that
stands on the stack and one that does not, on a full stack too; FIRED with PRB_OUT idle and while a frame goes out. -/
theorem witness_MainSpanClassification :
    (scanning.psc.lead = some ⟨.scanning, ctx⟩ ∧ LeadPhase.scanning ≠ .armed) ∧
    (∃ g, ({ window with gate := some ⟨2, true⟩ } : Window).gate = some g ∧
      (scanning.gte.gates.get g.gate).driven ≠ g.level) ∧
    (¬ (∃ g, point.window.gate = some g ∧ (scanning.gte.gates.get g.gate).driven ≠ g.level) ∧
      ({ scanning with hold := { scanning.hold with active := true } } : State).hold.active = true ∧
      scanning.stack.any (sameKey (crossingMiss point false .held)) = false ∧
      scanning.stack.any (sameKey (crossingMiss { point with j := 3 } false .held)) = true ∧
      16 ≤ (List.replicate 16 miss).length) ∧
    (scanning.hold.active = false ∧
      ¬ ((∀ t, ({ scanning.prb with lastTrigger := some 998001 } : Prb).lastTrigger = some t →
        t + scanning.prb.tmin * 100 ≤ scanning.now) ∧ scanning.prb.queue.length < 4)) ∧
    ((∀ t, scanning.prb.lastTrigger = some t → t + scanning.prb.tmin * 100 ≤ scanning.now) ∧
      scanning.prb.queue.length < 4 ∧ scanning.prb.state = .ready ∧ scanning.prb.waiting = none ∧
      scanning.prb.out = none) ∧
    ((∀ t, sending.lastTrigger = some t → t + sending.tmin * 100 ≤ scanning.now) ∧ sending.queue.length < 4 ∧
      sending.state = .ready ∧ sending.waiting = none ∧
      ∃ f, sending.out = some f ∧ max scanning.now (f.start + 300) = 1000100) := by
  refine ⟨⟨rfl, by decide⟩, ⟨⟨2, true⟩, rfl, by decide +kernel⟩, ⟨?_, rfl, by decide +kernel⟩,
    ⟨rfl, ?_⟩, ⟨?_, by decide +kernel, rfl, rfl, rfl⟩, ?_, by decide +kernel, rfl, rfl, _, rfl, by decide +kernel⟩
  · rintro ⟨g, h, -⟩; exact absurd h (by simp [point, window])
  · rintro ⟨h, -⟩; exact absurd (h 998001 rfl) (by decide +kernel)
  · rintro t ⟨⟩; decide +kernel
  · rintro t ⟨⟩; decide +kernel

theorem probe_ok : probeOk stepping := by unfold probeOk queueBounded; decide +kernel

/-- `scanning` with the lead at a high-water `h` in turn `t`. -/
def runningAt (h t : Nat) : State :=
  { scanning with psc := { scanning.psc with
      lead := some { phase := if t = 0 then .scanning else .retrying
                     ctx := { ctx with highWater := h, turn := t } } } }

/-- Hypotheses of OneTriggerPerAdvance: an update that fires; one that is a count of a running lead, also a count that
its snap cancels; and the lead in
the main span, at its end with and without a miss on the stack, in its retry turn and at that turn's end. -/
theorem witness_OneTriggerPerAdvance :
    ((∃ t, exec (.acceptedUpdate forwardA) stepping = .next t) ∧ probeOk stepping) ∧
    (countsOnce scanning forwardA .forward ∧ ¬ overrunsBound scanning .forward ∧
      scanning.psc.lead = some ⟨.scanning, ctx⟩ ∧ LeadPhase.scanning ≠ .armed ∧ scanning.enc.state = .homed ∧
      encU scanning.enc ≤ ctx.uStart + ctx.highWater ∧
      (after (.acceptedUpdate forwardA) scanning).enc.state = .homed ∧ scanning.gte.mode = .run ∧
      scanning.wbk.workpiece = some work ∧ workpieceOk work ∧ groupsExclusive scanning ∧ noticesOk scanning) ∧
    (∀ x ∈ [(360999, 0), (361000, 0), (721000, 1)], ∃ l, (runningAt x.1 x.2).psc.lead = some l ∧ l.phase ≠ .armed) ∧
    (360999 + 1 ≤ 360000 + passSettings.overlap ∧ 360000 + passSettings.overlap < 361000 + 1 ∧
      360999 + 1 = 360000 + passSettings.overlap + 0 * 360000 ∧
      361000 + 1 ≠ 360000 + passSettings.overlap + 1 * 360000 ∧
      720999 + 1 = 360000 + passSettings.overlap + 1 * 360000 ∧ (runningAt 360999 0).stack ≠ [] ∧
      0 ≠ passSettings.retryTurns ∧ 1 = passSettings.retryTurns) ∧
    (let s := atIndex 0 scanning;
      countsOnce s forwardAZ .forward ∧ crossesIndex s forwardAZ ∧ (after (.acceptedUpdate forwardAZ) s).enc.state = .homed ∧
      encU (after (.acceptedUpdate forwardAZ) s).enc = encU s.enc) := by
  refine ⟨⟨?_, probe_ok⟩, ⟨?_, ?_, rfl, by decide, rfl, by decide, by decide +kernel, rfl, rfl, work_ok, ?_,
    fun k p h => by cases k <;> cases h⟩, ?_, by decide,
    by unfold countsOnce acceptsUpdate positionOk crossesIndex; decide +kernel⟩
  · simp only [exec, execAcceptedUpdate]
    split
    · exact ⟨_, rfl⟩
    · exact ⟨_, rfl⟩
  · unfold countsOnce acceptsUpdate positionOk; decide +kernel
  · unfold overrunsBound; decide +kernel
  · unfold groupsExclusive; decide +kernel
  · intro x hx
    refine ⟨_, rfl, ?_⟩
    revert x
    decide

/-- Hypotheses of HoldPinQualifies: a pin that changes, and a level that has stood exactly 10 µs, with and without a
change of the condition. -/
theorem witness_HoldPinQualifies :
    true ≠ idle.hold.pin ∧
    (let h : Hold := { Hold.reset false with pin := true, since := some 999000 };
      h.since = some 999000 ∧ 999000 + 1000 ≤ idle.now ∧ false = h.active) ∧
    (let h : Hold := { Hold.reset false with sense := .activeHigh, pin := true, since := some 999000 };
      h.since = some 999000 ∧ h.pin ≠ h.active) := by decide +kernel

/-- Hypotheses of HoldRequestSetsSense: the least illegal code, and senses that keep and that change the condition. -/
theorem witness_HoldRequestSetsSense :
    (CanDispatch 0x14#8 [3#8] (asking 0x14#8 [3#8] idle) ∧ 3 ≤ (3#8).toNat) ∧
    (CanDispatch 0x14#8 [2#8] (asking 0x14#8 [2#8] idle) ∧ 2#8 = holdSenseCode .activeHigh ∧
      idle.hold.qualified = idle.hold.active) ∧
    (CanDispatch 0x14#8 [1#8] (asking 0x14#8 [1#8] idle) ∧ 1#8 = holdSenseCode .activeLow ∧
      (!idle.hold.qualified) ≠ idle.hold.active) :=
  ⟨⟨asking_dispatches _ _ _, by decide⟩, ⟨asking_dispatches _ _ _, by decide, by decide⟩, asking_dispatches _ _ _,
    by decide, by decide⟩

/-- A WKLD payload of `b` blades with every trim at the upper bound. -/
def wkldPayload (b : Nat) : List Byte :=
  beNat 1 b ++ beNat 3 16777215 ++ (List.replicate b 1048576).flatMap (beInt 3)

/-- Hypotheses of WkldReplacesWorkpiece at both bounds of the blade count. -/
theorem witness_WkldReplacesWorkpiece : ∀ b ∈ [1, 128],
    CanDispatch 0x0E#8 (wkldPayload b) (asking 0x0E#8 (wkldPayload b) idle) ∧ idle.psc.lead = none ∧
      1 ≤ fieldNat (wkldPayload b) 0 1 ∧ fieldNat (wkldPayload b) 0 1 ≤ 128 ∧
      (wkldPayload b).length = 4 + 3 * fieldNat (wkldPayload b) 0 1 ∧
      ∀ k, k < fieldNat (wkldPayload b) 0 1 →
        -1048576 ≤ fieldInt (wkldPayload b) (4 + 3 * k) 3 ∧ fieldInt (wkldPayload b) (4 + 3 * k) 3 ≤ 1048576 := by
  intro b hb
  refine ⟨asking_dispatches _ _ _, rfl, ?_⟩
  revert b
  decide +kernel

/-- Hypotheses of the refusals of WkldReplacesWorkpiece: a lead, the blade counts beside the bounds, a payload that is
a byte long for its count, and a trim past its bound with legal ones before it. -/
theorem witness_WkldReplacesWorkpiece_refusals :
    scanning.psc.lead ≠ none ∧ fieldNat [0#8, 0#8, 0#8, 0#8] 0 1 < 1 ∧ 128 < fieldNat [129#8, 0#8, 0#8, 0#8] 0 1 ∧
    (wkldPayload 1 ++ [0#8]).length ≠ 4 + 3 * fieldNat (wkldPayload 1 ++ [0#8]) 0 1 ∧
    (let p := wkldPayload 0 ++ [0#8, 0#8, 1#8, 16#8, 0#8, 1#8];
      ¬ fieldInt p (4 + 3 * 1) 3 ≤ 1048576 ∧
        ∀ i, i < 1 → -1048576 ≤ fieldInt p (4 + 3 * i) 3 ∧ fieldInt p (4 + 3 * i) 3 ≤ 1048576) := by decide +kernel

/-- Hypotheses of StclEmptiesAndSwcnReturnsToEditing: both states of the staged bank, and an ARMED pass that depends
on the pending bank and one that does not. -/
theorem witness_StclEmptiesAndSwcnReturnsToEditing :
    (CanDispatch 0x0F#8 [] (asking 0x0F#8 [] idle) ∧ CanDispatch 0x13#8 [] (asking 0x13#8 [] armed) ∧
      idle.wbk.stagedState = .editing) ∧
    (let s := { armed with wbk := { Wbk.reset with stagedState := .pending } };
      s.wbk.stagedState = .pending ∧ (∃ l, s.psc.lead = some l ∧ l.phase = .armed) ∧ s.wbk.activeState = .empty) ∧
    (let s := { armed with wbk := { armed.wbk with stagedState := .pending } };
      s.wbk.stagedState = .pending ∧
        ¬ ((∃ l, s.psc.lead = some l ∧ l.phase = .armed) ∧ s.wbk.activeState = .empty)) :=
  ⟨⟨asking_dispatches _ _ _, asking_dispatches _ _ _, rfl⟩, ⟨rfl, ⟨_, rfl, rfl⟩, rfl⟩, rfl,
    fun h => absurd h.2 (by decide)⟩

/-- Hypotheses of StwnInsertsInStartOrder: a legal record with room and without, one that is illegal by its end
alone, and a PENDING bank. -/
theorem witness_StwnInsertsInStartOrder :
    let a := readStwn stwnPayload
    (CanDispatch 0x10#8 stwnPayload (asking 0x10#8 stwnPayload idle) ∧ stwnPayload.length = 19 ∧
      idle.wbk.stagedState = .editing ∧ bank.windows.length < 24 ∧
      bank.windows.Pairwise (fun v w => v.start ≤ w.start)) ∧
    (a.start < a.stop ∧ a.stop ≤ 18874368 ∧ 1 ≤ a.step ∧ a.step ≤ 16777216 ∧ a.gate = 255 ∧ a.first = 255) ∧
    24 ≤ (List.replicate 24 window).length ∧
    ¬ (readStwn (windowBytes { window with stop := 18874369 })).stop ≤ 18874368 ∧
    ({ idle.wbk with stagedState := .pending } : Wbk).stagedState = .pending :=
  ⟨⟨asking_dispatches _ _ _, by decide +kernel, rfl, by decide, List.pairwise_singleton _ _⟩, by decide +kernel,
    by decide, by decide +kernel, rfl⟩

/-- Hypotheses of StgtReplacesGateRecord: a legal PHASE record, a legal UNUSED one, one that is illegal by its mode,
and a PENDING bank. -/
theorem witness_StgtReplacesGateRecord :
    let a := readStgt stgtPayload
    (CanDispatch 0x11#8 stgtPayload (asking 0x11#8 stgtPayload idle) ∧ stgtPayload.length = 17 ∧
      idle.wbk.stagedState = .editing ∧ a.gate ≤ 7 ∧ a.mode = 1 ∧ a.on < a.off ∧ a.off ≤ 18874368 ∧ a.group ≤ 3 ∧
      a.first = 255) ∧
    (readStgt (beNat 1 7 ++ gateRecordBytes none)).mode = 0 ∧ (readStgt (3#8 :: 2#8 :: stgtPayload.drop 2)).mode = 2 ∧
    ({ idle.wbk with stagedState := .pending } : Wbk).stagedState = .pending :=
  ⟨⟨asking_dispatches _ _ _, by decide +kernel⟩, by decide +kernel⟩

/-- Hypotheses of SwapHoldsValidBank: a bank that passes the five checks, one that fails the first, a PENDING bank and
no workpiece. -/
theorem witness_SwapHoldsValidBank :
    let s := asking 0x12#8 [] { idle with wbk := { idle.wbk with staged := bank } }
    CanDispatch 0x12#8 [] s ∧ s.wbk.stagedState = .editing ∧ s.wbk.workpiece = some work ∧
      bankValid s.wbk.staged work.blades ∧ ¬ bankValid Bank.empty work.blades ∧
      ({ idle.wbk with stagedState := .pending } : Wbk).stagedState = .pending ∧
      State.reset.wbk.stagedState = .editing ∧ State.reset.wbk.workpiece = none :=
  ⟨asking_dispatches _ _ _, rfl, rfl, bank_valid, fun h => h.1 rfl, rfl, rfl, rfl⟩

/-- Hypotheses of ActiveBankChangesOnlyAtExchange: an exchange at an index crossing with the lead IDLE and with it
ARMED, a crossing that slips, and one in reverse with an ARMED lead. -/
theorem witness_ActiveBankChangesOnlyAtExchange :
    let s := atIndex 359999 { idle with wbk := { idle.wbk with stagedState := .pending } }
    (∃ t, exec (.acceptedUpdate forwardAZ) s = .next t ∧ t.wbk.active ≠ s.wbk.active) ∧
    (countsOnce s forwardAZ .forward ∧ crossesIndex s forwardAZ ∧ s.wbk.workpiece = some work ∧
      s.wbk.stagedState = .pending ∧ s.psc.lead = none ∧ workpieceOk work ∧
      (after (.acceptedUpdate forwardAZ) s).enc.state = .homed ∧
      (after (.acceptedUpdate forwardAZ) (atIndex 5 s)).enc.state ≠ .homed) ∧
    (∀ l, armed.psc.lead = some l → l.phase = .armed) ∧
    (let s := { armed with
        wbk := { idle.wbk with stagedState := .pending }
        enc := { encAt 2 with indexArmed := true, accepted := ⟨true, false, true⟩ } };
      countsOnce s ⟨false, false, true⟩ .reverse ∧ crossesIndex s ⟨false, false, true⟩ ∧ ¬ overrunsBound s .reverse ∧
        (after (.acceptedUpdate ⟨false, false, true⟩) s).enc.state = .homed) := by
  refine ⟨⟨after (.acceptedUpdate forwardAZ)
      (atIndex 359999 { idle with wbk := { idle.wbk with stagedState := .pending } }),
    by simp only [after, exec, execAcceptedUpdate]; split <;> rfl, by decide +kernel⟩,
    ⟨?_, ?_, rfl, rfl, rfl, work_ok, by decide +kernel, by decide +kernel⟩, by rintro l ⟨⟩; rfl, ?_⟩
  · unfold countsOnce acceptsUpdate positionOk; decide +kernel
  · unfold crossesIndex; decide +kernel
  · unfold countsOnce acceptsUpdate crossesIndex positionOk overrunsBound; decide +kernel

theorem bank_ok : bankOk bank := by
  refine ⟨by decide, List.pairwise_singleton _ _, fun w h => ?_, fun n r h => ?_⟩
  · simp only [bank, List.mem_singleton] at h; subst h; exact window_ok
  · have : ∀ n : Fin 8, bank.gates.get n = none ∨ bank.gates.get n = some gateRecord := by decide +kernel
    rcases this n with e | e <;> rw [e] at h
    · cases h
    · cases h; exact ⟨by decide, by decide, by decide, by rintro x ⟨⟩⟩

theorem empty_bank_ok : bankOk Bank.empty := by
  refine ⟨by decide, List.Pairwise.nil, ?_, fun n r h => ?_⟩
  · intro w h
    simp [Bank.empty] at h
  have : ∀ n : Fin 8, Bank.empty.gates.get n = none := by decide
  rw [this n] at h
  cases h

/-- Hypotheses of BanksStayWellFormed, with a bank ACTIVE and one PENDING. -/
theorem witness_BanksStayWellFormed :
    ((∃ t, step stepping = .next t) ∧ bankOk stepping.wbk.active ∧ bankOk stepping.wbk.staged) ∧
    (let s := { stepping with wbk := { stepping.wbk with stagedState := .pending, staged := bank } };
      (∃ t, step s = .next t) ∧ banksPassed s ∧ s.wbk.activeState = .active) :=
  ⟨⟨stepping_steps, bank_ok, empty_bank_ok⟩, ⟨_, rfl⟩,
    ⟨fun _ => ⟨work, rfl, bank_valid⟩, fun _ => ⟨work, rfl, bank_valid⟩, by rintro ⟨⟩⟩, rfl⟩

/-- Hypotheses of ArmpArmsOrRefuses: payloads and states for the refusals by ID, code, radius, workpiece, bank and
room, and for an ARMP that is taken. -/
theorem witness_ArmpArmsOrRefuses :
    let p := armpPayload 7 100000 5
    (CanDispatch 0x17#8 p (asking 0x17#8 p idle) ∧ p.length = 24 ∧ idle.psc.lead = none ∧
      idle.psc.drain.length < 4 ∧ (readArmp p).passId = 7 ∧ (readArmp p).rounding ≤ 1 ∧
      (readArmp p).rHi ≤ 100000000 ∧ (readArmp p).rLo ≤ (readArmp p).rHi ∧ idle.wbk.workpiece ≠ none ∧
      idle.wbk.activeState ≠ .empty ∧ idle.pnt.buffer.length + 0 < 1024) ∧
    scanning.psc.lead ≠ none ∧ (readArmp (armpPayload 0 0 0)).passId = 0 ∧ State.reset.wbk.workpiece = none ∧
    (State.reset.wbk.activeState = .empty ∧ State.reset.wbk.stagedState ≠ .pending) :=
  ⟨⟨asking_dispatches _ _ _, by decide +kernel⟩, by decide +kernel⟩

/-- Hypotheses of AbrtEndsLead: a lead with a tag in flight and a miss on the stack, and none. -/
theorem witness_AbrtEndsLead :
    (CanDispatch 0x18#8 [] (asking 0x18#8 [] scanning) ∧ (asking 0x18#8 [] scanning).psc.lead = some ⟨.scanning, ctx⟩ ∧
      ctx.counters.abandoned ≤ 4294967295 ∧ ctx.counters.retryLost ≤ 4294967295) ∧
    CanDispatch 0x18#8 [] (asking 0x18#8 [] idle) ∧ idle.psc.lead = none :=
  ⟨⟨asking_dispatches _ _ _, rfl, by decide, by decide⟩, asking_dispatches _ _ _, rfl⟩

/-- Hypotheses of StallExpiryEndsLead at the moment of expiry, with a tag in flight and with none. -/
theorem witness_StallExpiryEndsLead :
    let s := { scanning with now := 2000000 }
    (s.psc.stall = some 2000000 ∧ 2000000 ≤ s.now ∧ s.psc.lead = some ⟨.scanning, ctx⟩ ∧
      LeadPhase.scanning ≠ .armed) ∧
    ¬ (ctx.mainInFlight = 0 ∧ ctx.retryInFlight = 0 ∧ s.psc.drain = []) ∧
    (let c := { ctx with mainInFlight := 0 };
      c.mainInFlight = 0 ∧ c.retryInFlight = 0 ∧ s.psc.drain = []) := by decide +kernel

/-- Hypotheses of ArmedPassStartsAtCrossing: a forward crossing that snaps, and one that slips. -/
theorem witness_ArmedPassStartsAtCrossing :
    (countsOnce (atIndex 3 armed) forwardAZ .forward ∧ crossesIndex (atIndex 3 armed) forwardAZ ∧
      (after (.acceptedUpdate forwardAZ) (atIndex 3 armed)).enc.state = .homed) ∧
    (countsOnce (atIndex 4 armed) forwardAZ .forward ∧ crossesIndex (atIndex 4 armed) forwardAZ ∧
      (after (.acceptedUpdate forwardAZ) (atIndex 4 armed)).enc.state ≠ .homed) ∧
    ∃ l, armed.psc.lead = some l ∧ l.phase = .armed := by
  refine ⟨?_, ?_, _, rfl, rfl⟩
  · unfold countsOnce acceptsUpdate crossesIndex positionOk; decide +kernel
  · unfold countsOnce acceptsUpdate crossesIndex positionOk; decide +kernel

/-- Hypotheses of WaitingTriggerFrameBegins: a frame that is due, one that is not, and none. -/
theorem witness_WaitingTriggerFrameBegins :
    ({ Prb.reset with waiting := some ⟨1#4, 0, 1000000⟩ } : Prb).waiting = some ⟨1#4, 0, 1000000⟩ ∧
      1000000 ≤ idle.now ∧ idle.now < 1000001 ∧ idle.prb.waiting = none := by decide

/-- Hypotheses of ReadingBecomesPoint: a clear reading, NO_RETURN and an intensity one below the floor under EMIT and
under RETRY; a buffer with and without room; an entry that is skipped; and, for a miss, a running lead whose stack has
and lacks the key, one that is full, and no lead. -/
theorem witness_ReadingBecomesPoint :
    (scanning.prb.rx = .hunting ∧ scanning.prb.queue = tag :: [] ∧ findCtx tag.passId scanning.psc = some ctx ∧
      ctx.settings.dropout = .emit ∧ bufferLoad scanning < 1024 ∧ (0x5F#8 >>> 4).setWidth 4 = tag.tag ∧
      ((0xFF#8).toNat * 256 + (0xFF#8).toNat) * 256 + (0xFF#8).toNat = 16777215 ∧
      ((0x12#8).toNat * 256 + (0xD6#8).toNat) * 256 + (0x87#8).toNat = 1234567 ∧
      ((0xF0#8).toNat % 16) * 256 + (0x63#8).toNat < tag.floor) ∧
    ({ passSettings with dropout := .retry } : PassSettings).dropout = .retry ∧
    1024 ≤ bufferLoad { scanning with pnt := ⟨List.replicate 1023 (.summary (summaryOf ctx)), 1023⟩ } ∧
    (tag.tag ≠ (0x6F#8 >>> 4).setWidth 4 ∧ ∃ x ∈ [{ tag with tag := 6#4 }], x.tag = (0x6F#8 >>> 4).setWidth 4) ∧
    ((∃ l, scanning.psc.lead = some l ∧ l.phase ≠ .armed ∧ l.ctx.settings.passId = tag.passId) ∧
      scanning.stack.any (sameKey (missOf tag .full)) = false ∧
      [missOf tag .held].any (sameKey (missOf tag .full)) = true ∧ 16 ≤ (List.replicate 16 miss).length ∧
      idle.psc.lead = none) :=
  ⟨by decide +kernel, rfl, by decide +kernel, ⟨by decide, _, List.mem_singleton.2 rfl, rfl⟩,
    ⟨⟨_, rfl, by decide, rfl⟩, by decide +kernel⟩⟩

/-- Hypotheses of UnmatchedReadingsCounted: an orphan and a bad sum; in a frame, a character and a start at the end of
the gap, the gap itself, a character that comes too late, and a begun character. -/
theorem witness_UnmatchedReadingsCounted :
    (scanning.prb.rx = .hunting ∧ 0x60#8 = 0x60#8 + 0#8 + 0#8 + 0#8 + 0#8 + 0#8 ∧
      ∀ e ∈ scanning.prb.queue, e.tag ≠ (0x60#8 >>> 4).setWidth 4) ∧
    (0x61#8 ≠ 0x60#8 + 0#8 + 0#8 + 0#8 + 0#8 + 0#8) ∧
    (let inFrame := fun e b => { idle with prb := { Prb.reset with rx := .inFrame [0#8] e b } };
      (inFrame 999500 false).prb.rx = .inFrame [0#8] 999500 false ∧ idle.now ≤ 999500 + 500 ∧ [0#8].length < 6 ∧
      idle.now ≤ 999600 + 400 ∧ 999599 + 400 < idle.now ∧
      999499 + 400 + 100 * charCount [.char ⟨0#8, true⟩] < idle.now ∧ (inFrame 999600 false).pending = [] ∧
      (inFrame 0 true).prb.rx = .inFrame [0#8] 0 true) := by decide +kernel

/-- Hypotheses of TagTimeoutMissesOrFaults: a timeout at the moment of expiry below the eighth, one in FAULT, and the
eighth, with a lead and without. -/
theorem witness_TagTimeoutMissesOrFaults :
    (scanning.prb.queue = tag :: [] ∧ tag.fireTime + scanning.prb.tr * 100 ≤ scanning.now ∧
      scanning.psc.lead = some ⟨.scanning, ctx⟩ ∧ ctx.settings.passId = tag.passId ∧ tag.origin ≠ .retry ∧
      scanning.prb.timeouts < 7 ∧ scanning.psc.drain = [] ∧ scanning.stack.length < 16 ∧
      scanning.stack.any (sameKey (missOf tag .timeout)) = false) ∧
    ({ scanning.prb with state := .fault } : Prb).state = .fault ∧
    (let s := { scanning with prb := { scanning.prb with timeouts := 7 } };
      s.prb.state = .ready ∧ s.prb.timeouts = 7 ∧ s.psc.lead ≠ none ∧
        (∀ c ∈ contexts s.psc, c.counters.abandoned ≤ 4294967295 ∧ c.counters.retryLost ≤ 4294967295) ∧
        inFlightOk s) ∧ idle.psc.lead = none := by
  refine ⟨by decide +kernel, rfl, ⟨rfl, rfl, by decide, by decide +kernel, ?_, List.pairwise_singleton _ _, ?_⟩, rfl⟩
  · unfold countsMatch; decide +kernel
  · decide +kernel

/-- Hypotheses of PrbfAppliesTiming: while a lead scans, with none, with an entry in flight that does not expire, and
with four entries of which the first three expire at once. -/
theorem witness_PrbfAppliesTiming :
    (CanDispatch 0x16#8 [0#8, 2#8, 0#8, 10#8] (asking 0x16#8 [0#8, 2#8, 0#8, 10#8] scanning) ∧
      ∃ l, scanning.psc.lead = some l ∧ l.phase ≠ .armed) ∧
    (let s := { idle with prb := { Prb.reset with queue := [{ tag with fireTime := 999001 }] } };
      CanDispatch 0x16#8 [0#8, 2#8, 0#8, 10#8] (asking 0x16#8 [0#8, 2#8, 0#8, 10#8] s) ∧
        (∀ l, s.psc.lead = some l → l.phase = .armed) ∧ ∀ e ∈ s.prb.queue, s.now < e.fireTime + 10 * 100) ∧
    (let s := { armed with prb := { Prb.reset with queue := List.replicate 3 tag ++ [{ tag with fireTime := 999001 }] } };
      CanDispatch 0x16#8 [0#8, 2#8, 0#8, 10#8] (asking 0x16#8 [0#8, 2#8, 0#8, 10#8] s) ∧
        (∀ l, s.psc.lead = some l → l.phase = .armed) ∧ s.prb.queue.length ≤ 4 ∧
        (∀ e ∈ s.prb.queue.take 3, e.fireTime + 10 * 100 ≤ s.now) ∧
        (after (.prbf [0#8, 2#8, 0#8, 10#8]) (asking 0x16#8 [0#8, 2#8, 0#8, 10#8] s)).prb.queue.length = 1) :=
  ⟨⟨asking_dispatches _ _ _, _, rfl, by decide⟩, ⟨asking_dispatches _ _ _, by rintro l ⟨⟩, by decide +kernel⟩,
    asking_dispatches _ _ _, by rintro l ⟨⟩; rfl, by decide +kernel⟩

/-- Hypotheses of ProbeAndLinkStayBounded, with a notice at its bound. -/
theorem witness_ProbeAndLinkStayBounded :
    let s := { stepping with
      lnk := { stepping.lnk with
        errors := ⟨15, 15, 15, 15⟩
        notices := { Notices.none with holdChange := some ⟨255, .holdChange true⟩ } } }
    (∃ t, step s = .next t) ∧ probeOk s ∧ linkBounded s ∧ noticesOk s := by
  refine ⟨⟨_, rfl⟩, probe_ok, by unfold linkBounded; decide +kernel, fun k p h => ?_⟩
  cases k <;> cases h
  decide

/-- Hypotheses of its clause on tags, with three tags of pass 7, which drains, and one of the lead, pass 8, at the bound:
the six tags issued between them were abandoned with the passes 5 and 6, which drain behind pass 7. -/
theorem witness_ProbeAndLinkStayBounded_tags :
    let pass := fun (id tags : Nat) => { freshCtx { passSettings with passId := id } with mainInFlight := tags }
    let s := { scanning with
      pending := [.tagTimeout]
      psc := { scanning.psc with
        lead := some { phase := .scanning, ctx := pass 8 1 }, drain := [pass 7 3, pass 5 0, pass 6 0] }
      prb := { Prb.reset with
        queue := [{ tag with tag := 15#4, fireTime := 1 }, { tag with tag := 0#4, fireTime := 2 },
          { tag with tag := 1#4, fireTime := 3 }, { tag with passId := 8, tag := 8#4, fireTime := 4 }]
        nextTag := 9#4, lastTrigger := some 4 } }
    (∃ t, step s = .next t) ∧ probeOk s ∧ inFlightOk s ∧ drainBounded s ∧ tagsOk s := by
  refine ⟨⟨_, rfl⟩, by unfold probeOk queueBounded; decide +kernel,
    ⟨by unfold countsMatch; decide +kernel, by decide +kernel, by decide +kernel⟩, by unfold drainBounded; decide +kernel,
    by decide +kernel, by decide +kernel, ?_, ?_⟩
  · intro e he
    have : e.fireTime ≤ 4 := by
      revert e
      decide +kernel
    exact ⟨4, rfl, this⟩
  · intro i e h
    rcases i with _ | _ | _ | _ | i
    iterate 4
      · cases h; decide +kernel
    · cases h

/-- Hypotheses of PointRecordRanges at its bounds. -/
theorem witness_PointRecordRanges :
    16777214 ≤ 16777214 ∧ ({ settings with r0 := 100000000, scale := 65536 } : Settings).scale ≤ 65536 ∧
      ({ settings with r0 := 100000000, scale := 65536 } : Settings).r0 ≤ 100000000 ∧ (-32768 : Int) ≤ 32767 := by
  decide

/-- Hypotheses of PointBufferNeverOverfull, with the buffer at its bound. -/
theorem witness_PointBufferNeverOverfull :
    let s := { stepping with pnt := ⟨List.replicate 1023 (.summary (summaryOf ctx)), 1023⟩ }
    (∃ t, step s = .next t) ∧ bufferBounded s ∧ drainBounded s :=
  ⟨⟨_, rfl⟩, by unfold bufferBounded; decide +kernel, by unfold drainBounded; decide⟩

/-- Hypotheses of MainAccountingKept, with one tag in flight. -/
theorem witness_MainAccountingKept :
    (∃ t, step stepping = .next t) ∧ inFlightOk stepping ∧ ∀ c ∈ contexts stepping.psc, mainBalanced c := by
  refine ⟨stepping_steps, ⟨?_, List.pairwise_singleton _ _, ?_⟩, ?_⟩
  · unfold countsMatch; decide +kernel
  · decide +kernel
  · unfold mainBalanced; decide +kernel

/-- Hypotheses of StackAccountingKept, with one entry on the stack. -/
theorem witness_StackAccountingKept :
    (∃ t, step stepping = .next t) ∧ stackOk stepping ∧ stackOwned stepping ∧ stackAccounted stepping := by
  refine ⟨stepping_steps, ⟨by decide, List.pairwise_singleton _ _⟩, fun h => absurd h (by decide), ?_, ?_⟩
  · rintro l ⟨⟩; unfold stackBalanced; decide +kernel
  · rintro c ⟨⟩

/-- Hypotheses of RetryAccountingKept: the pass has crossed the point of its stack entry at count 123,445 and that of its
tag at 123,457. -/
theorem witness_RetryAccountingKept :
    let s := { runningAt 123457 0 with pending := [.tagTimeout] }
    (∃ t, step s = .next t) ∧ (inFlightOk s ∧ stackOk s ∧ stackOwned s ∧ stackAccounted s) ∧ settingsOk s ∧
      bankOk s.wbk.active ∧ workpieceKnown s ∧ keysExclusive s ∧ ∀ c ∈ contexts s.psc, retryBalanced c := by
  refine ⟨⟨_, rfl⟩, ⟨⟨by unfold countsMatch; decide +kernel, List.pairwise_singleton _ _, by decide +kernel⟩,
    ⟨by decide, List.pairwise_singleton _ _⟩, fun h => absurd h (by decide), ?_, by rintro c ⟨⟩⟩,
    ⟨rfl, by decide +kernel, fun _ => by decide +kernel⟩, bank_ok, ?_, ?_, ?_⟩
  · rintro l ⟨⟩; unfold stackBalanced; decide +kernel
  · rintro w ⟨⟩; exact work_ok
  · rintro l ⟨⟩
    refine ⟨by decide, by decide +kernel, by decide, fun b i j o h => ?_⟩
    have hk : ∀ k ∈ leadKeys (runningAt 123457 0) ⟨.scanning, { ctx with highWater := 123457, turn := 0 }⟩,
        k = (10, 0, 3, false) ∨ k = (10, 0, 4, false) := by decide +kernel
    rcases hk _ h with e | e <;> cases e
    · exact ⟨123445, { point with j := 3 }, by decide, by decide +kernel, by decide +kernel, by decide +kernel,
        by decide +kernel, rfl, rfl, rfl⟩
    · exact ⟨123457, point, by decide, by decide +kernel, by decide +kernel, by decide +kernel, by decide +kernel,
        rfl, rfl, rfl⟩
  · intro c hc
    rw [show contexts _ = [{ ctx with highWater := 123457, turn := 0 }] from rfl, List.mem_singleton] at hc
    subst hc
    exact fun _ => ⟨0, by decide +kernel, by decide +kernel⟩

/-- Hypotheses of StackTakesNewestDropsOldest: a take that finds an entry, a stack that is full, and a point crossed
in a retry turn under HOLD, past its gate, on a busy port, without an entry and with one, PRB_OUT idle or not. -/
theorem witness_StackTakesNewestDropsOldest :
    (∃ t, takeMiss 10 0 3 scanning = (some miss, t)) ∧
    ((List.replicate 15 miss ++ [{ miss with j := 9 }]).length = 16 ∧
      (List.replicate 15 miss ++ [{ miss with j := 9 }]).any (sameKey { miss with j := 5 }) = false ∧
      scanning.psc.lead = some ⟨.scanning, ctx⟩) ∧
    (({ scanning.hold with active := true } : Hold).active = true ∧
      (∃ g, ({ window with gate := some ⟨2, true⟩ } : Window).gate = some g ∧
        (scanning.gte.gates.get g.gate).driven ≠ g.level) ∧ ¬ (List.replicate 4 tag).length < 4 ∧
      ∀ x ∈ scanning.stack, ¬ (x.blade = point.blade ∧ x.window = point.index ∧ x.j = point.j)) ∧
    (scanning.hold.active = false ∧
      ¬ (∃ g, point.window.gate = some g ∧ (scanning.gte.gates.get g.gate).driven ≠ g.level) ∧
      (∀ t, scanning.prb.lastTrigger = some t → t + scanning.prb.tmin * 100 ≤ scanning.now) ∧
      scanning.prb.queue.length < 4 ∧ scanning.stack = [] ++ miss :: [] ∧
      (miss.blade = 10 ∧ miss.window = 0 ∧ miss.j = ({ point with j := 3 } : CrossedPoint).j) ∧
      scanning.prb.state = .ready ∧ scanning.prb.waiting = none ∧ scanning.prb.out = none ∧
      ∃ f, sending.out = some f ∧ scanning.now < f.start + 300) := by
  refine ⟨⟨_, rfl⟩, ⟨by decide, by decide, rfl⟩, ⟨rfl, ⟨_, rfl, by decide +kernel⟩, by decide, by decide +kernel⟩,
    rfl, ?_, ?_, by decide, rfl, by decide, rfl, rfl, rfl, _, rfl, by decide +kernel⟩
  · rintro ⟨g, h, -⟩; exact absurd h (by simp [point, window])
  · rintro t ⟨⟩; decide +kernel

/-- Hypotheses of GroupsStayExclusive, with gates 0 and 1 in one group, gate 1 ON and gate 0 SHORT. -/
theorem witness_GroupsStayExclusive :
    let s := { stepping with
      gte := { stepping.gte with
        gates := (stepping.gte.gates.set 0 { Gate.reset true with status := .short }).set 1
          { Gate.reset true with driven := true } } }
    (∃ t, step s = .next t) ∧ groupsExclusive s ∧ shortGatesOff s :=
  ⟨⟨_, rfl⟩, by unfold groupsExclusive; decide +kernel, by unfold shortGatesOff; decide +kernel⟩

/-- `idle` with a qualification that has run exactly 50 µs on gate 2 and one that has run a tick less on gate 3. -/
def qualifying : State :=
  { idle with
    gte := { idle.gte with
      gates := (idle.gte.gates.set 2 { Gate.reset true with qual := some 995000 }).set 3
        { Gate.reset true with qual := some 995001 } } }

/-- Hypotheses of SenseQualifiesAndLatches: a level that differs, and an expired qualification with none above it;
and, in `idle`, none. -/
theorem witness_SenseQualifiesAndLatches :
    true ≠ (idle.gte.gates.get 2).sense ∧
    (∃ since, (qualifying.gte.gates.get 2).qual = some since ∧ since + 5000 ≤ qualifying.now) ∧
      (∀ m, 2 < m → ¬ ∃ since, (qualifying.gte.gates.get m).qual = some since ∧ since + 5000 ≤ qualifying.now) ∧
    noticesOk qualifying ∧ ∀ n, (idle.gte.gates.get n).qual = none := by
  refine ⟨by decide, ⟨995000, by decide +kernel⟩, ?_, fun k p h => by (cases k <;> cases h), by decide⟩
  rintro m hm ⟨since, h, hs⟩
  have key : ∀ m : Fin 8, 2 < m →
      (qualifying.gte.gates.get m).qual = none ∨ (qualifying.gte.gates.get m).qual = some 995001 := by decide +kernel
  have hs : since + 5000 ≤ 1000000 := hs
  rcases key m hm with e | e <;> rw [e] at h
  · cases h
  · cases h; omega

/-- Hypotheses of GclrClearsNamedLatches: a mask that names no SHORT gate, and one that names one in SAFE and in
RUN. -/
theorem witness_GclrClearsNamedLatches :
    CanDispatch 0x15#8 [0x0C#8] (asking 0x15#8 [0x0C#8] idle) ∧
      (∀ n : Fin 8, (0x0C#8).getLsbD n.val = true → (idle.gte.gates.get n).status ≠ .short) ∧
    ∀ mode, let s := { idle with
        gte := { idle.gte with mode := mode, gates := idle.gte.gates.set 2 { Gate.reset true with status := .short } } }
      (∃ n : Fin 8, (0x0C#8).getLsbD n.val = true ∧ (s.gte.gates.get n).status = .short) ∧ groupsExclusive s ∧
        noticesOk s := by
  refine ⟨asking_dispatches _ _ _, by decide +kernel, fun mode => ⟨⟨2, by decide, rfl⟩, ?_, fun k p h => by
    cases k <;> cases h⟩⟩
  cases mode <;> (unfold groupsExclusive; decide +kernel)

/-- Hypotheses of MntsAndCwrEdit: an MNTS with both values at a bound and one past it, and a CWR. -/
theorem witness_MntsAndCwrEdit :
    (let p := beNat 4 100000000 ++ beNat 4 32768;
      CanDispatch 0x07#8 p (asking 0x07#8 p idle) ∧ p.length = 8 ∧ idle.cal.locked = false ∧
        idle.cal.programming = none ∧ idle.psc.lead = none ∧ ¬ 100000000 < fieldNat p 0 4 ∧
        ¬ (fieldNat p 4 4 < 32768 ∨ 65536 < fieldNat p 4 4)) ∧
    100000000 < fieldNat (beNat 4 100000001 ++ beNat 4 32768) 0 4 ∧
    (CanDispatch 0x08#8 (List.replicate 512 0x80#8) (asking 0x08#8 (List.replicate 512 0x80#8) idle) ∧
      (List.replicate 512 0x80#8).length = 512) :=
  ⟨⟨asking_dispatches _ _ _, by decide +kernel⟩, by decide +kernel, asking_dispatches _ _ _, List.length_replicate⟩

/-- Hypotheses of GsafSetsSafeLevels in SAFE and in RUN, and of each refusal. -/
theorem witness_GsafSetsSafeLevels :
    CanDispatch 0x0A#8 ((Eight.all true).toList.map byteOfBool)
        (asking 0x0A#8 ((Eight.all true).toList.map byteOfBool) idle) ∧
      (idle.cal.locked = false ∧ idle.cal.programming = none ∧ idle.gte.mode = .safe ∧ scanning.gte.mode = .run ∧
      gateGroup idle.wbk.active 5 = none) ∧
      ({ idle.cal with locked := true } : Cal).locked = true ∧
      ({ idle.cal with programming := some ⟨.ccmt, 2000000⟩ } : Cal).programming ≠ none ∧
      ∃ i, i < 8 ∧ 1 < fieldNat (List.replicate 7 0#8 ++ [2#8]) i 1 :=
  ⟨asking_dispatches _ _ _, by decide, rfl, by simp, 7, by decide, by decide⟩

/-- Hypotheses of ProgramOperationsBegin for the three operations, of a refused CERS, and of one that changes the CPR
in HOMED. -/
theorem witness_ProgramOperationsBegin :
    CanDispatch 0x0B#8 [] (asking 0x0B#8 [] idle) ∧ CanDispatch 0x0C#8 [] (asking 0x0C#8 [] idle) ∧
      CanDispatch 0x0D#8 [] (asking 0x0D#8 [] idle) ∧ idle.cal.locked = false ∧ idle.cal.programming = none ∧
      idle.psc.lead = none ∧ idle.enc.settings.cpr = 360000 ∧ idle.enc.settings.sense = .aLeads ∧
      idle.gte.mode = .safe ∧ scanning.psc.lead ≠ none ∧
      (let s := { idle with enc := { idle.enc with settings := ⟨1024, .aLeads, 4, 1⟩, c := 1023 } };
        CanDispatch 0x0D#8 [] (asking 0x0D#8 [] s) ∧ s.enc.settings.cpr ≠ 360000 ∧
          s.enc.settings.filterPeriod ≠ 2 ∧ s.enc.state = .homed ∧ runHomed s) :=
  ⟨asking_dispatches _ _ _, asking_dispatches _ _ _, asking_dispatches _ _ _, by decide, by decide, by decide,
    by decide, by decide, by decide, by decide, asking_dispatches _ _ _, by decide, by decide, rfl, fun _ => rfl⟩

/-- Hypothesis of ProgramCompletionSetsStore and ProgrammedImageSurvivesReset. -/
theorem witness_ProgramCompletionSetsStore :
    ({ idle with cal := { idle.cal with programming := some ⟨.clck, 2000000⟩ } } : State).cal.programming =
      some ⟨.clck, 2000000⟩ := rfl

/-- Hypothesis of ProgrammedImageSurvivesReset, for CERS. -/
theorem witness_ProgrammedImageSurvivesReset :
    ({ idle with cal := { idle.cal with programming := some ⟨.cers, 2000000⟩ } } : State).cal.programming =
      some ⟨.cers, 2000000⟩ := rfl

end Sys2Proof.Tests
end

