-- ==== Sys2Proof/Proofs/Decoder.lean ====
section
/-! PROOFS. Proofs/Decoder.lean: what the quadrature decoder makes of a change of A and B (R2, R3). -/

namespace Sys2Proof.Machine

open Sys2Proof

/-- R3: both lines changed. -/
theorem decodePair_of_both_changed (sense : Sense) {before after : Lines} (ha : before.a ≠ after.a)
    (hb : before.b ≠ after.b) : decodePair sense before after = .quadError := by
  simp [decodePair, bne_iff_ne.mpr ha, bne_iff_ne.mpr hb]

/-- R2: an update that changes Z alone is no count. -/
theorem decodePair_of_unchanged (sense : Sense) {before after : Lines} (ha : before.a = after.a)
    (hb : before.b = after.b) : decodePair sense before after = .none := by
  simp [decodePair, ha, hb]

/-- R2: exactly one line changed, whichever it is. -/
theorem decodePair_of_one_changed (sense : Sense) {before after : Lines}
    (h : before.a = after.a ↔ before.b ≠ after.b) :
    decodePair sense before after = .count (countDir sense before after) := by
  by_cases ha : before.a = after.a
  case pos =>
    have hb : before.b ≠ after.b := h.mp ha
    simp [decodePair, ha, bne_iff_ne.mpr hb]
  case neg =>
    have hb : before.b = after.b := not_not.mp (mt h.mpr ha)
    simp [decodePair, bne_iff_ne.mpr ha, hb]

/-- The rows of R2's table that count forward under A_LEADS: the pair (A, B) before and after. -/
def forwardSteps : List ((Bool × Bool) × (Bool × Bool)) :=
  [((false, false), (true, false)), ((true, false), (true, true)), ((true, true), (false, true)),
    ((false, true), (false, false))]

/-- The match of the model has one arm for each forward row; its last arm takes every other step. -/
theorem aLeadsDir_eq_ite (before after : Lines) :
    aLeadsDir before after =
      if ((before.a, before.b), (after.a, after.b)) ∈ forwardSteps then .forward else .reverse := by
  unfold aLeadsDir
  split
  case h_5 row1 row2 row3 row4 =>
    have hrest : ((before.a, before.b), (after.a, after.b)) ∉ forwardSteps := by
      simp only [forwardSteps, List.mem_cons, Prod.mk.injEq, List.not_mem_nil, or_false]
      rintro (⟨⟨ha, hb⟩, ha', hb'⟩ | ⟨⟨ha, hb⟩, ha', hb'⟩ | ⟨⟨ha, hb⟩, ha', hb'⟩ | ⟨⟨ha, hb⟩, ha', hb'⟩)
      · exact row1 ha hb ha' hb'
      · exact row2 ha hb ha' hb'
      · exact row3 ha hb ha' hb'
      · exact row4 ha hb ha' hb'
    rw [if_neg hrest]
  all_goals simp [forwardSteps, *]

/-- `oppositeDir` turns the outcome of a test about. -/
theorem oppositeDir_ite (p : Prop) [Decidable p] :
    oppositeDir (if p then .forward else .reverse) = if p then .reverse else .forward :=
  apply_ite oppositeDir p .forward .reverse

/-- Settles O13: each of the three outcomes of `decodePair`, with a count's direction read off the table. -/
theorem quadratureTable : Obligations.QuadratureTable := by
  intro before after
  refine ⟨fun ⟨ha, hb⟩ sense => decodePair_of_both_changed sense ha hb,
    fun ⟨ha, hb⟩ sense => decodePair_of_unchanged sense ha hb, fun h => ⟨?aLeads, ?bLeads⟩⟩
  case aLeads =>
    rw [decodePair_of_one_changed .aLeads h]
    exact congrArg Decoded.count (aLeadsDir_eq_ite before after)
  case bLeads =>
    rw [decodePair_of_one_changed .bLeads h]
    have hdir : countDir .bLeads before after = oppositeDir (aLeadsDir before after) := rfl
    rw [hdir, aLeadsDir_eq_ite, oppositeDir_ite]
    rfl

end Sys2Proof.Machine
end

