-- ==== Sys2Proof/Proofs/PitchArithmetic.lean ====
section
/-! PROOFS. Proofs/PitchArithmetic.lean: what the Angle Unit computes with exact integers (chapter 2): the table angle
of a count (R22, R23), the runout correction between two entries (R26) and the trimmed blade and phase (R31). -/

namespace Sys2Proof.Machine

open Sys2Proof

/-! ### Table angle -/

/-- R22: the table angle is a floored quotient. -/
theorem tableAngle_eq (cpr c : Nat) : tableAngle cpr c = c * 16777216 / cpr := rfl

theorem tableAngle_lt_turn {cpr c : Nat} (h : c < cpr) : tableAngle cpr c < 16777216 :=
  Nat.div_lt_of_lt_mul (Nat.mul_lt_mul_of_pos_right h (by decide))

theorem tableAngle_zero (cpr : Nat) : tableAngle cpr 0 = 0 := by simp [tableAngle_eq]

theorem tableAngle_of_dvd {cpr : Nat} (h : cpr ∣ 16777216) (c : Nat) :
    tableAngle cpr c = c * (16777216 / cpr) :=
  Nat.mul_div_assoc c h

/-- The ceiling of 2^24 / CPR, by a floor. -/
theorem ceil_turn_eq {cpr : Nat} (h : 0 < cpr) : (16777216 + cpr - 1) / cpr = 16777215 / cpr + 1 := by
  have shift : 16777216 + cpr - 1 = 16777215 + cpr := by omega
  rw [shift, Nat.add_div_right _ h]

theorem ceil_turn_of_not_dvd {cpr : Nat} (h : 0 < cpr) (hd : ¬ cpr ∣ 16777216) :
    (16777216 + cpr - 1) / cpr = 16777216 / cpr + 1 := by
  have floors : 16777216 / cpr = 16777215 / cpr := Nat.succ_div_of_not_dvd hd
  rw [ceil_turn_eq h, floors]

/-- R23: the wrap from the last count to count 0 rises by the ceiling. -/
theorem tableAngle_last_add_ceil {cpr : Nat} (h : 0 < cpr) :
    tableAngle cpr (cpr - 1) + (16777216 + cpr - 1) / cpr = 16777216 := by
  have last : tableAngle cpr (cpr - 1) = 16777216 - (16777215 / cpr + 1) := by
    rw [tableAngle_eq, Nat.sub_mul, Nat.one_mul]
    exact Nat.mul_sub_div 16777215 cpr 16777216 (by omega)
  have share : 16777215 / cpr ≤ 16777215 := Nat.div_le_self _ _
  rw [last, ceil_turn_eq h]
  omega

/-- R23: a count rises by the floor or, where the remainders carry, by the ceiling. -/
theorem tableAngle_succ {cpr : Nat} (h : 0 < cpr) (c : Nat) :
    tableAngle cpr (c + 1) = tableAngle cpr c + 16777216 / cpr ∨
      tableAngle cpr (c + 1) = tableAngle cpr c + (16777216 + cpr - 1) / cpr := by
  have parts : tableAngle cpr (c + 1) = c * 16777216 / cpr + 16777216 / cpr +
      if cpr ≤ c * 16777216 % cpr + 16777216 % cpr then 1 else 0 := by
    rw [tableAngle_eq, Nat.succ_mul, Nat.add_div h]
  by_cases carry : cpr ≤ c * 16777216 % cpr + 16777216 % cpr
  case pos =>
    have not_dvd : ¬ cpr ∣ 16777216 := fun hd => by
      have below : c * 16777216 % cpr < cpr := Nat.mod_lt _ h
      have none_left : 16777216 % cpr = 0 := Nat.mod_eq_zero_of_dvd hd
      omega
    rw [if_pos carry] at parts
    rw [parts, ceil_turn_of_not_dvd h not_dvd]
    exact .inr (Nat.add_assoc _ _ _)
  case neg =>
    rw [if_neg carry] at parts
    exact .inl parts

/-- The floor of 2^24 / CPR is at least 1 for every CPR up to 2^24. -/
theorem tableAngle_lt_succ {cpr : Nat} (h : 0 < cpr) (hle : cpr ≤ 16777216) (c : Nat) :
    tableAngle cpr c < tableAngle cpr (c + 1) := by
  have floor_pos : 0 < 16777216 / cpr := Nat.div_pos hle h
  have ceil_pos : 0 < (16777216 + cpr - 1) / cpr := by
    rw [ceil_turn_eq h]
    exact Nat.succ_pos _
  rcases tableAngle_succ h c with rise | rise <;> rw [rise]
  · exact Nat.lt_add_of_pos_right floor_pos
  · exact Nat.lt_add_of_pos_right ceil_pos

/-- Settles O20: the floored quotient, its last value before the wrap, and the rise of one count. -/
theorem tableAngleRisesWithCount : Obligations.TableAngleRisesWithCount := by
  intro cpr hmin hmax
  have hpos : 0 < cpr := by omega
  exact ⟨fun c hc => ⟨tableAngle_eq cpr c, Nat.le_of_lt_succ (tableAngle_lt_turn hc)⟩, tableAngle_zero cpr,
    tableAngle_last_add_ceil hpos, tableAngle_of_dvd,
    fun c _ => ⟨tableAngle_lt_succ hpos hmax c, tableAngle_succ hpos c⟩, by decide⟩

/-! ### Runout correction -/

/-- What a rounding mode adds to a magnitude, in units of 1 / 65,536, before the floor (R20). -/
def roundingBias : Rounding → Nat
  | .chop => 0
  | .nearest => 32768

/-- How far the correction has moved from an entry towards the next one, `n` LU away, at fraction `f`. -/
def runoutMove (mode : Rounding) (n f : Nat) : Nat := (n * f + roundingBias mode) / 65536

/-- R20 for a product that is not negative: the magnitude with the mode's bias, floored. -/
theorem rnd_natCast (mode : Rounding) (n : Nat) :
    rnd mode n 65536 = ((n + roundingBias mode) / 65536 : Nat) := by
  have not_neg : ¬ (n : Int) < 0 := by omega
  cases mode with
  | chop => simp only [rnd, if_neg not_neg, Int.natAbs_natCast, roundingBias, Nat.add_zero]
  | nearest =>
    simp only [rnd, if_neg not_neg, Int.natAbs_natCast, roundingBias]
    split <;> omega

/-- R20: rounding is by magnitude, so it commutes with a change of sign. -/
theorem rnd_neg (mode : Rounding) (n : Nat) : rnd mode (-n) 65536 = -rnd mode n 65536 := by
  rcases Nat.eq_zero_or_pos n with rfl | hpos
  · cases mode <;> rfl
  · have neg : (-n : Int) < 0 := by omega
    have not_neg : ¬ (n : Int) < 0 := by omega
    simp only [rnd, if_pos neg, if_neg not_neg, Int.natAbs_neg]

/-- R24, R25: the correction starts from its entry and moves towards the next one. -/
theorem runoutCorrection_eq (table : List Int) (mode : Rounding) (theta : Nat) :
    let here := runoutEntry table (theta / 65536)
    let delta := runoutEntry table ((theta / 65536 + 1) % 256) - here
    runoutCorrection table mode theta =
      here + if 0 ≤ delta then (runoutMove mode delta.natAbs (theta % 65536) : Int)
        else -(runoutMove mode delta.natAbs (theta % 65536) : Int) := by
  intro here delta
  have start : runoutCorrection table mode theta = here + rnd mode (delta * (theta % 65536 : Nat)) 65536 := rfl
  rw [start]
  congr 1
  split
  case isTrue rising =>
    obtain ⟨n, hn⟩ := Int.eq_ofNat_of_zero_le rising
    rw [hn, ← Int.natCast_mul, rnd_natCast, Int.natAbs_natCast, runoutMove]
  case isFalse falling =>
    obtain ⟨n, hn⟩ := Int.eq_ofNat_of_zero_le (show 0 ≤ -delta by omega)
    have hd : delta = -n := by omega
    rw [hd, Int.neg_mul, ← Int.natCast_mul, rnd_neg, rnd_natCast, Int.natAbs_neg, Int.natAbs_natCast, runoutMove]

theorem runoutMove_zero (mode : Rounding) (f : Nat) : runoutMove mode 0 f = 0 := by
  cases mode <;> simp [runoutMove, roundingBias]

/-- The move in terms of what is left of the segment: `n * f` is a whole `n` less the rest. -/
theorem mul_fraction_add_rest {f : Nat} (hf : f < 65536) (n : Nat) : n * f + n * (65536 - f) = n * 65536 := by
  rw [← Nat.mul_add]
  congr 1
  omega

theorem runoutMove_le (mode : Rounding) (n : Nat) {f : Nat} (hf : f < 65536) : runoutMove mode n f ≤ n := by
  have whole := mul_fraction_add_rest hf n
  have bias_lt : roundingBias mode < 65536 := by cases mode <;> decide
  unfold runoutMove
  omega

/-- A move short of the next entry: what is left outweighs the bias. -/
theorem runoutMove_lt_iff (mode : Rounding) (n : Nat) {f : Nat} (hf : f < 65536) :
    runoutMove mode n f < n ↔ roundingBias mode < n * (65536 - f) := by
  have whole := mul_fraction_add_rest hf n
  unfold runoutMove
  omega

/-- A segment taller than its mode's bias is not finished at any fraction, and at the last one 1 LU is missing. -/
theorem runoutMove_of_bias_lt {mode : Rounding} {n f : Nat} (hn : roundingBias mode < n) (hmax : n ≤ 65535)
    (hf : f < 65536) :
    runoutMove mode n f + 1 ≤ n ∧ (f = 65535 → runoutMove mode n f + 1 = n) := by
  have rest : n ≤ n * (65536 - f) := Nat.le_mul_of_pos_right n (by omega)
  refine ⟨(runoutMove_lt_iff mode n hf).mpr (by omega), fun last => ?_⟩
  unfold runoutMove
  subst last
  omega

/-- R26: NEAREST reaches the next entry of a low segment at the threshold fraction. -/
theorem runoutMove_nearest_eq_iff {n f : Nat} (hn : 1 ≤ n) (hf : f < 65536) :
    runoutMove .nearest n f = n ↔ 65536 ≤ f + 32768 / n := by
  have le := runoutMove_le .nearest n hf
  have reach : runoutMove .nearest n f = n ↔ ¬ runoutMove .nearest n f < n := by omega
  calc runoutMove .nearest n f = n
      ↔ (65536 - f) * n ≤ 32768 := by
        rw [reach, runoutMove_lt_iff .nearest n hf, roundingBias, Nat.mul_comm, Nat.not_lt]
    _ ↔ 65536 - f ≤ 32768 / n := (Nat.le_div_iff_mul_le hn).symm
    _ ↔ 65536 ≤ f + 32768 / n := by omega

/-- Settles O21: the correction is its entry and a move towards the next (`runoutCorrection_eq`), so each clause is one
about the move. -/
theorem runoutBetweenEntries : Obligations.RunoutBetweenEntries := by
  intro table theta _ hrange here next f n rho
  have hf : f < 65536 := Nat.mod_lt _ (by decide)
  have hmax : n ≤ 65535 := by
    have here_range := hrange (theta / 65536)
    have next_range := hrange ((theta / 65536 + 1) % 256)
    omega
  have moves (mode : Rounding) : rho mode =
      here + if 0 ≤ next - here then (runoutMove mode n f : Int) else -(runoutMove mode n f : Int) :=
    runoutCorrection_eq table mode theta
  have distance (mode : Rounding) : (rho mode - here).natAbs = runoutMove mode n f := by
    rw [moves]; split <;> omega
  refine ⟨fun mode => ?between, fun equal mode => ?equal, fun hn => ?chop, fun hn _ => ?nearestLow,
    fun hn => ?nearestHigh⟩
  case between =>
    have le := runoutMove_le mode n hf
    rw [moves]; split <;> omega
  case equal =>
    have none_moved := distance mode
    rw [equal, runoutMove_zero] at none_moved
    omega
  case chop =>
    rw [distance]
    exact runoutMove_of_bias_lt (Nat.pos_of_ne_zero hn) hmax hf
  case nearestLow =>
    rw [← runoutMove_nearest_eq_iff hn hf, moves]
    split <;> omega
  case nearestHigh =>
    rw [distance]
    exact runoutMove_of_bias_lt hn hmax hf

/-! ### Trimmed pitch -/

/-- Every trim of a loadable workpiece is within ± 2^20 PU (R39). -/
theorem trim_bounds {w : Workpiece} (hw : workpieceOk w) (k : Nat) : -1048576 ≤ trim w k ∧ trim w k ≤ 1048576 := by
  obtain ⟨-, -, -, -, htrims⟩ := hw
  unfold trim
  by_cases hk : k < w.trims.length
  case pos =>
    rw [List.getD_eq_getElem _ _ hk]
    exact htrims _ (List.getElem_mem hk)
  case neg =>
    rw [List.getD_eq_default _ _ (Nat.not_lt.mp hk)]
    decide

/-- L(k) without the truncation to a natural number. -/
theorem pitchLength_eq {w : Workpiece} (hw : workpieceOk w) (k : Nat) :
    (pitchLength w k : Int) = 16777216 + trim w (nextBlade w k) - trim w k := by
  have own := trim_bounds hw k
  have after := trim_bounds hw (nextBlade w k)
  simp only [pitchLength, pitchUnits]
  omega

theorem pitchLength_bounds {w : Workpiece} (hw : workpieceOk w) (k : Nat) :
    14680064 ≤ pitchLength w k ∧ pitchLength w k ≤ 18874368 := by
  have own := trim_bounds hw k
  have after := trim_bounds hw (nextBlade w k)
  have length := pitchLength_eq hw k
  omega

theorem nextBlade_prevBlade {w : Workpiece} {k : Nat} (hk : k < w.blades) : nextBlade w (prevBlade w k) = k := by
  have around : k + w.blades - 1 + 1 = k + w.blades := by omega
  rw [nextBlade, prevBlade, Nat.mod_add_mod, around, Nat.add_mod_right, Nat.mod_eq_of_lt hk]

/-- R28: the nominal blade and phase are quotient and remainder of Q, within the workpiece and the pitch. -/
theorem nominal_bounds {w : Workpiece} (hw : workpieceOk w) (theta : Nat) :
    (nominal w theta).blade < w.blades ∧ (nominal w theta).phase < 16777216 ∧
      (nominal w theta).blade * 16777216 + (nominal w theta).phase = turnPhase w theta := by
  obtain ⟨hblades, -⟩ := hw
  have offset : (((theta : Int) - w.datum) % (pitchUnits : Int)).toNat < 16777216 := by
    simp only [pitchUnits]
    omega
  exact ⟨Nat.div_lt_of_lt_mul (Nat.mul_lt_mul_of_pos_right offset hblades), Nat.mod_lt _ (by decide),
    Nat.div_add_mod' _ _⟩

/-- R30: the test that the phase has passed in each of the three cases. -/
theorem trimCase_tests (w : Workpiece) (n : BladePhase) :
    (trimCase w n = .before → (n.phase : Int) < trim w n.blade) ∧
    (trimCase w n = .within →
      trim w n.blade ≤ n.phase ∧ (n.phase : Int) < 16777216 + trim w (nextBlade w n.blade)) ∧
    (trimCase w n = .after → 16777216 + trim w (nextBlade w n.blade) ≤ n.phase) := by
  unfold trimCase pitchUnits
  split
  case isTrue before_start => simp [before_start]
  case isFalse from_start =>
    split
    case isTrue before_end => simpa using ⟨Int.not_lt.mp from_start, before_end⟩
    case isFalse from_end => simpa using Int.not_lt.mp from_end

/-- R30, first case: the phase lies before the start of its blade's trimmed pitch. -/
theorem trimmed_of_before {w : Workpiece} (hw : workpieceOk w) {n : BladePhase} (h : trimCase w n = .before) :
    (trimmed w n).blade = prevBlade w n.blade ∧
      ((trimmed w n).phase : Int) = n.phase + 16777216 - trim w (prevBlade w n.blade) ∧
      (n.phase : Int) < trim w n.blade := by
  have own := trim_bounds hw (prevBlade w n.blade)
  obtain ⟨tests, -, -⟩ := trimCase_tests w n
  have passed := tests h
  simp only [trimmed, h, pitchUnits, true_and]
  omega

/-- R30, second case: the phase lies in its blade's trimmed pitch. -/
theorem trimmed_of_within {w : Workpiece} {n : BladePhase} (h : trimCase w n = .within) :
    (trimmed w n).blade = n.blade ∧ ((trimmed w n).phase : Int) = n.phase - trim w n.blade ∧
      (n.phase : Int) < 16777216 + trim w (nextBlade w n.blade) := by
  obtain ⟨-, tests, -⟩ := trimCase_tests w n
  have passed := tests h
  simp only [trimmed, h, true_and]
  omega

/-- R30, third case: the phase lies past the end of its blade's trimmed pitch. -/
theorem trimmed_of_after {w : Workpiece} {n : BladePhase} (h : trimCase w n = .after) :
    (trimmed w n).blade = nextBlade w n.blade ∧
      ((trimmed w n).phase : Int) = n.phase - 16777216 - trim w (nextBlade w n.blade) := by
  obtain ⟨-, -, tests⟩ := trimCase_tests w n
  have passed := tests h
  simp only [trimmed, h, pitchUnits, true_and]
  omega

theorem trimmed_blade_lt {w : Workpiece} (hw : workpieceOk w) {n : BladePhase} (hblade : n.blade < w.blades) :
    (trimmed w n).blade < w.blades := by
  cases h : trimCase w n with
  | before => rw [(trimmed_of_before hw h).1]; exact Nat.mod_lt _ hw.1
  | within => rwa [(trimmed_of_within h).1]
  | after => rw [(trimmed_of_after h).1]; exact Nat.mod_lt _ hw.1

/-- R31: the trimmed phase stays within the trimmed pitch. -/
theorem trimmed_phase_lt {w : Workpiece} (hw : workpieceOk w) {n : BladePhase} (hblade : n.blade < w.blades)
    (hphase : n.phase < 16777216) : (trimmed w n).phase < pitchLength w (trimmed w n).blade := by
  have length := pitchLength_eq hw (trimmed w n).blade
  cases h : trimCase w n with
  | before =>
    obtain ⟨blade, phase, lt⟩ := trimmed_of_before hw h
    rw [blade] at length ⊢
    rw [nextBlade_prevBlade hblade] at length
    omega
  | within =>
    obtain ⟨blade, phase, lt⟩ := trimmed_of_within h
    rw [blade] at length ⊢
    omega
  | after =>
    obtain ⟨blade, phase⟩ := trimmed_of_after h
    have bounds := trim_bounds hw (nextBlade w (nextBlade w n.blade))
    rw [blade] at length ⊢
    omega

/-- R31: a phase that BEFORE moves to the previous blade lies near that pitch's end. -/
theorem le_trimmed_phase_of_before {w : Workpiece} (hw : workpieceOk w) {n : BladePhase}
    (h : trimCase w n = .before) : 15728640 ≤ (trimmed w n).phase := by
  obtain ⟨-, phase, -⟩ := trimmed_of_before hw h
  have bounds := trim_bounds hw (prevBlade w n.blade)
  omega

/-- R31: a phase that AFTER moves to the next blade lies near that pitch's start. -/
theorem trimmed_phase_lt_of_after {w : Workpiece} (hw : workpieceOk w) {n : BladePhase} (hphase : n.phase < 16777216)
    (h : trimCase w n = .after) : (trimmed w n).phase < 1048576 := by
  obtain ⟨-, phase⟩ := trimmed_of_after h
  have bounds := trim_bounds hw (nextBlade w n.blade)
  omega

/-- The nominal pitch of the next blade starts one pitch further around the turn. -/
theorem nextBlade_start_modEq (w : Workpiece) (k : Nat) :
    (nextBlade w k : Int) * 16777216 ≡ (k + 1) * 16777216 [ZMOD w.blades * 16777216] := by
  refine Int.ModEq.mul_right' ?_
  rw [nextBlade, Int.natCast_mod, Int.natCast_add]
  exact Int.mod_modEq _ _

/-- R31: the start of the trimmed pitch and the trimmed phase add up to the nominal position, around the turn. -/
theorem trimmed_position_modEq {w : Workpiece} (hw : workpieceOk w) {n : BladePhase} (hblade : n.blade < w.blades) :
    let t := trimmed w n
    (t.blade : Int) * 16777216 + trim w t.blade + t.phase ≡
      (n.blade : Int) * 16777216 + n.phase [ZMOD w.blades * 16777216] := by
  intro t
  cases h : trimCase w n with
  | before =>
    obtain ⟨blade, phase, -⟩ := trimmed_of_before hw h
    have start := nextBlade_start_modEq w (prevBlade w n.blade)
    rw [nextBlade_prevBlade hblade] at start
    calc (t.blade : Int) * 16777216 + trim w t.blade + t.phase
        = ((prevBlade w n.blade : Int) + 1) * 16777216 + n.phase := by rw [blade, phase]; ring
      _ ≡ (n.blade : Int) * 16777216 + n.phase [ZMOD w.blades * 16777216] := start.symm.add_right _
  | within =>
    obtain ⟨blade, phase, -⟩ := trimmed_of_within h
    have same : (t.blade : Int) * 16777216 + trim w t.blade + t.phase = (n.blade : Int) * 16777216 + n.phase := by
      rw [blade, phase]
      ring
    rw [same]
  | after =>
    obtain ⟨blade, phase⟩ := trimmed_of_after h
    calc (t.blade : Int) * 16777216 + trim w t.blade + t.phase
        = (nextBlade w n.blade : Int) * 16777216 + (n.phase - 16777216) := by rw [blade, phase]; ring
      _ ≡ ((n.blade : Int) + 1) * 16777216 + (n.phase - 16777216) [ZMOD w.blades * 16777216] :=
        (nextBlade_start_modEq w n.blade).add_right _
      _ = (n.blade : Int) * 16777216 + n.phase := by ring

/-- Settles O22: the three cases of R30 keep the phase in the pitch and the position on the turn. -/
theorem trimmedPhaseInPitch : Obligations.TrimmedPhaseInPitch := by
  intro w theta hw _ n t turn
  obtain ⟨hblade, hphase, hq⟩ := nominal_bounds hw theta
  obtain ⟨shortest, longest⟩ := pitchLength_bounds hw t.blade
  have inside : t.phase < pitchLength w t.blade := trimmed_phase_lt hw hblade hphase
  have position := trimmed_position_modEq hw hblade
  refine ⟨trimmed_blade_lt hw hblade, inside, by omega, pitchLength_eq hw t.blade, shortest, longest, ?position,
    le_trimmed_phase_of_before hw, trimmed_phase_lt_of_after hw hphase⟩
  rw [← hq, Nat.cast_add, Nat.cast_mul]
  exact position

end Sys2Proof.Machine
end

