-- ==== Sys2Proof/Proofs/Resets.lean ====
section
/-! PROOFS. Proofs/Resets.lean: what the three resets leave in the blocks that keep nothing over a reset (R196, R197). -/

namespace Sys2Proof.Machine

open Sys2Proof

/-- The moment of a request reset, as the command tests it (R197). -/
theorem rsetReplySent_iff (s : State) : rsetReplySent s ↔ (rsetReplyTaken s && txDone s) = true := by
  simp only [rsetReplySent, rsetReplyTaken, Bool.and_eq_true, txDone_iff, Option.isNone_iff_eq_none, and_assoc]

/-- R196, R197: the three commands differ in the reset-cause set alone. -/
theorem exec_of_isReset {c : Instr} {s : State} {causes : ResetCauses} (h : isReset c s causes) :
    exec c s = .next (resetPart causes s) := by
  obtain ⟨rfl, rfl⟩ | ⟨rfl, rfl⟩ | ⟨rfl, rfl, hsent⟩ := h
  case inl => rfl
  case inr.inl => rfl
  case inr.inr => exact if_pos ((rsetReplySent_iff s).mp hsent)

/-- The blocks that start afresh whatever the state was: the gates, which a reset drives last, touch none of them. -/
theorem resetPart_working_blocks (causes : ResetCauses) (s : State) :
    (resetPart causes s).wbk = Wbk.reset ∧ (resetPart causes s).psc = Psc.reset ∧
      (resetPart causes s).prb = Prb.reset ∧ (resetPart causes s).pnt = Pnt.reset ∧
      (resetPart causes s).stack = [] ∧ (resetPart causes s).lnk = Lnk.reset causes := by
  simp only [resetPart, gatesReset_frame, and_self]

/-- Settles O10: every reset is `resetPart`, and the values that the statement writes out are those of its tables. -/
theorem resetClearsWorkingBlocks : Obligations.ResetClearsWorkingBlocks :=
  fun _ s causes h => ⟨resetPart causes s, exec_of_isReset h, resetPart_working_blocks causes s⟩

end Sys2Proof.Machine
end

