-- ==== Sys2Proof/Proofs/HoldRequest.lean ====
section
/-! PROOFS. Proofs/HoldRequest.lean: what a HOLD request makes of the sense and the condition (R94, R95). -/

namespace Sys2Proof.Machine

open Sys2Proof

/-! ### The dispatch of a request of the right length (R191, R192) -/

theorem dispatchFixed_of_canDispatch {kind : Byte} {p : List Byte} {s : State} (h : CanDispatch kind p s)
    (owner : State → Answer) :
    dispatchFixed kind p.length p owner s = .next (placeReply (replyKind kind) (owner (takeRequest s))) := by
  have hdisp : dispatchable ⟨kind, p⟩ s = true := (dispatchable_iff ⟨kind, p⟩ s).mpr h
  simp [dispatchFixed, dispatch, hdisp]

/-- The state between the taking of a request and its reply is not seen where the rule changes nothing (R192). -/
theorem placeReply_takeRequest (kind : Byte) (content : List Byte) (s : State) :
    placeReply kind (content, takeRequest s) = { s with lnk := answered s.lnk kind content } := rfl

/-! ### The code of a sense -/

theorem holdSenseOfCode_of_three_le {n : Nat} (h : 3 ≤ n) : holdSenseOfCode n = none := by
  unfold holdSenseOfCode
  rw [if_neg (by omega), if_neg (by omega), if_neg (by omega)]

theorem holdSenseOfCode_holdSenseCode (sense : HoldSense) :
    holdSenseOfCode (holdSenseCode sense).toNat = some sense := by
  cases sense <;> rfl

theorem fieldNat_singleton (b : Byte) : fieldNat [b] 0 1 = b.toNat := by
  simp [fieldNat, fieldBytes, natOfBytes]

/-! ### The condition worked out again (R94) -/

/-- The sense and the qualified level stand; the condition follows from them, whether it changes or not. -/
theorem updateHold_hold (s : State) :
    (updateHold s).hold = { s.hold with active := holdCondition s.hold.sense s.hold.qualified } := by
  unfold updateHold
  dsimp only
  split
  case isTrue unchanged => rw [unchanged]
  case isFalse => rfl

theorem updateHold_of_unchanged {s : State} (h : holdCondition s.hold.sense s.hold.qualified = s.hold.active) :
    updateHold s = s :=
  if_pos h

theorem updateHold_of_changed {s : State} (h : holdCondition s.hold.sense s.hold.qualified ≠ s.hold.active) :
    updateHold s = raise (.holdChange (holdCondition s.hold.sense s.hold.qualified))
      (s.setHold { s.hold with active := holdCondition s.hold.sense s.hold.qualified }) :=
  if_neg h

/-! ### The request (R95) -/

/-- R95, first row. -/
theorem answerHold_of_illegal {b : Byte} (h : 3 ≤ b.toNat) (s : State) : answerHold [b] s = refuse .badArg s := by
  simp only [answerHold, fieldNat_singleton, holdSenseOfCode_of_three_le h]

/-- R95, second row: the reply tells the sense and the level in force and the condition that follows from them. -/
theorem answerHold_of_legal (sense : HoldSense) (s : State) :
    answerHold [holdSenseCode sense] s =
      accept [holdSenseCode sense, byteOfBool s.hold.qualified, byteOfBool (holdCondition sense s.hold.qualified)]
        (updateHold (s.setHold { s.hold with sense := sense })) := by
  simp only [answerHold, fieldNat_singleton, holdSenseOfCode_holdSenseCode, updateHold_hold, State.setHold_hold]

theorem exec_hold_of_canDispatch {b : Byte} {s : State} (h : CanDispatch 0x14#8 [b] s) :
    exec (.hold [b]) s = .next (placeReply 0x94#8 (answerHold [b] (takeRequest s))) :=
  dispatchFixed_of_canDispatch h (answerHold [b])

/-- Settles O28: the two rows of R95, with the condition that R94 gives kept or changed. -/
theorem holdRequestSetsSense : Obligations.HoldRequestSetsSense := by
  intro s b hdisp
  rw [exec_hold_of_canDispatch hdisp]
  refine ⟨fun illegal => ?illegal, ?legal⟩
  case illegal =>
    rw [answerHold_of_illegal illegal]
    exact congrArg Host.Outcome.next (placeReply_takeRequest _ _ s)
  case legal =>
    rintro sense rfl now reply
    rw [answerHold_of_legal]
    have condition : holdCondition sense s.hold.qualified = now := rfl
    refine ⟨fun unchanged => ?unchanged, fun changed => ?changed⟩
    case unchanged =>
      rw [updateHold_of_unchanged (condition.trans unchanged)]
      rfl
    case changed =>
      rw [updateHold_of_changed (fun same => changed (condition.symm.trans same))]
      rfl

end Sys2Proof.Machine
end

