-- ==== Sys2Proof/Proofs/CalibrationEdits.lean ====
section
/-! PROOFS. Proofs/CalibrationEdits.lean: what an MNTS and a CWR make of the working copy (R178, R179). -/

namespace Sys2Proof.Machine

open Sys2Proof

theorem dispatchFixed_of_length {kind : Byte} {p : List Byte} {s : State} {len : Nat} (h : CanDispatch kind p s)
    (hlen : p.length = len) (owner : State → Answer) :
    dispatchFixed kind len p owner s = .next (placeReply (replyKind kind) (owner (takeRequest s))) := by
  subst hlen
  exact dispatchFixed_of_canDispatch h owner

theorem placeReply_refuse (kind : Byte) (st : Status) (s : State) :
    placeReply kind (refuse st (takeRequest s)) =
      { s with lnk := answered s.lnk kind [statusCode st, 0#8, 0#8] } :=
  placeReply_takeRequest kind [statusCode st, 0#8, 0#8] s

/-! ### The rows that the edits share (R178, R179) -/

theorem programming_iff (s : State) : programming s = true ↔ s.cal.programming ≠ none :=
  Option.isSome_iff_ne_none

theorem not_leadIdle_iff (s : State) : (!leadIdle s) = true ↔ s.psc.lead ≠ none := by
  simp [leadIdle, Option.isSome_iff_ne_none]

/-- An edit that needs the lead IDLE: LOCKED, an operation in progress and a lead refuse it, in this order, and only
then does its own rule answer. -/
def editAnswer (own : State → Answer) (s : State) : Answer :=
  if s.cal.locked then refuse .locked s
  else if programming s then refuse .busy s
  else if !leadIdle s then refuse .busy s
  else own s

section Rows

variable (own : State → Answer) {s : State}

theorem editAnswer_of_locked (h : s.cal.locked = true) : editAnswer own s = refuse .locked s := if_pos h

theorem editAnswer_of_programming (unlocked : ¬ s.cal.locked = true) (h : s.cal.programming ≠ none) :
    editAnswer own s = refuse .busy s := by
  rw [editAnswer, if_neg unlocked, if_pos ((programming_iff s).mpr h)]

theorem editAnswer_of_lead (unlocked : ¬ s.cal.locked = true) (atRest : ¬ s.cal.programming ≠ none)
    (h : s.psc.lead ≠ none) : editAnswer own s = refuse .busy s := by
  rw [editAnswer, if_neg unlocked, if_neg (mt (programming_iff s).mp atRest), if_pos ((not_leadIdle_iff s).mpr h)]

theorem editAnswer_of_open (unlocked : ¬ s.cal.locked = true) (atRest : ¬ s.cal.programming ≠ none)
    (idle : ¬ s.psc.lead ≠ none) : editAnswer own s = own s := by
  rw [editAnswer, if_neg unlocked, if_neg (mt (programming_iff s).mp atRest), if_neg (mt (not_leadIdle_iff s).mp idle)]

end Rows

/-- A request that an edit answers is refused by the first shared row that matches; past them, what the edit's own rule
makes of it decides. -/
theorem rows_of_editAnswer {kind : Byte} {own : State → Answer} {s : State}
    {out : Host.Outcome State Fault Refusal} {ownRows : Prop}
    (hout : out = .next (placeReply kind (editAnswer own (takeRequest s))))
    (hown : out = .next (placeReply kind (own (takeRequest s))) → ownRows) :
    let refused := fun st : Byte => out = .next { s with lnk := answered s.lnk kind [st, 0#8, 0#8] }
    if s.cal.locked = true then refused 4#8
    else if s.cal.programming ≠ none then refused 1#8
    else if s.psc.lead ≠ none then refused 1#8
    else ownRows := by
  intro refused
  split_ifs with locked busy lead
  · rw [editAnswer_of_locked own (s := takeRequest s) locked, placeReply_refuse] at hout
    exact hout
  · rw [editAnswer_of_programming own (s := takeRequest s) locked busy, placeReply_refuse] at hout
    exact hout
  · rw [editAnswer_of_lead own (s := takeRequest s) locked busy lead, placeReply_refuse] at hout
    exact hout
  · rw [editAnswer_of_open own (s := takeRequest s) locked busy lead] at hout
    exact hown hout

/-- The state between the taking of a request and its reply is not seen where the rule edits the working copy (R177,
R192). -/
theorem placeReply_accept_editWorking (kind : Byte) (content : List Byte) (w : Settings) (s : State) :
    placeReply kind (accept content (editWorking w (takeRequest s))) =
      { s with
        cal := { s.cal with working := w, origin := .edited }
        lnk := answered s.lnk kind (0#8 :: content) } := rfl

/-! ### The mounting constants (R178) -/

/-- MNTS past the shared rows: the range of R0, the range of S, the edit. -/
def mntsAnswer (p : List Byte) (s : State) : Answer :=
  if mountMax < fieldNat p 0 4 then refuse .badArg s
  else if fieldNat p 4 4 < 32768 ∨ 65536 < fieldNat p 4 4 then refuse .badArg s
  else accept (beNat 4 (fieldNat p 0 4) ++ beNat 4 (fieldNat p 4 4) ++ [2#8])
    (editWorking { s.cal.working with r0 := fieldNat p 0 4, scale := fieldNat p 4 4 } s)

theorem answerMnts_eq_editAnswer (p : List Byte) : answerMnts p = editAnswer (mntsAnswer p) := rfl

theorem exec_mnts_of_canDispatch {p : List Byte} {s : State} (h : CanDispatch 0x07#8 p s) (hlen : p.length = 8) :
    exec (.mnts p) s = .next (placeReply 0x87#8 (editAnswer (mntsAnswer p) (takeRequest s))) := by
  rw [← answerMnts_eq_editAnswer]
  exact dispatchFixed_of_length h hlen (answerMnts p)

/-! ### The runout table (R179) -/

/-- CWR past the shared rows. -/
def cwrAnswer (p : List Byte) (s : State) : Answer :=
  accept [2#8, 0#8, 0#8, 1#8, 0#8] (editWorking { s.cal.working with runout := readCwr p } s)

theorem answerCwr_eq_editAnswer (p : List Byte) : answerCwr p = editAnswer (cwrAnswer p) := rfl

theorem exec_cwr_of_canDispatch {p : List Byte} {s : State} (h : CanDispatch 0x08#8 p s) (hlen : p.length = 512) :
    exec (.cwr p) s = .next (placeReply 0x88#8 (editAnswer (cwrAnswer p) (takeRequest s))) := by
  rw [← answerCwr_eq_editAnswer]
  exact dispatchFixed_of_length h hlen (answerCwr p)

theorem readCwr_length (p : List Byte) : (readCwr p).length = 256 := by
  rw [readCwr, List.length_map, List.length_range]

theorem runoutEntry_readCwr (p : List Byte) {i : Nat} (h : i < 256) :
    runoutEntry (readCwr p) i = fieldInt p (2 * i) 2 := by
  simp [runoutEntry, readCwr, h]

/-- Settles O55: past the rows that both edits share (`rows_of_editAnswer`), the ranges of MNTS and the two edits. -/
theorem mntsAndCwrEdit : Obligations.MntsAndCwrEdit := by
  intro s p
  refine ⟨fun hdisp hlen => rows_of_editAnswer (exec_mnts_of_canDispatch hdisp hlen) fun taken => ?mnts,
    fun hdisp hlen => rows_of_editAnswer (exec_cwr_of_canDispatch hdisp hlen) fun taken => ?cwr⟩
  case mnts =>
    unfold mntsAnswer mountMax at taken
    split_ifs at taken ⊢ with radius scale
    · rwa [placeReply_refuse] at taken
    · rwa [placeReply_refuse] at taken
    · rwa [placeReply_accept_editWorking] at taken
  case cwr =>
    exact ⟨readCwr p, readCwr_length p, fun i hi => runoutEntry_readCwr p hi, taken⟩

end Sys2Proof.Machine
end

