-- ==== Sys2Proof/Proofs/Commands.lean ====
section
/-! PROOFS. Proofs/Commands.lean: what each command can make of the part, said once (`Work`), and how an invariant of every
step is proved from it (`Kept`). -/

namespace Sys2Proof.Machine

open Sys2Proof

/-! ### Requests as LNK dispatches them (R191, R192) -/

/-- A request command as LNK sees it: its kind, its payload, whether the payload's length is right, and the rule of the
block that owns it. -/
structure Request where
  kind : Byte
  payload : List Byte
  lengthOk : Bool
  owner : State → Answer

/-- The request of a command; an event is none, and no more is the dispatch of an unknown kind, which no block owns. -/
def requestOf : Instr → Option Request
  | .idnt p => some ⟨kindIdnt, p, p.length == 0, answerIdnt⟩
  | .rset p => some ⟨kindRset, p, p.length == 0, answerRset⟩
  | .stat p => some ⟨kindStat, p, p.length == 0, answerStat⟩
  | .cclr p => some ⟨kindCclr, p, p.length == 0, answerCclr⟩
  | .nmsk p => some ⟨kindNmsk, p, p.length == 2, answerNmsk p⟩
  | .encf p => some ⟨kindEncf, p, p.length == 8, answerEncf p⟩
  | .mnts p => some ⟨kindMnts, p, p.length == 8, answerMnts p⟩
  | .cwr p => some ⟨kindCwr, p, p.length == 512, answerCwr p⟩
  | .crd p => some ⟨kindCrd, p, p.length == 0, answerCrd⟩
  | .gsaf p => some ⟨kindGsaf, p, p.length == 8, answerGsaf p⟩
  | .ccmt p => some ⟨kindCcmt, p, p.length == 0, answerProgram .ccmt⟩
  | .clck p => some ⟨kindClck, p, p.length == 0, answerProgram .clck⟩
  | .cers p => some ⟨kindCers, p, p.length == 0, answerCers⟩
  | .wkld p => some ⟨kindWkld, p, decide (4 ≤ p.length), answerWkld p⟩
  | .stcl p => some ⟨kindStcl, p, p.length == 0, answerStcl⟩
  | .stwn p => some ⟨kindStwn, p, p.length == 19, answerStwn p⟩
  | .stgt p => some ⟨kindStgt, p, p.length == 17, answerStgt p⟩
  | .swap p => some ⟨kindSwap, p, p.length == 0, answerSwap⟩
  | .swcn p => some ⟨kindSwcn, p, p.length == 0, answerSwcn⟩
  | .hold p => some ⟨kindHold, p, p.length == 1, answerHold p⟩
  | .gclr p => some ⟨kindGclr, p, p.length == 1, answerGclr p⟩
  | .prbf p => some ⟨kindPrbf, p, p.length == 4, answerPrbf p⟩
  | .armp p => some ⟨kindArmp, p, p.length == 24, answerArmp p⟩
  | .abrt p => some ⟨kindAbrt, p, p.length == 0, answerAbrt⟩
  | _ => none

/-- Every request command is the dispatch of its request. -/
theorem exec_of_requestOf {c : Instr} {r : Request} (h : requestOf c = some r) (s : State) :
    exec c s = dispatch r.kind r.payload r.lengthOk r.owner s := by
  cases c <;> cases h <;> rfl

/-! ### The work of a command -/

/-- The sampling of the lines touches nothing of ENC but the input filter and the index-armed flag (R1, R6). -/
def samplesOnly (e e' : Enc) : Prop :=
  e' = { e with
    primed := e'.primed, accepted := e'.accepted, noted := e'.noted
    nextSample := e'.nextSample, indexArmed := e'.indexArmed }

/-- What command `c` can make of the part, apart from LNK's taking of a request and placing of its reply: one case for
each effect, under the conditions of its rule. -/
inductive Work : Instr → State → State → Prop
  | nothing (c s) : Work c s s
  | reset {c s causes} (h : isReset c s causes) : Work c s (resetPart causes s)
  | update {l s} (h : acceptsUpdate s l) : Work (.acceptedUpdate l) s (acceptUpdate l (sampled s))
  | sample {l s e} (h : samplesOnly s.enc e) : Work (.filterSample l) s (s.setEnc e)
  | stall {s} : Work .stallExpiry s (endRunningLead .stalled s)
  | holdPin {level s h} : Work (.holdPinChange level) s (s.setHold h)
  | holdQualified {s h} : Work .holdQualified s (updateHold (s.setHold h))
  | reading {items s} (t) : Work (.reading items) s (items.foldl takeProbeItem (discardAtGap t s))
  | gap {s} : Work .readingGapTimeout s (discardAtGap s.now s)
  | timeout {s} : Work .tagTimeout s (timeoutHead s)
  | frameStart {s} : Work .triggerFrameStart s (s.setPrb (startWaiting s.now s.prb))
  | sense {n level s} : Work (.loadSenseChange n level) s (s.setGte { s.gte with
      gates := s.gte.gates.set n (senseGate s.now level (s.gte.gates.get n)) })
  | qualification {s} : Work .qualificationExpiry s (gateNumbers.foldl latchExpired s)
  | completion {result p s} (h : s.cal.programming = some p) :
      Work (.programCompletion result) s (completeProgram p.op result s)
  | received {items s} : Work (.hostFrame items) s (items.foldl takeRx s)
  | boundary {span s} : Work .recordBoundary s (openRecord span s)
  | causes {p s} : Work (.idnt p) s (s.setLnk { s.lnk with causes := ⟨false, false, false⟩ })
  | closed {p s} : Work (.rset p) s (s.setLnk { s.lnk with rsetTaken := true })
  | masked {p s mask} : Work (.nmsk p) s (s.setLnk { s.lnk with mask := mask })
  | cleared {p s} : Work (.cclr p) s
      ((s.setLnk { s.lnk with errors := ⟨0, 0, 0, 0⟩ }).setPrb { s.prb with orphans := 0, checkFails := 0 })
  | encoder {p s e} (he : encfSettings (readEncf p) = some e) (hl : s.psc.lead = none) :
      Work (.encf p) s (applyEncf e s)
  | mount {p s r0 scale} : Work (.mnts p) s (editWorking { s.cal.working with r0 := r0, scale := scale } s)
  | runout {p s table} : Work (.cwr p) s (editWorking { s.cal.working with runout := table } s)
  | safeLevels {p s levels} : Work (.gsaf p) s (applyGsaf levels s)
  | commit {p s} : Work (.ccmt p) s (startProgram .ccmt s)
  | lock {p s} : Work (.clck p) s (startProgram .clck s)
  | erase {p s} (hl : s.psc.lead = none) : Work (.cers p) s (applyCers s)
  | workpiece {p s w} (hw : workpieceOk w) (hl : s.psc.lead = none) : Work (.wkld p) s (loadWorkpiece w s)
  | emptied {p s} (h : s.wbk.stagedState = .editing) : Work (.stcl p) s (setStaged Bank.empty s)
  | inserted {p s w} (h : s.wbk.stagedState = .editing) (hw : readWindow (readStwn p) = some w)
      (hlen : s.wbk.staged.windows.length < bankWindows) :
      Work (.stwn p) s (setStaged { s.wbk.staged with windows := insertWindow s.wbk.staged.windows w } s)
  | gateRecord {p s n r} (h : s.wbk.stagedState = .editing) (hr : readGateRecord (readStgt p) = some r) :
      Work (.stgt p) s (setStaged { s.wbk.staged with gates := s.wbk.staged.gates.set n r } s)
  | pended {p s w warnings} (h : s.wbk.stagedState = .editing) (hw : s.wbk.workpiece = some w)
      (hv : validate s.wbk.staged w.blades = none) :
      Work (.swap p) s (holdPending { s.wbk.staged with warnings := warnings } s)
  | unpended {p s} : Work (.swcn p) s (s.setWbk { s.wbk with stagedState := .editing })
  | holdSense {p s h} : Work (.hold p) s (updateHold (s.setHold h))
  | latches {p s} : Work (.gclr p) s (clearLatches (gateMask p) s)
  | timing {p s tmin tr} (hmin : 2 ≤ tmin ∧ tmin ≤ 1000) (hr : 10 ≤ tr ∧ tr ≤ 10000)
      (hl : ∀ l, s.psc.lead = some l → l.phase = .armed) :
      Work (.prbf p) s (timeoutHeads s.prb.queue.length
        (s.setPrb { s.prb with tmin := tmin, tr := tr, state := .ready, timeouts := 0 }))
  | armed {p s} {settings : PassSettings} (hl : s.psc.lead = none) (hdrain : s.psc.drain.length < 4)
      (hid : ∀ c ∈ s.psc.drain, c.settings.passId ≠ settings.passId)
      (hoverlap : settings.overlap ≤ s.enc.settings.cpr / 4) (hroom : bufferLoad s < bufferSize) :
      Work (.armp p) s (armLead settings s)
  | aborted {p s} (h : s.psc.lead ≠ none) : Work (.abrt p) s (endLead .aborted s)
  | freeUsed {p s} (h : s.psc.lead = none) : Work (.abrt p) s s.useFree

/-! ### What each owner's rule makes of the part -/

/-- The owner's rule of a command leaves the part as `Work` says. -/
def Answers (c : Instr) (owner : State → Answer) : Prop := ∀ s, Work c s (owner s).2

theorem answers_encf (p : List Byte) : Answers (.encf p) (answerEncf p) := by
  intro s
  unfold answerEncf
  split_ifs with locked busy lead
  iterate 3 exact .nothing _ s
  split
  · exact .nothing _ s
  · exact .encoder ‹_› (by simpa [leadIdle] using lead)

theorem answers_mnts (p : List Byte) : Answers (.mnts p) (answerMnts p) := by
  intro s
  unfold answerMnts
  dsimp only
  split_ifs
  iterate 5 exact .nothing _ s
  exact .mount

theorem answers_cwr (p : List Byte) : Answers (.cwr p) (answerCwr p) := by
  intro s
  unfold answerCwr
  split_ifs
  iterate 3 exact .nothing _ s
  exact .runout

theorem answers_gsaf (p : List Byte) : Answers (.gsaf p) (answerGsaf p) := by
  intro s
  unfold answerGsaf
  split_ifs
  iterate 3 exact .nothing _ s
  exact .safeLevels

theorem answers_cers (p : List Byte) : Answers (.cers p) answerCers := by
  intro s
  unfold answerCers
  split_ifs with busy lead
  iterate 2 exact .nothing _ s
  exact .erase (by simpa [leadIdle] using lead)

theorem answers_ccmt (p : List Byte) : Answers (.ccmt p) (answerProgram .ccmt) := by
  intro s
  unfold answerProgram
  split_ifs
  iterate 2 exact .nothing _ s
  exact .commit

theorem answers_clck (p : List Byte) : Answers (.clck p) (answerProgram .clck) := by
  intro s
  unfold answerProgram
  split_ifs
  iterate 2 exact .nothing _ s
  exact .lock

theorem trimOk_iff (x : Int) : trimOk x = true ↔ -1048576 ≤ x ∧ x ≤ 1048576 := by simp [trimOk]

theorem natOfBytes_lt (bs : List Byte) : natOfBytes bs < 256 ^ bs.length := by
  induction bs using List.reverseRecOn with
  | nil => simp [natOfBytes]
  | append_singleton bs b ih =>
    simp only [natOfBytes, List.foldl_append, List.foldl_cons, List.foldl_nil, List.length_append, List.length_cons,
      List.length_nil, pow_add, pow_one, Nat.zero_add] at ih ⊢
    have := b.isLt
    omega

/-- A field of `len` bytes is below 256 to the `len`. -/
theorem fieldNat_lt (p : List Byte) (off len : Nat) : fieldNat p off len < 256 ^ len :=
  (natOfBytes_lt _).trans_le (Nat.pow_le_pow_right (by omega) (by simp [fieldBytes]))

theorem workpieceOk_of_wkld {p : List Byte} (hb : ¬ (wkldBlades p < 1 ∨ 128 < wkldBlades p))
    (ht : (wkldTrims p (wkldBlades p)).findIdx? (fun t => !trimOk t) = none) :
    workpieceOk { blades := wkldBlades p, datum := wkldDatum p, trims := wkldTrims p (wkldBlades p) } := by
  have hdatum : wkldDatum p < 16777216 := fieldNat_lt p 1 3
  refine ⟨by dsimp only; omega, by dsimp only; omega, hdatum, by simp [wkldTrims], fun x hx => ?_⟩
  rw [List.findIdx?_eq_none_iff] at ht
  exact (trimOk_iff x).mp (by simpa using ht x hx)

theorem answers_wkld (p : List Byte) : Answers (.wkld p) (answerWkld p) := by
  intro s
  unfold answerWkld
  dsimp only
  split_ifs with lead blades length
  iterate 3 exact .nothing _ s
  split
  · exact .nothing _ s
  · exact .workpiece (workpieceOk_of_wkld blades ‹_›) (by simpa [leadIdle] using lead)

theorem editing_of_not_pending {s : State} (h : ¬ swapPending s = true) : s.wbk.stagedState = .editing := by
  unfold swapPending at h
  cases hs : s.wbk.stagedState
  · rfl
  · simp [hs] at h

theorem answers_stcl (p : List Byte) : Answers (.stcl p) answerStcl := by
  intro s
  unfold answerStcl
  split_ifs with h
  · exact .nothing _ s
  · exact .emptied (editing_of_not_pending h)

theorem answers_stwn (p : List Byte) : Answers (.stwn p) (answerStwn p) := by
  intro s
  unfold answerStwn
  split_ifs with pending
  · exact .nothing _ s
  split
  · exact .nothing _ s
  dsimp only
  split_ifs with full
  · exact .nothing _ s
  · exact .inserted (editing_of_not_pending pending) ‹_› (by omega)

theorem answers_stgt (p : List Byte) : Answers (.stgt p) (answerStgt p) := by
  intro s
  unfold answerStgt
  dsimp only
  split_ifs with pending gate
  · exact .nothing _ s
  · split
    · exact .nothing _ s
    · exact .gateRecord (editing_of_not_pending pending) ‹_›
  · exact .nothing _ s

theorem answers_swap (p : List Byte) : Answers (.swap p) answerSwap := by
  intro s
  unfold answerSwap
  split_ifs with pending
  · exact .nothing _ s
  split
  · exact .nothing _ s
  split
  · exact .nothing _ s
  · exact .pended (editing_of_not_pending pending) ‹_› ‹_›

theorem answers_swcn (p : List Byte) : Answers (.swcn p) answerSwcn := by
  intro s
  unfold answerSwcn
  split_ifs
  iterate 2 exact .nothing _ s
  exact .unpended

theorem answers_hold (p : List Byte) : Answers (.hold p) (answerHold p) := by
  intro s
  unfold answerHold
  split
  · exact .nothing _ s
  · exact .holdSense

theorem clamp_bounds {lo hi : Nat} (h : lo ≤ hi) (v : Nat) : lo ≤ clamp lo hi v ∧ clamp lo hi v ≤ hi := by
  unfold clamp
  omega

theorem answers_prbf (p : List Byte) : Answers (.prbf p) (answerPrbf p) := by
  intro s
  unfold answerPrbf
  dsimp only
  split
  · exact .nothing _ s
  · next h =>
    refine .timing (clamp_bounds (by omega) _) (clamp_bounds (by omega) _) fun l hl => ?_
    by_contra hrun
    exact h (by simp [hl, leadRunning, hrun])

theorem armpSettings_some {a : ArmpArgs} {cpr : Nat} {settings : PassSettings}
    (h : armpSettings a cpr = some settings) : settings.passId = a.passId ∧ settings.overlap ≤ cpr / 4 := by
  simp only [armpSettings, Option.bind_eq_bind, Option.bind_eq_some_iff, Option.some.injEq] at h
  obtain ⟨_, _, _, _, _, _, rfl⟩ := h
  exact ⟨rfl, (clamp_bounds (Nat.zero_le _) _).2⟩

theorem answers_armp (p : List Byte) : Answers (.armp p) (answerArmp p) := by
  intro s
  unfold answerArmp
  dsimp only
  cases hset : armpSettings (readArmp p) s.enc.settings.cpr with
  | none =>
    split_ifs
    all_goals exact .nothing _ s
  | some settings =>
    split_ifs with lead drain id radius piece banks room
    iterate 7 exact .nothing _ s
    obtain ⟨hid, hoverlap⟩ := armpSettings_some hset
    refine .armed (by simpa [leadIdle] using lead) (by omega) (fun c hc heq => id (.inr ?_)) hoverlap (by omega)
    exact List.any_eq_true.mpr ⟨c, hc, by simp [heq, hid]⟩

theorem answers_abrt (p : List Byte) : Answers (.abrt p) answerAbrt := by
  intro s
  unfold answerAbrt
  split
  · exact .freeUsed ‹_›
  · next h => exact .aborted (by simp [h])

/-- Every owner's rule leaves the part as `Work` says. -/
theorem answers_of_requestOf {c : Instr} {r : Request} (h : requestOf c = some r) : Answers c r.owner := by
  cases c <;> cases h
  case idnt => exact fun _ => .causes
  case rset => exact fun _ => .closed
  case stat => exact fun s => .nothing _ s
  case cclr => exact fun _ => .cleared
  case nmsk => exact fun _ => .masked
  case encf p => exact answers_encf p
  case mnts p => exact answers_mnts p
  case cwr p => exact answers_cwr p
  case crd => exact fun s => .nothing _ s
  case gsaf p => exact answers_gsaf p
  case ccmt p => exact answers_ccmt p
  case clck p => exact answers_clck p
  case cers p => exact answers_cers p
  case wkld p => exact answers_wkld p
  case stcl p => exact answers_stcl p
  case stwn p => exact answers_stwn p
  case stgt p => exact answers_stgt p
  case swap p => exact answers_swap p
  case swcn p => exact answers_swcn p
  case hold p => exact answers_hold p
  case gclr => exact fun _ => .latches
  case prbf p => exact answers_prbf p
  case armp p => exact answers_armp p
  case abrt p => exact answers_abrt p

/-! ### What each event makes of the part -/

/-- A sample at its instant is one or the other of the two sampling commands (R1). -/
theorem acceptsUpdate_iff (s : State) (l : Lines) :
    (sampleDue s.enc s.now && makesUpdate s.enc l) = true ↔ acceptsUpdate s l := by
  simp only [sampleDue, makesUpdate, acceptsUpdate, Bool.and_eq_true, decide_eq_true_eq]
  tauto

theorem work_filterSample (l : Lines) (s : State) :
    ∃ t, exec (.filterSample l) s = .next t ∧ Work (.filterSample l) s t := by
  show ∃ t, execFilterSample l s = .next t ∧ _
  unfold execFilterSample
  dsimp only
  split_ifs
  case pos => exact ⟨s, rfl, .nothing _ s⟩
  all_goals exact ⟨_, rfl, .sample rfl⟩

/-- An event, or the dispatch of an unknown kind with no reply, leaves the part as `Work` says. -/
theorem exec_event {c : Instr} (h : requestOf c = none) (s : State) :
    ∃ t, exec c s = .next t ∧ (Work c s t ∨ ∃ k p, c = .unknownRequest k p ∧
      t = placeReply 0x80#8 (refuseWith .unknown k 0#8 (takeRequest s))) := by
  cases c <;> try cases h
  case powerOnReset => exact ⟨_, rfl, .inl (.reset (.inl ⟨rfl, rfl⟩))⟩
  case pinReset => exact ⟨_, rfl, .inl (.reset (.inr (.inl ⟨rfl, rfl⟩)))⟩
  case requestReset =>
    by_cases hsent : rsetReplySent s
    · exact ⟨_, if_pos ((rsetReplySent_iff s).mp hsent), .inl (.reset (.inr (.inr ⟨rfl, rfl, hsent⟩)))⟩
    · exact ⟨s, if_neg (mt (rsetReplySent_iff s).mpr hsent), .inl (.nothing _ s)⟩
  case acceptedUpdate l =>
    by_cases hacc : acceptsUpdate s l
    · exact ⟨_, if_pos ((acceptsUpdate_iff s l).mpr hacc), .inl (.update hacc)⟩
    · exact ⟨s, if_neg (mt (acceptsUpdate_iff s l).mp hacc), .inl (.nothing _ s)⟩
  case stallExpiry =>
    show ∃ t, execStallExpiry s = .next t ∧ _
    unfold execStallExpiry
    split
    · exact ⟨s, rfl, .inl (.nothing _ s)⟩
    split_ifs
    · exact ⟨_, rfl, .inl .stall⟩
    · exact ⟨s, rfl, .inl (.nothing _ s)⟩
  case holdPinChange level =>
    show ∃ t, execHoldPinChange level s = .next t ∧ _
    unfold execHoldPinChange
    split_ifs
    · exact ⟨s, rfl, .inl (.nothing _ s)⟩
    all_goals exact ⟨_, rfl, .inl .holdPin⟩
  case holdQualified =>
    show ∃ t, execHoldQualified s = .next t ∧ _
    unfold execHoldQualified
    split_ifs
    · exact ⟨_, rfl, .inl .holdQualified⟩
    · exact ⟨s, rfl, .inl (.nothing _ s)⟩
  case reading items =>
    show ∃ t, execReading items s = .next t ∧ _
    unfold execReading
    refine ⟨_, rfl, ?_⟩
    split_ifs with hitems
    · subst hitems
      exact .inl (.nothing _ s)
    · exact .inl (.reading _)
  case readingGapTimeout => exact ⟨_, rfl, .inl .gap⟩
  case tagTimeout => exact ⟨_, rfl, .inl .timeout⟩
  case triggerFrameStart => exact ⟨_, rfl, .inl .frameStart⟩
  case loadSenseChange n level => exact ⟨_, rfl, .inl .sense⟩
  case qualificationExpiry => exact ⟨_, rfl, .inl .qualification⟩
  case programCompletion result =>
    show ∃ t, execProgramCompletion result s = .next t ∧ _
    unfold execProgramCompletion
    split
    · exact ⟨s, rfl, .inl (.nothing _ s)⟩
    · exact ⟨_, rfl, .inl (.completion ‹_›)⟩
  case hostFrame items => exact ⟨_, rfl, .inl .received⟩
  case recordBoundary =>
    show ∃ t, execRecordBoundary s = .next t ∧ _
    unfold execRecordBoundary
    split
    · exact ⟨s, rfl, .inl (.nothing _ s)⟩
    split_ifs
    · exact ⟨_, rfl, .inl .boundary⟩
    · exact ⟨s, rfl, .inl (.nothing _ s)⟩
  case unknownRequest k p =>
    show ∃ t, execUnknownRequest k p s = .next t ∧ _
    unfold execUnknownRequest
    split_ifs
    · exact ⟨_, rfl, .inr ⟨k, p, rfl, rfl⟩⟩
    · exact ⟨s, rfl, .inl (.nothing _ s)⟩
  case filterSample l =>
    obtain ⟨t, ht, hw⟩ := work_filterSample l s
    exact ⟨t, ht, .inl hw⟩

/-- What a command does: its work alone, or its work between LNK's taking of a request and the placing of its reply. -/
theorem exec_work (c : Instr) (s : State) :
    ∃ t, exec c s = .next t ∧
      (Work c s t ∨ ∃ k body u, Work c (takeRequest s) u ∧ t = placeReply k (body, u)) := by
  cases hr : requestOf c with
  | none =>
    obtain ⟨t, ht, hw | ⟨k, p, -, rfl⟩⟩ := exec_event hr s
    · exact ⟨t, ht, .inl hw⟩
    · exact ⟨_, ht, .inr ⟨_, _, _, .nothing _ _, rfl⟩⟩
  | some r =>
    rw [exec_of_requestOf hr]
    obtain ⟨_, _, heq⟩ | ⟨_, _, heq⟩ | ⟨_, heq⟩ := dispatch_cases r.kind r.payload r.lengthOk r.owner s
    · exact ⟨_, heq, .inr ⟨_, _, _, answers_of_requestOf hr (takeRequest s), rfl⟩⟩
    · exact ⟨_, heq, .inr ⟨_, _, _, .nothing _ _, rfl⟩⟩
    · exact ⟨s, heq, .inl (.nothing _ s)⟩

/-- `exec_work` of the state that a command answers. -/
theorem work_of_exec {c : Instr} {s t : State} (h : exec c s = .next t) :
    Work c s t ∨ ∃ k body u, Work c (takeRequest s) u ∧ t = placeReply k (body, u) := by
  obtain ⟨t', ht, hw⟩ := exec_work c s
  obtain rfl : t' = t := by simpa [ht] using h
  exact hw

/-! ### What the work leaves alone -/

@[simp] theorem handState_frame (left : Option EndStatus) (s : State) :
    (handState left s).now = s.now ∧ (handState left s).enc = s.enc ∧ (handState left s).wbk = s.wbk ∧
      (handState left s).hold = s.hold ∧ (handState left s).cal = s.cal ∧ (handState left s).lnk = s.lnk ∧
      (handState left s).freeNext = s.freeNext ∧ (handState left s).pending = s.pending := by
  cases left <;> simp [handState]

@[simp] theorem handPosition_frame (old : Int) (s : State) :
    (handPosition old s).now = s.now ∧ (handPosition old s).enc = s.enc ∧ (handPosition old s).wbk = s.wbk ∧
      (handPosition old s).hold = s.hold ∧ (handPosition old s).cal = s.cal ∧
      (handPosition old s).freeNext = s.freeNext ∧ (handPosition old s).pending = s.pending := by
  unfold handPosition
  dsimp only
  split_ifs <;> simp

@[simp] theorem exchange_frame (s : State) :
    (exchange s).now = s.now ∧ (exchange s).enc = s.enc ∧ (exchange s).psc = s.psc ∧ (exchange s).hold = s.hold ∧
      (exchange s).prb = s.prb ∧ (exchange s).pnt = s.pnt ∧ (exchange s).stack = s.stack ∧
      (exchange s).cal = s.cal ∧ (exchange s).freeNext = s.freeNext ∧ (exchange s).pending = s.pending := by
  simp [exchange]

@[simp] theorem banksCrossing_frame (eligible : Bool) (st : EncState) (s : State) :
    (banksCrossing eligible st s).now = s.now ∧ (banksCrossing eligible st s).enc = s.enc ∧
      (banksCrossing eligible st s).psc = s.psc ∧ (banksCrossing eligible st s).hold = s.hold ∧
      (banksCrossing eligible st s).prb = s.prb ∧ (banksCrossing eligible st s).pnt = s.pnt ∧
      (banksCrossing eligible st s).stack = s.stack ∧ (banksCrossing eligible st s).cal = s.cal ∧
      (banksCrossing eligible st s).freeNext = s.freeNext ∧ (banksCrossing eligible st s).pending = s.pending := by
  unfold banksCrossing
  split_ifs
  · exact exchange_frame s
  · simp only [and_self]

@[simp] theorem handCrossing_frame (eligible : Bool) (x : Option IndexCrossing) (s : State) :
    (handCrossing eligible x s).now = s.now ∧ (handCrossing eligible x s).enc = s.enc ∧
      (handCrossing eligible x s).hold = s.hold ∧ (handCrossing eligible x s).cal = s.cal ∧
      (handCrossing eligible x s).freeNext = s.freeNext ∧ (handCrossing eligible x s).pending = s.pending := by
  cases x <;> simp [handCrossing, banksCrossing_frame]

@[simp] theorem raises_frame (ns : List Notice) (s : State) :
    (ns.foldl (fun t n => raise n t) s).now = s.now ∧ (ns.foldl (fun t n => raise n t) s).enc = s.enc ∧
      (ns.foldl (fun t n => raise n t) s).wbk = s.wbk ∧ (ns.foldl (fun t n => raise n t) s).psc = s.psc ∧
      (ns.foldl (fun t n => raise n t) s).hold = s.hold ∧ (ns.foldl (fun t n => raise n t) s).prb = s.prb ∧
      (ns.foldl (fun t n => raise n t) s).pnt = s.pnt ∧ (ns.foldl (fun t n => raise n t) s).stack = s.stack ∧
      (ns.foldl (fun t n => raise n t) s).gte = s.gte ∧ (ns.foldl (fun t n => raise n t) s).cal = s.cal ∧
      (ns.foldl (fun t n => raise n t) s).freeNext = s.freeNext ∧
      (ns.foldl (fun t n => raise n t) s).pending = s.pending := by
  rw [raises_eq]
  simp only [and_self]

@[simp] theorem handOn_frame (w : EncWork) (s : State) :
    (handOn w s).now = s.now ∧ (handOn w s).enc = w.enc ∧ (handOn w s).hold = s.hold ∧ (handOn w s).cal = s.cal ∧
      (handOn w s).freeNext = s.freeNext ∧ (handOn w s).pending = s.pending := by
  simp [handOn, handCrossing_frame, handPosition_frame, handState_frame, raises_frame]

@[simp] theorem acceptUpdate_frame (l : Lines) (s : State) :
    (acceptUpdate l s).now = s.now ∧ (acceptUpdate l s).hold = s.hold ∧ (acceptUpdate l s).cal = s.cal ∧
      (acceptUpdate l s).freeNext = s.freeNext ∧ (acceptUpdate l s).pending = s.pending := by
  simp [acceptUpdate, handOn_frame]

@[simp] theorem sampled_frame (s : State) :
    (sampled s).now = s.now ∧ (sampled s).wbk = s.wbk ∧ (sampled s).psc = s.psc ∧ (sampled s).hold = s.hold ∧
      (sampled s).prb = s.prb ∧ (sampled s).pnt = s.pnt ∧ (sampled s).stack = s.stack ∧ (sampled s).gte = s.gte ∧
      (sampled s).cal = s.cal ∧ (sampled s).lnk = s.lnk ∧ (sampled s).freeNext = s.freeNext ∧
      (sampled s).pending = s.pending := by
  simp [sampled]

@[simp] theorem renewSettings_frame (s : State) :
    (renewSettings s).now = s.now ∧ (renewSettings s).enc = renewedEnc s.cal.working.enc s.enc ∧
      (renewSettings s).wbk = s.wbk ∧ (renewSettings s).hold = s.hold ∧ (renewSettings s).cal = s.cal ∧
      (renewSettings s).freeNext = s.freeNext ∧ (renewSettings s).pending = s.pending := by
  unfold renewSettings
  dsimp only
  split_ifs <;> simp [handPosition_frame]

@[simp] theorem stopProgram_frame (s : State) :
    (stopProgram s).now = s.now ∧ (stopProgram s).enc = s.enc ∧ (stopProgram s).wbk = s.wbk ∧
      (stopProgram s).psc = s.psc ∧ (stopProgram s).hold = s.hold ∧ (stopProgram s).prb = s.prb ∧
      (stopProgram s).pnt = s.pnt ∧ (stopProgram s).stack = s.stack ∧ (stopProgram s).gte = s.gte ∧
      (stopProgram s).lnk = s.lnk ∧ (stopProgram s).pending = s.pending := by
  unfold stopProgram
  split <;> simp

@[simp] theorem latchesExpired_frame (s : State) :
    let t := gateNumbers.foldl latchExpired s
    t.now = s.now ∧ t.enc = s.enc ∧ t.wbk = s.wbk ∧ t.psc = s.psc ∧ t.hold = s.hold ∧ t.prb = s.prb ∧ t.pnt = s.pnt ∧
      t.stack = s.stack ∧ t.cal = s.cal ∧ t.freeNext = s.freeNext ∧ t.pending = s.pending := by
  simp [gateNumbers]

/-! ### The works of the requests, block by block -/

@[simp] theorem editWorking_frame (w : Settings) (s : State) :
    (editWorking w s).now = s.now ∧ (editWorking w s).enc = s.enc ∧ (editWorking w s).wbk = s.wbk ∧
      (editWorking w s).psc = s.psc ∧ (editWorking w s).hold = s.hold ∧ (editWorking w s).prb = s.prb ∧
      (editWorking w s).pnt = s.pnt ∧ (editWorking w s).stack = s.stack ∧ (editWorking w s).gte = s.gte ∧
      (editWorking w s).cal = { s.cal with working := w, origin := .edited } ∧ (editWorking w s).lnk = s.lnk ∧
      (editWorking w s).freeNext = s.freeNext ∧ (editWorking w s).pending = s.pending := by
  simp [editWorking]

@[simp] theorem startProgram_frame (op : ProgOp) (s : State) :
    (startProgram op s).now = s.now ∧ (startProgram op s).enc = s.enc ∧ (startProgram op s).wbk = s.wbk ∧
      (startProgram op s).psc = s.psc ∧ (startProgram op s).hold = s.hold ∧ (startProgram op s).prb = s.prb ∧
      (startProgram op s).pnt = s.pnt ∧ (startProgram op s).stack = s.stack ∧ (startProgram op s).gte = s.gte ∧
      (startProgram op s).cal = { s.cal with programming := some ⟨op, s.now + programTicks⟩ } ∧
      (startProgram op s).lnk = s.lnk ∧ (startProgram op s).freeNext = s.freeNext ∧
      (startProgram op s).pending = s.pending := by
  simp [startProgram]

@[simp] theorem loadWorkpiece_frame (w : Workpiece) (s : State) :
    (loadWorkpiece w s).now = s.now ∧ (loadWorkpiece w s).enc = s.enc ∧
      (loadWorkpiece w s).wbk = { Wbk.reset with workpiece := some w } ∧
      (loadWorkpiece w s).psc = s.psc ∧ (loadWorkpiece w s).hold = s.hold ∧ (loadWorkpiece w s).prb = s.prb ∧
      (loadWorkpiece w s).pnt = s.pnt ∧ (loadWorkpiece w s).stack = s.stack ∧
      (loadWorkpiece w s).cal = s.cal ∧ (loadWorkpiece w s).lnk = s.lnk ∧
      (loadWorkpiece w s).freeNext = s.freeNext ∧ (loadWorkpiece w s).pending = s.pending := by
  simp [loadWorkpiece]

@[simp] theorem setStaged_frame (b : Bank) (s : State) :
    (setStaged b s).now = s.now ∧ (setStaged b s).enc = s.enc ∧
      (setStaged b s).wbk = { s.wbk with staged := b } ∧
      (setStaged b s).psc = s.psc ∧ (setStaged b s).hold = s.hold ∧ (setStaged b s).prb = s.prb ∧
      (setStaged b s).pnt = s.pnt ∧ (setStaged b s).stack = s.stack ∧ (setStaged b s).gte = s.gte ∧
      (setStaged b s).cal = s.cal ∧ (setStaged b s).lnk = s.lnk ∧
      (setStaged b s).freeNext = s.freeNext ∧ (setStaged b s).pending = s.pending := by
  simp [setStaged]

@[simp] theorem holdPending_frame (b : Bank) (s : State) :
    (holdPending b s).now = s.now ∧ (holdPending b s).enc = s.enc ∧
      (holdPending b s).wbk = { s.wbk with stagedState := .pending, staged := b } ∧
      (holdPending b s).psc = s.psc ∧ (holdPending b s).hold = s.hold ∧ (holdPending b s).prb = s.prb ∧
      (holdPending b s).pnt = s.pnt ∧ (holdPending b s).stack = s.stack ∧ (holdPending b s).gte = s.gte ∧
      (holdPending b s).cal = s.cal ∧ (holdPending b s).lnk = s.lnk ∧
      (holdPending b s).freeNext = s.freeNext ∧ (holdPending b s).pending = s.pending := by
  simp [holdPending]

@[simp] theorem armLead_frame (p : PassSettings) (s : State) :
    (armLead p s).now = s.now ∧ (armLead p s).enc = s.enc ∧ (armLead p s).wbk = s.wbk ∧
      (armLead p s).psc = { s.psc with lead := some ⟨.armed, freshCtx p⟩ } ∧ (armLead p s).hold = s.hold ∧
      (armLead p s).prb = { s.prb with state := .ready, timeouts := 0 } ∧
      (armLead p s).pnt = s.pnt ∧ (armLead p s).stack = s.stack ∧ (armLead p s).gte = s.gte ∧
      (armLead p s).cal = s.cal ∧ (armLead p s).lnk = s.lnk ∧
      (armLead p s).freeNext = s.freeNext ∧ (armLead p s).pending = s.pending := by
  simp [armLead, probeReady]

@[simp] theorem completeProgram_frame (op : ProgOp) (result : VerifyResult) (s : State) :
    (completeProgram op result s).now = s.now ∧ (completeProgram op result s).enc = s.enc ∧
      (completeProgram op result s).wbk = s.wbk ∧ (completeProgram op result s).psc = s.psc ∧
      (completeProgram op result s).hold = s.hold ∧ (completeProgram op result s).prb = s.prb ∧
      (completeProgram op result s).pnt = s.pnt ∧ (completeProgram op result s).stack = s.stack ∧
      (completeProgram op result s).gte = s.gte ∧
      (completeProgram op result s).cal = (match result with
        | .ok => completedOk op s.cal
        | .verifyFail => completedFail s.freeNext s.cal) ∧
      (completeProgram op result s).pending = s.pending := by
  cases result <;> simp [completeProgram]

@[simp] theorem applyEncf_frame (e : EncSettings) (s : State) :
    (applyEncf e s).now = s.now ∧ (applyEncf e s).enc = renewedEnc e s.enc ∧ (applyEncf e s).wbk = s.wbk ∧
      (applyEncf e s).hold = s.hold ∧
      (applyEncf e s).cal = { s.cal with working := { s.cal.working with enc := e }, origin := .edited } ∧
      (applyEncf e s).freeNext = s.freeNext ∧ (applyEncf e s).pending = s.pending := by
  simp [applyEncf]

@[simp] theorem applyGsaf_frame (levels : Eight Bool) (s : State) :
    (applyGsaf levels s).now = s.now ∧ (applyGsaf levels s).enc = s.enc ∧ (applyGsaf levels s).wbk = s.wbk ∧
      (applyGsaf levels s).psc = s.psc ∧ (applyGsaf levels s).hold = s.hold ∧ (applyGsaf levels s).prb = s.prb ∧
      (applyGsaf levels s).pnt = s.pnt ∧ (applyGsaf levels s).stack = s.stack ∧
      (applyGsaf levels s).cal = { s.cal with working := { s.cal.working with safe := levels }, origin := .edited } ∧
      (applyGsaf levels s).lnk = s.lnk ∧
      (applyGsaf levels s).freeNext = s.freeNext ∧ (applyGsaf levels s).pending = s.pending := by
  simp [applyGsaf]

@[simp] theorem applyCers_frame (s : State) :
    (applyCers s).now = s.now ∧ (applyCers s).enc = renewedEnc Settings.default.enc s.enc ∧
      (applyCers s).wbk = s.wbk ∧ (applyCers s).hold = s.hold ∧
      (applyCers s).cal = { s.cal with
        working := Settings.default, origin := .defaults, locked := false
        programming := some ⟨.cers, s.now + programTicks⟩ } ∧
      (applyCers s).freeNext = s.freeNext ∧ (applyCers s).pending = s.pending := by
  simp [applyCers]

@[simp] theorem resetPart_frame (causes : ResetCauses) (s : State) :
    (resetPart causes s).now = s.now ∧
      (resetPart causes s).enc = Enc.reset (checkedCal (stopProgram s).cal.image).working.enc s.now ∧
      (resetPart causes s).wbk = Wbk.reset ∧ (resetPart causes s).psc = Psc.reset ∧
      (resetPart causes s).hold = Hold.reset s.hold.pin ∧ (resetPart causes s).prb = Prb.reset ∧
      (resetPart causes s).pnt = Pnt.reset ∧ (resetPart causes s).stack = [] ∧
      (resetPart causes s).cal = checkedCal (stopProgram s).cal.image ∧
      (resetPart causes s).lnk = Lnk.reset causes ∧ (resetPart causes s).pending = s.pending := by
  simp [resetPart]

end Sys2Proof.Machine
end

