-- ==== Sys2Proof/Proofs/Kept.lean ====
section
/-! PROOFS. Proofs/Kept.lean: time and the queue under a command, and the step as an induction over `Work`. -/

namespace Sys2Proof.Machine

open Sys2Proof

/-! ### The receivers -/

/-- All of the part but LNK. -/
def beyondLink (s : State) : State := s.setLnk (Lnk.reset ⟨false, false, false⟩)

theorem beyondLink_linkError (c : LinkCounter) (s : State) : beyondLink (linkError c s) = beyondLink s := by
  unfold linkError
  dsimp only
  split_ifs <;> rfl

theorem beyondLink_takeBytes (bytes : List Byte) (s : State) : beyondLink (takeBytes bytes s) = beyondLink s := by
  unfold takeBytes completeFrame
  dsimp only
  split_ifs
  · exact beyondLink_linkError _ _
  · exact beyondLink_linkError _ _
  · rfl
  · exact beyondLink_linkError _ _
  · rfl

theorem beyondLink_rxIdle (item : RxItem) (s : State) : beyondLink (rxIdle item s) = beyondLink s := by
  unfold rxIdle
  split
  · rfl
  all_goals
    split
    · rfl
    · split_ifs <;> rfl

theorem beyondLink_rxSyncUnlocked (low : Nat) (item : RxItem) (s : State) :
    beyondLink (rxSyncUnlocked low item s) = beyondLink s := by
  unfold rxSyncUnlocked
  split
  · split_ifs <;> rfl
  · rfl

theorem beyondLink_rxSyncLocked (locked : Nat) (item : RxItem) (s : State) :
    beyondLink (rxSyncLocked locked item s) = beyondLink s := by
  unfold rxSyncLocked
  split
  · split_ifs
    · rfl
    · exact beyondLink_linkError _ _
  · exact beyondLink_linkError _ _

theorem beyondLink_rxBody (locked : Nat) (bytes : List Byte) (item : RxItem) (s : State) :
    beyondLink (rxBody locked bytes item s) = beyondLink s := by
  unfold rxBody
  split
  · exact beyondLink_takeBytes _ _
  · split_ifs
    · exact beyondLink_linkError _ _
    · rfl
  · split_ifs <;> exact beyondLink_linkError _ _

/-- The host-link receiver works on LNK alone (R187 to R191). -/
theorem beyondLink_takeRx (s : State) (item : RxItem) : beyondLink (takeRx s item) = beyondLink s := by
  unfold takeRx
  split
  · exact beyondLink_rxIdle _ _
  · split
    · exact beyondLink_rxSyncUnlocked _ _ _
    · exact beyondLink_rxSyncLocked _ _ _
  · split
    · rfl
    · exact beyondLink_rxBody _ _ _ _

theorem beyondLink_received (items : List RxItem) (s : State) : beyondLink (items.foldl takeRx s) = beyondLink s :=
  foldl_keeps beyondLink takeRx beyondLink_takeRx items s

theorem beyondLink_openRecord (span : Nat) (s : State) : beyondLink (openRecord span s) = beyondLink s := by
  unfold openRecord
  split <;> rfl

/-- What `beyondLink` tells of two states. -/
theorem frame_of_beyondLink {s t : State} (h : beyondLink t = beyondLink s) :
    t.now = s.now ∧ t.enc = s.enc ∧ t.wbk = s.wbk ∧ t.psc = s.psc ∧ t.hold = s.hold ∧ t.prb = s.prb ∧ t.pnt = s.pnt ∧
      t.stack = s.stack ∧ t.gte = s.gte ∧ t.cal = s.cal ∧ t.freeNext = s.freeNext ∧ t.pending = s.pending := by
  simpa [beyondLink, State.setLnk] using h

@[simp] theorem received_frame (items : List RxItem) (s : State) :
    (items.foldl takeRx s).now = s.now ∧ (items.foldl takeRx s).enc = s.enc ∧ (items.foldl takeRx s).wbk = s.wbk ∧
      (items.foldl takeRx s).psc = s.psc ∧ (items.foldl takeRx s).hold = s.hold ∧
      (items.foldl takeRx s).prb = s.prb ∧ (items.foldl takeRx s).pnt = s.pnt ∧
      (items.foldl takeRx s).stack = s.stack ∧ (items.foldl takeRx s).gte = s.gte ∧
      (items.foldl takeRx s).cal = s.cal ∧ (items.foldl takeRx s).freeNext = s.freeNext ∧
      (items.foldl takeRx s).pending = s.pending :=
  frame_of_beyondLink (beyondLink_received items s)

@[simp] theorem openRecord_frame (span : Nat) (s : State) :
    (openRecord span s).now = s.now ∧ (openRecord span s).enc = s.enc ∧ (openRecord span s).wbk = s.wbk ∧
      (openRecord span s).psc = s.psc ∧ (openRecord span s).hold = s.hold ∧ (openRecord span s).prb = s.prb ∧
      (openRecord span s).pnt = s.pnt ∧ (openRecord span s).stack = s.stack ∧ (openRecord span s).gte = s.gte ∧
      (openRecord span s).cal = s.cal ∧ (openRecord span s).freeNext = s.freeNext ∧
      (openRecord span s).pending = s.pending :=
  frame_of_beyondLink (beyondLink_openRecord span s)

/-- The reading receiver leaves ENC, WBK, HOLD, CAL, LNK, the gates, time and the queue alone. -/
@[simp] theorem readings_frame (items : List ProbeItem) (s : State) :
    (items.foldl takeProbeItem s).now = s.now ∧ (items.foldl takeProbeItem s).enc = s.enc ∧
      (items.foldl takeProbeItem s).wbk = s.wbk ∧ (items.foldl takeProbeItem s).hold = s.hold ∧
      (items.foldl takeProbeItem s).gte = s.gte ∧ (items.foldl takeProbeItem s).cal = s.cal ∧
      (items.foldl takeProbeItem s).lnk = s.lnk ∧ (items.foldl takeProbeItem s).freeNext = s.freeNext ∧
      (items.foldl takeProbeItem s).pending = s.pending := by
  induction items generalizing s with
  | nil => simp
  | cons i items ih => simp [ih]

/-! ### Time and the queue -/

/-- A command takes no time, and what it posts is left to the tick (log entry 1). -/
theorem Work.time {c : Instr} {s t : State} (h : Work c s t) : t.pending = s.pending ∧ t.now = s.now := by
  cases h
  all_goals simp

/-- Settles O2: whatever a command's work is, neither it nor LNK's part in it touches the queue or the time base. -/
theorem everyCommandAnswersNext : Obligations.EveryCommandAnswersNext := by
  intro c s
  obtain ⟨t, ht, hw | ⟨k, body, u, hw, rfl⟩⟩ := exec_work c s
  · exact ⟨t, ht, hw.time⟩
  · exact ⟨_, ht, by simpa using hw.time⟩

/-! ### Invariants of every step -/

/-- What makes `P` an invariant of every step: the queue does not count, a tick keeps it, LNK's taking of a request and
placing of a reply keep it, and so does the work of every command. -/
structure Kept (P : State → Prop) : Prop where
  pending : ∀ s q, P s → P (s.setPending q)
  tick : ∀ s, P s → P (tick s)
  take : ∀ s, P s → P (takeRequest s)
  place : ∀ k body s, P s → P (placeReply k (body, s))
  work : ∀ c s t, Work c s t → P s → P t

theorem Kept.exec {P : State → Prop} (hP : Kept P) {c : Instr} {s t : State} (h : exec c s = .next t) (hs : P s) :
    P t := by
  obtain hw | ⟨k, body, u, hw, rfl⟩ := work_of_exec h
  · exact hP.work c s t hw hs
  · exact hP.place k body u (hP.work c _ u hw (hP.take s hs))

theorem step_cases {s t : State} (h : step s = .next t) :
    (s.pending = [] ∧ t = tick s) ∨ ∃ c rest, s.pending = c :: rest ∧ exec c (s.setPending rest) = .next t := by
  unfold step at h
  split at h
  · cases h; exact .inl ⟨‹_›, rfl⟩
  · exact .inr ⟨_, _, ‹_›, h⟩

theorem Kept.step {P : State → Prop} (hP : Kept P) {s t : State} (h : step s = .next t) (hs : P s) : P t := by
  obtain ⟨-, rfl⟩ | ⟨c, rest, -, hexec⟩ := step_cases h
  · exact hP.tick s hs
  · exact hP.exec hexec (hP.pending s rest hs)

/-- A tick moves time, the queue, the transmitter and the source that a beginning record leaves, and nothing else. -/
@[simp] theorem tick_frame (s : State) :
    (tick s).enc = s.enc ∧ (tick s).wbk = s.wbk ∧ (tick s).psc = s.psc ∧ (tick s).hold = s.hold ∧
      (tick s).prb = s.prb ∧ (tick s).stack = s.stack ∧ (tick s).gte = s.gte ∧ (tick s).cal = s.cal := by
  simp [tick]

end Sys2Proof.Machine
end

