-- ==== Sys2Proof/Proofs/EncoderInvariant.lean ====
section
/-! PROOFS. Proofs/EncoderInvariant.lean: ENC's position, its settings and the mode of GTE under every step (R4, R14, R161). -/

namespace Sys2Proof.Machine

open Sys2Proof

/-! ### ENC's own work keeps the position in its bounds (R4) -/

/-- The turn count lies within the turn and the revolution number within its bounds (R4). -/
def inTurn (e : Enc) : Prop := e.c < e.settings.cpr ∧ revMin ≤ e.rev ∧ e.rev ≤ revMax

theorem inTurn_setRev {r : Int} {e : Enc} (h : e.c < e.settings.cpr) : inTurn (setRev r e) := by
  unfold setRev
  split_ifs with hr
  · exact ⟨h, by simp [revMin], by simp [revMax]⟩
  · exact ⟨h, by dsimp only; omega, by dsimp only; omega⟩

@[simp] theorem setRev_settings (r : Int) (e : Enc) : (setRev r e).settings = e.settings := by
  unfold setRev
  split_ifs <;> rfl

theorem countC_lt (dir : Dir) {e : Enc} (h : e.c < e.settings.cpr) : countC dir e < e.settings.cpr := by
  unfold countC
  split <;> split_ifs <;> omega

theorem inTurn_applyCount (dir : Dir) {e : Enc} (h : inTurn e) : inTurn (applyCount dir e) :=
  inTurn_setRev (countC_lt dir h.1)

theorem inTurn_snap (delta : Int) {e : Enc} (h : inTurn e) : inTurn (snap delta e) := by
  have hcpr : 0 < e.settings.cpr := Nat.zero_lt_of_lt h.1
  have := inTurn_setRev (r := if delta < 0 then e.rev + 1 else e.rev) (e := { e with c := 0 }) hcpr
  exact this

/-- What every part of ENC's work keeps: the settings, the bounds of the position, and that a crossing is handed on with
the state that ENC then has (R7). -/
def worksSoundly (e : Enc) (w : EncWork) : Prop :=
  w.enc.settings = e.settings ∧ (inTurn e → inTurn w.enc) ∧ ∀ x, w.crossing = some x → x.state = w.enc.state

theorem worksSoundly_rearm {e : Enc} {before : Lines} {w : EncWork} (h : worksSoundly e w) :
    worksSoundly e (rearm before w) := by
  unfold rearm
  split_ifs
  · exact h
  · exact h

theorem worksSoundly_checkCrossing {e : Enc} (dir : Dir) {w : EncWork} (hs : w.enc.settings = e.settings)
    (hp : inTurn e → inTurn w.enc) : worksSoundly e (checkCrossing dir w) := by
  unfold checkCrossing
  dsimp only
  split
  · split_ifs
    all_goals refine ⟨?_, fun h => ?_, fun x hx => ?_⟩
    · simpa [snap, recordCrossing] using hs
    · exact inTurn_snap _ (e := { w.enc with indexArmed := false }) (hp h)
    · cases hx; rfl
    · simpa [snap, recordCrossing] using hs
    · exact inTurn_snap _ (e := { w.enc with indexArmed := false }) (hp h)
    · cases hx; rfl
    · exact hs
    · exact hp h
    · cases hx; rfl
  · cases dir <;> refine ⟨hs, fun h => ?_, fun x hx => ?_⟩
    · exact ⟨Nat.zero_lt_of_lt (hp h).1, (hp h).2⟩
    · cases hx; rfl
    · exact hp h
    · cases hx; rfl

theorem worksSoundly_checkMissing {e : Enc} {w : EncWork} (h : worksSoundly e w) (hx : w.crossing = none) :
    worksSoundly e (checkMissing w) := by
  obtain ⟨hs, hp, -⟩ := h
  unfold checkMissing
  split_ifs
  · exact ⟨hs, hp, by simp [hx]⟩
  · exact ⟨hs, hp, by simp [hx]⟩

theorem worksSoundly_workCount {e : Enc} (dir : Dir) {w : EncWork} (h : worksSoundly e w) (hx : w.crossing = none) :
    worksSoundly e (workCount dir w) := by
  obtain ⟨hs, hp, -⟩ := h
  have hs' : (applyCount dir w.enc).settings = e.settings := by simpa [applyCount] using hs
  have hp' : inTurn e → inTurn (applyCount dir w.enc) := fun h => inTurn_applyCount dir (hp h)
  unfold workCount
  dsimp only
  by_cases hcross : (applyCount dir w.enc).accepted.z && (applyCount dir w.enc).indexArmed
  · rw [if_pos hcross]
    exact worksSoundly_checkCrossing dir hs' hp'
  · rw [if_neg hcross]
    exact worksSoundly_checkMissing ⟨hs', hp', by simp [hx]⟩ hx

theorem worksSoundly_encWork (after : Lines) (e : Enc) : worksSoundly e (encWork after e) := by
  have start : worksSoundly e ⟨{ e with accepted := after }, [], none, none⟩ := ⟨rfl, id, by simp⟩
  refine worksSoundly_rearm ?_
  split
  · exact start
  · exact worksSoundly_workCount _ start rfl
  · exact ⟨rfl, id, by simp [workError]⟩

/-! ### The mode of GTE (R161) -/

theorem endLead_none {s : State} (h : s.psc.lead = none) (st : EndStatus) : endLead st s = s := by
  simp only [endLead, h]

/-- The ending of a pass takes GTE to SAFE or leaves its mode. -/
theorem endLead_mode {st : EndStatus} {s : State} (h : (endLead st s).gte.mode = .run) : s.gte.mode = .run := by
  by_cases hl : s.psc.lead = none
  · rwa [endLead_none hl] at h
  cases ha : abandons st with
  | false => rwa [(endLead_keeps_tags st ha s).2] at h
  | true =>
    obtain ⟨⟨hsafe, -⟩, -⟩ := endLead_enters ha hl
    simp [hsafe] at h

theorem endRunningLead_mode {st : EndStatus} {s : State} (h : (endRunningLead st s).gte.mode = .run) :
    s.gte.mode = .run := by
  unfold endRunningLead at h
  split at h
  · exact h
  · split_ifs at h
    · exact endLead_mode h
    · exact h

theorem countTimeout_mode {tag : BitVec 4} {s : State} (h : (countTimeout tag s).gte.mode = .run) :
    s.gte.mode = .run := by
  unfold countTimeout at h
  dsimp only at h
  split_ifs at h
  · unfold enterProbeFault at h
    simpa using endLead_mode h
  · exact h

theorem timeoutHead_mode {s : State} (h : (timeoutHead s).gte.mode = .run) : s.gte.mode = .run := by
  unfold timeoutHead at h
  split at h
  · exact h
  · split_ifs at h
    · simpa using countTimeout_mode h
    · exact h

theorem timeoutHeads_mode (n : Nat) {s : State} (h : (timeoutHeads n s).gte.mode = .run) : s.gte.mode = .run := by
  induction n generalizing s with
  | zero => exact h
  | succ n ih => exact timeoutHead_mode (ih h)

theorem clearLatches_mode (mask : Fin 8 → Bool) (s : State) : (clearLatches mask s).gte.mode = s.gte.mode := by
  unfold clearLatches
  dsimp only
  split_ifs
  · split
    · exact (arbitrateRun_gate false _ 0).1
    · exact (driveSafe_gate _ 0).1
  · rfl

theorem latchExpired_mode (s : State) (n : Fin 8) : (latchExpired s n).gte.mode = s.gte.mode := by
  unfold latchExpired
  dsimp only
  split_ifs <;> simp

theorem safeLevelsChanged_mode (s : State) : (safeLevelsChanged s).gte.mode = s.gte.mode := by
  unfold safeLevelsChanged
  split
  · exact (driveSafe_gate s 0).1
  · rfl

theorem handPosition_mode (old : Int) (s : State) : (handPosition old s).gte.mode = s.gte.mode := by
  unfold handPosition
  dsimp only
  split_ifs
  · rfl
  · simpa using (gatesPosition_shape (changeDir old (encU s.enc)) (encU s.enc) s).2

theorem enterSafe_mode (s : State) : (enterSafe s).gte.mode = .safe := (enterSafe_gte s 0).1

/-- A change of settings takes GTE out of RUN where ENC leaves HOMED by it (R14). -/
theorem renewSettings_mode {s : State} (h : (renewSettings s).gte.mode = .run) :
    s.gte.mode = .run ∧ ¬ (s.enc.state = .homed ∧ cprOrSenseChanges s.enc.settings s.cal.working.enc = true) := by
  unfold renewSettings at h
  dsimp only at h
  rw [handPosition_mode] at h
  split_ifs at h with left
  · simp [enterSafe_mode] at h
  · exact ⟨h, by simpa using left⟩

theorem exchange_mode (s : State) : (exchange s).gte.mode = s.gte.mode := by
  simpa [exchange] using (gatesExchange_rule (s.setWbk (exchangedBanks s.wbk s.enc.settings.cpr))).2.1

theorem banksCrossing_mode (eligible : Bool) (st : EncState) (s : State) :
    (banksCrossing eligible st s).gte.mode = s.gte.mode := by
  unfold banksCrossing
  split_ifs
  · exact exchange_mode s
  · rfl

/-- A crossing takes GTE to RUN only where it leaves ENC HOMED (R65, R161). -/
theorem passCrossing_mode {dir : Dir} {delta : Int} {outcome : IndexOutcome} {st : EncState} {s : State}
    (h : (passCrossing dir delta outcome st s).gte.mode = .run) : s.gte.mode = .run ∨ st = .homed := by
  unfold passCrossing at h
  split at h
  · exact .inl h
  dsimp only at h
  split at h
  · by_cases start : dir = .forward ∧ st = .homed
    · exact .inr start.2
    · exact .inl (by rwa [if_neg start] at h)
  · exact .inl (by simpa using h)

theorem handState_mode {left : Option EndStatus} {s : State} (h : (handState left s).gte.mode = .run) :
    s.gte.mode = .run ∧ left = none := by
  cases left with
  | none => exact ⟨h, rfl⟩
  | some st =>
    have := endRunningLead_mode (st := st) h
    simp [enterSafe_mode] at this

/-- After an accepted update GTE is in RUN only if it was and ENC did not leave HOMED, or if a crossing left ENC HOMED. -/
theorem handOn_mode {w : EncWork} {s : State} (h : (handOn w s).gte.mode = .run) :
    (s.gte.mode = .run ∧ w.leftHomed = none) ∨ ∃ x, w.crossing = some x ∧ x.state = .homed := by
  unfold handOn handCrossing at h
  dsimp only at h
  have before : ∀ old, (handPosition old (handState w.leftHomed
      (w.notices.foldl (fun t n => raise n t) (s.setEnc w.enc)))).gte.mode = .run →
      s.gte.mode = .run ∧ w.leftHomed = none := fun old h' => by
    rw [handPosition_mode] at h'
    simpa using handState_mode h'
  split at h
  · exact .inl (before _ h)
  · rename_i x hx
    obtain h' | h' := passCrossing_mode h
    · rw [banksCrossing_mode] at h'
      exact .inl (before _ h')
    · exact .inr ⟨x, hx, h'⟩

/-- R161 over an accepted update: ENC's work that leaves HOMED reports so (`encWork_left`). -/
theorem runHomed_handOn {w : EncWork} {s : State} (hw : worksSoundly s.enc w)
    (hleft : s.enc.state = .homed → w.enc.state ≠ .homed → w.leftHomed ≠ none) (hs : runHomed s) :
    runHomed (handOn w s) := by
  intro hrun
  rw [(handOn_frame w s).2.1]
  obtain ⟨hmode, hnone⟩ | ⟨x, hx, hstate⟩ := handOn_mode hrun
  · by_contra hne
    exact hleft (hs hmode) hne hnone
  · rw [← hw.2.2 x hx, hstate]

/-! ### The invariant -/

/-- What every step keeps of ENC, its settings and the mode of GTE. -/
def encoderSound (s : State) : Prop := positionOk s ∧ settingsOk s ∧ runHomed s

/-- Only ENC, the working copy with the image, and the mode of GTE count. -/
theorem encoderSound_congr {s t : State} (he : t.enc = s.enc) (hc : t.cal.working.enc = s.cal.working.enc)
    (hi : t.cal.image = s.cal.image) (hm : t.gte.mode = .run → s.gte.mode = .run) (h : encoderSound s) :
    encoderSound t := by
  obtain ⟨hp, hset, hrun⟩ := h
  refine ⟨?_, ?_, fun h => ?_⟩
  · rw [positionOk, he]; exact hp
  · rw [settingsOk, he, hc, hi]; exact hset
  · rw [he]; exact hrun (hm h)

theorem encSettings_default_ok : cprOk Settings.default.enc.cpr = true := by decide

theorem cprOk_pos {cpr : Nat} (h : cprOk cpr = true) : 0 < cpr := by
  simp [cprOk] at h
  omega

/-- R14 field by field. -/
theorem renewedEnc_eq (new : EncSettings) (e : Enc) :
    renewedEnc new e = { e with
      settings := new
      noted := if e.settings.filterPeriod = new.filterPeriod then e.noted else noLines
      c := if cprOrSenseChanges e.settings new then 0 else e.c
      state := if cprOrSenseChanges e.settings new then .notHomed else e.state } := by
  unfold renewedEnc
  dsimp only
  split_ifs <;> rfl

theorem not_cprOrSenseChanges_iff {old new : EncSettings} :
    ¬ cprOrSenseChanges old new = true ↔ new.cpr = old.cpr ∧ new.sense = old.sense := by
  simp only [cprOrSenseChanges, Bool.or_eq_true, decide_eq_true_eq, not_or, not_not]
  rw [eq_comm, @eq_comm _ old.sense]

/-- A settings copy just renewed: the position is as it was, or at its start. -/
theorem encoderSound_renewed {s t : State} {e : EncSettings} (he : t.enc = renewedEnc e s.enc)
    (hc : t.cal.working.enc = e) (hi : t.cal.image = s.cal.image) (hok : cprOk e.cpr = true)
    (hm : t.gte.mode = .run → s.gte.mode = .run ∧
      ¬ (s.enc.state = .homed ∧ cprOrSenseChanges s.enc.settings e = true)) (h : encoderSound s) :
    encoderSound t := by
  obtain ⟨⟨hturn, hrev⟩, ⟨hsame, hcpr, himage⟩, hrun⟩ := h
  rw [renewedEnc_eq] at he
  refine ⟨?_, ⟨by rw [he, hc], by rwa [he], hi ▸ himage⟩, fun h => ?_⟩
  · rw [positionOk, he]
    dsimp only
    split_ifs with hch
    · exact ⟨cprOk_pos hok, hrev⟩
    · exact ⟨(not_cprOrSenseChanges_iff.mp hch).1 ▸ hturn, hrev⟩
  · obtain ⟨hmode, hstay⟩ := hm h
    rw [he]
    dsimp only
    rw [if_neg fun hch => hstay ⟨hrun hmode, hch⟩]
    exact hrun hmode

theorem imageOk_stopProgram {s : State} (h : imageOk s.cal.image = true → cprOk s.cal.image.settings.enc.cpr = true) :
    imageOk (stopProgram s).cal.image = true → cprOk (stopProgram s).cal.image.settings.enc.cpr = true := by
  unfold stopProgram
  split
  · exact h
  · simp [imageOk, spoiltImage]

theorem gatesReset_mode (s : State) : (gatesReset s).gte.mode = .safe := by
  simp [gatesReset, Gte.reset, driveSafe]

theorem encoderSound_reset {s : State} (causes : ResetCauses) (h : encoderSound s) :
    encoderSound (resetPart causes s) := by
  obtain ⟨-, ⟨-, -, himage⟩, -⟩ := h
  have hchecked : cprOk (checkedCal (stopProgram s).cal.image).working.enc.cpr = true ∧
      (imageOk (checkedCal (stopProgram s).cal.image).image = true →
        cprOk (checkedCal (stopProgram s).cal.image).image.settings.enc.cpr = true) := by
    unfold checkedCal
    split_ifs with hok
    · exact ⟨imageOk_stopProgram himage hok, imageOk_stopProgram himage⟩
    · exact ⟨encSettings_default_ok, imageOk_stopProgram himage⟩
  have hsafe : (resetPart causes s).gte.mode = .safe := gatesReset_mode _
  refine ⟨?_, ?_, fun hrun => by simp [hsafe] at hrun⟩
  · unfold positionOk
    rw [(resetPart_frame causes s).2.1]
    exact ⟨cprOk_pos hchecked.1, by simp [Enc.reset, revMin], by simp [Enc.reset, revMax]⟩
  · unfold settingsOk
    obtain ⟨-, henc, -, -, -, -, -, -, hcal, -⟩ := resetPart_frame causes s
    rw [henc, hcal]
    exact ⟨rfl, hchecked⟩

theorem encoderSound_update {s : State} (l : Lines) (h : encoderSound s) :
    encoderSound (acceptUpdate l (sampled s)) := by
  obtain ⟨hpos, hset, hrun⟩ := h
  have hw := worksSoundly_encWork (filterAccepted (sampled s).enc l)
    { (sampled s).enc with noted := filterNoted (sampled s).enc l }
  have henc : (acceptUpdate l (sampled s)).enc = _ := (handOn_frame _ (sampled s)).2.1
  refine ⟨?_, ?_, ?_⟩
  · rw [positionOk, henc]
    exact hw.2.1 hpos
  · rw [settingsOk, henc, hw.1, (acceptUpdate_frame l (sampled s)).2.2.1]
    exact hset
  · refine runHomed_handOn hw (fun hhomed hne hnone => ?_) hrun
    obtain ⟨hrep, -⟩ := encWork_left (e := { (sampled s).enc with noted := filterNoted (sampled s).enc l }) hhomed hne
    simp [hrep] at hnone

theorem writtenImage_cpr {s : State} (op : ProgOp) (h : settingsOk s) :
    cprOk (writtenImage op s.cal).settings.enc.cpr = true := by
  obtain ⟨hsame, hcpr, -⟩ := h
  cases op
  case cers => exact encSettings_default_ok
  all_goals exact hsame ▸ hcpr

theorem encoderSound_completion {s : State} (op : ProgOp) (result : VerifyResult) (h : encoderSound s) :
    encoderSound (completeProgram op result s) := by
  obtain ⟨hpos, hset, hrun⟩ := h
  refine ⟨by simpa [positionOk] using hpos, ?_, by simpa [runHomed] using hrun⟩
  have hsame := hset.1
  have hcpr := hset.2.1
  cases result with
  | ok => simpa [settingsOk, completedOk, writtenImage_cpr op hset] using ⟨hsame, hcpr⟩
  | verifyFail =>
    have hspoilt : imageOk (spoiltImage s.freeNext) = false := by simp [imageOk, spoiltImage]
    simpa [settingsOk, completedFail, hspoilt] using ⟨hsame, hcpr⟩

theorem encfSettings_cpr {a : EncfArgs} {e : EncSettings} (h : encfSettings a = some e) : cprOk e.cpr = true := by
  unfold encfSettings at h
  split_ifs at h with hok
  obtain ⟨_, _, rfl⟩ := Option.map_eq_some_iff.mp h
  exact hok

theorem encoderSound_work {c : Instr} {s t : State} (hw : Work c s t) (h : encoderSound s) : encoderSound t := by
  cases hw
  case reset => exact encoderSound_reset _ h
  case update l hacc => exact encoderSound_update l h
  case sample e he =>
    rw [samplesOnly] at he
    rw [he]
    exact h
  case stall => exact encoderSound_congr (by simp) (by simp) (by simp) endRunningLead_mode h
  case timeout => exact encoderSound_congr (by simp) (by simp) (by simp) timeoutHead_mode h
  case qualification =>
    exact encoderSound_congr (by simp) (by simp) (by simp) (by simp [gateNumbers, latchExpired_mode]) h
  case completion result p hp => exact encoderSound_completion p.op result h
  case encoder e he hl =>
    exact encoderSound_renewed (e := e) (by simp) (by simp) (by simp) (encfSettings_cpr he)
      (fun hrun => by simpa using renewSettings_mode hrun) h
  case safeLevels =>
    exact encoderSound_congr (by simp) (by simp) (by simp)
      (fun hrun => by rw [applyGsaf, safeLevelsChanged_mode] at hrun; simpa using hrun) h
  case erase =>
    refine encoderSound_renewed (e := Settings.default.enc) (by simp) (by simp) (by simp) encSettings_default_ok
      (fun hrun => ?_) h
    rw [applyCers, safeLevelsChanged_mode] at hrun
    simpa using renewSettings_mode hrun
  case workpiece =>
    exact encoderSound_congr (by simp) (by simp) (by simp) (by simp [loadWorkpiece, enterSafe_mode]) h
  case latches => exact encoderSound_congr (by simp) (by simp) (by simp) (by simp [clearLatches_mode]) h
  case timing =>
    exact encoderSound_congr (by simp) (by simp) (by simp) (fun hrun => by simpa using timeoutHeads_mode _ hrun) h
  case aborted => exact encoderSound_congr (by simp) (by simp) (by simp) endLead_mode h
  all_goals exact encoderSound_congr (by simp) (by simp) (by simp) (by simp) h

theorem encoderSound_kept : Kept encoderSound where
  pending _ _ h := h
  tick s h := encoderSound_congr (by simp) (by simp) (by simp) (by simp) h
  take _ h := h
  place _ _ _ h := h
  work _ _ _ := encoderSound_work

/-- Settles O18: the three parts rest on one another (a reset needs the image's CPR, RUN the report of ENC's leaving
HOMED), so they are one invariant of every command's work. -/
theorem encoderInvariantKept : Obligations.EncoderInvariantKept :=
  fun _ _ hstep hpos hset hrun => encoderSound_kept.step hstep ⟨hpos, hset, hrun⟩

end Sys2Proof.Machine
end

