-- ==== Sys2Proof/Proofs/LeavingHomed.lean ====
section
/-! PROOFS. Proofs/LeavingHomed.lean: what takes ENC out of HOMED takes GTE to SAFE and ends a running pass (R12, R75, R161). -/

namespace Sys2Proof.Machine

open Sys2Proof

/-! ### A change of settings (R14) -/

/-- With the lead IDLE a change of CPR or sense in HOMED takes GTE to SAFE and hands on nothing else. -/
theorem renewSettings_left {s : State} (hl : s.psc.lead = none) (hs : s.enc.state = .homed)
    (hch : cprOrSenseChanges s.enc.settings s.cal.working.enc = true) :
    renewSettings s = enterSafe (s.setEnc (renewedEnc s.cal.working.enc s.enc)) := by
  unfold renewSettings
  simp only [hs, hch, decide_true, Bool.and_self, if_true]
  exact handPosition_idle (enterSafe_mode _) (by simp [noRunningLead, hl]) _

theorem renewSettings_entersSafe {s : State} (hl : s.psc.lead = none) (hs : s.enc.state = .homed)
    (hch : cprOrSenseChanges s.enc.settings s.cal.working.enc = true) : entersSafe s (renewSettings s) := by
  rw [renewSettings_left hl hs hch]
  exact entersSafe_congr (enterSafe_rule _) rfl rfl rfl rfl rfl

theorem applyEncf_entersSafe {e : EncSettings} {s : State} (hl : s.psc.lead = none) (hs : s.enc.state = .homed)
    (hch : cprOrSenseChanges s.enc.settings e = true) : entersSafe s (applyEncf e s) :=
  entersSafe_congr (renewSettings_entersSafe (s := editWorking { s.cal.working with enc := e } s) hl hs hch)
    rfl rfl rfl rfl rfl

/-- The safe levels driven again after an entry into SAFE leave GTE as the entry left it. -/
theorem safeLevelsChanged_entersSafe {s m : State} (h : entersSafe s m) : entersSafe s (safeLevelsChanged m) := by
  have hmode : m.gte.mode = .safe := h.1.1
  obtain ⟨hdriven, hlast, hdue⟩ := driveSafe_driven_rule m hmode
  simp only [safeLevelsChanged, hmode]
  exact entersSafe_again h hdriven hlast hdue (by simp) (by simp)

theorem applyCers_entersSafe {s : State} (hl : s.psc.lead = none) (hs : s.enc.state = .homed)
    (hch : cprOrSenseChanges s.enc.settings Settings.default.enc = true) : entersSafe s (applyCers s) := by
  refine safeLevelsChanged_entersSafe ?_
  have := renewSettings_entersSafe (s := startProgram .cers
    (s.setCal { s.cal with working := Settings.default, origin := .defaults, locked := false })) hl hs hch
  exact entersSafe_congr this rfl rfl rfl rfl rfl

/-- Only a change of CPR or sense makes a renewal leave HOMED (R14). -/
theorem changes_of_renewedEnc {new : EncSettings} {e : Enc} (hs : e.state = .homed)
    (h : (renewedEnc new e).state ≠ .homed) : cprOrSenseChanges e.settings new = true := by
  rw [renewedEnc_eq] at h
  dsimp only at h
  by_contra hch
  rw [if_neg hch] at h
  exact h hs

/-! ### An accepted update (R12, R13) -/

theorem abandons_leavingStatus (st : EncState) : abandons (leavingStatus st) = true := by
  unfold leavingStatus
  split_ifs <;> rfl

/-- ENC's work of an accepted update, from the sample that made it. -/
def updateWork (l : Lines) (s : State) : EncWork :=
  encWork (filterAccepted s.enc l) { afterSample s.now s.enc with noted := filterNoted s.enc l }

theorem acceptUpdate_sampled (l : Lines) (s : State) :
    acceptUpdate l (sampled s) = handOn (updateWork l s) (sampled s) := rfl

theorem acceptUpdate_enc (l : Lines) (s : State) : (acceptUpdate l (sampled s)).enc = (updateWork l s).enc := by
  rw [acceptUpdate_sampled, (handOn_frame _ _).2.1]

theorem updateWork_left {l : Lines} {s : State} (hs : s.enc.state = .homed)
    (h : (updateWork l s).enc.state ≠ .homed) : reportsLeaving (updateWork l s) :=
  encWork_left (e := { afterSample s.now s.enc with noted := filterNoted s.enc l }) hs h

theorem acceptUpdate_homedLeft {l : Lines} {s : State} (hs : s.enc.state = .homed)
    (h : (updateWork l s).enc.state ≠ .homed) :
    homedLeft (leavingStatus (updateWork l s).enc.state) s (acceptUpdate l (sampled s)) := by
  obtain ⟨hleft, hcross⟩ := updateWork_left hs h
  exact homedLeft_of (acceptUpdate_left hleft (abandons_leavingStatus _) hcross) rfl

theorem endRunningLead_ends {st : EndStatus} {s : State} {l : Lead} (hl : s.psc.lead = some l)
    (hrun : l.phase ≠ .armed) : (endRunningLead st s).psc.lead = none := by
  simp only [endRunningLead, hl, leadRunning, bne_iff_ne, ne_eq, hrun, not_false_eq_true, if_true]
  exact endLead_lead st s

theorem acceptUpdate_endsLead {l : Lines} {s : State} (hs : s.enc.state = .homed)
    (h : (updateWork l s).enc.state ≠ .homed) {lead : Lead} (hl : s.psc.lead = some lead)
    (hrun : lead.phase ≠ .armed) : (acceptUpdate l (sampled s)).psc.lead = none := by
  obtain ⟨hleft, hcross⟩ := updateWork_left hs h
  rw [acceptUpdate_sampled, handOn_left hleft (abandons_leavingStatus _) hcross]
  exact endRunningLead_ends (l := lead) (by simpa [raises_frame] using hl) hrun

/-! ### Any command -/

theorem safeLevelsDriven_gatesReset (s : State) : safeLevelsDriven (gatesReset s) := by
  intro n
  have h := driveSafe_rule (s.setGte (Gte.reset fun n => (s.gte.gates.get n).sense))
  simpa [safeLevelsDriven, gatesReset, startQual] using h n

theorem safeAfter_resetPart (causes : ResetCauses) (s : State) :
    (resetPart causes s).gte.mode = .safe ∧ (resetPart causes s).gte.last = none ∧
      (∀ n, ((resetPart causes s).gte.gates.get n).due = .none) ∧ safeLevelsDriven (resetPart causes s) := by
  refine ⟨gatesReset_mode _, rfl, fun n => ?_, safeLevelsDriven_gatesReset _⟩
  simp [resetPart, gatesReset, driveSafe, startQual, Gte.reset, Gate.reset]

/-- What the leaving of HOMED by a command makes of GTE and of a running lead. -/
def leftSafely (c : Instr) (s t : State) : Prop :=
  ((∃ causes, isReset c s causes ∧ t = resetPart causes s) ∨ entersSafe s t) ∧
    ∀ l, s.psc.lead = some l → l.phase ≠ .armed → t.psc.lead = none

theorem Work.leftSafely {c : Instr} {s t : State} (hw : Work c s t) (hs : s.enc.state = .homed)
    (ht : t.enc.state ≠ .homed) : leftSafely c s t := by
  cases hw
  case reset causes h => exact ⟨.inl ⟨causes, h, rfl⟩, by simp [Psc.reset]⟩
  case update l h =>
    rw [acceptUpdate_enc] at ht
    exact ⟨.inr (acceptUpdate_homedLeft hs ht).2.1, fun _ => acceptUpdate_endsLead hs ht⟩
  case sample e he =>
    rw [samplesOnly] at he
    rw [State.setEnc_enc, he] at ht
    exact absurd hs ht
  case encoder e he hl =>
    have hch := changes_of_renewedEnc (new := e) hs (by simpa using ht)
    exact ⟨.inr (applyEncf_entersSafe hl hs hch), by simp [hl]⟩
  case erase hl =>
    have hch := changes_of_renewedEnc (new := Settings.default.enc) hs (by simpa using ht)
    exact ⟨.inr (applyCers_entersSafe hl hs hch), by simp [hl]⟩
  all_goals exact absurd (by simpa using hs) ht

theorem not_isReset {c : Instr} (h1 : c ≠ .powerOnReset) (h2 : c ≠ .pinReset) (h3 : c ≠ .requestReset) {s : State}
    {causes : ResetCauses} : ¬ isReset c s causes := by
  rintro (⟨h, -⟩ | ⟨h, -⟩ | ⟨h, -⟩)
  · exact h1 h
  · exact h2 h
  · exact h3 h

/-- GTE in SAFE as a leaving of HOMED leaves it, whether by a reset or by an entry into SAFE. -/
def standsSafe (t : State) : Prop :=
  t.gte.mode = .safe ∧ t.gte.last = none ∧ (∀ n, (t.gte.gates.get n).due = .none) ∧ safeLevelsDriven t

theorem standsSafe_of_leftSafely {c : Instr} {s t : State} (h : leftSafely c s t) : standsSafe t := by
  obtain ⟨⟨causes, -, rfl⟩ | ⟨⟨hmode, -, hlevels, -⟩, hlast, hdue⟩, -⟩ := h
  · exact safeAfter_resetPart causes s
  · exact ⟨hmode, hlast, hdue, hlevels⟩

/-- The leaving of HOMED seen from outside LNK's taking of a request and placing of its reply. -/
theorem leftSafely_of_exec {c : Instr} {s t : State} (h : exec c s = .next t) (hs : s.enc.state = .homed)
    (ht : t.enc.state ≠ .homed) :
    standsSafe t ∧ ((∀ causes, ¬ isReset c s causes) → entersSafe s t) ∧
      ∀ l, s.psc.lead = some l → l.phase ≠ .armed → t.psc.lead = none := by
  obtain hw | ⟨k, body, u, hw, rfl⟩ := work_of_exec h
  · have hleft := hw.leftSafely hs ht
    refine ⟨standsSafe_of_leftSafely hleft, fun hno => ?_, hleft.2⟩
    obtain ⟨causes, hreset, -⟩ | henter := hleft.1
    · exact absurd hreset (hno causes)
    · exact henter
  · have hleft := hw.leftSafely (by simpa using hs) (by simpa using ht)
    refine ⟨show standsSafe u from standsSafe_of_leftSafely hleft, fun hno => ?_, hleft.2⟩
    obtain ⟨causes, hreset, -⟩ | henter := hleft.1
    · exact absurd hreset (hno causes)
    · exact entersSafe_congr henter rfl rfl rfl rfl rfl

theorem exec_acceptedUpdate (l : Lines) (s : State) :
    exec (.acceptedUpdate l) s = if (sampleDue s.enc s.now && makesUpdate s.enc l) = true then
      .next (acceptUpdate l (sampled s)) else .next s := rfl

theorem exec_acceptedUpdate_of_accepts {l : Lines} {s : State} (h : acceptsUpdate s l) :
    exec (.acceptedUpdate l) s = .next (acceptUpdate l (sampled s)) :=
  if_pos ((acceptsUpdate_iff s l).mpr h)

theorem acceptedUpdate_homedLeft {l : Lines} {s t : State} (h : exec (.acceptedUpdate l) s = .next t)
    (hs : s.enc.state = .homed) (ht : t.enc.state ≠ .homed) :
    homedLeft (if t.enc.state = .fault then .encoderFault else .indexFault) s t := by
  by_cases hacc : acceptsUpdate s l
  · obtain rfl : acceptUpdate l (sampled s) = t := by simpa [exec_acceptedUpdate_of_accepts hacc] using h
    rw [acceptUpdate_enc] at ht ⊢
    exact acceptUpdate_homedLeft hs ht
  · rw [exec_acceptedUpdate, if_neg (mt (acceptsUpdate_iff s l).mp hacc)] at h
    cases h
    exact absurd hs ht

/-- Settles O17: only a reset, an update, an ENCF and a CERS take ENC out of HOMED (`Work.leftSafely`), and an update does
so as `acceptUpdate_homedLeft` says. -/
theorem leavingHomedTakesGatesToSafe : Obligations.LeavingHomedTakesGatesToSafe := by
  intro c s t h hs ht
  obtain ⟨hsafe, henter, hlead⟩ := leftSafely_of_exec h hs ht
  refine ⟨hsafe, fun h1 h2 h3 => henter fun _ => not_isReset h1 h2 h3, ?_, hlead⟩
  rintro l rfl
  exact acceptedUpdate_homedLeft h hs ht

end Sys2Proof.Machine
end

