-- ==== Sys2Proof/Proofs/BankInvariants.lean ====
section
/-! PROOFS. Proofs/BankInvariants.lean: what each command makes of the two banks, and that every step keeps them well-formed
and passed (R44, R45, R47, R51, R56). -/

namespace Sys2Proof.Machine

open Sys2Proof

/-! ### The records that STWN and STGT read (R44, R47) -/

theorem readRange_ok {first count : Nat} {r : Option BladeRange} (h : readRange first count = some r) : rangeOk r := by
  unfold readRange at h
  split_ifs at h with absent illegal
  · cases h
    simp [rangeOk]
  · cases h
    rintro x ⟨⟩
    dsimp only
    omega

theorem windowOk_of_readWindow {a : StwnArgs} {w : Window} (h : readWindow a = some w) : windowOk w := by
  unfold readWindow at h
  split_ifs at h with order bound step
  split at h
  · cases h
    have := clamp_bounds (show 0 ≤ 15 by omega) a.exposure
    have := clamp_bounds (show 0 ≤ 4095 by omega) a.floor
    simp only [phaseBound, pitchUnits] at bound step
    exact ⟨by dsimp only; omega, by dsimp only; omega, by dsimp only; omega, by dsimp only; omega, by dsimp only; omega,
      by dsimp only; omega, readRange_ok ‹_›⟩
  · cases h

theorem gateRecordOk_of_readGateRecord {a : StgtArgs} {r : Option GateRecord} (h : readGateRecord a = some r) :
    ∀ g, r = some g → gateRecordOk g := by
  unfold readGateRecord at h
  split_ifs at h with unused phase order bound
  · cases h
    simp
  split at h
  · cases h
    rintro g ⟨⟩
    have := clamp_bounds (show 0 ≤ extensionBound by omega) a.extension
    simp only [phaseBound] at bound
    exact ⟨by dsimp only; omega, by dsimp only; omega, this.2, readRange_ok ‹_›⟩
  · cases h

/-! ### Insertion in start order (R45) -/

theorem length_insertWindow (ws : List Window) (w : Window) : (insertWindow ws w).length = ws.length + 1 := by
  rw [insertWindow, List.length_append, List.length_cons, ← Nat.add_assoc, ← List.length_append,
    List.takeWhile_append_dropWhile]

theorem mem_insertWindow {ws : List Window} {w v : Window} : v ∈ insertWindow ws w ↔ v = w ∨ v ∈ ws := by
  conv_rhs => rw [← List.takeWhile_append_dropWhile (p := fun v => decide (v.start ≤ w.start)) (l := ws)]
  simp only [insertWindow, List.mem_append, List.mem_cons]
  tauto

/-- In a list in start order, what the new window goes before starts after it. -/
theorem start_lt_of_mem_dropWhile {ws : List Window} (hs : ws.Pairwise fun v w => v.start ≤ w.start) (x : Nat) :
    ∀ v ∈ ws.dropWhile (fun v => decide (v.start ≤ x)), x < v.start := by
  induction ws with
  | nil => simp
  | cons u ws ih =>
    obtain ⟨hu, hrest⟩ := List.pairwise_cons.mp hs
    rw [List.dropWhile_cons]
    split_ifs with h
    · exact ih hrest
    · simp only [decide_eq_true_eq, not_le] at h
      intro v hv
      obtain rfl | hv := List.mem_cons.mp hv
      · exact h
      · exact h.trans_le (hu v hv)

theorem start_le_of_mem_takeWhile {ws : List Window} (x : Nat) :
    ∀ v ∈ ws.takeWhile (fun v => decide (v.start ≤ x)), v.start ≤ x :=
  fun _ hv => by simpa using List.mem_takeWhile_imp hv

theorem pairwise_insertWindow {ws : List Window} (w : Window) (hs : ws.Pairwise fun v w => v.start ≤ w.start) :
    (insertWindow ws w).Pairwise fun v w => v.start ≤ w.start := by
  have before := start_le_of_mem_takeWhile (ws := ws) w.start
  have after := start_lt_of_mem_dropWhile hs w.start
  refine List.pairwise_append.mpr ⟨hs.sublist (List.takeWhile_sublist _), List.pairwise_cons.mpr ⟨?_, ?_⟩, ?_⟩
  · exact fun v hv => (after v hv).le
  · exact hs.sublist (List.dropWhile_sublist _)
  · intro v hv u hu
    obtain rfl | hu := List.mem_cons.mp hu
    · exact before v hv
    · exact (before v hv).trans (after u hu).le

/-! ### What is well-formed and what is passed does not depend on the warnings -/

theorem bankOk_empty : bankOk Bank.empty := by
  refine ⟨by simp [Bank.empty], by simp [Bank.empty], by simp [Bank.empty], fun n r h => ?_⟩
  fin_cases n <;> cases h

theorem bankOk_insertWindow {b : Bank} {w : Window} (hb : bankOk b) (hw : windowOk w)
    (hlen : b.windows.length < bankWindows) : bankOk { b with windows := insertWindow b.windows w } := by
  obtain ⟨-, horder, hwindows, hgates⟩ := hb
  refine ⟨?_, pairwise_insertWindow w horder, fun v hv => ?_, hgates⟩
  · rw [length_insertWindow]
    exact hlen
  · obtain rfl | hv := mem_insertWindow.mp hv
    · exact hw
    · exact hwindows v hv

theorem bankOk_setGate {b : Bank} {n : Fin 8} {r : Option GateRecord} (hb : bankOk b)
    (hr : ∀ g, r = some g → gateRecordOk g) : bankOk { b with gates := b.gates.set n r } := by
  obtain ⟨hlen, horder, hwindows, hgates⟩ := hb
  refine ⟨hlen, horder, hwindows, fun m g hg => ?_⟩
  simp only [Eight.get_set] at hg
  split_ifs at hg
  · exact hr g hg
  · exact hgates m g hg

/-! ### The banks after an accepted update (R55, R56) -/

theorem updateWork_sound (l : Lines) (s : State) : worksSoundly s.enc (updateWork l s) :=
  worksSoundly_encWork (filterAccepted s.enc l) { afterSample s.now s.enc with noted := filterNoted s.enc l }

@[simp] theorem passCrossing_wbk (dir : Dir) (delta : Int) (outcome : IndexOutcome) (st : EncState) (s : State) :
    (passCrossing dir delta outcome st s).wbk = s.wbk := (passCrossing_frame dir delta outcome st s).2.2.1

theorem banksCrossing_wbk (eligible : Bool) (st : EncState) (s : State) :
    (banksCrossing eligible st s).wbk = s.wbk ∨
      (eligible = true ∧ st = .homed ∧ s.wbk.stagedState = .pending ∧
        (banksCrossing eligible st s).wbk = exchangedBanks s.wbk s.enc.settings.cpr) := by
  cases eligible with
  | false => exact .inl rfl
  | true =>
    obtain ⟨hst, hpending, heq⟩ | ⟨-, heq⟩ := banksCrossing_cases st s
    · exact .inr ⟨rfl, hst, hpending, by rw [heq]; simp [exchange]⟩
    · exact .inl (by rw [heq])

/-- An accepted update leaves the banks as they are, or exchanges them where R55 has them exchanged. -/
theorem acceptUpdate_wbk (l : Lines) (s : State) :
    (acceptUpdate l (sampled s)).wbk = s.wbk ∨
      (leadEligible s.psc = true ∧ (acceptUpdate l (sampled s)).enc.state = .homed ∧
        s.wbk.stagedState = .pending ∧
        (acceptUpdate l (sampled s)).wbk = exchangedBanks s.wbk s.enc.settings.cpr) := by
  obtain ⟨hsettings, -, hcross⟩ := updateWork_sound l s
  rw [acceptUpdate_enc, acceptUpdate_sampled]
  unfold handOn handCrossing
  dsimp only
  split
  · exact .inl (by simp)
  · rename_i x hx
    simp only [passCrossing_wbk]
    obtain heq | ⟨heligible, hst, hpending, heq⟩ := banksCrossing_wbk (leadEligible (sampled s).psc) x.state
      (handPosition (encU (sampled s).enc) (handState (updateWork l s).leftHomed
        ((updateWork l s).notices.foldl (fun t n => raise n t) ((sampled s).setEnc (updateWork l s).enc))))
    · exact .inl (by rw [heq]; simp)
    · refine .inr ⟨heligible, hcross x hx ▸ hst, by simpa using hpending, ?_⟩
      rw [heq]
      simp [hsettings]

/-! ### The invariants -/

/-- Both banks hold well-formed records in their order. -/
def banksOk (s : State) : Prop := bankOk s.wbk.active ∧ bankOk s.wbk.staged

theorem banksOk_congr {s t : State} (hw : t.wbk = s.wbk) (h : banksOk s) : banksOk t := by
  rwa [banksOk, hw]

theorem banksPassed_congr {s t : State} (hw : t.wbk = s.wbk) (h : banksPassed s) : banksPassed t := by
  rwa [banksPassed, hw]

theorem banksOk_work {c : Instr} {s t : State} (hw : Work c s t) (h : banksOk s) : banksOk t := by
  obtain ⟨hactive, hstaged⟩ := h
  cases hw
  case reset => simp [banksOk, Wbk.reset, bankOk_empty]
  case update l hacc =>
    obtain heq | ⟨-, -, -, heq⟩ := acceptUpdate_wbk l s
    · exact banksOk_congr heq ⟨hactive, hstaged⟩
    · rw [banksOk, heq]
      exact ⟨hstaged, hactive⟩
  case workpiece => simp [banksOk, Wbk.reset, bankOk_empty]
  case emptied => exact ⟨hactive, bankOk_empty⟩
  case inserted w hw hediting hlen => exact ⟨hactive, bankOk_insertWindow hstaged (windowOk_of_readWindow hw) hlen⟩
  case gateRecord n r hr hediting => exact ⟨hactive, bankOk_setGate hstaged (gateRecordOk_of_readGateRecord hr)⟩
  case pended => exact ⟨hactive, hstaged⟩
  case unpended => exact ⟨hactive, hstaged⟩
  all_goals exact banksOk_congr (by simp) ⟨hactive, hstaged⟩

theorem banksOk_kept : Kept banksOk where
  pending _ _ h := h
  tick _ h := banksOk_congr (by simp) h
  take _ h := h
  place _ _ _ h := h
  work _ _ _ := banksOk_work

/-- The exchange activates the bank that was PENDING, which had passed, and leaves none pending (R56). -/
theorem banksPassed_exchanged {s t : State} {cpr : Nat} (hpending : s.wbk.stagedState = .pending)
    (heq : t.wbk = exchangedBanks s.wbk cpr) (h : banksPassed s) : banksPassed t := by
  rw [banksPassed, heq]
  exact ⟨by simp [exchangedBanks], fun _ => h.1 hpending, by simp [exchangedBanks]⟩

theorem banksPassed_work {c : Instr} {s t : State} (hw : Work c s t) (h : banksPassed s) : banksPassed t := by
  obtain ⟨hstaged, hactive, hempty⟩ := h
  cases hw
  case reset => simp [banksPassed, Wbk.reset]
  case update l hacc =>
    obtain heq | ⟨-, -, hpending, heq⟩ := acceptUpdate_wbk l s
    · exact banksPassed_congr heq ⟨hstaged, hactive, hempty⟩
    · exact banksPassed_exchanged hpending heq ⟨hstaged, hactive, hempty⟩
  case workpiece => simp [banksPassed, Wbk.reset]
  case emptied hediting => exact ⟨by simp [hediting], hactive, hempty⟩
  case inserted w hw hediting hlen => exact ⟨by simp [hediting], hactive, hempty⟩
  case gateRecord n r hr hediting => exact ⟨by simp [hediting], hactive, hempty⟩
  case pended w warnings hediting hw hv => exact ⟨fun _ => ⟨w, hw, validate_valid hv⟩, hactive, hempty⟩
  case unpended => exact ⟨by simp, hactive, hempty⟩
  all_goals exact banksPassed_congr (by simp) ⟨hstaged, hactive, hempty⟩

theorem banksPassed_kept : Kept banksPassed where
  pending _ _ h := h
  tick _ h := banksPassed_congr (by simp) h
  take _ h := h
  place _ _ _ h := h
  work _ _ _ := banksPassed_work

/-- Settles O35: two invariants of every command's work, each kept by an exchange because it swaps the two banks. -/
theorem banksStayWellFormed : Obligations.BanksStayWellFormed :=
  fun _ _ hstep =>
    ⟨fun hactive hstaged => banksOk_kept.step hstep ⟨hactive, hstaged⟩, banksPassed_kept.step hstep⟩

end Sys2Proof.Machine
end

