-- ==== Sys2Proof/Proofs/GateInvariants.lean ====
section
/-! PROOFS. Proofs/GateInvariants.lean: at most one gate of an exclusion group is ON and a SHORT gate is OFF, under every
step (R166, R170). -/

namespace Sys2Proof.Machine

open Sys2Proof

/-- The two invariants that every step keeps of the driven levels. -/
def gatesSound (s : State) : Prop := groupsExclusive s ∧ shortGatesOff s

/-! ### Where the levels come from -/

/-- The levels and statuses of two states agree, and so do the groups. -/
theorem gatesSound_congr {s t : State} (hb : t.wbk.active = s.wbk.active)
    (hg : ∀ n, (t.gte.gates.get n).driven = (s.gte.gates.get n).driven ∧
      (t.gte.gates.get n).status = (s.gte.gates.get n).status) (h : gatesSound s) : gatesSound t := by
  obtain ⟨hx, hshort⟩ := h
  constructor
  · intro m n q
    rw [hb, (hg m).1, (hg n).1]
    exact hx m n q
  · intro n
    rw [(hg n).1, (hg n).2]
    exact hshort n

theorem gatesSound_of_gte {s t : State} (hb : t.wbk = s.wbk) (hg : t.gte = s.gte) (h : gatesSound s) : gatesSound t :=
  gatesSound_congr (by rw [hb]) (fun n => by rw [hg]; exact ⟨rfl, rfl⟩) h

/-- The safe levels drive the lowest candidate of a group and no SHORT gate (R162). -/
theorem gatesSound_of_safeLevelsDriven {t : State} (h : safeLevelsDriven t) : gatesSound t := by
  constructor
  · intro m n q hm hn hdm hdn
    obtain ⟨hcm, hlowm⟩ := (h m).2.mp hdm
    obtain ⟨hcn, hlown⟩ := (h n).2.mp hdn
    exact le_antisymm (hlowm q n hm hn hcn) (hlown q m hn hm hcm)
  · intro n hshort
    by_contra hon
    obtain ⟨hcand, -⟩ := (h n).2.mp (by simpa using hon)
    exact hcand.2 hshort

/-- An arbitration drives its winner alone in a group (R166). -/
theorem arbitrated_exclusive {group : Fin 8 → Option (Fin 4)} {held cand : Fin 8 → Bool} {m n : Fin 8} {q : Fin 4}
    (hm : group m = some q) (hn : group n = some q) (hdm : arbitrated group held cand m = true)
    (hdn : arbitrated group held cand n = true) : m = n := by
  rw [arbitrated_winner hm] at hdm
  rw [arbitrated_winner hn] at hdn
  exact Option.some.inj (hdm.symm.trans hdn)

theorem gatesSound_arbitrateRun (fresh : Bool) (s : State) : gatesSound (arbitrateRun fresh s) := by
  constructor
  · intro m n q hm hn
    rw [(arbitrateRun_gate fresh s m).2.1, (arbitrateRun_gate fresh s n).2.1]
    simp only [arbitrateRun_frame] at hm hn
    exact arbitrated_exclusive hm hn
  · intro n
    rw [(arbitrateRun_gate fresh s n).2.1, (arbitrateRun_gate fresh s n).2.2]
    intro hshort
    by_contra hon
    have := arbitrated_candidate (by simpa using hon)
    simp [runCandidate, hshort] at this

theorem gatesSound_entersSafe {s t : State} (h : entersSafe s t) : gatesSound t :=
  gatesSound_of_safeLevelsDriven h.1.2.2.1

theorem gatesSound_enterSafe (s : State) : gatesSound (enterSafe s) := gatesSound_entersSafe (enterSafe_rule s)

theorem gatesSound_driveSafe (s : State) : gatesSound (driveSafe s) := gatesSound_of_safeLevelsDriven (driveSafe_rule s)

theorem gatesSound_raise {n : Notice} {s : State} (h : gatesSound s) : gatesSound (raise n s) :=
  gatesSound_of_gte (by simp) (by simp) h

/-! ### Passes -/

theorem gatesSound_endLead (st : EndStatus) {s : State} (h : gatesSound s) : gatesSound (endLead st s) := by
  by_cases hl : s.psc.lead = none
  · rwa [endLead_none hl]
  cases ha : abandons st with
  | false => exact gatesSound_of_gte (by simp) (endLead_keeps_tags st ha s).2 h
  | true => exact gatesSound_entersSafe (endLead_enters ha hl)

theorem gatesSound_endRunningLead (st : EndStatus) {s : State} (h : gatesSound s) :
    gatesSound (endRunningLead st s) := by
  unfold endRunningLead
  split
  · exact h
  · split_ifs
    · exact gatesSound_endLead st h
    · exact h

theorem gatesSound_timeoutHead {s : State} (h : gatesSound s) : gatesSound (timeoutHead s) := by
  unfold timeoutHead
  split
  · exact h
  split_ifs
  · unfold countTimeout
    dsimp only
    split_ifs
    · exact gatesSound_endLead _ (gatesSound_of_gte (s := s) (by simp) (by simp) h)
    · exact gatesSound_of_gte (s := s) (by simp) (by simp) h
  · exact h

theorem gatesSound_timeoutHeads (n : Nat) {s : State} (h : gatesSound s) : gatesSound (timeoutHeads n s) := by
  induction n generalizing s with
  | zero => exact h
  | succ n ih => exact ih (gatesSound_timeoutHead h)

/-! ### Accepted updates and changes of settings -/

theorem gatesSound_gatesPosition (dir : Dir) (u : Int) {s : State} (h : gatesSound s) :
    gatesSound (gatesPosition dir u s) := by
  unfold gatesPosition
  split
  · exact h
  · exact gatesSound_arbitrateRun false _

theorem gatesSound_handPosition (old : Int) {s : State} (h : gatesSound s) : gatesSound (handPosition old s) := by
  unfold handPosition
  dsimp only
  split_ifs
  · exact h
  · exact gatesSound_of_gte (passPosition_frame _ _).2.2.1 (passPosition_frame _ _).2.2.2.2.1
      (gatesSound_gatesPosition _ _ h)

theorem gatesSound_handState (left : Option EndStatus) {s : State} (h : gatesSound s) :
    gatesSound (handState left s) := by
  unfold handState
  split
  · exact h
  · exact gatesSound_endRunningLead _ (gatesSound_enterSafe s)

theorem gatesSound_gatesExchange (s : State) : gatesSound (gatesExchange s) := by
  unfold gatesExchange
  dsimp only
  split
  · exact gatesSound_arbitrateRun true _
  · exact gatesSound_driveSafe _

theorem gatesSound_banksCrossing (eligible : Bool) (st : EncState) {s : State} (h : gatesSound s) :
    gatesSound (banksCrossing eligible st s) := by
  unfold banksCrossing
  split_ifs
  · exact gatesSound_raise (gatesSound_gatesExchange _)
  · exact h

theorem gatesSound_enterRun (s : State) : gatesSound (enterRun s) := gatesSound_arbitrateRun true _

theorem gatesSound_passCrossing (dir : Dir) (delta : Int) (outcome : IndexOutcome) (st : EncState) {s : State}
    (h : gatesSound s) : gatesSound (passCrossing dir delta outcome st s) := by
  unfold passCrossing
  split
  · exact h
  dsimp only
  split
  · by_cases starts : dir = .forward ∧ st = .homed
    · rw [if_pos starts]
      exact gatesSound_raise (gatesSound_enterRun _)
    · rwa [if_neg starts]
  · exact gatesSound_of_gte (by simp) (by simp) h

theorem gatesSound_handOn (w : EncWork) {s : State} (h : gatesSound s) : gatesSound (handOn w s) := by
  have raised : gatesSound (w.notices.foldl (fun t n => raise n t) (s.setEnc w.enc)) :=
    gatesSound_of_gte (by simp) (by simp) h
  have moved := gatesSound_handPosition (encU s.enc) (gatesSound_handState w.leftHomed raised)
  unfold handOn handCrossing
  dsimp only
  split
  · exact moved
  · exact gatesSound_passCrossing _ _ _ _ (gatesSound_banksCrossing _ _ moved)

theorem gatesSound_renewSettings {s : State} (h : gatesSound s) : gatesSound (renewSettings s) := by
  unfold renewSettings
  dsimp only
  split_ifs
  · exact gatesSound_handPosition _ (gatesSound_enterSafe _)
  · exact gatesSound_handPosition _ (gatesSound_of_gte (by simp) (by simp) h)

theorem gatesSound_safeLevelsChanged {s : State} (h : gatesSound s) : gatesSound (safeLevelsChanged s) := by
  unfold safeLevelsChanged
  split
  · exact gatesSound_driveSafe s
  · exact h

/-! ### Load sense -/

theorem senseGate_keeps (now : Nat) (level : Bool) (g : Gate) :
    (senseGate now level g).driven = g.driven ∧ (senseGate now level g).status = g.status := by
  unfold senseGate
  split_ifs <;> exact ⟨rfl, rfl⟩

/-- A latch makes SHORT only a gate that is OFF, and drives no level (R170). -/
theorem gatesSound_latchExpired {s : State} (n : Fin 8) (h : gatesSound s) : gatesSound (latchExpired s n) := by
  unfold latchExpired
  dsimp only
  split_ifs
  · refine gatesSound_raise ?_
    obtain ⟨hx, hshort⟩ := h
    have hdriven : ∀ m, ((s.gte.gates.set n (latchGate (s.gte.gates.get n))).get m).driven =
        (s.gte.gates.get m).driven := fun m => by
      rw [Eight.get_set]
      split_ifs with hm
      · rw [hm]; rfl
      · rfl
    constructor
    · intro a b q
      simp only [State.setGte_gte, State.setGte_wbk, hdriven]
      exact hx a b q
    · intro m
      simp only [State.setGte_gte, hdriven]
      rw [Eight.get_set]
      split_ifs with hm
      · subst hm
        simp only [latchGate, latchedStatus]
        split_ifs <;> simp_all
      · exact hshort m
  · exact h

theorem gatesSound_latchesExpired (ns : List (Fin 8)) {s : State} (h : gatesSound s) :
    gatesSound (ns.foldl latchExpired s) := by
  induction ns generalizing s with
  | nil => exact h
  | cons n ns ih => exact ih (gatesSound_latchExpired n h)

theorem clearLatch_keeps (now : Nat) (g : Gate) :
    (clearLatch now g).driven = g.driven ∧ ((clearLatch now g).status = g.status ∨ (clearLatch now g).status = .ok) := by
  unfold clearLatch
  split_ifs
  · exact ⟨rfl, .inr rfl⟩
  · exact ⟨rfl, .inl rfl⟩

theorem gatesSound_clearLatches (mask : Fin 8 → Bool) {s : State} (h : gatesSound s) :
    gatesSound (clearLatches mask s) := by
  unfold clearLatches
  dsimp only
  split_ifs
  · split
    · exact gatesSound_arbitrateRun false _
    · exact gatesSound_driveSafe _
  · obtain ⟨hx, hshort⟩ := h
    have hdriven : ∀ m, ((clearedGates mask s.now s.gte.gates).get m).driven = (s.gte.gates.get m).driven :=
      fun m => by
        simp only [clearedGates, Eight.get_ofFn]
        split_ifs
        · exact (clearLatch_keeps _ _).1
        · rfl
    constructor
    · intro a b q
      simp only [State.setGte_gte, State.setGte_wbk, hdriven]
      exact hx a b q
    · intro m
      simp only [State.setGte_gte, hdriven]
      simp only [clearedGates, Eight.get_ofFn]
      split_ifs
      · obtain heq | heq := (clearLatch_keeps s.now (s.gte.gates.get m)).2
        · rw [heq]
          exact hshort m
        · simp [heq]
      · exact hshort m

/-! ### The invariant -/

theorem gatesSound_work {c : Instr} {s t : State} (hw : Work c s t) (h : gatesSound s) : gatesSound t := by
  cases hw
  case reset causes hreset => exact gatesSound_of_safeLevelsDriven (safeLevelsDriven_gatesReset _)
  case update l hacc => exact gatesSound_handOn _ (gatesSound_of_gte (s := s) (by simp) (by simp) h)
  case stall => exact gatesSound_endRunningLead _ h
  case timeout => exact gatesSound_timeoutHead h
  case sense n level =>
    refine gatesSound_congr (by simp) (fun m => ?_) h
    simp only [State.setGte_gte, Eight.get_set]
    split_ifs with hm
    · rw [hm]
      exact senseGate_keeps _ _ _
    · exact ⟨rfl, rfl⟩
  case qualification => exact gatesSound_latchesExpired _ h
  case encoder => exact gatesSound_renewSettings (gatesSound_of_gte (s := s) (by simp) (by simp) h)
  case safeLevels => exact gatesSound_safeLevelsChanged (gatesSound_of_gte (s := s) (by simp) (by simp) h)
  case erase =>
    exact gatesSound_safeLevelsChanged (gatesSound_renewSettings (gatesSound_of_gte (s := s) (by simp) (by simp) h))
  case workpiece => exact gatesSound_enterSafe _
  case latches => exact gatesSound_clearLatches _ h
  case timing => exact gatesSound_timeoutHeads _ (gatesSound_of_gte (s := s) (by simp) (by simp) h)
  case aborted => exact gatesSound_endLead _ h
  all_goals exact gatesSound_congr (by simp) (by simp) h

theorem gatesSound_kept : Kept gatesSound where
  pending _ _ h := h
  tick _ h := gatesSound_of_gte (by simp) (by simp) h
  take _ h := h
  place _ _ _ h := h
  work _ _ _ := gatesSound_work

/-- Settles O52: every level that is newly driven comes from an arbitration, which drives one winner of a group and no SHORT
gate whatever stood before; a latch and a cleared latch drive none. -/
theorem groupsStayExclusive : Obligations.GroupsStayExclusive :=
  fun _ _ hstep hx hshort => gatesSound_kept.step hstep ⟨hx, hshort⟩

end Sys2Proof.Machine
end

