-- ==== Sys2Proof/Proofs/PassMoves.lean ====
section
/-! PROOFS. Proofs/PassMoves.lean: the moves that a step can make in the passes, the in-flight queue, the Miss Stack and the
point buffer. Every step is a run of them (`step_passes`), so an invariant of these blocks is proved move by move. -/

namespace Sys2Proof.Machine

open Sys2Proof

/-! ### The moves -/

/-- The timeouts, Tmin and Tr of PRB are within their ranges (sections 6.7 and 6.8). -/
def probeRanges (p : Prb) : Prop := p.timeouts ≤ 8 ∧ 2 ≤ p.tmin ∧ p.tmin ≤ 1000 ∧ 10 ≤ p.tr ∧ p.tr ≤ 10000

/-- From `s` to `t` nothing happens to the passes, the queue, the stack and the records: the stall timer, the receiver, the
trigger frames and the other blocks may change, a record may leave the buffer, and what a lead was armed or runs with stays. -/
structure PassesStand (s t : State) : Prop where
  lead : t.psc.lead = s.psc.lead
  drain : t.psc.drain = s.psc.drain
  buffer : t.pnt.buffer.length ≤ s.pnt.buffer.length
  stack : t.stack = s.stack
  queue : t.prb.queue = s.prb.queue
  nextTag : t.prb.nextTag = s.prb.nextTag
  lastTrigger : t.prb.lastTrigger = s.prb.lastTrigger
  state : t.prb.state = s.prb.state ∨ t.prb.state = .ready
  ranges : probeRanges s.prb → probeRanges t.prb
  armed : s.psc.lead ≠ none → t.enc.settings = s.enc.settings ∧ t.wbk.workpiece = s.wbk.workpiece
  running : leadEligible s.psc = false → t.wbk.active = s.wbk.active

/-- A change of counters that touches none of those in which the accounts of R156 to R158 are kept. -/
def keepsAccounts (f : Counters → Counters) : Prop :=
  ∀ k, f k = { k with
    void := (f k).void, dim := (f k).dim, range := (f k).range, timeout := (f k).timeout, skipped := (f k).skipped
    full := (f k).full }

/-- The entry `e` has left the queue as a miss, before PSC's tests (R118, R119). -/
def missOne (e : TagEntry) (cause : MissCause) (s : State) : State :=
  modCtx e.passId (fun c => dropInFlight e.origin (onCounters (countCause cause) c)) (routeMiss e cause s)

/-- The entry `e` has left the queue with the point `p`, before PSC's tests (R118, R128). -/
def emitOne (e : TagEntry) (p : PointRecord) (s : State) : State :=
  modCtx e.passId (fun c => dropInFlight e.origin (onCounters (countEmitted e.origin p) c)) (appendRecord (.point p) s)

/-- The lead joins the drain list (step 4 of R73). -/
def joinDrain (s : State) : State :=
  match s.psc.lead with
  | none => s
  | some l => s.setPsc { s.psc with lead := none, drain := s.psc.drain ++ [l.ctx] }

/-- The lead `l` has ended with the status `st` and has joined the drain list (steps 1 to 4 of R73). -/
def retirePass (st : EndStatus) (l : Lead) (s : State) : State :=
  joinDrain (emptyStack
    (if abandons st then abandonLead l.ctx.settings.passId (recordEnd st s) else recordEnd st s))

/-- One move. The first is `PassesStand`; each other is one of the model's operations, under the condition in which a step
makes it. -/
inductive PassMove : State → State → Prop
  | still {s t} (h : PassesStand s t) : PassMove s t
  | noted {s f} (id : Nat) (hf : keepsAccounts f) : PassMove s (modCtx id (onCounters f) s)
  | missed {s e rest} (cause) (hq : s.prb.queue = e :: rest) :
      PassMove s (missOne e cause (s.setPrb { s.prb with queue := rest }))
  | emitted {s e rest} (p) (hq : s.prb.queue = e :: rest) (hroom : bufferLoad s < bufferSize) :
      PassMove s (emitOne e p (s.setPrb { s.prb with queue := rest }))
  | dropped {s e rest} (hq : s.prb.queue = e :: rest) (hnone : findCtx e.passId s.psc = none) :
      PassMove s (s.setPrb { s.prb with queue := rest })
  | position {s l} (hl : s.psc.lead = some l) (hrun : leadRunning l = true) :
      PassMove s (modLead (fun c => { c with highWater := l.ctx.highWater + 1 })
        (crossPosition l (l.ctx.uStart + (l.ctx.highWater + 1 : Nat)) (l.ctx.highWater + 1) s))
  | turned {s l} (turn) (hl : s.psc.lead = some l) (hrun : leadRunning l = true) : PassMove s (enterTurn turn s)
  | snapped {s l} (n) (hl : s.psc.lead = some l) (hrun : leadRunning l = true) :
      PassMove s (modLead (fun c => { c with largestSnap := max c.largestSnap n }) s)
  | retired {s l} (st) (hl : s.psc.lead = some l) : PassMove s (retirePass st l s)
  | faulted {s} : PassMove s (abandon (fun _ => true) (s.setPrb { s.prb with state := .fault }))
  | flushed {s} : PassMove s (flushDrain s)
  | armed {s} {settings : PassSettings} (hl : s.psc.lead = none) (hdrain : s.psc.drain.length < 4)
      (hid : ∀ c ∈ s.psc.drain, c.settings.passId ≠ settings.passId)
      (hoverlap : settings.overlap ≤ s.enc.settings.cpr / 4) (hroom : bufferLoad s < bufferSize) :
      PassMove s (armLead settings s)
  | reset {s} (causes) : PassMove s (resetPart causes s)

/-- A run of moves. -/
abbrev PassRun : State → State → Prop := Relation.ReflTransGen PassMove

/-- An ARMED lead starts (R65); within a step nothing follows that. -/
def PassStart (s t : State) : Prop := ∃ l snap, s.psc.lead = some l ∧ l.phase = .armed ∧ t = startPass l snap s

/-- What a step does to the passes: a run of moves, and then perhaps the start of a pass, with the rest of the part as the
passes do not look at it. -/
def PassStep (s t : State) : Prop := ∃ u v, PassRun s u ∧ (v = u ∨ PassStart u v) ∧ PassesStand v t

theorem PassesStand.trans {s t u : State} (h : PassesStand s t) (h' : PassesStand t u) : PassesStand s u where
  lead := h'.lead.trans h.lead
  drain := h'.drain.trans h.drain
  buffer := h'.buffer.trans h.buffer
  stack := h'.stack.trans h.stack
  queue := h'.queue.trans h.queue
  nextTag := h'.nextTag.trans h.nextTag
  lastTrigger := h'.lastTrigger.trans h.lastTrigger
  state := by
    obtain ready | ready := h'.state
    · rw [ready]; exact h.state
    · exact .inr ready
  ranges := fun hs => h'.ranges (h.ranges hs)
  armed := fun hs => by
    obtain ⟨henc, hwbk⟩ := h.armed hs
    obtain ⟨henc', hwbk'⟩ := h'.armed (by rwa [h.lead])
    exact ⟨henc'.trans henc, hwbk'.trans hwbk⟩
  running := fun hs => (h'.running (by simpa [leadEligible, h.lead] using hs)).trans (h.running hs)

theorem PassMove.run {s t : State} (h : PassMove s t) : PassRun s t := .single h

@[refl] theorem PassesStand.refl (s : State) : PassesStand s s :=
  ⟨rfl, rfl, le_refl _, rfl, rfl, rfl, rfl, .inl rfl, id, fun _ => ⟨rfl, rfl⟩, fun _ => rfl⟩

theorem PassRun.passStep {s t : State} (h : PassRun s t) : PassStep s t := ⟨t, t, h, .inl rfl, .refl t⟩

theorem PassStart.passStep {s t : State} (h : PassStart s t) : PassStep s t := ⟨s, t, .refl, .inr h, .refl t⟩

theorem PassesStand.run {s t : State} (h : PassesStand s t) : PassRun s t := .single (.still h)

/-- Blocks that are equal, or changed where the passes do not look, stand. -/
theorem passesStand_of {s t : State} (hpsc : t.psc = s.psc) (hpnt : t.pnt = s.pnt) (hstack : t.stack = s.stack)
    (hprb : t.prb = s.prb) (henc : t.enc.settings = s.enc.settings) (hwbk : t.wbk = s.wbk) : PassesStand s t where
  lead := by rw [hpsc]
  drain := by rw [hpsc]
  buffer := by rw [hpnt]
  stack := hstack
  queue := by rw [hprb]
  nextTag := by rw [hprb]
  lastTrigger := by rw [hprb]
  state := .inl (by rw [hprb])
  ranges := by rw [hprb]; exact id
  armed _ := ⟨henc, by rw [hwbk]⟩
  running _ := by rw [hwbk]

/-- PRB changed in its receiver, its trigger frames or its counts alone. -/
theorem passesStand_setPrb {s : State} {p : Prb} (hqueue : p.queue = s.prb.queue) (hnext : p.nextTag = s.prb.nextTag)
    (hlast : p.lastTrigger = s.prb.lastTrigger) (hstate : p.state = s.prb.state ∨ p.state = .ready)
    (hranges : probeRanges s.prb → probeRanges p) : PassesStand s (s.setPrb p) where
  lead := rfl
  drain := rfl
  buffer := le_refl _
  stack := rfl
  queue := hqueue
  nextTag := hnext
  lastTrigger := hlast
  state := hstate
  ranges := hranges
  armed _ := ⟨rfl, rfl⟩
  running _ := rfl

theorem passRun_setPrb {s : State} {p : Prb} (hqueue : p.queue = s.prb.queue) (hnext : p.nextTag = s.prb.nextTag)
    (hlast : p.lastTrigger = s.prb.lastTrigger) (hstate : p.state = s.prb.state ∨ p.state = .ready)
    (hranges : probeRanges s.prb → probeRanges p) : PassRun s (s.setPrb p) :=
  (passesStand_setPrb hqueue hnext hlast hstate hranges).run

/-- The lead is IDLE and the banks or the settings change. -/
theorem passesStand_idle {s t : State} (hpsc : t.psc = s.psc) (hpnt : t.pnt = s.pnt) (hstack : t.stack = s.stack)
    (hprb : t.prb = s.prb) (hl : s.psc.lead = none) : PassesStand s t where
  lead := by rw [hpsc]
  drain := by rw [hpsc]
  buffer := by rw [hpnt]
  stack := hstack
  queue := by rw [hprb]
  nextTag := by rw [hprb]
  lastTrigger := by rw [hprb]
  state := .inl (by rw [hprb])
  ranges := by rw [hprb]; exact id
  armed h := absurd hl h
  running h := by simp [leadEligible, hl] at h

/-- The banks change while no pass runs, with the workpiece as it was. -/
theorem passesStand_banks {s t : State} (hpsc : t.psc = s.psc) (hpnt : t.pnt = s.pnt) (hstack : t.stack = s.stack)
    (hprb : t.prb = s.prb) (henc : t.enc = s.enc) (hpiece : t.wbk.workpiece = s.wbk.workpiece)
    (hactive : leadEligible s.psc = false → t.wbk.active = s.wbk.active) : PassesStand s t where
  lead := by rw [hpsc]
  drain := by rw [hpsc]
  buffer := by rw [hpnt]
  stack := hstack
  queue := by rw [hprb]
  nextTag := by rw [hprb]
  lastTrigger := by rw [hprb]
  state := .inl (by rw [hprb])
  ranges := by rw [hprb]; exact id
  armed _ := ⟨by rw [henc], hpiece⟩
  running := hactive

/-! ### Endings (R73) -/

theorem retireLead_eq (s : State) : retireLead s = joinDrain s ∨ retireLead s = flushDrain (joinDrain s) := by
  unfold retireLead joinDrain
  cases hl : s.psc.lead with
  | none => exact .inl rfl
  | some l =>
    dsimp only
    split_ifs with h
    · right
      simp only [Bool.and_eq_true, List.isEmpty_iff] at h
      obtain ⟨hn, hd⟩ := h
      simp [flushDrain, hd, hn, State.setPsc, appendSummary, appendRecord, State.setPnt]
    · exact .inl rfl

theorem passRun_endLead (st : EndStatus) (s : State) : PassRun s (endLead st s) := by
  unfold endLead
  split
  · exact .refl
  · rename_i l hl
    have retired : PassMove s (retirePass st l s) := .retired st hl
    dsimp only
    obtain h | h := retireLead_eq
      (emptyStack (if abandons st then abandonLead l.ctx.settings.passId (recordEnd st s) else recordEnd st s))
    · rw [h]
      exact .single retired
    · rw [h]
      exact .tail (.single retired) .flushed

theorem passRun_passTests (id : Nat) (s : State) : PassRun s (passTests id s) := by
  have tested : PassRun s (testRetryDone s) := by
    unfold testRetryDone
    split
    · exact .refl
    · split_ifs
      · exact passRun_endLead _ _
      · exact .refl
  unfold passTests
  refine .tail ?_ .flushed
  split_ifs
  · exact tested
  · exact .refl

/-! ### Readings (R112 to R115) -/

theorem countCause_keepsAccounts (cause : MissCause) : keepsAccounts (countCause cause) := fun k => by
  cases cause <;> rfl

theorem countClass_keepsAccounts (cls : ReadingClass) : keepsAccounts (countClass cls) := fun k => by
  cases cls <;> rfl

theorem onCounters_settings (f : Counters → Counters) (c : PassCtx) : (onCounters f c).settings = c.settings := rfl

theorem modCtx_setPrb (id : Nat) (f : PassCtx → PassCtx) (p : Prb) (s : State) :
    modCtx id f (s.setPrb p) = (modCtx id f s).setPrb p := by
  unfold modCtx
  by_cases h : leadIs id s.psc = true
  · rw [if_pos h, if_pos (show leadIs id (s.setPrb p).psc = true from h)]; rfl
  · rw [if_neg h, if_neg (show ¬ leadIs id (s.setPrb p).psc = true from h)]; rfl

theorem modCtx_appendRecord (id : Nat) (f : PassCtx → PassCtx) (r : BufferRecord) (s : State) :
    modCtx id f (appendRecord r s) = appendRecord r (modCtx id f s) := by
  unfold modCtx
  by_cases h : leadIs id s.psc = true
  · rw [if_pos h, if_pos (show leadIs id (appendRecord r s).psc = true from h)]; rfl
  · rw [if_neg h, if_neg (show ¬ leadIs id (appendRecord r s).psc = true from h)]; rfl

theorem bufferLoad_modCtx (id : Nat) (f : PassCtx → PassCtx) (s : State) : bufferLoad (modCtx id f s) = bufferLoad s := by
  simp [bufferLoad, (modCtx_owed id f s).1]

theorem resolveMiss_eq (e : TagEntry) (cause : MissCause) (s : State) :
    resolveMiss e cause s = passTests e.passId (missOne e cause s) := by
  unfold resolveMiss settle missOne
  rw [modCtx_comp (onCounters_settings _)]

/-- The head of the queue is resolved as a miss: it leaves the queue, and PSC makes its tests (R118). -/
theorem passRun_miss {s : State} {e : TagEntry} {rest : List TagEntry} (cause : MissCause) (hq : s.prb.queue = e :: rest) :
    PassRun s (resolveMiss e cause (s.setPrb { s.prb with queue := rest })) := by
  rw [resolveMiss_eq]
  exact .head (.missed cause hq) (passRun_passTests _ _)

theorem passRun_resolveHeadMiss (cause : MissCause) (s : State) : PassRun s (resolveHeadMiss cause s) := by
  unfold resolveHeadMiss
  split
  · exact .refl
  · rename_i e rest hq
    exact passRun_miss cause hq

theorem passRun_resolveHeadReading (rd : Reading) (s : State) : PassRun s (resolveHeadReading rd s) := by
  unfold resolveHeadReading
  split
  · exact .refl
  rename_i e rest hq
  unfold resolveReading
  split
  · rename_i hnone
    exact .single (.dropped hq hnone)
  rename_i c hc
  dsimp only
  let counted := modCtx e.passId (onCounters (countClass (classify rd.distance rd.intensity e.floor)))
  have noted : PassMove s (counted s) := .noted _ (countClass_keepsAccounts _)
  have hq' : (counted s).prb.queue = e :: rest := by simpa [counted] using hq
  have missed : ∀ cause, PassRun s (resolveMiss e cause (counted (s.setPrb { s.prb with queue := rest }))) := fun cause => by
    have hcomm : counted (s.setPrb { s.prb with queue := rest }) =
        (counted s).setPrb { (counted s).prb with queue := rest } := by
      simp only [counted, modCtx_setPrb, modCtx_frame]
    rw [hcomm]
    exact (passRun_miss cause hq').head noted
  split
  · rename_i p hp
    have hroom : bufferLoad s < bufferSize := by
      unfold pointOutcome at hp
      split_ifs at hp with _ hroom
      simpa [bufferLoad] using hroom
    have hemit : settle e (modCtx e.passId (onCounters (countEmitted e.origin p))
        (counted (appendRecord (.point p) (s.setPrb { s.prb with queue := rest })))) =
        passTests e.passId (emitOne e p ((counted s).setPrb { (counted s).prb with queue := rest })) := by
      unfold settle emitOne
      rw [modCtx_comp (onCounters_settings _)]
      simp only [counted, modCtx_setPrb, modCtx_frame, modCtx_appendRecord]
    rw [hemit]
    have emitted : PassMove (counted s) (emitOne e p ((counted s).setPrb { (counted s).prb with queue := rest })) :=
      .emitted p hq' (by rwa [bufferLoad_modCtx])
    exact .head noted (.head emitted (passRun_passTests _ _))
  · exact missed _
  · exact missed _

theorem passRun_skipEntries (n : Nat) (s : State) : PassRun s (skipEntries n s) := by
  induction n generalizing s with
  | zero => exact .refl
  | succ n ih => exact (passRun_resolveHeadMiss .skipped s).trans (ih _)

theorem passRun_matchReading (rd : Reading) (s : State) : PassRun s (matchReading rd s) := by
  unfold matchReading
  split
  · exact passRun_setPrb rfl rfl rfl (.inl rfl) id
  · rename_i n _
    have start : PassMove s (s.setPrb { s.prb with timeouts := 0 }) :=
      .still (passesStand_setPrb rfl rfl rfl (.inl rfl) fun h => ⟨Nat.zero_le _, h.2⟩)
    exact ((passRun_skipEntries n _).head start).trans (passRun_resolveHeadReading rd _)

theorem passesStand_discardFrame (s : State) : PassesStand s (discardFrame s) :=
  passesStand_setPrb rfl rfl rfl (.inl rfl) id

theorem passRun_discardAtGap (t : Nat) (s : State) : PassRun s (discardAtGap t s) := by
  unfold discardAtGap
  split_ifs
  · exact (passesStand_discardFrame s).run
  · exact .refl

theorem passRun_takeBody (body : List Byte) (s : State) : PassRun s (takeBody body s) := by
  unfold takeBody
  split_ifs
  · have start : PassMove s (s.setPrb { s.prb with rx := .hunting }) :=
      .still (passesStand_setPrb rfl rfl rfl (.inl rfl) id)
    exact (passRun_matchReading _ _).head start
  · exact (passesStand_discardFrame s).run

theorem passRun_takeProbeItem (s : State) (i : ProbeItem) : PassRun s (takeProbeItem s i) := by
  cases i with
  | start =>
    unfold takeProbeItem beginProbeChar
    dsimp only
    split
    · exact .refl
    · exact passRun_setPrb rfl rfl rfl (.inl rfl) id
  | char ch =>
    unfold takeProbeItem takeProbeChar
    dsimp only
    split
    · split_ifs
      · exact passRun_setPrb rfl rfl rfl (.inl rfl) id
      · exact .refl
    · split_ifs
      · exact (passesStand_discardFrame s).run
      · exact passRun_takeBody _ s
      · exact passRun_setPrb rfl rfl rfl (.inl rfl) id

theorem passRun_readings (items : List ProbeItem) (s : State) : PassRun s (items.foldl takeProbeItem s) := by
  induction items generalizing s with
  | nil => exact .refl
  | cons i items ih => exact (passRun_takeProbeItem s i).trans (ih _)

/-! ### Timeouts (R117, R120, R121) -/

theorem passRun_enterProbeFault (tag : BitVec 4) (s : State) : PassRun s (enterProbeFault tag s) := by
  have raised : ∀ (n : Notice) (u : State), PassMove u (raise n u) := fun n u =>
    .still (passesStand_of (by simp) (by simp) (by simp) (by simp) (by simp) (by simp))
  exact ((PassMove.faulted.run.tail (raised _ _)).tail .flushed).trans (passRun_endLead _ _)

theorem passRun_countTimeout (tag : BitVec 4) (s : State) : PassRun s (countTimeout tag s) := by
  have counted : PassMove s (s.setPrb { s.prb with timeouts := min (s.prb.timeouts + 1) timeoutLimit }) :=
    .still (passesStand_setPrb rfl rfl rfl (.inl rfl) fun h => ⟨min_le_right _ _, h.2⟩)
  unfold countTimeout
  dsimp only
  split_ifs
  · exact (passRun_enterProbeFault tag _).head counted
  · exact counted.run

theorem passRun_timeoutHead (s : State) : PassRun s (timeoutHead s) := by
  unfold timeoutHead
  split
  · exact .refl
  split_ifs
  · exact (passRun_resolveHeadMiss .timeout s).trans (passRun_countTimeout _ _)
  · exact .refl

theorem passRun_timeoutHeads (n : Nat) (s : State) : PassRun s (timeoutHeads n s) := by
  induction n generalizing s with
  | zero => exact .refl
  | succ n ih => exact (passRun_timeoutHead s).trans (ih _)

/-! ### Accepted updates (R13) -/

theorem passRun_endRunningLead (st : EndStatus) (s : State) : PassRun s (endRunningLead st s) := by
  unfold endRunningLead
  split
  · exact .refl
  · split_ifs
    · exact passRun_endLead st s
    · exact .refl

theorem passRun_turnBoundary {s : State} {l : Lead} (hl : s.psc.lead = some l) (hrun : leadRunning l = true) :
    PassRun s (turnBoundary s) := by
  unfold turnBoundary
  simp only [hl]
  split_ifs
  · exact passRun_endLead _ _
  · exact (PassMove.turned _ hl hrun).run
  · exact .refl

theorem passRun_advanceOne (s : State) : PassRun s (advanceOne s) := by
  unfold advanceOne
  split
  · exact .refl
  rename_i l hl
  split_ifs with hrun
  · dsimp only
    obtain ⟨l', hpsc, hphase, -⟩ := crossPosition_countsAlone hl
      (l.ctx.uStart + (l.ctx.highWater + 1 : Nat)) (l.ctx.highWater + 1)
    refine .head (.position hl hrun) (passRun_turnBoundary
      (l := { l' with ctx := { l'.ctx with highWater := l.ctx.highWater + 1 } }) ?_ ?_)
    · simp only [modLead_psc, hpsc, Option.map_some]
    · simpa [leadRunning, hphase] using hrun
  · exact .refl

theorem passRun_advancePositions (n : Nat) (s : State) : PassRun s (advancePositions n s) := by
  induction n generalizing s with
  | zero => exact .refl
  | succ n ih => exact (passRun_advanceOne s).trans (ih _)

theorem passRun_restartStall (s : State) : PassRun s (restartStall s) := by
  unfold restartStall
  split
  · exact .refl
  · exact PassesStand.run ⟨rfl, rfl, le_refl _, rfl, rfl, rfl, rfl, .inl rfl, id, fun _ => ⟨rfl, rfl⟩, fun _ => rfl⟩

theorem passRun_passPosition (u : Int) (s : State) : PassRun s (passPosition u s) := by
  unfold passPosition
  split
  · exact .refl
  dsimp only
  split_ifs
  · exact (passRun_advancePositions _ s).trans (passRun_restartStall _)
  · exact .refl

/-- GTE alone, with the notices, stands aside from the passes. -/
theorem passesStand_gates {s t : State}
    (h : t = { s with gte := t.gte, lnk := { s.lnk with notices := t.lnk.notices } }) : PassesStand s t := by
  rw [h]
  exact passesStand_of rfl rfl rfl rfl rfl rfl

theorem passRun_handPosition (old : Int) (s : State) : PassRun s (handPosition old s) := by
  unfold handPosition
  dsimp only
  split_ifs
  · exact .refl
  · exact (passesStand_gates (gatesPosition_shape _ _ s).1).run.trans (passRun_passPosition _ _)

theorem passRun_handState (left : Option EndStatus) (s : State) : PassRun s (handState left s) := by
  unfold handState
  split
  · exact .refl
  · exact (passesStand_of (s := s) (by simp) (by simp) (by simp) (by simp) (by simp) (by simp)).run.trans
      (passRun_endRunningLead _ _)

theorem not_running_of_eligible {s : State} {l : Lead} (h : leadEligible s.psc = true) (hl : s.psc.lead = some l) :
    leadRunning l = false := by
  simpa [leadEligible, hl, leadRunning] using h

theorem endRunningLead_of_eligible {s : State} (h : leadEligible s.psc = true) (st : EndStatus) :
    endRunningLead st s = s := by
  unfold endRunningLead
  split
  · rfl
  · rename_i l hl
    simp [not_running_of_eligible h hl]

theorem passPosition_of_eligible {s : State} (h : leadEligible s.psc = true) (u : Int) : passPosition u s = s := by
  unfold passPosition
  split
  · rfl
  · rename_i l hl
    simp [not_running_of_eligible h hl]

theorem handState_psc_of_eligible {s : State} (h : leadEligible s.psc = true) (left : Option EndStatus) :
    (handState left s).psc = s.psc := by
  cases left with
  | none => rfl
  | some st =>
    have heligible : leadEligible (enterSafe s).psc = true := h
    simp only [handState, endRunningLead_of_eligible heligible, enterSafe_frame]

theorem handPosition_psc_of_eligible {s : State} (h : leadEligible s.psc = true) (old : Int) :
    (handPosition old s).psc = s.psc := by
  unfold handPosition
  dsimp only
  split_ifs
  · rfl
  · rw [passPosition_of_eligible (by simpa using h)]
    simp

/-- The state in which ENC has handed on all but a crossing (R13). -/
def beforeCrossing (w : EncWork) (s : State) : State :=
  handPosition (encU s.enc) (handState w.leftHomed (w.notices.foldl (fun t n => raise n t) (s.setEnc w.enc)))

theorem handOn_eq (w : EncWork) (s : State) :
    handOn w s = handCrossing (leadEligible s.psc) w.crossing (beforeCrossing w s) := rfl

theorem beforeCrossing_psc_of_eligible {s : State} (h : leadEligible s.psc = true) (w : EncWork) :
    (beforeCrossing w s).psc = s.psc := by
  have hraised : (w.notices.foldl (fun t n => raise n t) (s.setEnc w.enc)).psc = s.psc := by simp
  have hstate := handState_psc_of_eligible (s := w.notices.foldl (fun t n => raise n t) (s.setEnc w.enc))
    (by rwa [hraised]) w.leftHomed
  rw [beforeCrossing, handPosition_psc_of_eligible (by rwa [hstate, hraised]), hstate, hraised]

theorem passRun_beforeCrossing {w : EncWork} {s : State} (hw : worksSoundly s.enc w) :
    PassRun s (beforeCrossing w s) := by
  have raised : PassMove s (w.notices.foldl (fun t n => raise n t) (s.setEnc w.enc)) :=
    .still (passesStand_of (by simp) (by simp) (by simp) (by simp) (by simpa using hw.1) (by simp))
  exact ((passRun_handState _ _).trans (passRun_handPosition _ _)).head raised

theorem passesStand_exchange {s : State} (h : leadEligible s.psc = true) : PassesStand s (exchange s) :=
  passesStand_banks (by simp) (by simp) (by simp) (by simp) (by simp) (by simp [exchange, exchangedBanks]) (by simp [h])

theorem passRun_banksCrossing {eligible : Bool} {st : EncState} {s : State}
    (h : eligible = true → leadEligible s.psc = true) : PassRun s (banksCrossing eligible st s) := by
  unfold banksCrossing
  split_ifs with hcross
  · simp only [Bool.and_eq_true] at hcross
    exact (passesStand_exchange (h hcross.1.1)).run
  · exact .refl

theorem passStep_passCrossing (dir : Dir) (delta : Int) (outcome : IndexOutcome) (st : EncState) (s : State) :
    PassStep s (passCrossing dir delta outcome st s) := by
  unfold passCrossing
  split
  · exact PassRun.passStep .refl
  rename_i l hl
  dsimp only
  split
  · rename_i harmed
    by_cases starts : dir = .forward ∧ st = .homed
    · rw [if_pos starts]
      exact PassStart.passStep ⟨l, _, hl, harmed, rfl⟩
    · rw [if_neg starts]
      exact PassRun.passStep .refl
  · rename_i hrun
    exact (PassMove.snapped _ hl (by simpa [leadRunning] using hrun)).run.passStep

theorem PassStep.of_run {s t u : State} (h : PassRun s t) (h' : PassStep t u) : PassStep s u := by
  obtain ⟨v, w, hrun, hend⟩ := h'
  exact ⟨v, w, h.trans hrun, hend⟩

/-- Where the passes do not look, the part may change before a step and behind it. -/
theorem PassStep.of_stand {s t u : State} (h : PassStep s t) (h' : PassesStand t u) : PassStep s u := by
  obtain ⟨v, w, hrun, hstart, hstand⟩ := h
  exact ⟨v, w, hrun, hstart, hstand.trans h'⟩

/-- An accepted update is a run of moves, after which a pass may start. -/
theorem passStep_acceptUpdate (l : Lines) (s : State) : PassStep s (acceptUpdate l (sampled s)) := by
  have hsampled : PassRun s (sampled s) :=
    (passesStand_of (s := s) (by simp) (by simp) (by simp) (by simp) (by simp [sampled, afterSample]) (by simp)).run
  have hbefore : PassRun (sampled s) (beforeCrossing (updateWork l s) (sampled s)) :=
    passRun_beforeCrossing (worksSoundly_encWork _ _)
  rw [acceptUpdate_sampled, handOn_eq]
  refine .of_run (hsampled.trans hbefore) ?_
  unfold handCrossing
  split
  · exact PassRun.passStep .refl
  · refine .of_run (passRun_banksCrossing fun h => ?_) (passStep_passCrossing _ _ _ _ _)
    rwa [beforeCrossing_psc_of_eligible h]

/-! ### Every step -/

theorem passRun_takeRequest (s : State) : PassRun s (takeRequest s) :=
  (passesStand_of (by simp) (by simp) (by simp) (by simp) (by simp) (by simp)).run

theorem renewSettings_psc_of_idle {s : State} (h : s.psc.lead = none) :
    (renewSettings s).psc = s.psc ∧ (renewSettings s).pnt = s.pnt ∧ (renewSettings s).stack = s.stack ∧
      (renewSettings s).prb = s.prb := by
  have still : ∀ old u, u.psc.lead = none → (handPosition old u).psc = u.psc ∧ (handPosition old u).pnt = u.pnt ∧
      (handPosition old u).stack = u.stack ∧ (handPosition old u).prb = u.prb := fun old u hu => by
    unfold handPosition
    dsimp only
    split_ifs
    · exact ⟨rfl, rfl, rfl, rfl⟩
    · rw [passPosition_of_eligible (by simp [leadEligible, hu])]
      simp
  have renewed : renewSettings s = handPosition (encU s.enc)
      (if s.enc.state = .homed ∧ cprOrSenseChanges s.enc.settings s.cal.working.enc = true then
        enterSafe (s.setEnc (renewedEnc s.cal.working.enc s.enc))
      else s.setEnc (renewedEnc s.cal.working.enc s.enc)) := by
    unfold renewSettings
    dsimp only
    congr 1
    simp
  rw [renewed]
  split_ifs
  · simp [still _ (enterSafe (s.setEnc (renewedEnc s.cal.working.enc s.enc))) (by simpa using h)]
  · simp [still _ (s.setEnc (renewedEnc s.cal.working.enc s.enc)) (by simpa using h)]

/-- The work of a command is a run of moves, after which a pass may start. -/
theorem Work.passes {c : Instr} {s t : State} (hw : Work c s t) : PassStep s t := by
  cases hw
  case reset causes h => exact (PassMove.reset causes).run.passStep
  case update l h => exact passStep_acceptUpdate l s
  case sample e he =>
    have hsettings : e.settings = s.enc.settings := by rw [samplesOnly] at he; rw [he]
    exact (passesStand_of (by simp) (by simp) (by simp) (by simp) (by simpa using hsettings) (by simp)).run.passStep
  case stall => exact (passRun_endRunningLead _ s).passStep
  case reading items t => exact PassRun.passStep ((passRun_discardAtGap t s).trans (passRun_readings items _))
  case gap => exact (passRun_discardAtGap _ s).passStep
  case timeout => exact (passRun_timeoutHead s).passStep
  case frameStart =>
    have begun : PassesStand s (s.setPrb (startWaiting s.now s.prb)) := by
      unfold startWaiting
      split
      · exact .refl s
      · split_ifs
        · exact passesStand_setPrb rfl rfl rfl (.inl rfl) id
        · exact .refl s
    exact begun.run.passStep
  case cleared =>
    exact PassRun.passStep (PassesStand.run ⟨rfl, rfl, le_refl _, rfl, rfl, rfl, rfl, .inl rfl, id,
      fun _ => ⟨rfl, rfl⟩, fun _ => rfl⟩)
  case encoder e he hl =>
    obtain ⟨hpsc, hpnt, hstack, hprb⟩ := renewSettings_psc_of_idle
      (s := editWorking { s.cal.working with enc := e } s) (by simpa using hl)
    exact (passesStand_idle (by simpa [applyEncf] using hpsc) (by simpa [applyEncf] using hpnt)
      (by simpa [applyEncf] using hstack) (by simpa [applyEncf] using hprb) hl).run.passStep
  case erase hl =>
    obtain ⟨hpsc, hpnt, hstack, hprb⟩ := renewSettings_psc_of_idle (s := startProgram .cers
      (s.setCal { s.cal with working := Settings.default, origin := .defaults, locked := false })) (by simpa using hl)
    exact (passesStand_idle (by simpa [applyCers] using hpsc) (by simpa [applyCers] using hpnt)
      (by simpa [applyCers] using hstack) (by simpa [applyCers] using hprb) hl).run.passStep
  case workpiece w hw hl =>
    exact (passesStand_idle (by simp) (by simp) (by simp) (by simp) hl).run.passStep
  case emptied h =>
    exact (passesStand_banks (by simp) (by simp) (by simp) (by simp) (by simp) (by simp) (by simp)).run.passStep
  case inserted =>
    exact (passesStand_banks (by simp) (by simp) (by simp) (by simp) (by simp) (by simp) (by simp)).run.passStep
  case gateRecord =>
    exact (passesStand_banks (by simp) (by simp) (by simp) (by simp) (by simp) (by simp) (by simp)).run.passStep
  case pended =>
    exact (passesStand_banks (by simp) (by simp) (by simp) (by simp) (by simp) (by simp) (by simp)).run.passStep
  case unpended =>
    exact (passesStand_banks (by simp) (by simp) (by simp) (by simp) (by simp) (by simp) (by simp)).run.passStep
  case timing tmin tr hmin hr hl =>
    have set : PassesStand s (s.setPrb { s.prb with tmin := tmin, tr := tr, state := .ready, timeouts := 0 }) :=
      passesStand_setPrb rfl rfl rfl (.inr rfl) fun _ => ⟨Nat.zero_le _, hmin.1, hmin.2, hr.1, hr.2⟩
    exact PassRun.passStep (set.run.trans (passRun_timeoutHeads _ _))
  case armed settings hl hdrain hid hoverlap hroom =>
    exact (PassMove.armed hl hdrain hid hoverlap hroom).run.passStep
  case aborted => exact (passRun_endLead _ _).passStep
  all_goals exact (passesStand_of (by simp) (by simp) (by simp) (by simp) (by simp) (by simp)).run.passStep

theorem passesStand_tick (s : State) : PassesStand s (tick s) where
  lead := by simp
  drain := by simp
  buffer := by
    obtain h | ⟨src, first, -, -, h⟩ := startCharacters_cases (s.setNow (s.now + 1))
    · simp [tick, h]
    · simp only [tick, h, State.setPending_pnt]
      unfold beginRecord
      split
      · cases src <;> simp [setTx, leaveSource]
      · simp [setTx]
  stack := by simp
  queue := by simp
  nextTag := by simp
  lastTrigger := by simp
  state := .inl (by simp)
  ranges := by simp
  armed _ := by simp
  running _ := by simp

/-- Every step is a run of moves, after which a pass may start. -/
theorem step_passes {s t : State} (h : step s = .next t) : PassStep s t := by
  have reply : ∀ k body u, PassesStand u (placeReply k (body, u)) := fun k body u =>
    passesStand_of (by simp) (by simp) (by simp) (by simp) (by simp) (by simp)
  obtain ⟨-, rfl⟩ | ⟨c, rest, -, hexec⟩ := step_cases h
  · exact (passesStand_tick s).run.passStep
  · have front : PassRun s (s.setPending rest) :=
      PassesStand.run (passesStand_of rfl rfl rfl rfl rfl rfl)
    refine .of_run front ?_
    obtain hw | ⟨k, body, u, hw, rfl⟩ := work_of_exec hexec
    · exact hw.passes
    · exact (PassStep.of_run (passRun_takeRequest _) hw.passes).of_stand (reply k body u)

/-! ### Invariants of the passes -/

/-- From `l` to `l'` the lead runs on, or starts, with the settings, the in-flight counts and the counters that it had. -/
def runsOn (l l' : Lead) : Prop :=
  leadRunning l' = true ∧ l'.ctx = { l.ctx with
    uStart := l'.ctx.uStart, highWater := l'.ctx.highWater, turn := l'.ctx.turn, turnsUsed := l'.ctx.turnsUsed
    largestSnap := l'.ctx.largestSnap }

/-- A predicate that every move keeps, with the crossing of a position taken point by point. -/
structure PassKept (P : State → Prop) : Prop where
  still : ∀ {s t}, PassesStand s t → P s → P t
  noted : ∀ {s f} (id : Nat), keepsAccounts f → P s → P (modCtx id (onCounters f) s)
  missed : ∀ {s e rest} (cause), s.prb.queue = e :: rest → P s →
    P (missOne e cause (s.setPrb { s.prb with queue := rest }))
  emitted : ∀ {s e rest} (p), s.prb.queue = e :: rest → bufferLoad s < bufferSize → P s →
    P (emitOne e p (s.setPrb { s.prb with queue := rest }))
  dropped : ∀ {s e rest}, s.prb.queue = e :: rest → findCtx e.passId s.psc = none → P s →
    P (s.setPrb { s.prb with queue := rest })
  main : ∀ {s l l'} (u o pt), s.psc.lead = some l' → l'.ctx.settings = l.ctx.settings → leadRunning l' = true → P s →
    P (crossMain l u o s pt)
  retry : ∀ {s l l'} (u pt), s.psc.lead = some l' → l'.ctx.settings = l.ctx.settings → leadRunning l' = true → P s →
    P (crossRetry l u s pt)
  runs : ∀ {s l l'}, s.psc.lead = some l → runsOn l l' → P s → P (s.setPsc { s.psc with lead := some l' })
  retired : ∀ {s l} (st), s.psc.lead = some l → P s → P (retirePass st l s)
  faulted : ∀ {s}, P s → P (abandon (fun _ => true) (s.setPrb { s.prb with state := .fault }))
  flushed : ∀ {s}, P s → P (flushDrain s)
  armed : ∀ {s} {settings : PassSettings}, s.psc.lead = none → s.psc.drain.length < 4 →
    (∀ c ∈ s.psc.drain, c.settings.passId ≠ settings.passId) → bufferLoad s < bufferSize → P s → P (armLead settings s)
  reset : ∀ {s} (causes), P s → P (resetPart causes s)

theorem modLead_of_lead {s : State} {l : Lead} (hl : s.psc.lead = some l) (f : PassCtx → PassCtx) :
    modLead f s = s.setPsc { s.psc with lead := some { l with ctx := f l.ctx } } := by
  simp [modLead, hl]

/-- A predicate that holds before the crossing of a position, and that each of its points keeps, holds after it. -/
theorem crossPosition_keeps {P : State → Prop} {s : State} {l : Lead} (hl : s.psc.lead = some l)
    (hrun : leadRunning l = true)
    (main : ∀ {t l'} (u o pt), t.psc.lead = some l' → l'.ctx.settings = l.ctx.settings → leadRunning l' = true → P t →
      P (crossMain l u o t pt))
    (retry : ∀ {t l'} (u pt), t.psc.lead = some l' → l'.ctx.settings = l.ctx.settings → leadRunning l' = true → P t →
      P (crossRetry l u t pt))
    (hP : P s) (u : Int) (prog : Nat) : P (crossPosition l u prog s) := by
  have fold : ∀ (f : State → CrossedPoint → State),
      (∀ t pt, countsAlone l s t → P t → countsAlone l s (f t pt) ∧ P (f t pt)) →
      ∀ (pts : List CrossedPoint) (t : State), countsAlone l s t → P t → P (pts.foldl f t) := by
    intro f hf pts
    induction pts with
    | nil => exact fun _ _ h => h
    | cons pt pts ih =>
      intro t hc hP
      obtain ⟨hc', hP'⟩ := hf t pt hc hP
      exact ih _ hc' hP'
  have lead : ∀ t, countsAlone l s t → ∃ l', t.psc.lead = some l' ∧ l'.ctx.settings = l.ctx.settings ∧
      leadRunning l' = true := fun t ⟨l', hpsc, hphase, hctx⟩ =>
    ⟨l', by rw [hpsc], by rw [hctx], by rw [leadRunning, hphase]; exact hrun⟩
  have start : countsAlone l s s := ⟨l, by rw [← hl], rfl, rfl⟩
  unfold crossPosition
  split
  · refine fold _ (fun t pt hc hP => ⟨countsAlone_crossMain rfl _ _ _ hc, ?_⟩) _ _ start hP
    obtain ⟨l', hl', hset, hrun'⟩ := lead t hc
    exact main _ _ _ hl' hset hrun' hP
  · refine fold _ (fun t pt hc hP => ⟨countsAlone_crossRetry rfl _ _ hc, ?_⟩) _ _ start hP
    obtain ⟨l', hl', hset, hrun'⟩ := lead t hc
    exact retry _ _ hl' hset hrun' hP

variable {P : State → Prop}

theorem PassKept.move (h : PassKept P) {s t : State} (hm : PassMove s t) (hP : P s) : P t := by
  cases hm with
  | still hs => exact h.still hs hP
  | noted id hf => exact h.noted id hf hP
  | missed cause hq => exact h.missed cause hq hP
  | emitted p hq hroom => exact h.emitted p hq hroom hP
  | dropped hq hnone => exact h.dropped hq hnone hP
  | @position l hl hrun =>
    have crossed := crossPosition_keeps hl hrun h.main h.retry hP (l.ctx.uStart + (l.ctx.highWater + 1 : Nat))
      (l.ctx.highWater + 1)
    obtain ⟨l', hpsc, hphase, -⟩ := crossPosition_countsAlone hl
      (l.ctx.uStart + (l.ctx.highWater + 1 : Nat)) (l.ctx.highWater + 1)
    have hl' := congrArg Psc.lead hpsc
    rw [modLead_of_lead hl']
    exact h.runs hl' ⟨by rw [leadRunning, hphase]; exact hrun, rfl⟩ crossed
  | @turned l turn hl hrun =>
    have hturn : enterTurn turn s = s.setPsc { s.psc with
        lead := some { phase := .retrying, ctx := { l.ctx with turn := turn, turnsUsed := turn } } } := by
      simp [enterTurn, hl]
    rw [hturn]
    exact h.runs hl ⟨rfl, rfl⟩ hP
  | snapped n hl hrun =>
    rw [modLead_of_lead hl]
    exact h.runs hl ⟨hrun, rfl⟩ hP
  | retired st hl => exact h.retired st hl hP
  | faulted => exact h.faulted hP
  | flushed => exact h.flushed hP
  | armed hl hdrain hid hoverlap hroom => exact h.armed hl hdrain hid hroom hP
  | reset causes => exact h.reset causes hP

theorem PassKept.run (h : PassKept P) {s t : State} (hr : PassRun s t) (hP : P s) : P t := by
  induction hr with
  | refl => exact hP
  | tail _ hm ih => exact h.move hm ih

/-- The started pass, where the passes look. -/
theorem passesStand_startPass (l : Lead) (snap : Nat) (s : State) :
    PassesStand (s.setPsc { s.psc with lead := some { phase := .scanning, ctx := { l.ctx with
      uStart := encU s.enc, highWater := 0, turn := 0, largestSnap := snap } } }) (startPass l snap s) where
  lead := by simp [startPass, restartStall]
  drain := by simp [startPass, restartStall]
  buffer := by simp [startPass]
  stack := by simp [startPass]
  queue := by simp [startPass]
  nextTag := by simp [startPass]
  lastTrigger := by simp [startPass]
  state := .inl (by simp [startPass])
  ranges := by simp [startPass]
  armed _ := by simp [startPass]
  running _ := by simp [startPass]

theorem PassKept.start (h : PassKept P) {s t : State} (hs : PassStart s t) (hP : P s) : P t := by
  obtain ⟨l, snap, hl, -, rfl⟩ := hs
  exact h.still (passesStand_startPass l snap s) (h.runs hl ⟨rfl, rfl⟩ hP)

/-- What every move keeps, every step keeps. -/
theorem PassKept.step (h : PassKept P) {s t : State} (hs : Sys2Proof.Machine.step s = .next t) (hP : P s) : P t := by
  obtain ⟨u, v, hrun, hstart, hstand⟩ := step_passes hs
  refine h.still hstand ?_
  obtain rfl | hstart := hstart
  · exact h.run hrun hP
  · exact h.start hstart (h.run hrun hP)

end Sys2Proof.Machine
end

