-- ==== Sys2Proof/Proofs/PointBuffer.lean ====
section
/-! PROOFS. Proofs/PointBuffer.lean: what the ending of a pass and the abandoning of its tags make of the passes, and the
bounds of the point buffer and the drain list (sections 7.6 and 4.6). -/

namespace Sys2Proof.Machine

open Sys2Proof

/-! ### Abandoned tags (R110, R121, R122) -/

/-- What the abandoning of one tag of origin `o` makes of the context of its pass. -/
def abandonedCtx (o : TagOrigin) (c : PassCtx) : PassCtx := countAbandoned o (dropInFlight o c)

@[simp] theorem abandonedCtx_settings (o : TagOrigin) (c : PassCtx) : (abandonedCtx o c).settings = c.settings := by
  cases o <;> rfl

/-- What the abandoning of the tags `gone` makes of the context of their pass. -/
def withdrawnCtx (gone : List TagEntry) (c : PassCtx) : PassCtx := gone.foldl (fun c e => abandonedCtx e.origin c) c

@[simp] theorem withdrawnCtx_settings (gone : List TagEntry) (c : PassCtx) :
    (withdrawnCtx gone c).settings = c.settings := by
  induction gone generalizing c with
  | nil => rfl
  | cons e gone ih => exact (ih _).trans (abandonedCtx_settings _ _)

/-- The tags `gone` of the lead's pass are counted in its context. -/
theorem foldl_abandonOne_lead {gone : List TagEntry} {s : State} {l : Lead} (hl : s.psc.lead = some l)
    (hg : ∀ e ∈ gone, e.passId = l.ctx.settings.passId) :
    gone.foldl abandonOne s = s.setPsc { s.psc with lead := some { l with ctx := withdrawnCtx gone l.ctx } } := by
  induction gone generalizing s l with
  | nil =>
    simp only [List.foldl_nil, withdrawnCtx, ← hl]
    rfl
  | cons e gone ih =>
    have hid : leadIs e.passId s.psc = true := leadIs_iff.2 ⟨l, hl, (hg e (by simp)).symm⟩
    have hone : abandonOne s e =
        s.setPsc { s.psc with lead := some { l with ctx := abandonedCtx e.origin l.ctx } } := by
      rw [abandonOne, ← modLead_eq hid, modLead_of_lead hl]
      rfl
    rw [List.foldl_cons, hone, ih rfl fun x hx => by simp [hg x (by simp [hx])]]
    rfl

/-! ### A pass that has ended (R73) -/

/-- The context with which the lead `l` ends with the status `st`. -/
def endedCtx (st : EndStatus) (l : Lead) (s : State) : PassCtx :=
  let named := { l.ctx with endStatus := some st }
  let left := if abandons st then
      { withdrawnCtx (s.prb.queue.filter fun e => e.passId == l.ctx.settings.passId) named with
        mainInFlight := 0, retryInFlight := 0 }
    else named
  onCounters (fun k => { k with unresolved := satAdd k.unresolved s.stack.length }) left

/-- The tags that an ending with the status `st` leaves in flight. -/
def leftQueue (st : EndStatus) (l : Lead) (q : List TagEntry) : List TagEntry :=
  if abandons st then q.filter fun e => !(e.passId == l.ctx.settings.passId) else q

/-- What the ending of a pass makes of the part, where the accounts look. -/
structure PassRetired (st : EndStatus) (l : Lead) (s t : State) : Prop where
  lead : t.psc.lead = none
  drain : t.psc.drain = s.psc.drain ++ [endedCtx st l s]
  pnt : t.pnt = s.pnt
  stack : t.stack = []
  queue : t.prb.queue = leftQueue st l s.prb.queue
  nextTag : t.prb.nextTag = s.prb.nextTag
  lastTrigger : t.prb.lastTrigger = s.prb.lastTrigger
  state : t.prb.state = s.prb.state
  ranges : probeRanges s.prb → probeRanges t.prb
  enc : t.enc = s.enc
  wbk : t.wbk = s.wbk

theorem dropWaiting_frame (gone : List TagEntry) (p : Prb) :
    ∃ waiting, dropWaiting gone p = { p with waiting := waiting } := by
  unfold dropWaiting
  split
  · exact ⟨_, rfl⟩
  · split_ifs
    · exact ⟨_, rfl⟩
    · exact ⟨_, rfl⟩

/-- The lead's tags are abandoned (step 2 of R73). -/
theorem abandonLead_eq {s : State} {l : Lead} (hl : s.psc.lead = some l) :
    ∃ waiting, abandonLead l.ctx.settings.passId s = enterSafe ((s.setPsc { s.psc with
        lead := some { l with
          ctx := { withdrawnCtx (s.prb.queue.filter fun e => e.passId == l.ctx.settings.passId) l.ctx with
            mainInFlight := 0, retryInFlight := 0 } } }).setPrb { s.prb with
      queue := s.prb.queue.filter fun e => !(e.passId == l.ctx.settings.passId), waiting := waiting }) := by
  obtain ⟨waiting, hw⟩ := dropWaiting_frame (s.prb.queue.filter fun e => e.passId == l.ctx.settings.passId)
    { s.prb with queue := s.prb.queue.filter fun e => !(e.passId == l.ctx.settings.passId) }
  refine ⟨waiting, ?_⟩
  unfold abandonLead abandon
  dsimp only
  rw [hw, foldl_abandonOne_lead (l := l) (by simpa using hl) (by simp), modLead_of_lead rfl]
  rfl

theorem retirePass_retired {s : State} {l : Lead} (st : EndStatus) (hl : s.psc.lead = some l) :
    PassRetired st l s (retirePass st l s) := by
  let named : Lead := { l with ctx := { l.ctx with endStatus := some st } }
  have hrec : recordEnd st s = s.setPsc { s.psc with lead := some named, stall := none } := by
    rw [recordEnd, modLead_of_lead hl]
    rfl
  have hjoin : ∀ {u : State} {l'}, u.psc.lead = some l' → joinDrain (emptyStack u) = (u.setPsc { u.psc with
      lead := none, drain := u.psc.drain ++ [onCounters (fun k =>
        { k with unresolved := satAdd k.unresolved u.stack.length }) l'.ctx] }).setStack [] := fun {u l'} hu => by
    rw [emptyStack, modLead_of_lead hu]
    rfl
  unfold retirePass
  rw [hrec]
  by_cases ha : abandons st = true
  · rw [if_pos ha]
    obtain ⟨waiting, hw⟩ := abandonLead_eq (l := named) (s := s.setPsc { s.psc with lead := some named, stall := none }) rfl
    change PassRetired st l s (joinDrain (emptyStack (abandonLead named.ctx.settings.passId _)))
    rw [hw, hjoin (l' := { named with
      ctx := { withdrawnCtx (s.prb.queue.filter fun e => e.passId == l.ctx.settings.passId) named.ctx with
        mainInFlight := 0, retryInFlight := 0 } }) (by simp [named])]
    constructor <;> simp [endedCtx, leftQueue, ha, named, probeRanges]
  · rw [if_neg ha, hjoin (l' := named) rfl]
    constructor <;> simp [endedCtx, leftQueue, ha, named]

/-! ### The bounds of the buffer and of the drain list (R139, R78) -/

theorem owed_eq {p p' : Psc} (hlead : p'.lead.isSome = p.lead.isSome) (hdrain : p'.drain.length = p.drain.length) :
    summariesOwed p' = summariesOwed p := by
  rw [summariesOwed, summariesOwed, hlead, hdrain]

/-- At most `n` records held and summaries owed, and at most 4 summaries owed. -/
def loadBounded (n : Nat) (s : State) : Prop := bufferLoad s ≤ n ∧ summariesOwed s.psc ≤ 4

variable {n : Nat}

/-- The bounds pass to a state with no more records held and no more summaries owed. -/
theorem loadBounded_mono {s t : State} (hbuffer : t.pnt.buffer.length ≤ s.pnt.buffer.length)
    (howed : summariesOwed t.psc ≤ summariesOwed s.psc) (h : loadBounded n s) : loadBounded n t := by
  unfold loadBounded bufferLoad at *
  omega

theorem loadBounded_modCtx (id : Nat) (f : PassCtx → PassCtx) {s : State} (h : loadBounded n s) :
    loadBounded n (modCtx id f s) :=
  loadBounded_mono (by simp) (modCtx_owed id f s).1.le h

theorem loadBounded_pushMiss (e : MissEntry) {s : State} (h : loadBounded n s) : loadBounded n (pushMiss e s) := by
  refine loadBounded_mono (by simp) (owed_eq ?_ ?_).le h
  all_goals
    unfold pushMiss
    split_ifs <;> simp [modLead]

theorem loadBounded_routeMiss (e : TagEntry) (cause : MissCause) {s : State} (h : loadBounded n s) :
    loadBounded n (routeMiss e cause s) := by
  have modLead_bounded : ∀ f u, loadBounded n u → loadBounded n (modLead f u) := fun f u hu =>
    loadBounded_mono (by simp) (owed_eq (by simp [modLead]) (by simp [modLead])).le hu
  unfold routeMiss
  split_ifs
  · dsimp only
    split
    · exact loadBounded_pushMiss _ h
    · exact modLead_bounded _ _ (loadBounded_pushMiss _ h)
  · exact loadBounded_modCtx _ _ h

theorem owed_of_countsAlone {l : Lead} {s t : State} (hl : s.psc.lead = some l) (h : countsAlone l s t) :
    summariesOwed t.psc = summariesOwed s.psc := by
  obtain ⟨l', hpsc, -, -⟩ := h
  exact owed_eq (by simp [hpsc, hl]) (by simp [hpsc])

theorem countsAlone_self {l : Lead} {s : State} (hl : s.psc.lead = some l) : countsAlone l s s :=
  ⟨l, by rw [← hl], rfl, rfl⟩

theorem abandon_owed (which : TagEntry → Bool) (s : State) :
    summariesOwed (abandon which s).psc = summariesOwed s.psc := by
  have fold : ∀ (gone : List TagEntry) u, summariesOwed (gone.foldl abandonOne u).psc = summariesOwed u.psc := by
    intro gone
    induction gone with
    | nil => exact fun _ => rfl
    | cons e gone ih => exact fun u => (ih _).trans (modCtx_owed _ _ u).1
  exact fold _ _

theorem loadBounded_kept (hn : bufferSize ≤ n) : PassKept (loadBounded n) where
  still hs h := loadBounded_mono hs.buffer (owed_eq (by rw [hs.lead]) (by rw [hs.drain])).le h
  noted id _ h := loadBounded_modCtx id _ h
  missed cause _ h := loadBounded_modCtx _ _ (loadBounded_routeMiss _ cause h)
  emitted p _ hroom h := by
    refine loadBounded_modCtx _ _ ?_
    unfold loadBounded bufferLoad at *
    simp only [appendRecord_pnt, List.length_append, List.length_singleton, appendRecord_frame, State.setPrb_psc,
      State.setPrb_pnt]
    omega
  dropped _ _ h := h
  main u o pt hl hset _ h :=
    loadBounded_mono (by simp) (owed_of_countsAlone hl (countsAlone_crossMain hset.symm u o pt (countsAlone_self hl))).le h
  retry u pt hl hset _ h :=
    loadBounded_mono (by simp) (owed_of_countsAlone hl (countsAlone_crossRetry hset.symm u pt (countsAlone_self hl))).le h
  runs {s} _ _ hl _ h := loadBounded_mono (s := s) (le_refl _) (by simp [summariesOwed, hl]) h
  retired st hl h := by
    have r := retirePass_retired st hl
    refine loadBounded_mono (by rw [r.pnt]) ?_ h
    simp [summariesOwed, r.lead, r.drain, hl, Nat.add_comm]
  faulted h := loadBounded_mono (by simp) (abandon_owed _ _).le h
  flushed {s} h := by
    have hload := flushDrain_load s
    have howed : summariesOwed (flushDrain s).psc ≤ summariesOwed s.psc := by
      simp only [flushDrain_psc, summariesOwed]
      have := List.length_dropWhile_le noTags s.psc.drain
      omega
    unfold loadBounded at *
    omega
  armed hl hdrain _ hroom h := by
    unfold loadBounded bufferLoad at *
    simp [summariesOwed, armLead, probeReady, hl] at *
    omega
  reset causes h := by
    simp [loadBounded, bufferLoad, summariesOwed, resetPart, Pnt.reset, Psc.reset]

/-- Settles O47: every step is a run of moves, of which the arming of a pass alone adds to what is held and owed, and ARMP
tests the room for it (R62); a point is appended only where there is room, and a summary takes the place of one owed. -/
theorem pointBufferNeverOverfull : Obligations.PointBufferNeverOverfull := by
  unfold Obligations.PointBufferNeverOverfull
  intro s t hs hb hd
  exact (loadBounded_kept (le_refl bufferSize)).step hs ⟨hb, hd⟩

end Sys2Proof.Machine
end

