-- ==== Sys2Proof/Proofs/Crossings.lean ====
section
/-! PROOFS. Proofs/Crossings.lean: what a crossed point and a missed tag make of the context of their pass, of the stack and of
the queue, case by case (sections 5.2, 5.5, 6.5). -/

namespace Sys2Proof.Machine

open Sys2Proof

/-! ### Counts -/

/-- The counts of a push onto the stack (R147, R148). -/
def pushedCounts (full : Bool) (k : Counters) : Counters :=
  { k with pushes := satInc k.pushes, overflowLost := if full then satInc k.overflowLost else k.overflowLost }

/-- The counts of a miss of a running lead (R119). -/
def missedCounts (o : TagOrigin) (k : Counters) : Counters :=
  { k with missedMain := if o = .retry then k.missedMain else satInc k.missedMain }

/-- The counts of a late miss (R119). -/
def lateCounts (o : TagOrigin) (k : Counters) : Counters :=
  { k with
    lateMissed := if o = .retry then k.lateMissed else satInc k.lateMissed
    retryLost := if o = .retry then satInc k.retryLost else k.retryLost }

/-- The counts of an entry taken from the stack (R150). -/
def takenCounts (k : Counters) : Counters := { k with takes := satInc k.takes }

/-! ### The stack -/

/-- The stack is full. -/
def stackFull (s : State) : Bool := decide (stackSize ≤ s.stack.length)

/-- The stack with the miss `m` on top (R147, R148). -/
def pushed (m : MissEntry) (s : State) : List MissEntry := m :: if stackFull s then s.stack.dropLast else s.stack

theorem pushMiss_stands {m : MissEntry} {s : State} (h : s.stack.any (sameKey m) = true) : pushMiss m s = s := if_pos h

theorem pushMiss_pushed {m : MissEntry} {s : State} (h : s.stack.any (sameKey m) = false) :
    pushMiss m s = modLead (onCounters (pushedCounts (stackFull s))) (s.setStack (pushed m s)) := by
  unfold pushMiss
  rw [if_neg (by rw [h]; exact Bool.false_ne_true)]
  rfl

/-! ### Contexts -/

theorem modLead_comp (f g : PassCtx → PassCtx) (s : State) : modLead f (modLead g s) = modLead (fun c => f (g c)) s := by
  simp only [modLead, State.setPsc, Option.map_map]
  rfl

theorem modLead_setStack (f : PassCtx → PassCtx) (x : List MissEntry) (s : State) :
    modLead f (s.setStack x) = (modLead f s).setStack x := rfl

theorem modLead_setPrb (f : PassCtx → PassCtx) (p : Prb) (s : State) :
    modLead f (s.setPrb p) = (modLead f s).setPrb p := rfl

theorem leadIs_of_lead {s : State} {l : Lead} (hl : s.psc.lead = some l) : leadIs l.ctx.settings.passId s.psc = true :=
  leadIs_iff.2 ⟨l, hl, rfl⟩

/-! ### A missed tag (R119) -/

/-- The changes of a context by a miss, of which the last is the fall of the in-flight count. -/
def missCtx (o : TagOrigin) (f : Counters → Counters) (c : PassCtx) : PassCtx := dropInFlight o (onCounters f c)

@[simp] theorem missCtx_settings (o : TagOrigin) (f : Counters → Counters) (c : PassCtx) :
    (missCtx o f c).settings = c.settings := by
  cases o <;> rfl

theorem missOne_late {e : TagEntry} {s : State} (cause : MissCause) (h : runningLeadIs e.passId s = false) :
    missOne e cause s = modCtx e.passId (missCtx e.origin fun k => countCause cause (lateCounts e.origin k)) s := by
  unfold missOne routeMiss
  rw [if_neg (by simp [h]), modCtx_comp (onCounters_settings _)]
  congr 1
  funext c
  cases ho : e.origin <;> simp [missCtx, dropInFlight, onCounters, lateCounts]

theorem missOne_stands {e : TagEntry} {s : State} (cause : MissCause) (h : runningLeadIs e.passId s = true)
    (hs : s.stack.any (sameKey (missOf e cause)) = true) :
    missOne e cause s = modCtx e.passId (missCtx e.origin fun k => countCause cause (missedCounts e.origin k)) s := by
  unfold missOne routeMiss
  rw [if_pos h]
  dsimp only
  rw [pushMiss_stands hs]
  cases ho : e.origin with
  | retry =>
    dsimp only
    congr 1
  | main =>
    dsimp only
    rw [modLead_eq (leadIs_of_running h), modCtx_comp (onCounters_settings _)]
    rfl
  | overlap =>
    dsimp only
    rw [modLead_eq (leadIs_of_running h), modCtx_comp (onCounters_settings _)]
    rfl

theorem missOne_pushed {e : TagEntry} {s : State} (cause : MissCause) (h : runningLeadIs e.passId s = true)
    (hs : s.stack.any (sameKey (missOf e cause)) = false) :
    missOne e cause s = modCtx e.passId
      (missCtx e.origin fun k => countCause cause (missedCounts e.origin (pushedCounts (stackFull s) k)))
      (s.setStack (pushed (missOf e cause) s)) := by
  have hl : leadIs e.passId (s.setStack (pushed (missOf e cause) s)).psc = true := leadIs_of_running h
  unfold missOne routeMiss
  rw [if_pos h]
  dsimp only
  rw [pushMiss_pushed hs, modLead_eq hl]
  cases ho : e.origin with
  | retry =>
    dsimp only
    rw [modCtx_comp (onCounters_settings _)]
    rfl
  | main =>
    dsimp only
    rw [modLead_eq (by rwa [(modCtx_running (onCounters_settings _) _ _).1]), modCtx_comp (onCounters_settings _),
      modCtx_comp (onCounters_settings _)]
    rfl
  | overlap =>
    dsimp only
    rw [modLead_eq (by rwa [(modCtx_running (onCounters_settings _) _ _).1]), modCtx_comp (onCounters_settings _),
      modCtx_comp (onCounters_settings _)]
    rfl

/-! ### Crossed points (R90, R100) -/

/-- A firing in FAULT (R111): the tag is issued and abandoned at once. -/
def lostPrb (now : Nat) (p : Prb) : Prb := { p with nextTag := p.nextTag + 1, lastTrigger := some now }

theorem fire_ready {r : TriggerRequest} {s : State} (hid : leadIs r.passId s.psc = true) (h : s.prb.state = .ready) :
    fire r s = modLead (addInFlight r.origin) (s.setPrb (takeTrigger r s.now s.prb)) := by
  rw [modLead_eq (id := r.passId) (by exact hid)]
  unfold fire
  rw [h]

theorem fire_fault {r : TriggerRequest} {s : State} (hid : leadIs r.passId s.psc = true) (h : s.prb.state = .fault) :
    fire r s = modLead (fun c => abandonedCtx r.origin (addInFlight r.origin c)) (s.setPrb (lostPrb s.now s.prb)) := by
  rw [modLead_eq (id := r.passId) (by exact hid)]
  unfold fire
  rw [h]
  rfl

theorem leadIs_modLead {f : PassCtx → PassCtx} (hf : ∀ c, (f c).settings = c.settings) (id : Nat) (s : State) :
    leadIs id (modLead f s).psc = leadIs id s.psc := by
  unfold leadIs modLead
  cases s.psc.lead <;> simp [hf]

/-- A trigger request names a point and a pass. -/
def requestNames (r : TriggerRequest) (pass : Nat) (pt : CrossedPoint) (overlap : Bool) : Prop :=
  r.passId = pass ∧ r.blade = pt.blade ∧ r.window = pt.index ∧ r.j = pt.j ∧ r.overlap = overlap

/-- What becomes of a point that a lead crosses in its main span at state `s` (R90). -/
inductive MainCrossed (pass : Nat) (overlap : Bool) (pt : CrossedPoint) (s : State) : State → Prop
  | blanked : MainCrossed pass overlap pt s (modLead (onCounters (countCrossing .blanked)) s)
  | stands {o} (cause) (ho : o = .held ∨ o = .busy)
      (hs : s.stack.any (sameKey (crossingMiss pt overlap cause)) = true) :
      MainCrossed pass overlap pt s (modLead (onCounters (countCrossing o)) s)
  | pushed {o} (cause) (ho : o = .held ∨ o = .busy)
      (hs : s.stack.any (sameKey (crossingMiss pt overlap cause)) = false) :
      MainCrossed pass overlap pt s (modLead (onCounters fun k => pushedCounts (stackFull s) (countCrossing o k))
        (s.setStack (pushed (crossingMiss pt overlap cause) s)))
  | fired {r} (hr : requestNames r pass pt overlap) (ho : r.origin ≠ .retry) (hfree : probeFree s = true)
      (hready : s.prb.state = .ready) :
      MainCrossed pass overlap pt s (modLead (fun c => addInFlight r.origin (onCounters (countCrossing .fired) c))
        (s.setPrb (takeTrigger r s.now s.prb)))
  | lost {r} (hr : requestNames r pass pt overlap) (ho : r.origin ≠ .retry) (hfault : s.prb.state = .fault)
      (hfree : probeFree s = true) :
      MainCrossed pass overlap pt s (modLead (fun c =>
          abandonedCtx r.origin (addInFlight r.origin (onCounters (countCrossing .fired) c)))
        (s.setPrb (lostPrb s.now s.prb)))

theorem crossMain_crossed {l l' : Lead} {s : State} (hl : s.psc.lead = some l')
    (hset : l'.ctx.settings = l.ctx.settings) (u : Int) (overlap : Bool) (pt : CrossedPoint) :
    MainCrossed l.ctx.settings.passId overlap pt s (crossMain l u overlap s pt) := by
  have missed : ∀ {o cause}, o = .held ∨ o = .busy → MainCrossed l.ctx.settings.passId overlap pt s
      (pushMiss (crossingMiss pt overlap cause) (modLead (onCounters (countCrossing o)) s)) := fun {o cause} ho => by
    cases hs : s.stack.any (sameKey (crossingMiss pt overlap cause)) with
    | true =>
      rw [pushMiss_stands (by simpa using hs)]
      exact .stands cause ho hs
    | false =>
      rw [pushMiss_pushed (by simpa using hs), ← modLead_setStack, modLead_comp]
      exact .pushed cause ho hs
  have hid : leadIs l.ctx.settings.passId s.psc = true := by rw [← hset]; exact leadIs_of_lead hl
  unfold crossMain
  dsimp only
  cases hcross : crossingOf s pt.window with
  | blanked => exact .blanked
  | held => exact missed (.inl rfl)
  | busy => exact missed (.inr rfl)
  | fired =>
    have hfree : probeFree s = true := by
      unfold crossingOf at hcross
      split_ifs at hcross with _ _ hfree
      simpa using hfree
    have names : ∀ o, requestNames (requestFor l u pt o overlap 0 none s) l.ctx.settings.passId pt overlap :=
      fun _ => ⟨rfl, rfl, rfl, rfl, rfl⟩
    have horigin : (if overlap then TagOrigin.overlap else .main) ≠ .retry := by cases overlap <;> simp
    have hid' := (leadIs_modLead (onCounters_settings (countCrossing .fired)) l.ctx.settings.passId s).trans hid
    dsimp only
    cases hstate : s.prb.state with
    | ready =>
      rw [fire_ready hid' (by simpa using hstate), ← modLead_setPrb, modLead_comp]
      exact .fired (names _) horigin hfree hstate
    | fault =>
      rw [fire_fault hid' (by simpa using hstate), ← modLead_setPrb, modLead_comp]
      exact .lost (names _) horigin hstate hfree

/-- What becomes of a point that a lead crosses in a retry turn at state `s` (R100). -/
inductive RetryCrossed (pass : Nat) (pt : CrossedPoint) (s : State) : State → Prop
  | passed : RetryCrossed pass pt s s
  | fired {r m} (hm : s.stack.find? (namesPoint pt.blade pt.index pt.j) = some m) (hr : requestNames r pass pt m.overlap)
      (ho : r.origin = .retry) (hfree : probeFree s = true) (hready : s.prb.state = .ready) :
      RetryCrossed pass pt s (modLead (fun c => addInFlight .retry (onCounters takenCounts c))
        ((s.setStack (s.stack.eraseP (namesPoint pt.blade pt.index pt.j))).setPrb (takeTrigger r s.now s.prb)))
  | lost {r m} (hm : s.stack.find? (namesPoint pt.blade pt.index pt.j) = some m) (hr : requestNames r pass pt m.overlap)
      (ho : r.origin = .retry) (hfault : s.prb.state = .fault) (hfree : probeFree s = true) :
      RetryCrossed pass pt s (modLead (fun c => abandonedCtx .retry (addInFlight .retry (onCounters takenCounts c)))
        ((s.setStack (s.stack.eraseP (namesPoint pt.blade pt.index pt.j))).setPrb (lostPrb s.now s.prb)))

theorem crossRetry_crossed {l l' : Lead} {s : State} (hl : s.psc.lead = some l')
    (hset : l'.ctx.settings = l.ctx.settings) (u : Int) (pt : CrossedPoint) :
    RetryCrossed l.ctx.settings.passId pt s (crossRetry l u s pt) := by
  unfold crossRetry
  split_ifs with htests
  · exact .passed
  simp only [Bool.or_eq_true, not_or, Bool.not_eq_true, Bool.not_eq_false'] at htests
  obtain ⟨-, hfree⟩ := htests
  unfold takeMiss
  cases hm : s.stack.find? (namesPoint pt.blade pt.index pt.j) with
  | none => exact .passed
  | some m =>
    dsimp only
    have names : requestNames (requestFor l u pt .retry m.overlap m.attempts (some m.cause) s) l.ctx.settings.passId pt
        m.overlap := ⟨rfl, rfl, rfl, rfl, rfl⟩
    have hid' : leadIs l.ctx.settings.passId (modLead (onCounters takenCounts)
        (s.setStack (s.stack.eraseP (namesPoint pt.blade pt.index pt.j)))).psc = true := by
      rw [leadIs_modLead (onCounters_settings _), ← hset]
      exact leadIs_of_lead hl
    cases hstate : s.prb.state with
    | ready =>
      rw [fire_ready hid' (by simpa using hstate), ← modLead_setPrb, modLead_comp]
      exact .fired hm names rfl hfree hstate
    | fault =>
      rw [fire_fault hid' (by simpa using hstate), ← modLead_setPrb, modLead_comp]
      exact .lost hm names rfl hstate hfree

end Sys2Proof.Machine
end

