-- ==== Sys2Proof/Proofs/MainAccounting.lean ====
section
/-! PROOFS. Proofs/MainAccounting.lean: the in-flight counts of the contexts and the accounting of the main span (sections 4.1
and 8.6), kept together by every move of the passes. -/

namespace Sys2Proof.Machine

open Sys2Proof

/-! ### Contexts under their IDs -/

/-- Contexts with different IDs. -/
def distinctIds (cs : List PassCtx) : Prop := cs.Pairwise fun a b => a.settings.passId ≠ b.settings.passId

/-- A change of the context with ID `id`. -/
def ctxOf (id : Nat) (f : PassCtx → PassCtx) (c : PassCtx) : PassCtx := if c.settings.passId == id then f c else c

theorem ctxOf_same {id : Nat} {c : PassCtx} (h : c.settings.passId = id) (f : PassCtx → PassCtx) : ctxOf id f c = f c := by
  simp [ctxOf, h]

theorem ctxOf_other {id : Nat} {c : PassCtx} (h : c.settings.passId ≠ id) (f : PassCtx → PassCtx) : ctxOf id f c = c := by
  simp [ctxOf, h]

theorem map_ctxOf_other {id : Nat} {cs : List PassCtx} (h : ∀ c ∈ cs, c.settings.passId ≠ id) (f : PassCtx → PassCtx) :
    cs.map (ctxOf id f) = cs := by
  rw [List.map_congr_left fun c hc => ctxOf_other (h c hc) f, List.map_id']

theorem contexts_of_lead {p : Psc} {l : Lead} (h : p.lead = some l) : contexts p = l.ctx :: p.drain := by
  simp [contexts, h]

theorem contexts_of_none {p : Psc} (h : p.lead = none) : contexts p = p.drain := by simp [contexts, h]

theorem contexts_modLead {s : State} {l : Lead} (hl : s.psc.lead = some l) (hd : distinctIds (contexts s.psc))
    (f : PassCtx → PassCtx) :
    contexts (modLead f s).psc = (contexts s.psc).map (ctxOf l.ctx.settings.passId f) := by
  rw [contexts_of_lead hl, distinctIds, List.pairwise_cons] at hd
  rw [modLead_of_lead hl, contexts_of_lead hl, contexts_of_lead rfl, List.map_cons, ctxOf_same rfl,
    map_ctxOf_other (fun c hc => (hd.1 c hc).symm)]
  rfl

theorem contexts_modCtx {s : State} (hd : distinctIds (contexts s.psc)) (id : Nat) (f : PassCtx → PassCtx) :
    contexts (modCtx id f s).psc = (contexts s.psc).map (ctxOf id f) := by
  cases hid : leadIs id s.psc with
  | true =>
    obtain ⟨l, hl, rfl⟩ := leadIs_iff.1 hid
    rw [← modLead_eq hid, contexts_modLead hl hd]
  | false =>
    unfold modCtx
    rw [if_neg (by simp [hid])]
    cases hl : s.psc.lead with
    | none =>
      rw [contexts_of_none (by simpa using hl), contexts_of_none hl]
      rfl
    | some l =>
      have hne : l.ctx.settings.passId ≠ id := fun h => by simp [leadIs_iff.2 ⟨l, hl, h⟩] at hid
      rw [contexts_of_lead (l := l) (by simpa using hl), contexts_of_lead hl, List.map_cons, ctxOf_other hne]
      rfl

/-! ### In-flight counts and books -/

/-- The sum that R156 sets against crossed_main, without the tags in flight. -/
def mainSum (k : Counters) : Nat :=
  k.emittedMain + k.blanked + k.held + k.busy + k.missedMain + k.lateMissed + k.abandoned

/-- A property of a context that rests on crossed_main, on `mainSum` and on the main tags in flight alone: it is kept when
crossed_main rises by `dc` and the sum by `ds`, below saturation, with the tags in flight making up the difference. -/
structure MainBooks (R : PassCtx → Prop) : Prop where
  step : ∀ {c c' : PassCtx} (dc ds : Nat),
    (c'.counters.crossedMain < counterMax → c'.counters.crossedMain = c.counters.crossedMain + dc) →
    (mainSum c.counters < counterMax → mainSum c'.counters = mainSum c.counters + ds) →
    c'.mainInFlight + ds = c.mainInFlight + dc → R c → R c'
  fresh : ∀ p, R (freshCtx p)

theorem mainBooks_true : MainBooks fun _ => True := ⟨fun _ _ _ _ _ _ => trivial, fun _ => trivial⟩

theorem mainBooks_mainBalanced : MainBooks mainBalanced where
  step dc ds hcrossed hsum hflight h := by
    unfold mainBalanced mainSum at *
    dsimp only at *
    intro hlt
    have hc := hcrossed hlt
    have hbal := h (by omega)
    have hs := hsum (by omega)
    omega
  fresh p := by simp [mainBalanced, freshCtx, Counters.zero]

/-- A change of counters that raises crossed_main by `dc` and `mainSum` by `ds`, below saturation. -/
def mainStep (f : Counters → Counters) (dc ds : Nat) : Prop :=
  ∀ k, ((f k).crossedMain < counterMax → (f k).crossedMain = k.crossedMain + dc) ∧
    (mainSum k < counterMax → mainSum (f k) = mainSum k + ds)

theorem satInc_lt {n : Nat} (h : n < counterMax) : satInc n = n + 1 := by
  unfold satInc satAdd
  omega

theorem of_satInc_lt {n : Nat} (h : satInc n < counterMax) : satInc n = n + 1 := by
  unfold satInc satAdd at *
  omega

theorem mainStep_keepsAccounts {f : Counters → Counters} (hf : keepsAccounts f) : mainStep f 0 0 := fun k => by
  rw [hf k]
  exact ⟨fun _ => rfl, fun _ => rfl⟩

theorem keepsAccounts_comp {f g : Counters → Counters} (hf : keepsAccounts f) {dc ds : Nat} (hg : mainStep g dc ds) :
    mainStep (fun k => f (g k)) dc ds := fun k => by
  dsimp only
  rw [hf (g k)]
  exact hg k

theorem mainStep_lateCounts (o : TagOrigin) : mainStep (lateCounts o) 0 (if o = .retry then 0 else 1) := fun k => by
  refine ⟨fun _ => rfl, fun hsum => ?_⟩
  by_cases ho : o = .retry
  · simp [lateCounts, mainSum, ho]
  · have := satInc_lt (n := k.lateMissed) (by unfold mainSum at hsum; omega)
    simp only [lateCounts, mainSum, ho, if_false, this]
    omega

theorem mainStep_missedCounts (o : TagOrigin) : mainStep (missedCounts o) 0 (if o = .retry then 0 else 1) := fun k => by
  refine ⟨fun _ => rfl, fun hsum => ?_⟩
  by_cases ho : o = .retry
  · simp [missedCounts, mainSum, ho]
  · have := satInc_lt (n := k.missedMain) (by unfold mainSum at hsum; omega)
    simp only [missedCounts, mainSum, ho, if_false, this]
    omega

theorem mainStep_countEmitted (o : TagOrigin) (p : PointRecord) :
    mainStep (countEmitted o p) 0 (if o = .retry then 0 else 1) := fun k => by
  unfold countEmitted
  refine ⟨fun _ => ?_, fun hsum => ?_⟩
  · cases o <;> cases p.flags.range <;> rfl
  · have hlt := satInc_lt (n := k.emittedMain) (by unfold mainSum at hsum; omega)
    cases o <;> cases p.flags.range <;> simp [mainSum, hlt] <;> omega

/-- A point that is not fired is counted twice, in crossed_main and in the count of its outcome. -/
theorem mainStep_countCrossing {o : Crossing} (ho : o ≠ .fired) : mainStep (countCrossing o) 1 1 := fun k => by
  refine ⟨fun hlt => ?_, fun hsum => ?_⟩
  · have hcross : (countCrossing o k).crossedMain = satInc k.crossedMain := by cases o <;> rfl
    rw [hcross] at hlt ⊢
    exact of_satInc_lt hlt
  · have hblanked := satInc_lt (n := k.blanked) (by unfold mainSum at hsum; omega)
    have hheld := satInc_lt (n := k.held) (by unfold mainSum at hsum; omega)
    have hbusy := satInc_lt (n := k.busy) (by unfold mainSum at hsum; omega)
    cases o with
    | blanked => simp only [countCrossing, mainSum, hblanked]; omega
    | held => simp only [countCrossing, mainSum, hheld]; omega
    | busy => simp only [countCrossing, mainSum, hbusy]; omega
    | fired => exact absurd rfl ho

theorem mainStep_fired : mainStep (countCrossing .fired) 1 0 := fun _ => ⟨of_satInc_lt, fun _ => rfl⟩

/-! ### The accounts of the contexts -/

/-- The in-flight counts of the contexts `cs` are those of the queue `q`, their IDs differ, every entry names one of them,
and each has the property `R`. -/
structure Accounts (R : PassCtx → Prop) (cs : List PassCtx) (q : List TagEntry) : Prop where
  each : ∀ c ∈ cs, countsMatch q c ∧ R c
  distinct : distinctIds cs
  named : ∀ e ∈ q, ∃ c ∈ cs, c.settings.passId = e.passId

/-- The accounts of a state. -/
def accountsOf (R : PassCtx → Prop) (s : State) : Prop := Accounts R (contexts s.psc) s.prb.queue

theorem inFlightOk_of_accounts {R : PassCtx → Prop} {s : State} (h : accountsOf R s) : inFlightOk s :=
  ⟨fun c hc => (h.each c hc).1, h.distinct, h.named⟩

theorem accounts_of_inFlightOk {R : PassCtx → Prop} {s : State} (h : inFlightOk s) (hR : ∀ c ∈ contexts s.psc, R c) :
    accountsOf R s :=
  ⟨fun c hc => ⟨h.1 c hc, hR c hc⟩, h.2.1, h.2.2⟩

variable {R : PassCtx → Prop} {cs : List PassCtx} {q q' : List TagEntry}

theorem distinctIds_map {F : PassCtx → PassCtx} (hF : ∀ c, (F c).settings = c.settings) (h : distinctIds cs) :
    distinctIds (cs.map F) := by
  simpa [distinctIds, List.pairwise_map, hF] using h

theorem ctxOf_settings {f : PassCtx → PassCtx} (hf : ∀ c, (f c).settings = c.settings) (id : Nat) (c : PassCtx) :
    (ctxOf id f c).settings = c.settings := by
  unfold ctxOf
  split_ifs
  · exact hf c
  · rfl

/-- One context changes with the queue, and the others see no change of it. -/
theorem Accounts.update (h : Accounts R cs q) (id : Nat) {f : PassCtx → PassCtx}
    (hf : ∀ c, (f c).settings = c.settings)
    (hsame : ∀ c ∈ cs, c.settings.passId = id → countsMatch q c → R c → countsMatch q' (f c) ∧ R (f c))
    (hother : ∀ c ∈ cs, c.settings.passId ≠ id → countsMatch q c → countsMatch q' c)
    (hnamed : ∀ e ∈ q', (∃ c ∈ cs, c.settings.passId = e.passId)) : Accounts R (cs.map (ctxOf id f)) q' where
  each c' hc' := by
    obtain ⟨c, hc, rfl⟩ := List.mem_map.1 hc'
    obtain ⟨hmatch, hR⟩ := h.each c hc
    by_cases hid : c.settings.passId = id
    · rw [ctxOf_same hid]
      exact hsame c hc hid hmatch hR
    · rw [ctxOf_other hid]
      exact ⟨hother c hc hid hmatch, hR⟩
  distinct := distinctIds_map (ctxOf_settings hf id) h.distinct
  named e he := by
    obtain ⟨c, hc, hid⟩ := hnamed e he
    exact ⟨_, List.mem_map_of_mem hc, by rw [ctxOf_settings hf, hid]⟩

theorem Accounts.perm (h : Accounts R cs q) (hq : q.Perm q') : Accounts R cs q' where
  each c hc := by
    obtain ⟨⟨hmain, hretry⟩, hR⟩ := h.each c hc
    exact ⟨⟨by rw [hmain, hq.countP_eq], by rw [hretry, hq.countP_eq]⟩, hR⟩
  distinct := h.distinct
  named e he := h.named e (hq.mem_iff.2 he)

theorem countsMatch_cons (e : TagEntry) (q : List TagEntry) (c : PassCtx) :
    countsMatch (e :: q) c ↔
      c.mainInFlight = q.countP (fun e => e.passId == c.settings.passId && decide (e.origin ≠ .retry)) +
        (if e.passId = c.settings.passId ∧ e.origin ≠ .retry then 1 else 0) ∧
      c.retryInFlight = q.countP (fun e => e.passId == c.settings.passId && decide (e.origin = .retry)) +
        (if e.passId = c.settings.passId ∧ e.origin = .retry then 1 else 0) := by
  simp [countsMatch, List.countP_cons]

theorem countsMatch_cons_other {e : TagEntry} {q : List TagEntry} {c : PassCtx} (h : c.settings.passId ≠ e.passId) :
    countsMatch (e :: q) c ↔ countsMatch q c := by
  rw [countsMatch_cons, if_neg fun x => h x.1.symm, if_neg fun x => h x.1.symm]
  rfl

/-- A change of one context that leaves its tags in flight. -/
theorem Accounts.keep (hR : MainBooks R) (h : Accounts R cs q) (id : Nat) {f : PassCtx → PassCtx}
    (hf : ∀ c, (f c).settings = c.settings ∧ (f c).mainInFlight = c.mainInFlight ∧
      (f c).retryInFlight = c.retryInFlight)
    (d : Nat) (hcounts : ∀ c, ((f c).counters.crossedMain < counterMax →
        (f c).counters.crossedMain = c.counters.crossedMain + d) ∧
      (mainSum c.counters < counterMax → mainSum (f c).counters = mainSum c.counters + d)) :
    Accounts R (cs.map (ctxOf id f)) q := by
  refine h.update id (fun c => (hf c).1) (fun c _ _ hm hRc => ?_) (fun _ _ _ hm => hm) h.named
  obtain ⟨hset, hmain, hretry⟩ := hf c
  refine ⟨?_, hR.step d d (hcounts c).1 (hcounts c).2 (by rw [hmain]) hRc⟩
  unfold countsMatch at *
  rwa [hset, hmain, hretry]

/-- An entry leaves the queue and its context counts it. -/
theorem Accounts.leave (hR : MainBooks R) {e : TagEntry} (h : Accounts R cs (e :: q)) {f : Counters → Counters}
    (hf : mainStep f 0 (if e.origin = .retry then 0 else 1)) :
    Accounts R (cs.map (ctxOf e.passId (missCtx e.origin f))) q := by
  refine h.update e.passId (by simp) (fun c _ hid hm hRc => ?_)
    (fun c _ hid hm => (countsMatch_cons_other hid).1 hm) (fun y hy => h.named y (by simp [hy]))
  obtain ⟨hmain, hretry⟩ := (countsMatch_cons e q c).1 hm
  obtain ⟨hcrossed, hsum⟩ := hf c.counters
  by_cases ho : e.origin = .retry
  · simp only [hid.symm, ho, ne_eq, not_true_eq_false, and_false, and_self, if_true, if_false] at hmain hretry hcrossed hsum
    rw [ho]
    exact ⟨⟨hmain, by simp [missCtx, dropInFlight, onCounters, hretry]⟩, hR.step 0 0 hcrossed hsum rfl hRc⟩
  · simp only [hid.symm, ho, ne_eq, not_false_eq_true, and_false, and_self, if_true, if_false] at hmain hretry hcrossed hsum
    have hdrop : missCtx e.origin f c = { onCounters f c with mainInFlight := c.mainInFlight - 1 } := by
      cases hoo : e.origin <;> simp_all [missCtx, dropInFlight, onCounters]
    rw [hdrop]
    refine ⟨⟨?_, hretry⟩, hR.step 0 1 hcrossed hsum ?_ hRc⟩
    · simp [hmain, onCounters]
    · simp only
      omega

/-- An entry joins the queue and its context counts it. -/
theorem Accounts.enter (hR : MainBooks R) {e : TagEntry} (h : Accounts R cs q)
    (hnamed : ∃ c ∈ cs, c.settings.passId = e.passId) {f : Counters → Counters}
    (hf : mainStep f (if e.origin = .retry then 0 else 1) 0) :
    Accounts R (cs.map (ctxOf e.passId fun c => addInFlight e.origin (onCounters f c))) (q ++ [e]) := by
  refine Accounts.perm ?_ (List.perm_append_singleton e q).symm
  refine h.update e.passId (fun c => by cases e.origin <;> rfl) (fun c _ hid hm hRc => ?_)
    (fun c _ hid hm => (countsMatch_cons_other hid).2 hm) (fun y hy => ?_)
  · obtain ⟨hmain, hretry⟩ := hm
    obtain ⟨hcrossed, hsum⟩ := hf c.counters
    rw [countsMatch_cons]
    by_cases ho : e.origin = .retry
    · simp only [ho, if_true] at hcrossed hsum
      rw [ho]
      exact ⟨by simp [addInFlight, onCounters, hmain, hretry, hid], hR.step 0 0 hcrossed hsum rfl hRc⟩
    · simp only [ho, if_false] at hcrossed hsum
      have hadd : addInFlight e.origin (onCounters f c) = { onCounters f c with mainInFlight := c.mainInFlight + 1 } := by
        cases hoo : e.origin <;> simp_all [addInFlight, onCounters]
      rw [hadd]
      exact ⟨by simp [onCounters, hmain, hretry, hid, ho], hR.step 1 0 hcrossed hsum rfl hRc⟩
  · obtain rfl | hy := List.mem_cons.1 hy
    · exact hnamed
    · exact h.named y hy

/-- Contexts without tags may go. -/
theorem Accounts.drop {cs' : List PassCtx} (h : Accounts R cs q) (hsub : cs'.Subperm cs)
    (hgone : ∀ c ∈ cs, c ∉ cs' → noTags c = true) : Accounts R cs' q := by
  obtain ⟨kept, hperm, hsub⟩ := hsub
  refine ⟨fun c hc => h.each c (hsub.subset (hperm.mem_iff.2 hc)), ?_, fun e he => ?_⟩
  · exact (hperm.pairwise_iff fun hab => Ne.symm hab).1 (h.distinct.sublist hsub)
  · obtain ⟨c, hc, hid⟩ := h.named e he
    by_cases hin : c ∈ cs'
    · exact ⟨c, hin, hid⟩
    · have hno := hgone c hc hin
      obtain ⟨⟨hmain, hretry⟩, -⟩ := h.each c hc
      simp only [noTags, Bool.and_eq_true, beq_iff_eq] at hno
      rw [hno.1, eq_comm, List.countP_eq_zero] at hmain
      rw [hno.2, eq_comm, List.countP_eq_zero] at hretry
      have h1 := hmain e he
      have h2 := hretry e he
      simp_all

/-! ### The moves -/

theorem accountsOf_of_blocks {s t : State} (hlead : t.psc.lead = s.psc.lead) (hdrain : t.psc.drain = s.psc.drain)
    (hqueue : t.prb.queue = s.prb.queue) (h : accountsOf R s) : accountsOf R t := by
  unfold accountsOf contexts at *
  rwa [hlead, hdrain, hqueue]

/-- A change of the lead's context that leaves its tags in flight. -/
theorem accountsOf_modLead (hR : MainBooks R) {s : State} {l : Lead} (hl : s.psc.lead = some l) {f : PassCtx → PassCtx}
    (hf : ∀ c, (f c).settings = c.settings ∧ (f c).mainInFlight = c.mainInFlight ∧
      (f c).retryInFlight = c.retryInFlight)
    (d : Nat) (hcounts : ∀ c, ((f c).counters.crossedMain < counterMax →
        (f c).counters.crossedMain = c.counters.crossedMain + d) ∧
      (mainSum c.counters < counterMax → mainSum (f c).counters = mainSum c.counters + d))
    (h : accountsOf R s) : accountsOf R (modLead f s) := by
  rw [accountsOf, contexts_modLead hl h.distinct]
  exact h.keep hR _ hf d hcounts

theorem modCtx_psc_congr {s t : State} (h : t.psc = s.psc) (id : Nat) (f : PassCtx → PassCtx) :
    (modCtx id f t).psc = (modCtx id f s).psc := by
  simp only [modCtx, modLead, h]
  split_ifs <;> rfl

/-- The entry at the head has left the queue and the context of its pass counts it. -/
theorem accountsOf_leave (hR : MainBooks R) {s t : State} {e : TagEntry} {rest : List TagEntry}
    (hq : s.prb.queue = e :: rest) (ht : t.psc = s.psc) (htq : t.prb.queue = rest) {f : Counters → Counters}
    (hf : mainStep f 0 (if e.origin = .retry then 0 else 1)) (h : accountsOf R s) :
    accountsOf R (modCtx e.passId (missCtx e.origin f) t) := by
  unfold accountsOf at h
  have hqueue : (modCtx e.passId (missCtx e.origin f) t).prb.queue = rest := by simpa using htq
  rw [hq] at h
  rw [accountsOf, modCtx_psc_congr ht, hqueue, contexts_modCtx h.distinct]
  exact h.leave hR hf

theorem accountsOf_missOne (hR : MainBooks R) {s : State} {e : TagEntry} {rest : List TagEntry} (cause : MissCause)
    (hq : s.prb.queue = e :: rest) (h : accountsOf R s) :
    accountsOf R (missOne e cause (s.setPrb { s.prb with queue := rest })) := by
  have hcause := countCause_keepsAccounts cause
  cases hrun : runningLeadIs e.passId (s.setPrb { s.prb with queue := rest }) with
  | false =>
    rw [missOne_late cause hrun]
    exact accountsOf_leave hR hq (by rfl) (by rfl) (keepsAccounts_comp hcause (mainStep_lateCounts _)) h
  | true =>
    cases hs : (s.setPrb { s.prb with queue := rest }).stack.any (sameKey (missOf e cause)) with
    | true =>
      rw [missOne_stands cause hrun hs]
      exact accountsOf_leave hR hq (by rfl) (by rfl) (keepsAccounts_comp hcause (mainStep_missedCounts _)) h
    | false =>
      rw [missOne_pushed cause hrun hs]
      have hpushed : ∀ full, mainStep (fun k => missedCounts e.origin (pushedCounts full k)) 0
          (if e.origin = .retry then 0 else 1) := fun full k => mainStep_missedCounts e.origin (pushedCounts full k)
      exact accountsOf_leave hR hq (by rfl) (by rfl) (keepsAccounts_comp hcause (hpushed _)) h

theorem not_mem_of_findCtx_none {p : Psc} {id : Nat} (h : findCtx id p = none) :
    ∀ c ∈ contexts p, c.settings.passId ≠ id := by
  unfold findCtx at h
  cases hid : leadIs id p with
  | true =>
    obtain ⟨l, hl, -⟩ := leadIs_iff.1 hid
    simp [hid, hl] at h
  | false =>
    simp only [hid, Bool.false_eq_true, if_false, List.find?_eq_none, beq_iff_eq] at h
    intro c hc
    obtain hc | hc := List.mem_append.1 hc
    · cases hl : p.lead with
      | none => simp [hl] at hc
      | some l =>
        obtain rfl : c = l.ctx := by simpa [hl] using hc
        intro heq
        simp [leadIs_iff.2 ⟨l, hl, heq⟩] at hid
    · exact h c hc

/-- The lead fires: a trigger is taken, and its context counts the tag. -/
theorem accountsOf_fired (hR : MainBooks R) {s : State} {l : Lead} (hl : s.psc.lead = some l) {r : TriggerRequest}
    (hr : r.passId = l.ctx.settings.passId) {f : Counters → Counters}
    (hf : mainStep f (if r.origin = .retry then 0 else 1) 0) (h : accountsOf R s) {t : State} (ht : t.psc = s.psc)
    (htq : t.prb.queue = (takeTrigger r s.now s.prb).queue) :
    accountsOf R (modLead (fun c => addInFlight r.origin (onCounters f c)) t) := by
  obtain ⟨-, -, -, -, -, start, -, -, hqueue, -⟩ := takeTrigger_rule r s.now s.prb
  have hlt : t.psc.lead = some l := by rw [ht, hl]
  have hmem : l.ctx ∈ contexts s.psc := by simp [contexts_of_lead hl]
  have hq : (modLead (fun c => addInFlight r.origin (onCounters f c)) t).prb.queue =
      s.prb.queue ++ [entryOf r s.prb.nextTag start] := by
    rw [← hqueue, ← htq]
    rfl
  rw [accountsOf, contexts_modLead hlt (by rw [ht]; exact h.distinct), hq, ht, ← hr]
  exact h.enter hR (e := entryOf r s.prb.nextTag start) ⟨_, hmem, hr.symm⟩ hf

theorem abandonedCtx_addInFlight (o : TagOrigin) (c : PassCtx) :
    abandonedCtx o (addInFlight o c) = onCounters (fun k =>
      { k with
        abandoned := if o = .retry then k.abandoned else satInc k.abandoned
        retryLost := if o = .retry then satInc k.retryLost else k.retryLost }) c := by
  cases o <;> simp [abandonedCtx, addInFlight, dropInFlight, countAbandoned, onCounters]

theorem accountsOf_crossMain (hR : MainBooks R) {s : State} {l l' : Lead} (u : Int) (o : Bool) (pt : CrossedPoint)
    (hl : s.psc.lead = some l') (hset : l'.ctx.settings = l.ctx.settings) (h : accountsOf R s) :
    accountsOf R (crossMain l u o s pt) := by
  have crossed : ∀ {x : Crossing}, x ≠ .fired → accountsOf R (modLead (onCounters (countCrossing x)) s) := fun {x} hx =>
    accountsOf_modLead hR hl (fun _ => ⟨rfl, rfl, rfl⟩) 1 (fun c => mainStep_countCrossing hx c.counters) h
  have hne : ∀ {x : Crossing}, x = .held ∨ x = .busy → x ≠ .fired := fun {x} hx => by rcases hx with rfl | rfl <;> simp
  have hcrossed := crossMain_crossed hl hset u o pt
  generalize crossMain l u o s pt = t at hcrossed ⊢
  cases hcrossed with
  | blanked => exact crossed (by simp)
  | stands cause ho hs => exact crossed (hne ho)
  | @pushed x cause ho hs =>
    exact accountsOf_modLead hR (s := s.setStack _) hl (fun _ => ⟨rfl, rfl, rfl⟩) 1
      (fun c => mainStep_countCrossing (hne ho) c.counters) h
  | fired hr ho hfree hready =>
    exact accountsOf_fired hR hl (hr.1.trans (by rw [hset])) (by rw [if_neg ho]; exact mainStep_fired) h rfl rfl
  | @lost r hr ho hfault =>
    simp only [abandonedCtx_addInFlight, if_neg ho]
    refine accountsOf_modLead hR (s := s.setPrb (lostPrb s.now s.prb)) hl (fun _ => ⟨rfl, rfl, rfl⟩) 1
      (fun c => ⟨fun hlt => mainStep_fired c.counters |>.1 hlt, fun hsum => ?_⟩) h
    have := satInc_lt (n := c.counters.abandoned) (by unfold mainSum at hsum; omega)
    simp only [onCounters, countCrossing, mainSum, this]
    omega

theorem accountsOf_crossRetry (hR : MainBooks R) {s : State} {l l' : Lead} (u : Int) (pt : CrossedPoint)
    (hl : s.psc.lead = some l') (hset : l'.ctx.settings = l.ctx.settings) (h : accountsOf R s) :
    accountsOf R (crossRetry l u s pt) := by
  have hcrossed := crossRetry_crossed hl hset u pt
  generalize crossRetry l u s pt = t at hcrossed ⊢
  cases hcrossed with
  | passed => exact h
  | @fired r m hm hr ho hfree hready =>
    rw [← ho]
    exact accountsOf_fired hR hl (hr.1.trans (by rw [hset])) (by rw [if_pos ho]; exact fun _ => ⟨fun _ => rfl, fun _ => rfl⟩)
      h rfl rfl
  | lost hm hr ho hfault =>
    simp only [abandonedCtx_addInFlight, if_true]
    have hlost : accountsOf R ((s.setStack (s.stack.eraseP (namesPoint pt.blade pt.index pt.j))).setPrb
      (lostPrb s.now s.prb)) := h
    exact accountsOf_modLead hR (by exact hl) (fun _ => ⟨rfl, rfl, rfl⟩) 0 (fun _ => ⟨fun _ => rfl, fun _ => rfl⟩) hlost

theorem accountsOf_runs (hR : MainBooks R) {s : State} {l l' : Lead} (hl : s.psc.lead = some l) (hruns : runsOn l l')
    (h : accountsOf R s) : accountsOf R (s.setPsc { s.psc with lead := some l' }) := by
  let f : PassCtx → PassCtx := fun c => { c with
    uStart := l'.ctx.uStart, highWater := l'.ctx.highWater, turn := l'.ctx.turn, turnsUsed := l'.ctx.turnsUsed
    largestSnap := l'.ctx.largestSnap }
  have hctx : (contexts (modLead f s).psc) = contexts (s.setPsc { s.psc with lead := some l' }).psc := by
    rw [modLead_of_lead hl, contexts_of_lead rfl, contexts_of_lead rfl, hruns.2]
    rfl
  have hmod := accountsOf_modLead hR hl (f := f) (fun _ => ⟨rfl, rfl, rfl⟩) 0 (fun _ => ⟨fun _ => rfl, fun _ => rfl⟩) h
  rw [accountsOf, hctx] at hmod
  exact hmod

/-! ### Abandoned tags and ended passes -/

/-- The abandoning of a tag is a leaving of the queue. -/
theorem abandonedCtx_eq (o : TagOrigin) : abandonedCtx o = missCtx o fun k =>
    { k with
      abandoned := if o = .retry then k.abandoned else satInc k.abandoned
      retryLost := if o = .retry then satInc k.retryLost else k.retryLost } := by
  funext c
  cases o <;> rfl

theorem mainStep_abandoned (o : TagOrigin) : mainStep (fun k : Counters =>
    { k with
      abandoned := if o = .retry then k.abandoned else satInc k.abandoned
      retryLost := if o = .retry then satInc k.retryLost else k.retryLost }) 0 (if o = .retry then 0 else 1) := fun k => by
  refine ⟨fun _ => rfl, fun hsum => ?_⟩
  by_cases ho : o = .retry
  · simp [mainSum, ho]
  · have := satInc_lt (n := k.abandoned) (by unfold mainSum at hsum; omega)
    simp only [mainSum, ho, if_false, this]
    omega

theorem accounts_abandonOnes (hR : MainBooks R) {gone kept : List TagEntry} {s : State}
    (h : Accounts R (contexts s.psc) (gone ++ kept)) : Accounts R (contexts (gone.foldl abandonOne s).psc) kept := by
  induction gone generalizing s with
  | nil => exact h
  | cons e gone ih =>
    refine ih ?_
    have hone : abandonOne s e = modCtx e.passId (abandonedCtx e.origin) s := rfl
    rw [hone, contexts_modCtx h.distinct, abandonedCtx_eq]
    exact h.leave hR (mainStep_abandoned _)

theorem accountsOf_abandon (hR : MainBooks R) (which : TagEntry → Bool) {s : State} (h : accountsOf R s) :
    accountsOf R (abandon which s) := by
  unfold accountsOf abandon
  dsimp only
  have hkept : ((s.prb.queue.filter which).foldl abandonOne (s.setPrb (dropWaiting (s.prb.queue.filter which)
      { s.prb with queue := s.prb.queue.filter fun e => !which e }))).prb.queue =
      s.prb.queue.filter fun e => !which e := by
    obtain ⟨waiting, hw⟩ := dropWaiting_frame (s.prb.queue.filter which)
      { s.prb with queue := s.prb.queue.filter fun e => !which e }
    have frame : ∀ (gone : List TagEntry) u, (gone.foldl abandonOne u).prb = u.prb := fun gone => by
      induction gone with
      | nil => exact fun _ => rfl
      | cons e gone ih => exact fun u => (ih _).trans (by simp [abandonOne])
    rw [frame, State.setPrb_prb, hw]
  rw [hkept]
  refine accounts_abandonOnes hR (h.perm ?_)
  exact (List.filter_append_perm which s.prb.queue).symm

/-- Without tags in flight, a context's in-flight counts are 0. -/
theorem Accounts.noTags_of_absent (h : Accounts R cs q) {c : PassCtx} (hc : c ∈ cs)
    (habsent : ∀ e ∈ q, e.passId ≠ c.settings.passId) : c.mainInFlight = 0 ∧ c.retryInFlight = 0 := by
  obtain ⟨⟨hmain, hretry⟩, -⟩ := h.each c hc
  rw [hmain, hretry, List.countP_eq_zero, List.countP_eq_zero]
  exact ⟨fun e he => by simp [habsent e he], fun e he => by simp [habsent e he]⟩

/-- The ended context, the tags of an abandoned pass having left the queue. -/
theorem accounts_ended (hR : MainBooks R) {s : State} {l : Lead} (st : EndStatus) (hl : s.psc.lead = some l)
    (h : accountsOf R s) : Accounts R (endedCtx st l s :: s.psc.drain) (leftQueue st l s.prb.queue) := by
  let named : Lead := { l with ctx := { l.ctx with endStatus := some st } }
  let gone := s.prb.queue.filter fun e => e.passId == l.ctx.settings.passId
  let s₁ := s.setPsc { s.psc with lead := some named }
  -- a change of the head context that leaves its tags in flight
  have keep : ∀ {c q} (f : PassCtx → PassCtx), (∀ c, (f c).settings = c.settings ∧ (f c).mainInFlight = c.mainInFlight ∧
      (f c).retryInFlight = c.retryInFlight ∧ (f c).counters.crossedMain = c.counters.crossedMain ∧
      mainSum (f c).counters = mainSum c.counters) → Accounts R (c :: s.psc.drain) q →
      Accounts R (f c :: s.psc.drain) q := fun {c q} f hf hacc => by
    have hkeep := hacc.keep hR c.settings.passId (f := f) (fun c => ⟨(hf c).1, (hf c).2.1, (hf c).2.2.1⟩) 0
      (fun c => ⟨fun _ => (hf c).2.2.2.1, fun _ => (hf c).2.2.2.2⟩)
    rwa [List.map_cons, ctxOf_same rfl, map_ctxOf_other fun d hd =>
      ((List.pairwise_cons.1 hacc.distinct).1 d hd).symm] at hkeep
  have hnamed : Accounts R (named.ctx :: s.psc.drain) s.prb.queue := by
    rw [accountsOf, contexts_of_lead hl] at h
    exact keep (fun c => { c with endStatus := some st }) (fun _ => ⟨rfl, rfl, rfl, rfl, rfl⟩) h
  refine keep (onCounters fun k => { k with unresolved := satAdd k.unresolved s.stack.length })
    (fun _ => ⟨rfl, rfl, rfl, rfl, rfl⟩) ?_
  by_cases ha : abandons st = true
  · have hgone : Accounts R (withdrawnCtx gone named.ctx :: s.psc.drain) (leftQueue st l s.prb.queue) := by
      have hab := accounts_abandonOnes hR (s := s₁) (gone := gone) (kept := leftQueue st l s.prb.queue)
        (hnamed.perm (by
          rw [leftQueue, if_pos ha]
          exact (List.filter_append_perm _ s.prb.queue).symm))
      rwa [foldl_abandonOne_lead (l := named) rfl (by simp [gone, named]), contexts_of_lead rfl] at hab
    have hzero := hgone.noTags_of_absent (List.mem_cons_self ..) (by simp [leftQueue, ha, named])
    have hsame : ({ withdrawnCtx gone named.ctx with mainInFlight := 0, retryInFlight := 0 } : PassCtx) =
        withdrawnCtx gone named.ctx := by
      obtain ⟨hmain, hretry⟩ := hzero
      generalize withdrawnCtx gone named.ctx = c at hmain hretry
      cases c
      simp_all
    rw [if_pos ha, hsame]
    exact hgone
  · rw [if_neg ha, leftQueue, if_neg ha]
    exact hnamed

theorem accountsOf_retired (hR : MainBooks R) {s : State} {l : Lead} (st : EndStatus) (hl : s.psc.lead = some l)
    (h : accountsOf R s) : accountsOf R (retirePass st l s) := by
  have r := retirePass_retired st hl
  rw [accountsOf, contexts_of_none r.lead, r.drain, r.queue]
  refine (accounts_ended hR st hl h).drop (List.perm_append_singleton _ _).subperm fun c hc hnot => ?_
  exact absurd ((List.perm_append_singleton _ _).mem_iff.2 hc) hnot

theorem accountsOf_flushed {s : State} (h : accountsOf R s) : accountsOf R (flushDrain s) := by
  have hcontexts : contexts (flushDrain s).psc = (s.psc.lead.map Lead.ctx).toList ++ s.psc.drain.dropWhile noTags := by
    simp [flushDrain_psc, contexts]
  have hqueue : (flushDrain s).prb.queue = s.prb.queue := by simp
  rw [accountsOf, hcontexts, hqueue]
  refine Accounts.drop h ?_ fun c hc hnot => ?_
  · exact ((List.append_sublist_append_left _).2 (List.dropWhile_sublist _)).subperm
  · obtain hc | hc := List.mem_append.1 hc
    · exact absurd (List.mem_append_left _ hc) hnot
    · rw [← List.takeWhile_append_dropWhile (p := noTags) (l := s.psc.drain)] at hc
      obtain hc | hc := List.mem_append.1 hc
      · exact List.mem_takeWhile_imp hc
      · exact absurd (List.mem_append_right _ hc) hnot

theorem accountsOf_armed (hR : MainBooks R) {s : State} {settings : PassSettings} (hl : s.psc.lead = none)
    (hid : ∀ c ∈ s.psc.drain, c.settings.passId ≠ settings.passId) (h : accountsOf R s) :
    accountsOf R (armLead settings s) := by
  have hcontexts : contexts (armLead settings s).psc = freshCtx settings :: s.psc.drain := by
    rw [contexts_of_lead (l := { phase := .armed, ctx := freshCtx settings }) rfl]
    rfl
  have hqueue : (armLead settings s).prb.queue = s.prb.queue := rfl
  rw [accountsOf, contexts_of_none hl] at h
  have habsent : ∀ e ∈ s.prb.queue, e.passId ≠ settings.passId := fun e he heq => by
    obtain ⟨c, hc, hce⟩ := h.named e he
    exact hid c hc (hce.trans heq)
  rw [accountsOf, hcontexts, hqueue]
  refine ⟨fun c hc => ?_, List.pairwise_cons.2 ⟨fun d hd => (hid d hd).symm, h.distinct⟩, fun e he => ?_⟩
  · obtain rfl | hc := List.mem_cons.1 hc
    · refine ⟨⟨?_, ?_⟩, hR.fresh settings⟩
      · rw [eq_comm, List.countP_eq_zero.2]
        · rfl
        · exact fun e he => by simp [freshCtx, habsent e he]
      · rw [eq_comm, List.countP_eq_zero.2]
        · rfl
        · exact fun e he => by simp [freshCtx, habsent e he]
    · exact h.each c hc
  · obtain ⟨c, hc, hce⟩ := h.named e he
    exact ⟨c, List.mem_cons_of_mem _ hc, hce⟩

/-- Every move of the passes keeps the accounts. -/
theorem accountsOf_kept (hR : MainBooks R) : PassKept (accountsOf R) where
  still hs h := accountsOf_of_blocks hs.lead hs.drain hs.queue h
  noted {s f} id hf h := by
    have hqueue : (modCtx id (onCounters f) s).prb.queue = s.prb.queue := by simp
    rw [accountsOf, contexts_modCtx h.distinct, hqueue]
    exact h.keep hR id (fun _ => ⟨rfl, rfl, rfl⟩) 0 (fun c => mainStep_keepsAccounts hf c.counters)
  missed cause hq h := accountsOf_missOne hR cause hq h
  emitted p hq _ h := accountsOf_leave hR hq (by rfl) (by rfl) (mainStep_countEmitted _ p) h
  dropped {s e rest} hq hnone h := by
    obtain ⟨c, hc, hid⟩ := h.named e (by simp [hq])
    exact absurd hid (not_mem_of_findCtx_none hnone c hc)
  main u o pt hl hset _ h := accountsOf_crossMain hR u o pt hl hset h
  retry u pt hl hset _ h := accountsOf_crossRetry hR u pt hl hset h
  runs hl hruns h := accountsOf_runs hR hl hruns h
  retired st hl h := accountsOf_retired hR st hl h
  faulted h := accountsOf_abandon hR _ (accountsOf_of_blocks rfl rfl rfl h)
  flushed h := accountsOf_flushed h
  armed hl _ hid _ h := accountsOf_armed hR hl hid h
  reset causes h := ⟨by simp [resetPart, Psc.reset, contexts], by simp [resetPart, Psc.reset, contexts, distinctIds],
    by simp [resetPart, Prb.reset]⟩

/-- Settles O48: the accounts of every context are kept by every move of the passes. A point that is crossed adds to
crossed_main and either to the count of its outcome or to the tags in flight, and a tag that leaves the queue adds to one
count of the sum. -/
theorem mainAccountingKept : Obligations.MainAccountingKept := by
  unfold Obligations.MainAccountingKept
  intro s t hs hok hbal
  have kept := (accountsOf_kept mainBooks_mainBalanced).step hs (accounts_of_inFlightOk hok hbal)
  exact ⟨inFlightOk_of_accounts kept, fun c hc => (kept.each c hc).2⟩

end Sys2Proof.Machine
end

