-- ==== Sys2Proof/Proofs/StackAccounting.lean ====
section
/-! PROOFS. Proofs/StackAccounting.lean: the Miss Stack's bounds and the accounting of its pushes (sections 8.2, 8.5, 8.6). -/

namespace Sys2Proof.Machine

open Sys2Proof

/-! ### The stack of a lead -/

/-- A change of a context that leaves the counters of the stack's accounting as they are. -/
def stackSame (f : PassCtx → PassCtx) : Prop :=
  ∀ c, (f c).counters.pushes = c.counters.pushes ∧ (f c).counters.takes = c.counters.takes ∧
    (f c).counters.overflowLost = c.counters.overflowLost ∧ (f c).counters.unresolved = c.counters.unresolved

/-- The stack's accounts for the lead `lead` and the draining contexts `drain` (R146, R149, R154, R157). -/
structure StackKept (lead : Option Lead) (drain : List PassCtx) (stack : List MissEntry) : Prop where
  bound : stack.length ≤ stackSize
  keys : stack.Pairwise fun a b => sameKey a b = false
  owned : (∀ l, lead = some l → leadRunning l = false) → stack = []
  leadBalanced : ∀ l, lead = some l → stackBalanced l.ctx.counters stack.length ∧ l.ctx.counters.unresolved = 0
  drainBalanced : ∀ c ∈ drain, stackBalanced c.counters c.counters.unresolved

def stackKept (s : State) : Prop := StackKept s.psc.lead s.psc.drain s.stack

theorem leadEligible_iff {p : Psc} : leadEligible p = true ↔ ∀ l, p.lead = some l → leadRunning l = false := by
  unfold leadEligible leadRunning
  cases p.lead with
  | none => simp
  | some l => simp

theorem stackKept_iff (s : State) : stackKept s ↔ stackOk s ∧ stackOwned s ∧ stackAccounted s := by
  constructor
  · rintro ⟨hbound, hkeys, howned, hlead, hdrain⟩
    exact ⟨⟨hbound, hkeys⟩, fun h => howned (leadEligible_iff.1 h), hlead, hdrain⟩
  · rintro ⟨⟨hbound, hkeys⟩, howned, hlead, hdrain⟩
    exact ⟨hbound, hkeys, fun h => howned (leadEligible_iff.2 h), hlead, hdrain⟩

theorem stackBalanced_congr {k k' : Counters} (hpushes : k'.pushes = k.pushes) (htakes : k'.takes = k.takes)
    (hlost : k'.overflowLost = k.overflowLost) (n : Nat) : stackBalanced k' n ↔ stackBalanced k n := by
  rw [stackBalanced, stackBalanced, hpushes, htakes, hlost]

variable {lead : Option Lead} {drain : List PassCtx} {stack : List MissEntry}

/-- The contexts change where the accounts do not look, and the lead runs if it ran. -/
theorem StackKept.congr (h : StackKept lead drain stack) {lead' : Option Lead} {drain' : List PassCtx}
    (hlead : ∀ l', lead' = some l' → ∃ l f, lead = some l ∧ l'.ctx = f l.ctx ∧ stackSame f)
    (hruns : ∀ l, lead = some l → leadRunning l = true → ∃ l', lead' = some l' ∧ leadRunning l' = true)
    (hdrain : ∀ c' ∈ drain', ∃ c ∈ drain, ∃ f, c' = f c ∧ stackSame f) : StackKept lead' drain' stack where
  bound := h.bound
  keys := h.keys
  owned hno := h.owned fun l hl => by
    by_contra hrun
    obtain ⟨l', hl', hrun'⟩ := hruns l hl (by simpa using hrun)
    simp [hno l' hl'] at hrun'
  leadBalanced l' hl' := by
    obtain ⟨l, f, hl, hctx, hf⟩ := hlead l' hl'
    obtain ⟨hbal, hun⟩ := h.leadBalanced l hl
    obtain ⟨hpushes, htakes, hlost, hunres⟩ := hf l.ctx
    rw [hctx, stackBalanced_congr hpushes htakes hlost, hunres]
    exact ⟨hbal, hun⟩
  drainBalanced c' hc' := by
    obtain ⟨c, hc, f, rfl, hf⟩ := hdrain c' hc'
    obtain ⟨hpushes, htakes, hlost, hunres⟩ := hf c
    rw [stackBalanced_congr hpushes htakes hlost, hunres]
    exact h.drainBalanced c hc

theorem stackSame_id : stackSame id := fun _ => ⟨rfl, rfl, rfl, rfl⟩

theorem stackKept_of_blocks {s t : State} (hlead : t.psc.lead = s.psc.lead) (hdrain : t.psc.drain = s.psc.drain)
    (hstack : t.stack = s.stack) (h : stackKept s) : stackKept t := by
  unfold stackKept at *
  rwa [hlead, hdrain, hstack]

theorem stackKept_modCtx {f : PassCtx → PassCtx} (hf : stackSame f) (pass : Nat) {s : State} (h : stackKept s) :
    stackKept (modCtx pass f s) := by
  have hstack : (modCtx pass f s).stack = s.stack := by simp
  rw [stackKept, hstack]
  obtain ⟨-, hmod⟩ | ⟨-, hlead, -, hdrain⟩ := modCtx_cases pass f s
  · rw [hmod, (modLead_psc f s).1, (modLead_psc f s).2.1]
    refine h.congr (fun l' hl' => ?_) (fun l hl hrun => ?_) fun c hc => ⟨c, hc, id, rfl, stackSame_id⟩
    · obtain ⟨l, hl, rfl⟩ := Option.map_eq_some_iff.1 hl'
      exact ⟨l, f, hl, rfl, hf⟩
    · exact ⟨{ l with ctx := f l.ctx }, by rw [hl]; rfl, hrun⟩
  · rw [hlead, hdrain]
    refine h.congr (fun l hl => ⟨l, id, hl, rfl, stackSame_id⟩) (fun l hl hrun => ⟨l, hl, hrun⟩) fun c' hc' => ?_
    obtain ⟨c, hc, rfl⟩ := List.mem_map.1 hc'
    by_cases hid : c.settings.passId = pass
    · exact ⟨c, hc, f, by simp [hid], hf⟩
    · exact ⟨c, hc, _, by simp [hid], stackSame_id⟩

theorem stackKept_modLead {f : PassCtx → PassCtx} (hf : stackSame f) {s : State} {l : Lead} (hl : s.psc.lead = some l)
    (h : stackKept s) : stackKept (modLead f s) := by
  rw [modLead_eq (leadIs_of_lead hl)]
  exact stackKept_modCtx hf _ h

/-! ### Pushes and takes -/

theorem length_pushed (m : MissEntry) {s : State} (hbound : s.stack.length ≤ stackSize) :
    (pushed m s).length = if stackFull s then s.stack.length else s.stack.length + 1 := by
  unfold pushed stackFull
  by_cases hfull : stackSize ≤ s.stack.length
  · simp only [hfull, decide_true, if_true, List.length_cons, List.length_dropLast]
    unfold stackSize at *
    omega
  · simp [hfull]

theorem pairwise_pushed {m : MissEntry} {s : State} (hkeys : s.stack.Pairwise fun a b => sameKey a b = false)
    (hm : s.stack.any (sameKey m) = false) : (pushed m s).Pairwise fun a b => sameKey a b = false := by
  have hall : ∀ b ∈ s.stack, sameKey m b = false := by simpa using hm
  unfold pushed
  split_ifs
  · exact List.pairwise_cons.2 ⟨fun b hb => hall b (List.dropLast_subset _ hb), hkeys.sublist (List.dropLast_sublist _)⟩
  · exact List.pairwise_cons.2 ⟨hall, hkeys⟩

/-- A context change that counts a push (R147, R148). -/
def pushSame (full : Bool) (f : PassCtx → PassCtx) : Prop :=
  ∀ c, (f c).counters.pushes = satInc c.counters.pushes ∧ (f c).counters.takes = c.counters.takes ∧
    (f c).counters.overflowLost = (if full then satInc c.counters.overflowLost else c.counters.overflowLost) ∧
    (f c).counters.unresolved = c.counters.unresolved

/-- A miss of a running lead is pushed and counted. -/
theorem stackKept_pushed {m : MissEntry} {s : State} {l : Lead} {f : PassCtx → PassCtx} (hl : s.psc.lead = some l)
    (hrun : leadRunning l = true) (hm : s.stack.any (sameKey m) = false) (hf : pushSame (stackFull s) f)
    (h : stackKept s) : stackKept (modLead f (s.setStack (pushed m s))) := by
  rw [modLead_of_lead (s := s.setStack (pushed m s)) hl]
  have hlen := length_pushed m h.bound
  have hstackSize : stackFull s = true ↔ stackSize ≤ s.stack.length := by simp [stackFull]
  refine ⟨?_, pairwise_pushed h.keys hm, fun hno => ?_, fun l' hl' => ?_, h.drainBalanced⟩
  · have := h.bound
    change (pushed m s).length ≤ stackSize
    rw [hlen]
    split_ifs with hfull
    · exact this
    · rw [hstackSize] at hfull
      omega
  · have hstopped : leadRunning l = false := hno { l with ctx := f l.ctx } rfl
    simp [hstopped] at hrun
  · obtain rfl : { l with ctx := f l.ctx } = l' := by simpa using hl'
    obtain ⟨hbal, hun⟩ := h.leadBalanced l hl
    obtain ⟨hpushes, htakes, hlost, hunres⟩ := hf l.ctx
    refine ⟨?_, hunres.trans hun⟩
    change stackBalanced _ (pushed m s).length
    unfold stackBalanced at *
    rw [hpushes, htakes, hlost, hlen]
    intro hlt
    have hinc := of_satInc_lt hlt
    have hold := hbal (by omega)
    split_ifs with hfull
    · have := satInc_lt (n := l.ctx.counters.overflowLost) (by omega)
      omega
    · omega

/-- A context change that counts a take (R150). -/
def takeSame (f : PassCtx → PassCtx) : Prop :=
  ∀ c, (f c).counters.pushes = c.counters.pushes ∧ (f c).counters.takes = satInc c.counters.takes ∧
    (f c).counters.overflowLost = c.counters.overflowLost ∧ (f c).counters.unresolved = c.counters.unresolved

/-- An entry is taken from the stack of a running lead and counted. -/
theorem stackKept_taken {p : MissEntry → Bool} {s t : State} {l : Lead} {f : PassCtx → PassCtx} {m : MissEntry}
    (hl : s.psc.lead = some l) (hrun : leadRunning l = true) (hm : s.stack.find? p = some m) (hf : takeSame f)
    (ht : t.psc = s.psc) (hstack : t.stack = s.stack.eraseP p) (h : stackKept s) : stackKept (modLead f t) := by
  have hlen : (s.stack.eraseP p).length + 1 = s.stack.length := by
    have := List.length_eraseP_of_mem (List.mem_of_find?_eq_some hm) (List.find?_some hm)
    have := List.length_pos_of_mem (List.mem_of_find?_eq_some hm)
    omega
  have hstack' : (modLead f t).stack = s.stack.eraseP p := by simpa using hstack
  rw [stackKept, hstack', (modLead_psc f t).1, (modLead_psc f t).2.1, ht, hl]
  refine ⟨?_, h.keys.sublist List.eraseP_sublist, fun hno => ?_, fun l' hl' => ?_, h.drainBalanced⟩
  · have := h.bound
    omega
  · have hstopped : leadRunning l = false := hno { l with ctx := f l.ctx } rfl
    simp [hstopped] at hrun
  · obtain rfl : { l with ctx := f l.ctx } = l' := by simpa using hl'
    obtain ⟨hbal, hun⟩ := h.leadBalanced l hl
    obtain ⟨hpushes, htakes, hlost, hunres⟩ := hf l.ctx
    refine ⟨?_, hunres.trans hun⟩
    unfold stackBalanced at *
    rw [hpushes, htakes, hlost]
    intro hlt
    have hold := hbal hlt
    have := satInc_lt (n := l.ctx.counters.takes) (by omega)
    omega

/-! ### The moves -/

theorem stackSame_onCounters {f : Counters → Counters} (hf : ∀ k, (f k).pushes = k.pushes ∧ (f k).takes = k.takes ∧
    (f k).overflowLost = k.overflowLost ∧ (f k).unresolved = k.unresolved) : stackSame (onCounters f) := fun _ => hf _

theorem missCtx_counters (o : TagOrigin) (f : Counters → Counters) (c : PassCtx) :
    (missCtx o f c).counters = f c.counters := by
  cases o <;> rfl

theorem stackSame_missCtx {f : Counters → Counters} (o : TagOrigin) (hf : stackSame (onCounters f)) :
    stackSame (missCtx o f) := fun c => by
  rw [missCtx_counters]
  exact hf c

theorem stackSame_abandonedCtx (o : TagOrigin) : stackSame (abandonedCtx o) := fun c => by
  cases o <;> exact ⟨rfl, rfl, rfl, rfl⟩

theorem stackSame_addInFlight {f : PassCtx → PassCtx} (o : TagOrigin) (hf : stackSame f) :
    stackSame fun c => addInFlight o (f c) := fun c => by
  have := hf c
  cases o <;> exact this

theorem keepsAccounts_counters {f : Counters → Counters} (hf : keepsAccounts f) (k : Counters) :
    (f k).pushes = k.pushes ∧ (f k).takes = k.takes ∧ (f k).overflowLost = k.overflowLost ∧
      (f k).unresolved = k.unresolved := by
  rw [hf k]
  exact ⟨rfl, rfl, rfl, rfl⟩

theorem countCrossing_stack (o : Crossing) (k : Counters) :
    (countCrossing o k).pushes = k.pushes ∧ (countCrossing o k).takes = k.takes ∧
      (countCrossing o k).overflowLost = k.overflowLost ∧ (countCrossing o k).unresolved = k.unresolved := by
  cases o <;> exact ⟨rfl, rfl, rfl, rfl⟩

theorem withdrawnCtx_stack (gone : List TagEntry) (c : PassCtx) :
    (withdrawnCtx gone c).counters.pushes = c.counters.pushes ∧
      (withdrawnCtx gone c).counters.takes = c.counters.takes ∧
      (withdrawnCtx gone c).counters.overflowLost = c.counters.overflowLost ∧
      (withdrawnCtx gone c).counters.unresolved = c.counters.unresolved := by
  induction gone generalizing c with
  | nil => exact ⟨rfl, rfl, rfl, rfl⟩
  | cons e gone ih =>
    obtain ⟨hpushes, htakes, hlost, hun⟩ := ih (abandonedCtx e.origin c)
    obtain ⟨hpushes', htakes', hlost', hun'⟩ := stackSame_abandonedCtx e.origin c
    exact ⟨hpushes.trans hpushes', htakes.trans htakes', hlost.trans hlost', hun.trans hun'⟩

theorem stackKept_missOne {e : TagEntry} (cause : MissCause) {s : State} (h : stackKept s) :
    stackKept (missOne e cause s) := by
  have hcause := keepsAccounts_counters (countCause_keepsAccounts cause)
  have same : ∀ {f : Counters → Counters}, stackSame (onCounters f) →
      stackSame (missCtx e.origin fun k => countCause cause (f k)) := fun {f} hf =>
    stackSame_missCtx _ fun c => by
      obtain ⟨h1, h2, h3, h4⟩ := hcause (f c.counters)
      obtain ⟨g1, g2, g3, g4⟩ := hf c
      exact ⟨h1.trans g1, h2.trans g2, h3.trans g3, h4.trans g4⟩
  cases hrun : runningLeadIs e.passId s with
  | false =>
    rw [missOne_late cause hrun]
    exact stackKept_modCtx (same fun _ => ⟨rfl, rfl, rfl, rfl⟩) _ h
  | true =>
    cases hs : s.stack.any (sameKey (missOf e cause)) with
    | true =>
      rw [missOne_stands cause hrun hs]
      exact stackKept_modCtx (same fun _ => ⟨rfl, rfl, rfl, rfl⟩) _ h
    | false =>
      rw [missOne_pushed cause hrun hs, ← modLead_eq (id := e.passId) (by exact leadIs_of_running hrun)]
      obtain ⟨l, hl, hruns⟩ : ∃ l, s.psc.lead = some l ∧ leadRunning l = true := by
        unfold runningLeadIs at hrun
        cases hl : s.psc.lead with
        | none => simp [hl] at hrun
        | some l =>
          simp only [hl, Bool.and_eq_true] at hrun
          exact ⟨l, rfl, hrun.1⟩
      refine stackKept_pushed hl hruns hs (fun c => ?_) h
      rw [missCtx_counters]
      exact hcause (missedCounts e.origin (pushedCounts (stackFull s) c.counters))

theorem stackKept_crossMain {s : State} {l l' : Lead} (u : Int) (o : Bool) (pt : CrossedPoint)
    (hl : s.psc.lead = some l') (hset : l'.ctx.settings = l.ctx.settings) (hrun : leadRunning l' = true)
    (h : stackKept s) : stackKept (crossMain l u o s pt) := by
  have hcrossed := crossMain_crossed hl hset u o pt
  generalize crossMain l u o s pt = t at hcrossed ⊢
  have counted : ∀ x, stackSame (onCounters (countCrossing x)) := fun x => stackSame_onCounters (countCrossing_stack x)
  cases hcrossed with
  | blanked => exact stackKept_modLead (counted _) hl h
  | stands cause ho hs => exact stackKept_modLead (counted _) hl h
  | @pushed x cause ho hs =>
    refine stackKept_pushed hl hrun hs (fun c => ?_) h
    obtain ⟨h1, h2, h3, h4⟩ := countCrossing_stack x c.counters
    simp [onCounters, pushedCounts, h1, h2, h3, h4]
  | fired hr ho hfree hready =>
    exact stackKept_modLead (stackSame_addInFlight _ (counted _)) (by exact hl) (stackKept_of_blocks rfl rfl rfl h)
  | @lost r hr ho hfault =>
    have hlost : stackKept (s.setPrb (lostPrb s.now s.prb)) := h
    simp only [abandonedCtx_addInFlight]
    refine stackKept_modLead (fun _ => ?_) (by exact hl) hlost
    exact ⟨rfl, rfl, rfl, rfl⟩

theorem stackKept_crossRetry {s : State} {l l' : Lead} (u : Int) (pt : CrossedPoint)
    (hl : s.psc.lead = some l') (hset : l'.ctx.settings = l.ctx.settings) (hrun : leadRunning l' = true)
    (h : stackKept s) : stackKept (crossRetry l u s pt) := by
  have hcrossed := crossRetry_crossed hl hset u pt
  generalize crossRetry l u s pt = t at hcrossed ⊢
  cases hcrossed with
  | passed => exact h
  | fired hm hr ho hfree hready => exact stackKept_taken hl hrun hm (fun _ => ⟨rfl, rfl, rfl, rfl⟩) (by rfl) (by rfl) h
  | lost hm hr ho hfault =>
    simp only [abandonedCtx_addInFlight]
    exact stackKept_taken hl hrun hm (fun _ => ⟨rfl, rfl, rfl, rfl⟩) (by rfl) (by rfl) h

/-- The counters of an ended context: unresolved takes in the stack, after the count of the abandoned tags. -/
theorem endedCtx_counters (st : EndStatus) (l : Lead) (s : State) : ∃ k,
    (endedCtx st l s).counters = { k with unresolved := satAdd k.unresolved s.stack.length } ∧
    (k = l.ctx.counters ∨ k = (withdrawnCtx (s.prb.queue.filter fun e => e.passId == l.ctx.settings.passId)
      { l.ctx with endStatus := some st }).counters) := by
  unfold endedCtx
  by_cases ha : abandons st = true
  · exact ⟨_, by simp [ha, onCounters], .inr rfl⟩
  · exact ⟨_, by simp [ha, onCounters], .inl rfl⟩

/-- The entries left on the stack of an ended pass are those that it counts as unresolved (R154). -/
theorem stackKept_retired {s : State} {l : Lead} (st : EndStatus) (hl : s.psc.lead = some l) (h : stackKept s) :
    stackKept (retirePass st l s) := by
  have r := retirePass_retired st hl
  rw [stackKept, r.lead, r.drain, r.stack]
  refine ⟨by simp, List.Pairwise.nil, fun _ => rfl, by simp, fun c hc => ?_⟩
  obtain hc | hc := List.mem_append.1 hc
  · exact h.drainBalanced c hc
  obtain rfl := List.mem_singleton.1 hc
  obtain ⟨hbal, hun⟩ := h.leadBalanced l hl
  obtain ⟨hpushes, htakes, hlost, hunres⟩ := withdrawnCtx_stack
    (s.prb.queue.filter fun e => e.passId == l.ctx.settings.passId) { l.ctx with endStatus := some st }
  have hlen : satAdd 0 s.stack.length = s.stack.length := by
    have := h.bound
    unfold satAdd stackSize counterMax at *
    omega
  obtain ⟨k, hk, hsame⟩ := endedCtx_counters st l s
  rw [hk]
  obtain rfl | rfl := hsame
  · rw [stackBalanced_congr rfl rfl rfl, hun, hlen]
    exact hbal
  · refine (stackBalanced_congr (k := l.ctx.counters) hpushes htakes hlost _).2 ?_
    dsimp only
    rw [hunres, hun, hlen]
    exact hbal

theorem stackKept_abandonOnes (gone : List TagEntry) {s : State} (h : stackKept s) :
    stackKept (gone.foldl abandonOne s) := by
  induction gone generalizing s with
  | nil => exact h
  | cons e gone ih => exact ih (stackKept_modCtx (stackSame_abandonedCtx e.origin) _ h)

theorem stackKept_kept : PassKept stackKept where
  still hs h := stackKept_of_blocks hs.lead hs.drain hs.stack h
  noted id hf h := stackKept_modCtx (fun c => keepsAccounts_counters hf c.counters) id h
  missed cause _ h := stackKept_missOne cause (stackKept_of_blocks rfl rfl rfl h)
  emitted {s e rest} p _ _ h := by
    refine stackKept_modCtx (stackSame_missCtx e.origin (f := countEmitted e.origin p) fun c => ?_) _
      (stackKept_of_blocks rfl rfl rfl h)
    unfold countEmitted onCounters
    cases e.origin <;> cases p.flags.range <;> exact ⟨rfl, rfl, rfl, rfl⟩
  dropped _ _ h := stackKept_of_blocks rfl rfl rfl h
  main u o pt hl hset hrun h := stackKept_crossMain u o pt hl hset hrun h
  retry u pt hl hset hrun h := stackKept_crossRetry u pt hl hset hrun h
  runs {s l l'} hl hruns h := by
    refine h.congr (fun m hm => ?_) (fun _ _ _ => ⟨l', rfl, hruns.1⟩) fun c hc => ⟨c, hc, id, rfl, stackSame_id⟩
    obtain rfl : l' = m := by simpa using hm
    exact ⟨l, fun c => { c with
      uStart := l'.ctx.uStart, highWater := l'.ctx.highWater, turn := l'.ctx.turn, turnsUsed := l'.ctx.turnsUsed
      largestSnap := l'.ctx.largestSnap }, hl, hruns.2, fun _ => ⟨rfl, rfl, rfl, rfl⟩⟩
  retired st hl h := stackKept_retired st hl h
  faulted h := stackKept_abandonOnes _ (stackKept_of_blocks rfl rfl rfl h)
  flushed {s} h := by
    have hstack : (flushDrain s).stack = s.stack := by simp
    rw [stackKept, hstack, flushDrain_psc]
    exact h.congr (fun l hl => ⟨l, id, hl, rfl, stackSame_id⟩) (fun l hl hrun => ⟨l, hl, hrun⟩)
      fun c hc => ⟨c, (List.dropWhile_sublist _).subset hc, id, rfl, stackSame_id⟩
  armed {s settings} hl _ _ _ h := by
    have hempty : s.stack = [] := h.owned (by simp [hl])
    refine ⟨h.bound, h.keys, fun _ => hempty, fun l hl => ?_, h.drainBalanced⟩
    obtain rfl : { phase := .armed, ctx := freshCtx settings } = l := by simpa [armLead, probeReady] using hl
    have hstack : (armLead settings s).stack = [] := hempty
    rw [hstack]
    exact ⟨fun _ => rfl, rfl⟩
  reset causes h := by
    constructor <;> simp [resetPart, Psc.reset]

/-- Settles O49: a push, a take and a loss each move the stack and its counters together, and an ended pass counts what its
stack still holds as unresolved. -/
theorem stackAccountingKept : Obligations.StackAccountingKept := by
  unfold Obligations.StackAccountingKept
  intro s t hs hok howned hacc
  exact (stackKept_iff t).1 (stackKept_kept.step hs ((stackKept_iff s).2 ⟨hok, howned, hacc⟩))

end Sys2Proof.Machine
end

