-- ==== Sys2Proof/Proofs/LinkInvariants.lean ====
section
/-! PROOFS. Proofs/LinkInvariants.lean: the blocks beyond LNK reach it by raising notices alone, so the bounds of the link
error counters, the request buffer and the notices rest on LNK's own work (sections 11.2, 11.3, 11.5). -/

namespace Sys2Proof.Machine

open Sys2Proof

/-! ### Raised notices (R194) -/

/-- LNK after a raise. -/
def raisedLnk (n : Notice) (k : Lnk) : Lnk :=
  { k with notices := setNoticeSlot k.notices (noticeKind n) (some (raisedSlot (noticeSlot k.notices (noticeKind n)) n)) }

/-- From `s` to `t` LNK takes raises alone. -/
def RaisesOnly (s t : State) : Prop := Relation.ReflTransGen (fun j k => ∃ n, k = raisedLnk n j) s.lnk t.lnk

theorem RaisesOnly.trans {s t u : State} (h : RaisesOnly s t) (h' : RaisesOnly t u) : RaisesOnly s u :=
  Relation.ReflTransGen.trans h h'

/-- LNK is the same before the raises. -/
theorem RaisesOnly.after {s m t : State} (h : RaisesOnly m t) (hm : m.lnk = s.lnk) : RaisesOnly s t := by
  unfold RaisesOnly at *
  rwa [hm] at h

/-- LNK is the same after the raises. -/
theorem RaisesOnly.before {s m t : State} (h : RaisesOnly s m) (hm : t.lnk = m.lnk) : RaisesOnly s t := by
  unfold RaisesOnly at *
  rwa [← hm] at h

theorem raisesOnly_of_lnk {s t : State} (h : t.lnk = s.lnk) : RaisesOnly s t := by
  rw [RaisesOnly, h]

theorem raisesOnly_raise (n : Notice) (s : State) : RaisesOnly s (raise n s) := .single ⟨n, rfl⟩

theorem raisesOnly_foldl {α : Type} {f : State → α → State} (hf : ∀ s a, RaisesOnly s (f s a)) (l : List α) (s : State) :
    RaisesOnly s (l.foldl f s) := by
  induction l generalizing s with
  | nil => exact raisesOnly_of_lnk rfl
  | cons a l ih => exact (hf s a).trans (ih _)

theorem raisesOnly_beginWait (group : Fin 8 → Option (Fin 4)) (q : Fin 4) (s : State) (n : Fin 8) :
    RaisesOnly s (beginWait group q s n) := (raisesOnly_raise _ _).after rfl

theorem raisesOnly_reportWaits (group : Fin 8 → Option (Fin 4)) (old : Gte) (s : State) :
    RaisesOnly s (reportWaits group old s) :=
  raisesOnly_foldl (fun t q => raisesOnly_foldl (raisesOnly_beginWait group q) (newWaiters group old s.gte q) t)
    groupNumbers s

theorem raisesOnly_arbitrateRun (fresh : Bool) (s : State) : RaisesOnly s (arbitrateRun fresh s) := by
  unfold arbitrateRun
  dsimp only
  split_ifs
  · exact raisesOnly_of_lnk rfl
  · exact (raisesOnly_reportWaits _ _ _).after rfl

theorem setDue_lnk (dir : Dir) (u : Int) (s : State) : (setDue dir u s).lnk = s.lnk := by
  unfold setDue
  dsimp only
  split <;> rfl

theorem raisesOnly_gatesPosition (dir : Dir) (u : Int) (s : State) : RaisesOnly s (gatesPosition dir u s) := by
  unfold gatesPosition
  split
  · exact raisesOnly_of_lnk rfl
  · exact (raisesOnly_arbitrateRun _ _).after (setDue_lnk _ _ _)

theorem raisesOnly_enterRun (s : State) : RaisesOnly s (enterRun s) :=
  (raisesOnly_arbitrateRun true _).after (setDue_lnk _ _ _)

theorem raisesOnly_gatesExchange (s : State) : RaisesOnly s (gatesExchange s) := by
  unfold gatesExchange
  dsimp only
  split
  · exact (raisesOnly_arbitrateRun true _).after (setDue_lnk _ _ _)
  · exact raisesOnly_of_lnk rfl

theorem raisesOnly_exchange (s : State) : RaisesOnly s (exchange s) :=
  ((raisesOnly_gatesExchange _).trans (raisesOnly_raise _ _)).after rfl

theorem passPosition_lnk (u : Int) (s : State) : (passPosition u s).lnk = s.lnk := by simp

theorem raisesOnly_handPosition (old : Int) (s : State) : RaisesOnly s (handPosition old s) := by
  unfold handPosition
  dsimp only
  split_ifs
  · exact raisesOnly_of_lnk rfl
  · exact (raisesOnly_gatesPosition _ _ s).before (passPosition_lnk _ _)

theorem raisesOnly_handOn (w : EncWork) (s : State) : RaisesOnly s (handOn w s) := by
  have state : ∀ left u, RaisesOnly u (handState left u) := fun left u => raisesOnly_of_lnk (by simp)
  have banks : ∀ e st u, RaisesOnly u (banksCrossing e st u) := fun e st u => by
    unfold banksCrossing
    split_ifs
    · exact raisesOnly_exchange _
    · exact raisesOnly_of_lnk rfl
  have pass : ∀ dir delta outcome st u, RaisesOnly u (passCrossing dir delta outcome st u) :=
    fun dir delta outcome st u => by
      have start : ∀ l snap, RaisesOnly u (startPass l snap u) := fun l snap =>
        ((raisesOnly_enterRun _).trans (raisesOnly_raise _ _)).after (by simp)
      unfold passCrossing
      split
      · exact raisesOnly_of_lnk rfl
      · dsimp only
        split
        · by_cases hs : dir = .forward ∧ st = .homed
          · rw [if_pos hs]; exact start _ _
          · rw [if_neg hs]; exact raisesOnly_of_lnk rfl
        · exact raisesOnly_of_lnk (by simp)
  rw [handOn_eq]
  have before : RaisesOnly s (beforeCrossing w s) :=
    ((raisesOnly_foldl (fun t n => raisesOnly_raise n t) w.notices _).trans
      ((state _ _).trans (raisesOnly_handPosition _ _))).after rfl
  refine before.trans ?_
  unfold handCrossing
  split
  · exact raisesOnly_of_lnk rfl
  · exact (banks _ _ _).trans (pass _ _ _ _ _)

theorem raisesOnly_timeoutHead (s : State) : RaisesOnly s (timeoutHead s) := by
  have fault : ∀ tag u, RaisesOnly u (enterProbeFault tag u) := fun tag u =>
    ((raisesOnly_raise (.probeFault tag u.prb.queue.length)
      (abandon (fun _ => true) (u.setPrb { u.prb with state := .fault }))).before (by simp [enterProbeFault])).after
      (by simp)
  unfold timeoutHead
  split
  · exact raisesOnly_of_lnk rfl
  split_ifs
  · unfold countTimeout
    dsimp only
    split_ifs
    · exact (fault _ _).after (by simp)
    · exact raisesOnly_of_lnk (by simp)
  · exact raisesOnly_of_lnk rfl

theorem raisesOnly_timeoutHeads (n : Nat) (s : State) : RaisesOnly s (timeoutHeads n s) := by
  induction n generalizing s with
  | zero => exact raisesOnly_of_lnk rfl
  | succ n ih => exact (raisesOnly_timeoutHead s).trans (ih _)

theorem raisesOnly_updateHold (s : State) : RaisesOnly s (updateHold s) := by
  unfold updateHold
  dsimp only
  split_ifs
  · exact raisesOnly_of_lnk rfl
  · exact (raisesOnly_raise _ _).after rfl

theorem raisesOnly_latchExpired (s : State) (n : Fin 8) : RaisesOnly s (latchExpired s n) := by
  unfold latchExpired
  dsimp only
  split_ifs
  · exact (raisesOnly_raise _ _).after rfl
  · exact raisesOnly_of_lnk rfl

theorem raisesOnly_clearLatches (mask : Fin 8 → Bool) (s : State) : RaisesOnly s (clearLatches mask s) := by
  unfold clearLatches
  dsimp only
  split_ifs
  · split
    · exact (raisesOnly_arbitrateRun _ _).after rfl
    · exact raisesOnly_of_lnk rfl
  · exact raisesOnly_of_lnk rfl

theorem raisesOnly_renewSettings (s : State) : RaisesOnly s (renewSettings s) := by
  have entered : ∀ b : Bool, (if b then enterSafe (s.setEnc (renewedEnc s.cal.working.enc s.enc))
      else s.setEnc (renewedEnc s.cal.working.enc s.enc)).lnk = s.lnk := fun b => by cases b <;> rfl
  exact (raisesOnly_handPosition _ _).after (entered _)

theorem raisesOnly_completeProgram (op : ProgOp) (result : VerifyResult) (s : State) :
    RaisesOnly s (completeProgram op result s) := by
  unfold completeProgram
  exact (raisesOnly_raise _ _).after (by split <;> rfl)

/-! ### The bounds of LNK -/

/-- LNK within its bounds: the error counters at most 15, the request buffer at most 2, and every notice in its slot. -/
def lnkBounded (n : Lnk) : Prop :=
  (∀ c, linkErrorCount n.errors c ≤ 15) ∧ n.requests.length ≤ 2 ∧
    ∀ k p, noticeSlot n.notices k = some p → noticeKind p.detail = k ∧ 1 ≤ p.count ∧ p.count ≤ 255

theorem lnkBounded_iff (s : State) : lnkBounded s.lnk ↔ linkBounded s ∧ noticesOk s := by
  constructor
  · rintro ⟨herrors, hrequests, hnotices⟩
    exact ⟨⟨herrors .frame, herrors .crc, herrors .sync, herrors .overrun, hrequests⟩, hnotices⟩
  · rintro ⟨⟨hframe, hcrc, hsync, hover, hrequests⟩, hnotices⟩
    exact ⟨fun c => by cases c <;> assumption, hrequests, hnotices⟩

theorem lnkBounded_raised {k : Lnk} (n : Notice) (h : lnkBounded k) : lnkBounded (raisedLnk n k) := by
  obtain ⟨herrors, hrequests, hnotices⟩ := h
  refine ⟨herrors, hrequests, fun j p hp => ?_⟩
  simp only [raisedLnk, noticeSlot_set] at hp
  split_ifs at hp with hj
  · obtain rfl : raisedSlot (noticeSlot k.notices (noticeKind n)) n = p := by simpa using hp
    unfold raisedSlot
    split
    · exact ⟨hj.symm, by simp, by simp⟩
    · exact ⟨hj.symm, by dsimp only; omega, by dsimp only; omega⟩
  · exact hnotices j p hp

theorem RaisesOnly.bounded {s t : State} (h : RaisesOnly s t) (hs : lnkBounded s.lnk) : lnkBounded t.lnk := by
  unfold RaisesOnly at h
  generalize s.lnk = j at h hs
  generalize t.lnk = k at h
  induction h with
  | refl => exact hs
  | tail _ hn ih =>
    obtain ⟨n, rfl⟩ := hn
    exact lnkBounded_raised n ih

theorem lnkBounded_linkError (c : LinkCounter) {s : State} (h : lnkBounded s.lnk) : lnkBounded (linkError c s).lnk := by
  unfold linkError
  dsimp only
  split_ifs with hlt
  · refine (raisesOnly_raise _ _).bounded ⟨fun d => ?_, h.2.1, h.2.2⟩
    have hd := h.1 d
    unfold linkErrorMax at hlt
    cases c <;> cases d <;> simp only [setLinkError, linkErrorCount, State.setLnk_lnk] at * <;> omega
  · exact h

theorem lnkBounded_takeBytes (bytes : List Byte) {s : State} (h : lnkBounded s.lnk) :
    lnkBounded (takeBytes bytes s).lnk := by
  have complete : lnkBounded (completeFrame bytes (setRx .idle s)).lnk := by
    unfold completeFrame
    dsimp only
    split_ifs with hcrc hroom
    · exact lnkBounded_linkError _ h
    · refine ⟨h.1, ?_, h.2.2⟩
      simp only [State.setLnk_lnk, List.length_append, List.length_singleton]
      unfold requestSize at hroom
      omega
    · exact lnkBounded_linkError _ h
  unfold takeBytes
  split_ifs
  · exact lnkBounded_linkError _ h
  · exact complete
  · exact h

theorem lnkBounded_takeRx (s : State) (item : RxItem) (h : lnkBounded s.lnk) : lnkBounded (takeRx s item).lnk := by
  have idle : lnkBounded (rxIdle item s).lnk := by
    unfold rxIdle
    split
    · exact h
    all_goals
      split
      · exact h
      · split_ifs <;> exact h
  have unlocked : ∀ low, lnkBounded (rxSyncUnlocked low item s).lnk := fun low => by
    unfold rxSyncUnlocked
    split
    · split_ifs <;> exact h
    · exact h
  have locked : ∀ l, lnkBounded (rxSyncLocked l item s).lnk := fun l => by
    unfold rxSyncLocked
    split
    · split_ifs
      · exact h
      · exact lnkBounded_linkError _ h
    · exact lnkBounded_linkError _ h
  have body : ∀ l bytes, lnkBounded (rxBody l bytes item s).lnk := fun l bytes => by
    unfold rxBody
    split
    · exact lnkBounded_takeBytes _ h
    · split_ifs
      · exact lnkBounded_linkError _ h
      · exact h
    · split_ifs <;> exact lnkBounded_linkError _ h
  unfold takeRx
  split
  · exact idle
  · split
    · exact unlocked _
    · exact locked _
  · split
    · exact h
    · exact body _ _

theorem lnkBounded_leaveSource (src : RecordSource) {s : State} (h : lnkBounded s.lnk) :
    lnkBounded (leaveSource src s).lnk := by
  cases src with
  | reply => exact h
  | buffer => exact h
  | notice k =>
    refine ⟨h.1, h.2.1, fun j p hp => ?_⟩
    simp only [leaveSource, State.setLnk_lnk, noticeSlot_set] at hp
    split_ifs at hp
    exact h.2.2 j p hp

theorem lnkBounded_tick {s : State} (h : lnkBounded s.lnk) : lnkBounded (tick s).lnk := by
  obtain hstart | ⟨src, first, -, -, hstart⟩ := startCharacters_cases (s.setNow (s.now + 1))
  · simpa [tick, hstart] using h
  · simp only [tick, hstart, State.setPending_lnk]
    unfold beginRecord
    split
    · exact lnkBounded_leaveSource src h
    · exact h

theorem Work.lnkBounded {c : Instr} {s t : State} (hw : Work c s t) (h : lnkBounded s.lnk) :
    Sys2Proof.Machine.lnkBounded t.lnk := by
  have received : ∀ (items : List RxItem) u, Sys2Proof.Machine.lnkBounded u.lnk →
      Sys2Proof.Machine.lnkBounded (items.foldl takeRx u).lnk := fun items => by
    induction items with
    | nil => exact fun _ hu => hu
    | cons i items ih => exact fun u hu => ih _ (lnkBounded_takeRx u i hu)
  cases hw
  case reset causes hreset =>
    refine ⟨fun c => by cases c <;> simp [resetPart, Lnk.reset, linkErrorCount], by simp [resetPart, Lnk.reset],
      fun k p hp => ?_⟩
    cases k <;> simp [resetPart, Lnk.reset, Notices.none, noticeSlot] at hp
  case update l ha => exact ((raisesOnly_handOn _ _).after rfl).bounded h
  case timeout => exact (raisesOnly_timeoutHead s).bounded h
  case qualification => exact (raisesOnly_foldl raisesOnly_latchExpired _ s).bounded h
  case completion result p hp => exact (raisesOnly_completeProgram _ _ _).bounded h
  case received items => exact received items s h
  case boundary span =>
    unfold openRecord
    split <;> exact h
  case cleared => exact ⟨fun c => by cases c <;> simp [linkErrorCount], h.2.1, h.2.2⟩
  case encoder e he hl => exact ((raisesOnly_renewSettings _).after rfl).bounded h
  case erase hl =>
    have renewed := raisesOnly_renewSettings (startProgram .cers
      (s.setCal { s.cal with working := Settings.default, origin := .defaults, locked := false }))
    exact ((renewed.before (by simp [applyCers])).after rfl).bounded h
  case holdQualified hold => exact ((raisesOnly_updateHold _).after rfl).bounded h
  case holdSense hold => exact ((raisesOnly_updateHold _).after rfl).bounded h
  case latches => exact (raisesOnly_clearLatches _ s).bounded h
  case timing tmin tr hmin hr hl => exact ((raisesOnly_timeoutHeads _ _).after rfl).bounded h
  case causes => exact h
  case closed => exact h
  case masked => exact h
  all_goals exact (raisesOnly_of_lnk (by simp)).bounded h

/-- LNK's bounds are kept by every step. -/
theorem lnkBounded_kept : Kept fun s => lnkBounded s.lnk where
  pending _ _ h := h
  tick _ h := lnkBounded_tick h
  take s h := ⟨h.1, (by simp only [takeRequest, State.setLnk_lnk, List.length_tail]; have := h.2.1; omega), h.2.2⟩
  place _ _ _ h := h
  work _ _ _ hw h := hw.lnkBounded h

end Sys2Proof.Machine
end

