-- ==== Sys2Proof/Proofs/TagInvariants.lean ====
section
/-! PROOFS. Proofs/TagInvariants.lean: the ranges of PRB, and the tags in flight: they differ, their fire times rise, and the
four-bit tag does not come round while one is in flight (sections 6.2, 6.6 to 6.8). -/

namespace Sys2Proof.Machine

open Sys2Proof

/-! ### The ranges of PRB -/

/-- PRB within its ranges, as moves keep it. -/
def probeBounded (s : State) : Prop := s.prb.queue.length ≤ queueSize ∧ probeRanges s.prb

theorem length_lt_of_probeFree {s : State} (h : probeFree s = true) : s.prb.queue.length < queueSize := by
  simp only [probeFree, Bool.and_eq_true, decide_eq_true_eq] at h
  exact h.2

theorem probeBounded_taken {s t : State} {r : TriggerRequest} (hfree : probeFree s = true)
    (ht : t.prb = takeTrigger r s.now s.prb) (h : probeBounded s) : probeBounded t := by
  obtain ⟨-, -, htmin, htr, htimeouts, start, -, -, hqueue, -⟩ := takeTrigger_rule r s.now s.prb
  have hlen := length_lt_of_probeFree hfree
  obtain ⟨-, hranges⟩ := h
  unfold probeBounded probeRanges at *
  rw [ht, htmin, htr, htimeouts, hqueue, List.length_append, List.length_singleton]
  exact ⟨hlen, hranges⟩

theorem probeBounded_of_prb {s t : State} (ht : t.prb = s.prb) (h : probeBounded s) : probeBounded t := by
  unfold probeBounded at *
  rwa [ht]

/-- The head of the queue leaves it. -/
theorem probeBounded_popped {s t : State} {e : TagEntry} {rest : List TagEntry} (hq : s.prb.queue = e :: rest)
    (ht : t.prb = { s.prb with queue := rest }) (h : probeBounded s) : probeBounded t := by
  obtain ⟨hlen, hranges⟩ := h
  rw [hq, List.length_cons] at hlen
  rw [probeBounded, ht]
  exact ⟨(Nat.le_succ _).trans hlen, hranges⟩

theorem missOne_prb (e : TagEntry) (cause : MissCause) (s : State) : (missOne e cause s).prb = s.prb := by
  simp [missOne]

theorem emitOne_prb (e : TagEntry) (p : PointRecord) (s : State) : (emitOne e p s).prb = s.prb := by
  simp [emitOne]

/-- Abandoned tags leave the queue. -/
theorem abandon_prb (which : TagEntry → Bool) (s : State) : ∃ waiting, (abandon which s).prb =
    { s.prb with queue := s.prb.queue.filter fun e => !which e, waiting := waiting } := by
  obtain ⟨waiting, hw⟩ := dropWaiting_frame (s.prb.queue.filter which)
    { s.prb with queue := s.prb.queue.filter fun e => !which e }
  have frame : ∀ (gone : List TagEntry) u, (gone.foldl abandonOne u).prb = u.prb := fun gone => by
    induction gone with
    | nil => exact fun _ => rfl
    | cons e gone ih => exact fun u => (ih _).trans (by simp [abandonOne])
  refine ⟨waiting, ?_⟩
  unfold abandon
  dsimp only
  rw [frame, State.setPrb_prb, hw]

theorem probeBounded_crossMain {s : State} {l l' : Lead} (u : Int) (o : Bool) (pt : CrossedPoint)
    (hl : s.psc.lead = some l') (hset : l'.ctx.settings = l.ctx.settings) (h : probeBounded s) :
    probeBounded (crossMain l u o s pt) := by
  have hcrossed := crossMain_crossed hl hset u o pt
  generalize crossMain l u o s pt = t at hcrossed ⊢
  cases hcrossed with
  | blanked => exact h
  | stands cause ho hs => exact h
  | pushed cause ho hs => exact h
  | fired hr ho hfree hready => exact probeBounded_taken hfree (by rfl) h
  | lost hr ho hfault => exact h

theorem probeBounded_crossRetry {s : State} {l l' : Lead} (u : Int) (pt : CrossedPoint)
    (hl : s.psc.lead = some l') (hset : l'.ctx.settings = l.ctx.settings) (h : probeBounded s) :
    probeBounded (crossRetry l u s pt) := by
  have hcrossed := crossRetry_crossed hl hset u pt
  generalize crossRetry l u s pt = t at hcrossed ⊢
  cases hcrossed with
  | passed => exact h
  | fired hm hr ho hfree hready => exact probeBounded_taken hfree (by rfl) h
  | lost hm hr ho hfault => exact h

theorem probeBounded_kept : PassKept probeBounded where
  still hs h := by
    unfold probeBounded at *
    rw [hs.queue]
    exact ⟨h.1, hs.ranges h.2⟩
  noted id _ h := probeBounded_of_prb (by simp) h
  missed cause hq h := probeBounded_popped hq (by rw [missOne_prb]; rfl) h
  emitted p hq _ h := probeBounded_popped hq (by rw [emitOne_prb]; rfl) h
  dropped hq _ h := probeBounded_popped hq rfl h
  main u o pt hl hset _ h := probeBounded_crossMain u o pt hl hset h
  retry u pt hl hset _ h := probeBounded_crossRetry u pt hl hset h
  runs _ _ h := h
  retired {s l} st hl h := by
    have r := retirePass_retired st hl
    refine ⟨?_, r.ranges h.2⟩
    rw [r.queue, leftQueue]
    split_ifs
    · exact (List.length_filter_le _ _).trans h.1
    · exact h.1
  faulted {s} h := by
    obtain ⟨waiting, hw⟩ := abandon_prb (fun _ => true) (s.setPrb { s.prb with state := .fault })
    rw [probeBounded, hw]
    exact ⟨(List.length_filter_le _ _).trans h.1, h.2⟩
  flushed h := probeBounded_of_prb (by simp) h
  armed _ _ _ _ h := ⟨h.1, Nat.zero_le _, h.2.2⟩
  reset _ _ := by simp [probeBounded, probeRanges, resetPart, Prb.reset]

/-! ### The passes behind an entry's -/

/-- The number of draining passes behind a pass rests on the lead's ID and the IDs of the drain list. -/
theorem passesBehind_congr {p p' : Psc} {id : Nat} (hlead : leadIs id p' = leadIs id p)
    (hdrain : p'.drain.map (fun c => c.settings.passId) = p.drain.map fun c => c.settings.passId) :
    passesBehind p' id = passesBehind p id := by
  have behind : ∀ l : List PassCtx, (l.reverse.takeWhile fun c => c.settings.passId != id).length =
      ((l.map fun c => c.settings.passId).reverse.takeWhile fun i => i != id).length := fun l => by
    rw [← List.map_reverse, List.takeWhile_map, List.length_map]
    rfl
  rw [passesBehind, passesBehind, hlead, behind, behind, hdrain]

theorem modCtx_ids {f : PassCtx → PassCtx} (hf : ∀ c, (f c).settings = c.settings) (id i : Nat) (s : State) :
    leadIs i (modCtx id f s).psc = leadIs i s.psc ∧
      (modCtx id f s).psc.drain.map (fun c => c.settings.passId) = s.psc.drain.map fun c => c.settings.passId := by
  obtain ⟨-, hmod⟩ | ⟨-, hlead, -, hdrain⟩ := modCtx_cases id f s
  · rw [hmod, (modLead_psc f s).2.1]
    exact ⟨leadIs_modLead hf i s, rfl⟩
  · rw [hdrain, leadIs, hlead]
    refine ⟨rfl, ?_⟩
    rw [List.map_map]
    refine List.map_congr_left fun c _ => ?_
    dsimp only [Function.comp]
    split_ifs
    · rw [hf]
    · rfl

theorem passesBehind_modCtx {f : PassCtx → PassCtx} (hf : ∀ c, (f c).settings = c.settings) (id i : Nat) (s : State) :
    passesBehind (modCtx id f s).psc i = passesBehind s.psc i :=
  passesBehind_congr (modCtx_ids hf id i s).1 (modCtx_ids hf id i s).2

theorem passesBehind_modLead {f : PassCtx → PassCtx} (hf : ∀ c, (f c).settings = c.settings) {s t : State} {l : Lead}
    (hl : s.psc.lead = some l) (ht : t.psc = s.psc) (i : Nat) :
    passesBehind (modLead f t).psc i = passesBehind s.psc i := by
  rw [modLead_eq (id := l.ctx.settings.passId) (by rw [ht]; exact leadIs_of_lead hl), passesBehind_modCtx hf, ht]

/-! ### The tags in flight -/

theorem issuedAfter_congr {s t : State} (h : t.prb.nextTag = s.prb.nextTag) (e : TagEntry) :
    issuedAfter t e = issuedAfter s e := by
  rw [issuedAfter, issuedAfter, h]

theorem tagsOk_of_empty {s : State} (h : s.prb.queue = []) : tagsOk s := by
  refine ⟨fun _ => h, ?_, ?_, ?_⟩ <;> simp [h]

/-- Tags leave the queue, or none do, and no tag is issued. -/
theorem tagsOk_of_sublist {s t : State} (h : tagsOk s) (hsub : t.prb.queue.Sublist s.prb.queue)
    (hnext : t.prb.nextTag = s.prb.nextTag) (hlast : t.prb.lastTrigger = s.prb.lastTrigger)
    (hstate : t.prb.state = s.prb.state ∨ t.prb.state = .ready)
    (hissued : ∀ i e, t.prb.queue[i]? = some e →
      issuedAfter s e + i + 1 ≤ t.prb.queue.length + 3 * passesBehind t.psc e.passId) : tagsOk t := by
  obtain ⟨hfault, hpairs, htimes, -⟩ := h
  refine ⟨fun hf => ?_, ?_, fun e he => ?_, fun i e he => ?_⟩
  · obtain hs | hs := hstate
    · exact List.sublist_nil.1 (hfault (by rw [← hs, hf]) ▸ hsub)
    · simp [hs] at hf
  · refine (hpairs.sublist hsub).imp fun {a b} hab => ?_
    rwa [issuedAfter_congr hnext, issuedAfter_congr hnext]
  · rw [hlast]
    exact htimes e (hsub.subset he)
  · rw [issuedAfter_congr hnext]
    exact hissued i e he

/-- The queue and the passes stay. -/
theorem tagsOk_of_same {s t : State} (h : tagsOk s) (hqueue : t.prb.queue = s.prb.queue)
    (hnext : t.prb.nextTag = s.prb.nextTag) (hlast : t.prb.lastTrigger = s.prb.lastTrigger)
    (hstate : t.prb.state = s.prb.state ∨ t.prb.state = .ready)
    (hbehind : ∀ e ∈ s.prb.queue, passesBehind t.psc e.passId = passesBehind s.psc e.passId) : tagsOk t := by
  refine tagsOk_of_sublist h (by rw [hqueue]) hnext hlast hstate fun i e he => ?_
  rw [hqueue] at he ⊢
  rw [hbehind e (List.mem_of_getElem? he)]
  exact h.2.2.2 i e he

/-- The head of the queue leaves it. -/
theorem tagsOk_popped {s t : State} {e : TagEntry} {rest : List TagEntry} (h : tagsOk s) (hq : s.prb.queue = e :: rest)
    (ht : t.prb = { s.prb with queue := rest }) (hbehind : ∀ i, passesBehind t.psc i = passesBehind s.psc i) :
    tagsOk t := by
  refine tagsOk_of_sublist h (by rw [ht, hq]; exact List.sublist_cons_self _ _) (by rw [ht]) (by rw [ht])
    (.inl (by rw [ht])) fun i y hy => ?_
  have hy' : rest[i]? = some y := by rwa [ht] at hy
  have hold := h.2.2.2 (i + 1) y (by rw [hq]; exact hy')
  have hlen : t.prb.queue.length = rest.length := by rw [ht]
  rw [hq, List.length_cons] at hold
  rw [hbehind, hlen]
  omega

/-- A trigger is taken while the probe is free: fewer than 15 tags have been issued after each that is in flight. -/
theorem tagsOk_taken {s t : State} {l : Lead} {r : TriggerRequest} (hl : s.psc.lead = some l) (h : tagsOk s)
    (hfree : probeFree s = true) (htmin : 2 ≤ s.prb.tmin) (hready : s.prb.state = .ready)
    (howed : summariesOwed s.psc ≤ 4) (ht : t.prb = takeTrigger r s.now s.prb)
    (hbehind : ∀ i, passesBehind t.psc i = passesBehind s.psc i) : tagsOk t := by
  obtain ⟨-, hpairs, htimes, hissued⟩ := h
  obtain ⟨hnext, hstate, -, -, -, start, -, hlast, hqueue, hlater⟩ := takeTrigger_rule r s.now s.prb
  rw [← ht] at hnext hstate hlast hqueue
  have hlen : s.prb.queue.length < 4 := length_lt_of_probeFree hfree
  have hdrain : s.psc.drain.length ≤ 3 := by
    simp only [summariesOwed, hl, Option.isSome_some, if_true] at howed
    omega
  have hpasses : ∀ i, passesBehind s.psc i ≤ 3 := fun i => by
    unfold passesBehind
    split_ifs
    · exact Nat.zero_le _
    · exact (List.takeWhile_prefix _).length_le.trans (by rwa [List.length_reverse])
  have hlt : ∀ e ∈ s.prb.queue, issuedAfter s e < 15 := fun e he => by
    obtain ⟨i, hi⟩ := List.mem_iff_getElem?.1 he
    have := hissued i e hi
    have := hpasses e.passId
    omega
  have hplus : ∀ e ∈ s.prb.queue, issuedAfter t e = issuedAfter s e + 1 := fun e he => issuedAfter_next hnext (hlt e he)
  have hnew : issuedAfter t (entryOf r s.prb.nextTag start) = 0 := issuedAfter_new hnext
  have htmin' : tminPassed s.prb s.now = true := by
    simp only [probeFree, Bool.and_eq_true] at hfree
    exact hfree.1
  refine ⟨fun hf => by simp [hstate, hready] at hf, ?_, fun e he => ⟨start, hlast, ?_⟩, fun i e he => ?_⟩
  · rw [hqueue, List.pairwise_append]
    refine ⟨?_, List.pairwise_singleton _ _, fun e he y hy => ?_⟩
    · refine hpairs.imp_of_mem fun {a b} ha hb hab => ?_
      rw [hplus a ha, hplus b hb]
      exact ⟨hab.1, by omega, hab.2.2⟩
    · obtain rfl := List.mem_singleton.1 hy
      obtain ⟨last, hl, hle⟩ := htimes e he
      refine ⟨issuedAfter_differs (hlt e he), ?_, lt_of_le_of_lt hle (hlater htmin' (by omega) last hl)⟩
      rw [hnew, hplus e he]
      omega
  · rw [hqueue] at he
    obtain he | he := List.mem_append.1 he
    · obtain ⟨last, hl, hle⟩ := htimes e he
      exact (lt_of_le_of_lt hle (hlater htmin' (by omega) last hl)).le
    · obtain rfl := List.mem_singleton.1 he
      exact le_refl start
  · have hlen' : t.prb.queue.length = s.prb.queue.length + 1 := by rw [hqueue]; simp
    rw [hbehind, hlen']
    rw [hqueue, List.getElem?_append] at he
    split_ifs at he with hi
    · have hmem := List.mem_of_getElem? he
      have := hissued i e he
      rw [hplus e hmem]
      omega
    · obtain ⟨hzero, rfl⟩ : i - s.prb.queue.length = 0 ∧ entryOf r s.prb.nextTag start = e := by
        simpa [List.getElem?_singleton] using he
      rw [hnew]
      omega

theorem tagsOk_retired {s : State} {l : Lead} (st : EndStatus) (hl : s.psc.lead = some l) (h : tagsOk s)
    (hlen : s.prb.queue.length ≤ 4) : tagsOk (retirePass st l s) := by
  have r := retirePass_retired st hl
  have hended : (endedCtx st l s).settings = l.ctx.settings := by
    unfold endedCtx
    dsimp only
    split_ifs <;> simp [onCounters]
  have hsub : (leftQueue st l s.prb.queue).Sublist s.prb.queue := by
    unfold leftQueue
    split_ifs
    · exact List.filter_sublist
    · exact List.Sublist.refl _
  have hleft : ∀ i, leadIs i (retirePass st l s).psc = false := fun i => by simp [leadIs, r.lead]
  refine tagsOk_of_sublist h (by rwa [r.queue]) r.nextTag r.lastTrigger (.inl r.state) fun i e he => ?_
  rw [r.queue] at he ⊢
  have hi : i < (leftQueue st l s.prb.queue).length := (List.getElem?_eq_some_iff.1 he).1
  obtain ⟨j, hj⟩ := List.mem_iff_getElem?.1 (hsub.subset (List.mem_of_getElem? he))
  have hjlen : j < s.prb.queue.length := (List.getElem?_eq_some_iff.1 hj).1
  have hissued := h.2.2.2
  by_cases hid : e.passId = l.ctx.settings.passId
  · -- the tags of the ended pass stay only where the ending abandons none
    have hqueue : leftQueue st l s.prb.queue = s.prb.queue := by
      unfold leftQueue
      split_ifs with ha
      · have hmem := List.mem_of_getElem? he
        rw [leftQueue, if_pos ha] at hmem
        simp [hid] at hmem
      · rfl
    rw [hqueue] at he ⊢
    have := hissued i e he
    have hzero : passesBehind s.psc e.passId = 0 := by
      rw [passesBehind, if_pos (by rw [hid]; exact leadIs_of_lead hl)]
    omega
  · -- one more pass drains behind the others
    have hbehind : passesBehind (retirePass st l s).psc e.passId = passesBehind s.psc e.passId + 1 := by
      have hnot : leadIs e.passId s.psc = false := by
        simpa [leadIs, hl] using Ne.symm hid
      rw [passesBehind, passesBehind, hleft, hnot, r.drain]
      simp [hended, Ne.symm hid]
    have := hissued j e hj
    rw [hbehind]
    omega

/-- The contexts that leave the drain list have no tags. -/
theorem passesBehind_flushed {s : State} (h : inFlightOk s) {e : TagEntry} (he : e ∈ s.prb.queue) :
    passesBehind (flushDrain s).psc e.passId = passesBehind s.psc e.passId := by
  rw [flushDrain_psc]
  unfold passesBehind
  have hlead : leadIs e.passId { s.psc with drain := s.psc.drain.dropWhile noTags } = leadIs e.passId s.psc := rfl
  rw [hlead]
  cases hl : leadIs e.passId s.psc with
  | true => rfl
  | false =>
    obtain ⟨hmatch, -, hnamed⟩ := h
    obtain ⟨c, hc, hid⟩ := hnamed e he
    have htags : noTags c = false := by
      obtain ⟨hmain, hretry⟩ := hmatch c hc
      by_contra hno
      simp only [noTags, Bool.not_eq_false, Bool.and_eq_true, beq_iff_eq] at hno
      rw [hno.1, eq_comm, List.countP_eq_zero] at hmain
      rw [hno.2, eq_comm, List.countP_eq_zero] at hretry
      have h1 := hmain e he
      have h2 := hretry e he
      simp_all
    have hdrain : c ∈ s.psc.drain := by
      obtain hc | hc := List.mem_append.1 hc
      · cases hlead : s.psc.lead with
        | none => simp [hlead] at hc
        | some l =>
          obtain rfl : c = l.ctx := by simpa [hlead] using hc
          simp [leadIs_iff.2 ⟨l, hlead, hid⟩] at hl
      · exact hc
    have hkept : c ∈ s.psc.drain.dropWhile noTags := by
      rw [← List.takeWhile_append_dropWhile (p := noTags) (l := s.psc.drain)] at hdrain
      obtain hin | hin := List.mem_append.1 hdrain
      · exact absurd (List.mem_takeWhile_imp hin) (by simp [htags])
      · exact hin
    dsimp only
    conv_rhs => rw [← List.takeWhile_append_dropWhile (p := noTags) (l := s.psc.drain), List.reverse_append]
    have hstops : (List.takeWhile (fun c => c.settings.passId != e.passId)
        (s.psc.drain.dropWhile noTags).reverse).length ≠ (s.psc.drain.dropWhile noTags).reverse.length := fun heq => by
      have hall := (List.takeWhile_prefix _).eq_of_length heq
      have hmem : c ∈ (s.psc.drain.dropWhile noTags).reverse := List.mem_reverse.2 hkept
      rw [← hall] at hmem
      simpa [hid] using List.mem_takeWhile_imp hmem
    rw [List.takeWhile_append, if_neg hstops]

theorem passesBehind_missOne (e : TagEntry) (cause : MissCause) (i : Nat) (s : State) :
    passesBehind (missOne e cause s).psc i = passesBehind s.psc i := by
  cases hrun : runningLeadIs e.passId s with
  | false =>
    rw [missOne_late cause hrun]
    exact passesBehind_modCtx (missCtx_settings _ _) _ i s
  | true =>
    cases hs : s.stack.any (sameKey (missOf e cause)) with
    | true =>
      rw [missOne_stands cause hrun hs]
      exact passesBehind_modCtx (missCtx_settings _ _) _ i s
    | false =>
      rw [missOne_pushed cause hrun hs]
      exact passesBehind_modCtx (missCtx_settings _ _) _ i _

/-- What the invariant of the tags rests on, and the tags. -/
structure TagsKept (n : Nat) (s : State) : Prop where
  accounts : accountsOf (fun _ => True) s
  load : loadBounded n s
  probe : probeBounded s
  tags : tagsOk s

theorem tagsOk_crossMain {n : Nat} {s : State} {l l' : Lead} (u : Int) (o : Bool) (pt : CrossedPoint)
    (hl : s.psc.lead = some l') (hset : l'.ctx.settings = l.ctx.settings) (h : TagsKept n s) :
    tagsOk (crossMain l u o s pt) := by
  have hcrossed := crossMain_crossed hl hset u o pt
  generalize crossMain l u o s pt = t at hcrossed ⊢
  have same : ∀ {f : PassCtx → PassCtx} {t : State}, (∀ c, (f c).settings = c.settings) → t.psc = s.psc →
      t.prb = s.prb → tagsOk (modLead f t) := fun {f t} hf ht hprb => by
    have hprb' : (modLead f t).prb = s.prb := by simpa using hprb
    exact tagsOk_of_same h.tags (by rw [hprb']) (by rw [hprb']) (by rw [hprb']) (.inl (by rw [hprb']))
      fun e _ => passesBehind_modLead hf hl ht e.passId
  cases hcrossed with
  | blanked => exact same (fun _ => rfl) rfl rfl
  | stands cause ho hs => exact same (fun _ => rfl) rfl rfl
  | pushed cause ho hs => exact same (fun _ => rfl) rfl rfl
  | @fired r hr ho hfree hready =>
    exact tagsOk_taken hl h.tags hfree h.probe.2.2.1 hready h.load.2 rfl
      (passesBehind_modLead (fun c => by cases r.origin <;> rfl) hl rfl)
  | @lost r hr ho hfault => exact tagsOk_of_empty (h.tags.1 hfault)

theorem tagsOk_crossRetry {n : Nat} {s : State} {l l' : Lead} (u : Int) (pt : CrossedPoint)
    (hl : s.psc.lead = some l') (hset : l'.ctx.settings = l.ctx.settings) (h : TagsKept n s) :
    tagsOk (crossRetry l u s pt) := by
  have hcrossed := crossRetry_crossed hl hset u pt
  generalize crossRetry l u s pt = t at hcrossed ⊢
  cases hcrossed with
  | passed => exact h.tags
  | @fired r m hm hr ho hfree hready =>
    refine tagsOk_taken hl h.tags hfree h.probe.2.2.1 hready h.load.2 rfl (passesBehind_modLead (fun _ => ?_) hl rfl)
    rfl
  | lost hm hr ho hfault => exact tagsOk_of_empty (h.tags.1 hfault)

theorem tagsKept_kept {n : Nat} (hn : bufferSize ≤ n) : PassKept (TagsKept n) where
  still hs h := by
    refine ⟨(accountsOf_kept mainBooks_true).still hs h.accounts, (loadBounded_kept hn).still hs h.load,
      probeBounded_kept.still hs h.probe, ?_⟩
    refine tagsOk_of_same h.tags hs.queue hs.nextTag hs.lastTrigger hs.state fun e _ => ?_
    exact passesBehind_congr (by rw [leadIs, leadIs, hs.lead]) (by rw [hs.drain])
  noted {s f} id hf h := by
    refine ⟨(accountsOf_kept mainBooks_true).noted id hf h.accounts, (loadBounded_kept hn).noted id hf h.load,
      probeBounded_kept.noted id hf h.probe, ?_⟩
    exact tagsOk_of_same h.tags (by simp) (by simp) (by simp) (.inl (by simp))
      fun e _ => passesBehind_modCtx (onCounters_settings f) id _ s
  missed {s e rest} cause hq h := by
    refine ⟨(accountsOf_kept mainBooks_true).missed cause hq h.accounts, (loadBounded_kept hn).missed cause hq h.load,
      probeBounded_kept.missed cause hq h.probe, ?_⟩
    refine tagsOk_popped h.tags hq (by rw [missOne_prb]; rfl) fun i => ?_
    exact passesBehind_missOne e cause i _
  emitted {s e rest} p hq hroom h := by
    refine ⟨(accountsOf_kept mainBooks_true).emitted p hq hroom h.accounts,
      (loadBounded_kept hn).emitted p hq hroom h.load, probeBounded_kept.emitted p hq hroom h.probe, ?_⟩
    refine tagsOk_popped h.tags hq (by rw [emitOne_prb]; rfl) fun i => ?_
    exact passesBehind_modCtx (missCtx_settings e.origin (countEmitted e.origin p)) _ i _
  dropped hq hnone h := by
    refine ⟨(accountsOf_kept mainBooks_true).dropped hq hnone h.accounts, (loadBounded_kept hn).dropped hq hnone h.load,
      probeBounded_kept.dropped hq hnone h.probe, ?_⟩
    exact tagsOk_popped h.tags hq rfl fun _ => rfl
  main u o pt hl hset hrun h :=
    ⟨(accountsOf_kept mainBooks_true).main u o pt hl hset hrun h.accounts,
      (loadBounded_kept hn).main u o pt hl hset hrun h.load, probeBounded_kept.main u o pt hl hset hrun h.probe,
      tagsOk_crossMain u o pt hl hset h⟩
  retry u pt hl hset hrun h :=
    ⟨(accountsOf_kept mainBooks_true).retry u pt hl hset hrun h.accounts,
      (loadBounded_kept hn).retry u pt hl hset hrun h.load, probeBounded_kept.retry u pt hl hset hrun h.probe,
      tagsOk_crossRetry u pt hl hset h⟩
  runs {s l l'} hl hruns h := by
    refine ⟨(accountsOf_kept mainBooks_true).runs hl hruns h.accounts, (loadBounded_kept hn).runs hl hruns h.load,
      probeBounded_kept.runs hl hruns h.probe, ?_⟩
    refine tagsOk_of_same h.tags rfl rfl rfl (.inl rfl) fun e _ => passesBehind_congr ?_ rfl
    rw [leadIs, leadIs, hl]
    dsimp only [State.setPsc]
    rw [hruns.2]
  retired st hl h :=
    ⟨(accountsOf_kept mainBooks_true).retired st hl h.accounts, (loadBounded_kept hn).retired st hl h.load,
      probeBounded_kept.retired st hl h.probe, tagsOk_retired st hl h.tags h.probe.1⟩
  faulted {s} h := by
    refine ⟨(accountsOf_kept mainBooks_true).faulted h.accounts, (loadBounded_kept hn).faulted h.load,
      probeBounded_kept.faulted h.probe, tagsOk_of_empty ?_⟩
    obtain ⟨waiting, hw⟩ := abandon_prb (fun _ => true) (s.setPrb { s.prb with state := .fault })
    simp [hw]
  flushed {s} h := by
    refine ⟨(accountsOf_kept mainBooks_true).flushed h.accounts, (loadBounded_kept hn).flushed h.load,
      probeBounded_kept.flushed h.probe, ?_⟩
    exact tagsOk_of_same h.tags (by simp) (by simp) (by simp) (.inl (by simp))
      fun e he => passesBehind_flushed (inFlightOk_of_accounts h.accounts) he
  armed {s settings} hl hdrain hid hroom h := by
    refine ⟨(accountsOf_kept mainBooks_true).armed hl hdrain hid hroom h.accounts,
      (loadBounded_kept hn).armed hl hdrain hid hroom h.load, probeBounded_kept.armed hl hdrain hid hroom h.probe, ?_⟩
    refine tagsOk_of_same h.tags rfl rfl rfl (.inr rfl) fun e he => passesBehind_congr ?_ rfl
    obtain ⟨c, hc, hce⟩ := h.accounts.named e he
    rw [contexts_of_none hl] at hc
    have hne : settings.passId ≠ e.passId := fun heq => hid c hc (hce.trans heq.symm)
    simpa [leadIs, hl, armLead, probeReady, freshCtx] using hne
  reset causes h :=
    ⟨(accountsOf_kept mainBooks_true).reset causes h.accounts, (loadBounded_kept hn).reset causes h.load,
      probeBounded_kept.reset causes h.probe, tagsOk_of_empty (by simp [resetPart, Prb.reset])⟩

/-- Settles O45: PRB's ranges and LNK's bounds are kept block by block. A trigger fires only while the probe is free, with
at most 3 tags in flight and 3 draining passes, so fewer than 15 tags have been issued after each in flight and the next one
differs from them all; Tmin makes its fire time the latest. -/
theorem probeAndLinkStayBounded : Obligations.ProbeAndLinkStayBounded := by
  unfold Obligations.ProbeAndLinkStayBounded
  intro s t hs hprobe
  refine ⟨fun hlink hnotices => ?_, fun hflight hdrain htags => ?_⟩
  · have hlnk := (lnkBounded_iff t).1 (lnkBounded_kept.step hs ((lnkBounded_iff s).2 ⟨hlink, hnotices⟩))
    exact ⟨probeBounded_kept.step hs hprobe, hlnk⟩
  · have start : TagsKept (max (bufferLoad s) bufferSize) s :=
      ⟨accounts_of_inFlightOk hflight fun _ _ => trivial, ⟨le_max_left _ _, hdrain⟩, hprobe, htags⟩
    exact ((tagsKept_kept (le_max_right _ _)).step hs start).tags

end Sys2Proof.Machine
end

