-- ==== Sys2Proof/Proofs/Dispatch.lean ====
section
/-! PROOFS. Proofs/Dispatch.lean: LNK judges a request by its kind and its length before its owner answers, and every
request that it dispatches gets one reply; the step, the tick's events, and LNK's own four requests (chapter 11). -/

namespace Sys2Proof.Machine

open Sys2Proof

/-! ### The kinds of section 11.8 -/

/-- The request that a frame of kind `k` and payload `p` carries, with the length that section 11.8 gives it. -/
def carries (k : Byte) (p : List Byte) (r : Request) : Prop :=
  requestOf (requestOfFrame ⟨k, p⟩) = some r ∧ r.kind = k ∧ r.payload = p ∧
    ∀ n, fixedLength k.toNat = some n → r.lengthOk = (p.length == n)

/-- Every frame carries the request of one of the 24 kinds, or is of an unknown kind. -/
theorem requestOfFrame_cases (k : Byte) (p : List Byte) :
    (isRequestKind k = true ∧ ∃ r, carries k p r) ∨
      (isRequestKind k = false ∧ requestOfFrame ⟨k, p⟩ = .unknownRequest k p) := by
  by_cases h : 1 ≤ k.toNat ∧ k.toNat ≤ 24
  · obtain ⟨hlo, hhi⟩ := h
    refine .inl ⟨by simp [isRequestKind, hlo, hhi], ?_⟩
    obtain ⟨n, hn⟩ : ∃ n, n = k.toNat := ⟨_, rfl⟩
    rw [← hn] at hlo hhi
    obtain rfl : k = BitVec.ofNat 8 n := BitVec.eq_of_toNat_eq (by simp [hn])
    clear hn
    interval_cases n
    all_goals exact ⟨_, rfl, rfl, rfl, fun n hn => by cases hn <;> rfl⟩
  · refine .inr ⟨by simpa [isRequestKind] using h, ?_⟩
    unfold requestOfFrame
    split
    case h_25 => rfl
    all_goals exact absurd ⟨by simp only at *; omega, by simp only at *; omega⟩ h

theorem step_of_pending_nil {s : State} (h : s.pending = []) : step s = .next (tick s) := by
  simp only [step, h]

/-- Settles O1: the front command by the definition of a step, the tick's events by `dueEvents_rule`, and the kinds
one by one. -/
theorem stepTakesFrontCommand : Obligations.StepTakesFrontCommand := by
  refine ⟨fun c rest s hc => ?front, fun s hs => ?tick, fun p => ⟨?kinds, fun k hk => ?unknown⟩⟩
  case front =>
    simp only [step, hc]
    rfl
  case tick => exact ⟨step_of_pending_nil hs, dueEvents_rule _⟩
  case kinds =>
    intro x hx
    simp only [List.mem_cons, List.not_mem_nil, or_false] at hx
    rcases hx with rfl | rfl | rfl | rfl | rfl | rfl | rfl | rfl | rfl | rfl | rfl | rfl | rfl | rfl | rfl | rfl |
      rfl | rfl | rfl | rfl | rfl | rfl | rfl | rfl
    all_goals rfl
  case unknown =>
    obtain ⟨h, -⟩ | ⟨-, h⟩ := requestOfFrame_cases k p
    · simp [hk] at h
    · exact h

/-! ### One reply to each request (R192) -/

/-- A rule's answer refuses, and then leaves the part alone, or it takes the request with OK. -/
def Judged (s : State) (a : Answer) : Prop :=
  (∃ st d₁ d₂, a = refuseWith st d₁ d₂ s) ∨ ∃ content, a.1 = 0#8 :: content

theorem judged_refuse (st : Status) (s : State) : Judged s (refuse st s) := .inl ⟨st, 0#8, 0#8, rfl⟩

theorem judged_refuseWith (st : Status) (d₁ d₂ : Byte) (s : State) : Judged s (refuseWith st d₁ d₂ s) :=
  .inl ⟨st, d₁, d₂, rfl⟩

theorem judged_accept (content : List Byte) (s t : State) : Judged s (accept content t) := .inr ⟨content, rfl⟩

theorem judged_encf (p : List Byte) (s : State) : Judged s (answerEncf p s) := by
  unfold answerEncf
  split_ifs
  iterate 3 exact judged_refuse _ _
  split
  · exact judged_refuse _ _
  · exact judged_accept _ _ _

theorem judged_mnts (p : List Byte) (s : State) : Judged s (answerMnts p s) := by
  unfold answerMnts
  dsimp only
  split_ifs
  iterate 5 exact judged_refuse _ _
  exact judged_accept _ _ _

theorem judged_cwr (p : List Byte) (s : State) : Judged s (answerCwr p s) := by
  unfold answerCwr
  split_ifs
  iterate 3 exact judged_refuse _ _
  exact judged_accept _ _ _

theorem judged_gsaf (p : List Byte) (s : State) : Judged s (answerGsaf p s) := by
  unfold answerGsaf
  split_ifs
  iterate 3 exact judged_refuse _ _
  exact judged_accept _ _ _

theorem judged_program (op : ProgOp) (s : State) : Judged s (answerProgram op s) := by
  unfold answerProgram
  split_ifs
  iterate 2 exact judged_refuse _ _
  exact judged_accept _ _ _

theorem judged_cers (s : State) : Judged s (answerCers s) := by
  unfold answerCers
  split_ifs
  iterate 2 exact judged_refuse _ _
  exact judged_accept _ _ _

theorem judged_wkld (p : List Byte) (s : State) : Judged s (answerWkld p s) := by
  unfold answerWkld
  dsimp only
  split_ifs
  iterate 3 exact judged_refuse _ _
  split
  · exact judged_refuseWith _ _ _ _
  · exact judged_accept _ _ _

theorem judged_stcl (s : State) : Judged s (answerStcl s) := by
  unfold answerStcl
  split_ifs
  · exact judged_refuse _ _
  · exact judged_accept _ _ _

theorem judged_stwn (p : List Byte) (s : State) : Judged s (answerStwn p s) := by
  unfold answerStwn
  split_ifs
  · exact judged_refuse _ _
  split
  · exact judged_refuse _ _
  dsimp only
  split_ifs
  · exact judged_refuse _ _
  · exact judged_accept _ _ _

theorem judged_stgt (p : List Byte) (s : State) : Judged s (answerStgt p s) := by
  unfold answerStgt
  dsimp only
  split_ifs
  · exact judged_refuse _ _
  · split
    · exact judged_refuse _ _
    · exact judged_accept _ _ _
  · exact judged_refuse _ _

theorem judged_swap (s : State) : Judged s (answerSwap s) := by
  unfold answerSwap
  split_ifs
  · exact judged_refuse _ _
  split
  · exact judged_refuse _ _
  split
  · exact judged_refuseWith _ _ _ _
  · exact judged_accept _ _ _

theorem judged_swcn (s : State) : Judged s (answerSwcn s) := by
  unfold answerSwcn
  split_ifs
  · exact judged_accept _ _ _
  · exact judged_refuse _ _
  · exact judged_accept _ _ _

theorem judged_hold (p : List Byte) (s : State) : Judged s (answerHold p s) := by
  unfold answerHold
  split
  · exact judged_refuse _ _
  · exact judged_accept _ _ _

theorem judged_prbf (p : List Byte) (s : State) : Judged s (answerPrbf p s) := by
  unfold answerPrbf
  dsimp only
  split
  · exact judged_refuse _ _
  · exact judged_accept _ _ _

theorem judged_armp (p : List Byte) (s : State) : Judged s (answerArmp p s) := by
  unfold answerArmp
  dsimp only
  cases armpSettings (readArmp p) s.enc.settings.cpr
  · split_ifs
    all_goals exact judged_refuse _ _
  · split_ifs
    iterate 7 exact judged_refuse _ _
    exact judged_accept _ _ _

theorem judged_abrt (s : State) : Judged s (answerAbrt s) := by
  unfold answerAbrt
  split
  all_goals exact judged_accept _ _ _

/-- Every owner refuses a request and changes nothing, or takes it with OK. -/
theorem judged_of_requestOf {c : Instr} {r : Request} (h : requestOf c = some r) (s : State) :
    Judged s (r.owner s) := by
  cases c <;> cases h
  case encf p => exact judged_encf p s
  case mnts p => exact judged_mnts p s
  case cwr p => exact judged_cwr p s
  case gsaf p => exact judged_gsaf p s
  case ccmt => exact judged_program _ s
  case clck => exact judged_program _ s
  case cers => exact judged_cers s
  case wkld p => exact judged_wkld p s
  case stcl => exact judged_stcl s
  case stwn p => exact judged_stwn p s
  case stgt p => exact judged_stgt p s
  case swap => exact judged_swap s
  case swcn => exact judged_swcn s
  case hold p => exact judged_hold p s
  case prbf p => exact judged_prbf p s
  case armp p => exact judged_armp p s
  case abrt => exact judged_abrt s
  all_goals exact judged_accept _ _ _

theorem RaisesOnly.requests {s t : State} (h : RaisesOnly s t) : t.lnk.requests = s.lnk.requests := by
  unfold RaisesOnly at h
  generalize s.lnk = j at h
  generalize t.lnk = k at h
  induction h with
  | refl => rfl
  | tail _ hn ih =>
    obtain ⟨n, rfl⟩ := hn
    exact ih

/-- The work of a request leaves the request buffer alone. -/
theorem Work.requests {c : Instr} {s t : State} {r : Request} (hw : Work c s t) (h : requestOf c = some r) :
    t.lnk.requests = s.lnk.requests := by
  cases hw
  case reset hreset =>
    obtain ⟨rfl, -⟩ | ⟨rfl, -⟩ | ⟨rfl, -⟩ := hreset
    all_goals cases h
  case encoder => exact ((raisesOnly_renewSettings _).after rfl).requests
  case erase =>
    have renewed := raisesOnly_renewSettings (startProgram .cers
      (s.setCal { s.cal with working := Settings.default, origin := .defaults, locked := false }))
    exact ((renewed.before (by simp [applyCers])).after rfl).requests
  case holdSense => exact ((raisesOnly_updateHold _).after rfl).requests
  case latches => exact (raisesOnly_clearLatches _ s).requests
  case timing => exact ((raisesOnly_timeoutHeads _ _).after rfl).requests
  case aborted => simp
  case nothing => rfl
  case causes => rfl
  case closed => rfl
  case masked => rfl
  case cleared => rfl
  case mount => rfl
  case runout => rfl
  case safeLevels => simp
  case commit => rfl
  case lock => rfl
  case workpiece => simp
  case emptied => rfl
  case inserted => rfl
  case gateRecord => rfl
  case pended => rfl
  case unpended => rfl
  case armed => rfl
  case freeUsed => rfl
  all_goals cases h

theorem dispatchable_of_can {k : Byte} {p : List Byte} {s : State} (h : CanDispatch k p s) :
    dispatchable ⟨k, p⟩ s = true := (dispatchable_iff ⟨k, p⟩ s).mpr h

theorem not_dispatchable_of {k : Byte} {p : List Byte} {s : State} (h : ¬ CanDispatch k p s) :
    dispatchable ⟨k, p⟩ s = false := by
  rw [Bool.eq_false_iff]
  exact fun hd => h ((dispatchable_iff ⟨k, p⟩ s).mp hd)

/-- A dispatched request of a wrong length is refused, and one of the right length is its owner's to answer. -/
theorem exec_carried {k : Byte} {p : List Byte} {s : State} {r : Request} (h : carries k p r)
    (hd : CanDispatch k p s) : exec (requestOfFrame ⟨k, p⟩) s = .next (placeReply (replyKind k)
      (if r.lengthOk = true then r.owner (takeRequest s) else refuse .badLength (takeRequest s))) := by
  obtain ⟨hr, rfl, rfl, -⟩ := h
  rw [exec_of_requestOf hr]
  simp [dispatch, dispatchable_of_can hd]

theorem exec_unknown {k : Byte} {p : List Byte} {s : State} (h : isRequestKind k = false) (hd : CanDispatch k p s) :
    exec (.unknownRequest k p) s = .next { s with lnk := answered s.lnk 0x80#8 [7#8, k, 0#8] } := by
  show execUnknownRequest k p s = _
  unfold execUnknownRequest
  rw [h, dispatchable_of_can hd]
  rfl

theorem exec_not_dispatched {k : Byte} {p : List Byte} {s : State} (h : ¬ CanDispatch k p s) :
    exec (requestOfFrame ⟨k, p⟩) s = .next s := by
  obtain ⟨-, r, hr, rfl, rfl, -⟩ | ⟨-, hu⟩ := requestOfFrame_cases k p
  · rw [exec_of_requestOf hr]
    simp [dispatch, not_dispatchable_of h]
  · rw [hu]
    show execUnknownRequest k p s = _
    simp [execUnknownRequest, not_dispatchable_of h]

/-- What O3 says of a reply that is placed over the taken request. -/
theorem placeReply_judged {s : State} {a : Answer} (k : Byte) (ha : Judged (takeRequest s) a)
    (hq : a.2.lnk.requests = s.lnk.requests.tail) :
    let t := placeReply k a
    t.lnk.reply = some ⟨k, a.1⟩ ∧ t.lnk.requests = s.lnk.requests.tail ∧ a.1 ≠ [] ∧
      (a.1.head? ≠ some 0#8 → a.1.length = 3 ∧ t = { s with lnk := answered s.lnk k a.1 }) := by
  refine ⟨rfl, hq, ?_⟩
  obtain ⟨st, d₁, d₂, rfl⟩ | ⟨content, hc⟩ := ha
  · exact ⟨List.cons_ne_nil _ _, fun _ => ⟨rfl, rfl⟩⟩
  · rw [hc]
    exact ⟨List.cons_ne_nil _ _, fun h => absurd rfl h⟩

/-- Settles O3: a known kind is refused for its length or answered by its owner, who refuses without a change or takes
the request; an unknown kind is refused. -/
theorem eachRequestGetsOneReply : Obligations.EachRequestGetsOneReply := by
  refine fun k p s => ⟨fun hd => ?_, exec_not_dispatched⟩
  obtain ⟨hk, r, hr⟩ | ⟨hk, hu⟩ := requestOfFrame_cases k p
  · refine ⟨(if r.lengthOk = true then r.owner (takeRequest s) else refuse .badLength (takeRequest s)).1, _,
      exec_carried hr hd, ?_⟩
    rw [if_pos hk]
    refine placeReply_judged (k ||| 0x80#8) ?_ ?_
    · split_ifs
      · exact judged_of_requestOf hr.1 _
      · exact judged_refuse _ _
    · split_ifs
      · exact (answers_of_requestOf hr.1 (takeRequest s)).requests hr.1
      · rfl
  · rw [hu, hk]
    exact ⟨_, _, exec_unknown hk hd, rfl, rfl, List.cons_ne_nil _ _, fun _ => ⟨rfl, rfl⟩⟩

/-- Settles O4: the length is judged before the owner is asked. -/
theorem dispatchJudgesKindAndLength : Obligations.DispatchJudgesKindAndLength := by
  refine fun k p s hd => ⟨fun hk => exec_unknown hk hd, fun n hn hlen => ?length, ?wkld⟩
  case length =>
    obtain ⟨-, r, hr⟩ | ⟨hk, -⟩ := requestOfFrame_cases k p
    · rw [exec_carried hr hd, hr.2.2.2 n hn, if_neg (by simpa using hlen)]
      rfl
    · have outside : ¬ (1 ≤ k.toNat ∧ k.toNat ≤ 24) := by simpa [isRequestKind] using hk
      unfold fixedLength at hn
      split at hn
      case h_13 => rw [if_neg outside] at hn; cases hn
      all_goals exact absurd ⟨by omega, by omega⟩ outside
  case wkld =>
    rintro rfl hlen
    show execWkld p s = _
    simp only [execWkld, dispatch, kindWkld, dispatchable_of_can hd, if_true]
    rw [if_neg (by simpa using hlen)]
    rfl

/-! ### LNK's own requests (R195, R196, R197, R199) -/

/-- The number that two bytes spell, high byte first. -/
theorem toNat_append_bytes (hi lo : Byte) : (hi ++ lo).toNat = hi.toNat * 256 + lo.toNat := by
  rw [BitVec.toNat_append, Nat.shiftLeft_eq, Nat.mul_comm, ← Nat.two_pow_add_eq_or_of_lt lo.isLt, Nat.mul_comm]

theorem fieldNat_pair (hi lo : Byte) : fieldNat [hi, lo] 0 2 = hi.toNat * 256 + lo.toNat := by
  simp [fieldNat, fieldBytes, natOfBytes]

theorem maskOf_pair (hi lo : Byte) : BitVec.ofNat 10 (fieldNat [hi, lo] 0 2) = (hi ++ lo).setWidth 10 := by
  apply BitVec.eq_of_toNat_eq
  rw [BitVec.toNat_ofNat, BitVec.toNat_setWidth, toNat_append_bytes, fieldNat_pair]

/-- NMSK echoes its ten bits in two bytes, the six above them as 0. -/
theorem maskBytes_pair (hi lo : Byte) : beNat 2 ((hi ++ lo).setWidth 10).toNat = [hi &&& 3#8, lo] := by
  have low : (hi &&& 3#8).toNat = hi.toNat % 4 := by
    rw [BitVec.toNat_and]
    exact Nat.and_two_pow_sub_one_eq_mod hi.toNat 2
  have hhi := hi.isLt
  have hlo := lo.isLt
  rw [BitVec.toNat_setWidth, toNat_append_bytes]
  simp only [beNat, List.cons.injEq, and_true, ← BitVec.toNat_inj, BitVec.toNat_ofNat, low]
  omega

/-- Settles O5: each request's one owner rule, over the taken request. -/
theorem idntRsetNmskCclrAnswer : Obligations.IdntRsetNmskCclrAnswer := by
  refine ⟨fun s h => ?idnt, fun s h => ?rset, fun s hi lo h => ?nmsk, fun s h => ?cclr⟩
  case idnt => exact dispatchFixed_of_canDispatch h answerIdnt
  case rset => exact dispatchFixed_of_canDispatch h answerRset
  case nmsk =>
    have reply : answerNmsk [hi, lo] (takeRequest s) =
        accept ([hi &&& 3#8, lo] ++ noticeStateBytes s.lnk.notices)
          ((takeRequest s).setLnk { (takeRequest s).lnk with mask := (hi ++ lo).setWidth 10 }) := by
      simp only [answerNmsk, maskOf_pair, maskBytes_pair]
      rfl
    have placed := dispatchFixed_of_canDispatch h (answerNmsk [hi, lo])
    rw [reply] at placed
    exact placed
  case cclr => exact dispatchFixed_of_canDispatch h answerCclr

end Sys2Proof.Machine
end

