-- ==== Sys2Proof/Proofs/Snapshot.lean ====
section
/-! PROOFS. Proofs/Snapshot.lean: the STAT reply is the eleven sections of R198 and fits a frame, and CRD sends the
working copy and the store's state (R181, R201). -/

namespace Sys2Proof.Machine

open Sys2Proof

/-! ### The length of each section -/

theorem optBytes_map_length {α : Type} (n : Nat) (v : Option α) (f : α → List Byte) (h : ∀ x, (f x).length = n) :
    (optBytes n (v.map f)).length = n + 1 := optBytes_length h

theorem statSection_length (n : Nat) (items : List Byte) : (statSection n items).length = items.length + 3 := by
  simp [statSection]
  omega

theorem flatMap_length_le {α : Type} {f : α → List Byte} {k n : Nat} (hf : ∀ x, (f x).length ≤ k) {l : List α}
    (hl : l.length ≤ n) : (l.flatMap f).length ≤ k * n := by
  have bound : (l.flatMap f).length ≤ k * l.length := by
    induction l with
    | nil => simp
    | cons x xs ih =>
      have hx := hf x
      have hxs := ih (by simp at hl; omega)
      simp only [List.flatMap_cons, List.length_append, List.length_cons, Nat.mul_succ]
      omega
  exact bound.trans (Nat.mul_le_mul_left k hl)

theorem statEnc_length (s : State) : (statEnc s).length = 39 := by
  simp [statEnc, encSettingsBytes]

theorem statAng_length (s : State) : (statAng s).length = 36 := by
  simp [statAng, optBytes_map_length]

theorem bankBytes_length {b : Bank} (h : b.warnings.length ≤ 52) : (bankBytes b).length ≤ 162 := by
  have warnings := flatMap_length_le (f := warningBytes) (k := 3) (fun x => by cases x <;> simp [warningBytes]) h
  simp only [bankBytes, warningListBytes, List.length_append, beNat_length]
  omega

theorem statWbk_length {s : State} (ha : s.wbk.active.warnings.length ≤ 52) (hs : s.wbk.staged.warnings.length ≤ 52) :
    (statWbk s).length ≤ 326 := by
  have active := bankBytes_length ha
  have staged := bankBytes_length hs
  simp only [statWbk, List.length_append, List.length_singleton]
  omega

theorem statPsc_length {s : State} (h : drainBounded s) : (statPsc s).length ≤ 192 := by
  have drain : s.psc.drain.length ≤ 4 := by
    unfold drainBounded summariesOwed at h
    omega
  have listed := flatMap_length_le (f := drainBytes) (k := 11) (fun c => (drainBytes_length c).le) drain
  have counters : ∀ c : Counters, (countersList c).length = 20 := fun _ => rfl
  simp [statPsc, optBytes_map_length, listBytes, List.length_flatMap, counters] at listed ⊢
  omega

theorem statHold_length (s : State) : (statHold s).length = 3 := rfl

theorem statPrb_length {s : State} (h : queueBounded s) : (statPrb s).length ≤ 56 := by
  have listed := flatMap_length_le (f := tagBytes s.now) (k := 8) (fun e => (tagBytes_length _ e).le) (n := 4) h
  simp [statPrb, optBytes_map_length, listBytes] at listed ⊢
  omega

theorem statPnt_length (s : State) : (statPnt s).length = 20 := by simp [statPnt]

theorem statMsk_length {s : State} (h : s.stack.length ≤ stackSize) : (statMsk s).length ≤ 149 := by
  have listed := flatMap_length_le (f := missBytes) (k := 9) (fun m => (missBytes_length m).le) (n := 16) h
  simp only [statMsk, listBytes, List.length_append, beNat_length]
  omega

theorem statGte_length (s : State) : (statGte s).length = 59 := by
  have gates : s.gte.gates.toList.length = 8 := by simp [Eight.toList]
  simp [statGte, optBytes_map_length, List.length_flatMap, gateBytes_length, gates]

theorem statCal_length (s : State) : (statCal s).length = 4 := rfl

theorem statLnk_length (s : State) : (statLnk s).length = 37 := by
  simp [statLnk, optBytes_map_length, linkErrorBytes, noticeStateBytes, noticeKinds]

/-- The STAT reply fits a frame while the lists that it carries are within their bounds (R201). -/
theorem statBytes_length {s : State} (hq : queueBounded s) (hd : drainBounded s) (hs : s.stack.length ≤ stackSize)
    (ha : s.wbk.active.warnings.length ≤ 52) (hw : s.wbk.staged.warnings.length ≤ 52) :
    (0#8 :: statBytes s).length ≤ 1023 := by
  have wbk := statWbk_length ha hw
  have psc := statPsc_length hd
  have prb := statPrb_length hq
  have msk := statMsk_length hs
  simp only [statBytes, List.length_cons, List.length_append, statSection_length, statEnc_length, statAng_length,
    statHold_length, statPnt_length, statGte_length, statCal_length, statLnk_length]
  omega

/-- Settles O6: both owners leave the part alone, and each section holds its items by its law. -/
theorem statAndCrdOnlyReply : Obligations.StatAndCrdOnlyReply := by
  refine ⟨fun s h => dispatchFixed_of_canDispatch h answerStat, fun s h => dispatchFixed_of_canDispatch h answerCrd,
    fun s => ⟨_, _, _, _, _, _, _, _, _, _, _, statBytes_sections s, statEnc_holds s, statAng_holds s, statWbk_holds s,
      statPsc_holds s, statHold_holds s, statPrb_holds s, statPnt_holds s, statMsk_holds s, statGte_holds s,
      statCal_holds s, statLnk_holds s⟩,
    fun s => statBytes_length⟩

end Sys2Proof.Machine
end

