-- ==== Sys2Proof/Proofs/RecordLayouts.lean ====
section
/-! PROOFS. Proofs/RecordLayouts.lean: the records of section 11.8 hold each item at its place, and those that replies echo
read back as they were applied. -/

namespace Sys2Proof.Machine

open Sys2Proof

/-! ### Fields -/

theorem fieldNat_of {b : List Byte} {off n v : Nat} (h : fieldBytes b off n = beNat n v) (hv : v < 256 ^ n) :
    fieldNat b off n = v := by
  rw [fieldNat, h, natOfBytes_beNat, Nat.mod_eq_of_lt hv]

theorem bmod_of_range {n : Nat} {v : Int} (hlo : -(256 ^ n : Int) ≤ 2 * v) (hhi : 2 * v < (256 ^ n : Int)) :
    Int.bmod v (256 ^ n) = v := by
  refine Int.bmod_eq_of_le_mul_two ?_ ?_
  all_goals
    push_cast
    omega

theorem fieldInt_of {b : List Byte} {off n : Nat} {v : Int} (h : fieldBytes b off n = beInt n v)
    (hlo : -(256 ^ n : Int) ≤ 2 * v) (hhi : 2 * v < (256 ^ n : Int)) : fieldInt b off n = v := by
  rw [fieldInt, h, intOfBytes_beInt, bmod_of_range hlo hhi]

/-! ### Window and gate records (R44, R47) -/

/-- The two codes of a blade range that may be absent. -/
def rangeCodes (r : Option BladeRange) : Nat × Nat :=
  match r with
  | none => (255, 0)
  | some r => (r.first, r.count)

/-- The two codes of a required gate that may be absent. -/
def gateCodes (g : Option RequiredGate) : Nat × Nat :=
  match g with
  | none => (255, 0)
  | some g => (g.gate.val, g.level.toNat)

/-- The code of an exclusion group that may be absent. -/
def groupCode (q : Option (Fin 4)) : Nat :=
  match q with
  | none => 255
  | some q => q.val

theorem rangeBytes_eq (r : Option BladeRange) : rangeBytes r = beNat 1 (rangeCodes r).1 ++ beNat 1 (rangeCodes r).2 := by
  cases r <;> simp [rangeBytes, rangeCodes, beNat]

theorem readRange_rangeCodes {r : Option BladeRange} (h : rangeOk r) :
    (rangeCodes r).1 < 256 ∧ (rangeCodes r).2 < 256 ∧ readRange (rangeCodes r).1 (rangeCodes r).2 = some r := by
  cases r with
  | none => exact ⟨by decide, by decide, rfl⟩
  | some r =>
    obtain ⟨hfirst, hlo, hhi⟩ := h r rfl
    refine ⟨by simp only [rangeCodes]; omega, by simp only [rangeCodes]; omega, ?_⟩
    show readRange r.first r.count = _
    unfold readRange
    rw [if_neg (by unfold absentCode; omega), if_neg (by omega)]

theorem windowBytes_eq (w : Window) :
    windowBytes w = beNat 4 w.start ++ beNat 4 w.stop ++ beNat 4 w.step ++ beNat 1 w.exposure ++ beNat 2 w.floor ++
      (beNat 1 (gateCodes w.gate).1 ++ beNat 1 (gateCodes w.gate).2) ++
      (beNat 1 (rangeCodes w.range).1 ++ beNat 1 (rangeCodes w.range).2) := by
  unfold windowBytes
  rw [rangeBytes_eq]
  obtain ⟨_, _, _, _, _, gate, _⟩ := w
  cases gate
  all_goals simp [gateCodes, byteOfBool_eq, beNat]

theorem readRequiredGate_gateCodes (g : Option RequiredGate) :
    (gateCodes g).1 < 256 ∧ (gateCodes g).2 < 256 ∧ readRequiredGate (gateCodes g).1 (gateCodes g).2 = some g := by
  cases g with
  | none => exact ⟨by decide, by decide, rfl⟩
  | some g =>
    obtain ⟨⟨n, hn⟩, level⟩ := g
    refine ⟨by simp only [gateCodes]; omega, Bool.toNat_lt level |>.trans (by decide), ?_⟩
    show readRequiredGate n level.toNat = _
    unfold readRequiredGate
    rw [if_neg (by unfold absentCode; omega), dif_pos hn]
    cases level <;> rfl

theorem gateRecordBytes_eq (r : GateRecord) :
    gateRecordBytes (some r) = beNat 1 1 ++ beNat 4 r.on ++ beNat 4 r.off ++ beNat 4 r.extension ++
      beNat 1 (groupCode r.group) ++ (beNat 1 (rangeCodes r.range).1 ++ beNat 1 (rangeCodes r.range).2) := by
  obtain ⟨_, _, _, group, _⟩ := r
  cases group
  all_goals simp [gateRecordBytes, rangeBytes_eq, groupCode, beNat]

theorem readGroup_groupCode (q : Option (Fin 4)) : groupCode q < 256 ∧ readGroup (groupCode q) = some q := by
  cases q with
  | none => exact ⟨by decide, rfl⟩
  | some q =>
    obtain ⟨n, hn⟩ := q
    refine ⟨by simp only [groupCode]; omega, ?_⟩
    show readGroup n = _
    unfold readGroup
    rw [if_neg (by unfold absentCode; omega), dif_pos hn]

theorem clamp_of_bounds {lo hi v : Nat} (hlo : lo ≤ v) (hhi : v ≤ hi) : clamp lo hi v = v := by
  unfold clamp
  omega

/-- The fields of an echoed window record are those of the window. -/
theorem readStwn_windowBytes {w : Window} (h : windowOk w) :
    readStwn (windowBytes w) = ⟨w.start, w.stop, w.step, w.exposure, w.floor, (gateCodes w.gate).1,
      (gateCodes w.gate).2, (rangeCodes w.range).1, (rangeCodes w.range).2⟩ := by
  obtain ⟨hss, hstop, -, hstep, hexp, hfloor, hrange⟩ := h
  obtain ⟨hfirst, hcount, -⟩ := readRange_rangeCodes hrange
  obtain ⟨hgate, hlevel, -⟩ := readRequiredGate_gateCodes w.gate
  rw [windowBytes_eq]
  unfold readStwn
  congr 1
  all_goals
    refine fieldNat_of ?_ (by omega)
    simp [fieldBytes_skip, fieldBytes_first, fieldBytes_all]

theorem readWindow_windowBytes {w : Window} (h : windowOk w) : readWindow (readStwn (windowBytes w)) = some w := by
  rw [readStwn_windowBytes h]
  obtain ⟨hss, hstop, hpos, hstep, hexp, hfloor, hrange⟩ := h
  simp only [readWindow, phaseBound, pitchUnits, (readRange_rangeCodes hrange).2.2,
    (readRequiredGate_gateCodes w.gate).2.2]
  rw [if_neg (by omega), if_neg (by omega), if_neg (by omega), clamp_of_bounds (by omega) hexp,
    clamp_of_bounds (by omega) hfloor]

/-- The fields of an echoed gate record are those of the record. -/
theorem readStgt_gateRecordBytes (n : Fin 8) {r : GateRecord} (h : gateRecordOk r) :
    readStgt (beNat 1 n.val ++ gateRecordBytes (some r)) = ⟨n.val, 1, r.on, r.off, r.extension, groupCode r.group,
      (rangeCodes r.range).1, (rangeCodes r.range).2⟩ := by
  obtain ⟨hon, hoff, hext, hrange⟩ := h
  obtain ⟨hfirst, hcount, -⟩ := readRange_rangeCodes hrange
  obtain ⟨hgroup, -⟩ := readGroup_groupCode r.group
  have hn := n.isLt
  rw [gateRecordBytes_eq]
  unfold readStgt
  congr 1
  all_goals
    refine fieldNat_of ?_ (by omega)
    simp [fieldBytes_skip, fieldBytes_first, fieldBytes_all]

theorem readStgt_gate_mode_unused (n : Fin 8) :
    (readStgt (beNat 1 n.val ++ gateRecordBytes none)).gate = n.val ∧
      (readStgt (beNat 1 n.val ++ gateRecordBytes none)).mode = 0 := by
  have hn := n.isLt
  refine ⟨fieldNat_of (fieldBytes_first (by simp)) (by omega), fieldNat_of (v := 0) ?_ (by omega)⟩
  rw [fieldBytes_skip (by simp)]
  rfl

theorem readGateRecord_gateRecordBytes (n : Fin 8) {r : Option GateRecord} (h : ∀ g, r = some g → gateRecordOk g) :
    (readStgt (beNat 1 n.val ++ gateRecordBytes r)).gate = n.val ∧
      readGateRecord (readStgt (beNat 1 n.val ++ gateRecordBytes r)) = some r := by
  cases r with
  | none =>
    obtain ⟨hgate, hmode⟩ := readStgt_gate_mode_unused n
    exact ⟨hgate, by rw [readGateRecord, if_pos hmode]⟩
  | some g =>
    have hg := h g rfl
    rw [readStgt_gateRecordBytes n hg]
    obtain ⟨hon, hoff, hext, hrange⟩ := hg
    refine ⟨rfl, ?_⟩
    simp only [readGateRecord, phaseBound, (readRange_rangeCodes hrange).2.2, (readGroup_groupCode g.group).2]
    rw [if_neg (by omega), if_neg (by omega), if_neg (by omega), if_neg (by omega),
      clamp_of_bounds (Nat.zero_le _) (show g.extension ≤ extensionBound from hext)]

/-! ### Settings (R16, R178) -/

theorem senseCode_toNat (s : Sense) : [senseCode s] = beNat 1 (senseCode s).toNat ∧
    senseOfCode (senseCode s).toNat = some s := by
  cases s <;> exact ⟨rfl, rfl⟩

theorem encfSettings_encSettingsBytes {e : EncSettings} (h : encSettingsOk e) :
    encfSettings (readEncf (encSettingsBytes e)) = some e := by
  obtain ⟨hcpr, htol, hlo, hhi⟩ := h
  obtain ⟨hbyte, hsense⟩ := senseCode_toNat e.sense
  have bound : e.cpr ≤ 16777216 := by
    simp only [cprOk, Bool.and_eq_true, decide_eq_true_eq] at hcpr
    exact hcpr.2
  have read : readEncf (encSettingsBytes e) = ⟨e.cpr, (senseCode e.sense).toNat, e.tolerance, e.filterPeriod⟩ := by
    have hcode := (senseCode e.sense).isLt
    unfold readEncf encSettingsBytes
    rw [hbyte]
    congr 1
    all_goals
      refine fieldNat_of ?_ (by omega)
      simp [fieldBytes_skip, fieldBytes_first, fieldBytes_all]
  simp only [read, encfSettings, hcpr, if_true, hsense, Option.map_some, clamp_of_bounds (Nat.zero_le _) htol,
    clamp_of_bounds hlo hhi]

theorem readMnts_mount {r0 scale : Nat} (h0 : r0 ≤ 100000000) (hs : scale ≤ 65536) :
    readMnts (beNat 4 r0 ++ beNat 4 scale) = { r0 := r0, scale := scale } := by
  unfold readMnts
  congr 1
  · exact fieldNat_of (fieldBytes_first (by simp)) (by omega)
  · exact fieldNat_of (by simp [fieldBytes_skip, fieldBytes_all]) (by omega)

/-! ### The unprompted records -/

theorem flagsByte_bits (f : PointFlags) :
    let bit := fun i => (pointFlagsByte f).getLsbD i
    bit 0 = f.overlap ∧ bit 1 = f.retry ∧ bit 2 = f.void ∧ bit 3 = f.dim ∧ bit 4 = f.sat ∧ bit 5 = f.range ∧
      bit 6 = f.gate ∧ bit 7 = f.uncal := by
  obtain ⟨overlap, retry, void, dim, sat, range, gate, uncal⟩ := f
  revert overlap retry void dim sat range gate uncal
  decide

theorem codeByte (b : Byte) : [b] = beNat 1 b.toNat := by simp [beNat]

/-- The point record holds its items (section 11.8). -/
theorem pointBytes_holds {p : PointRecord} (h : pointOk p) :
    let b := pointBytes p
    b.length = 29 ∧ fieldNat b 0 2 = p.passId ∧ fieldNat b 2 4 = p.sequence ∧ fieldNat b 6 1 = p.blade ∧
    fieldNat b 7 1 = p.window ∧ fieldNat b 8 4 = p.j ∧ b.getD 12 0#8 = pointFlagsByte p.flags ∧
    fieldNat b 13 1 = p.attempts ∧ fieldNat b 14 1 = (missCauseCode p.lastCause).toNat ∧
    fieldNat b 15 1 = p.exposure ∧ fieldNat b 16 3 = p.theta ∧ fieldNat b 19 4 = p.phase ∧
    fieldInt b 23 4 = p.radius ∧ fieldNat b 27 2 = p.intensity := by
  obtain ⟨hid, hseq, hblade, hwindow, hj, hatt, hexp, htheta, hphase, hlo, hhi, hint⟩ := h
  have hcause := (missCauseCode p.lastCause).isLt
  have hseq' : p.sequence < 4294967296 := by unfold counterMax at hseq; omega
  dsimp only
  unfold pointBytes
  rw [codeByte (missCauseCode p.lastCause)]
  refine ⟨by simp, fieldNat_of ?_ (by omega), fieldNat_of ?_ (by omega), fieldNat_of ?_ (by omega),
    fieldNat_of ?_ (by omega), fieldNat_of ?_ (by omega), by simp [beNat], fieldNat_of ?_ (by omega),
    fieldNat_of ?_ (by omega), fieldNat_of ?_ (by omega), fieldNat_of ?_ (by omega), fieldNat_of ?_ (by omega),
    fieldInt_of ?_ (by omega) (by omega), fieldNat_of ?_ (by omega)⟩
  all_goals simp [fieldBytes_cons, fieldBytes_skip, fieldBytes_first, fieldBytes_all]

/-- The pass summary holds its items (R82). -/
theorem summaryBytes_holds {m : Summary} (h : summaryOk m) :
    let b := summaryBytes m
    b.length = 89 ∧ fieldNat b 0 2 = m.passId ∧ fieldNat b 2 1 = (endStatusCode m.endStatus).toNat ∧
    fieldInt b 3 4 = m.height ∧ fieldNat b 7 1 = m.turnsUsed ∧ fieldNat b 8 1 = m.largestSnap ∧
    (List.range 20).map (fun i => fieldNat b (9 + 4 * i) 4) = countersList m.counters := by
  obtain ⟨hid, hlo, hhi, hturns, hsnap, hcounters⟩ := h
  have hend := (endStatusCode m.endStatus).isLt
  have hlen : (countersList m.counters).length = 20 := rfl
  dsimp only
  unfold summaryBytes
  rw [codeByte (endStatusCode m.endStatus)]
  refine ⟨by simp [List.length_flatMap, hlen], fieldNat_of ?_ (by omega), fieldNat_of ?_ (by omega),
    fieldInt_of ?_ (by omega) (by omega), fieldNat_of ?_ (by omega), fieldNat_of ?_ (by omega), ?counters⟩
  case counters =>
    generalize hh : beNat 2 m.passId ++ beNat 1 (endStatusCode m.endStatus).toNat ++ beInt 4 m.height ++
      beNat 1 m.turnsUsed ++ beNat 1 m.largestSnap = head
    have hhead : head.length = 9 := by simp [← hh]
    refine List.ext_getElem (by simp [hlen]) fun i hi hi' => ?_
    have row := fieldBytes_row (f := beNat 4) (beNat_length 4) (List.getElem?_eq_getElem hi') head [] (r := 0) (n := 4)
      (by omega)
    rw [List.append_nil, hhead, Nat.add_zero] at row
    have bound := hcounters _ (List.getElem_mem hi')
    unfold counterMax at bound
    rw [List.getElem_map, List.getElem_range]
    exact fieldNat_of (row.trans (fieldBytes_all (by simp))) (by omega)
  all_goals simp [fieldBytes_skip, fieldBytes_first]

/-- The notice record holds its items (section 11.8). -/
theorem noticeBytes_holds (k : NoticeKind) {p : Pending} (h : p.count ≤ 255) :
    (noticeBytes k p).length = 8 ∧ fieldNat (noticeBytes k p) 0 1 = noticePriority k ∧
      fieldNat (noticeBytes k p) 1 1 = p.count ∧
      (noticeBytes k p).drop 2 = noticeDetail p.detail ++ List.replicate (6 - (noticeDetail p.detail).length) 0#8 := by
  have detail : (noticeDetail p.detail).length ≤ 6 := by
    cases p.detail <;> simp [noticeDetail]
  have kind : noticePriority k < 256 := by cases k <;> decide
  refine ⟨?_, fieldNat_of ?_ (by omega), fieldNat_of ?_ (by omega), ?_⟩
  · simp only [noticeBytes, List.length_append, beNat_length, List.length_replicate]
    omega
  · simp [noticeBytes, fieldBytes_first]
  · simp [noticeBytes, fieldBytes_skip, fieldBytes_first]
  · rw [noticeBytes, List.drop_append_of_le_length (by simp)]
    simp [beNat]

/-- Settles O9: fields by `fieldNat_of` and `fieldInt_of`, records by their items. -/
theorem echoedRecordsReadBack : Obligations.EchoedRecordsReadBack := by
  refine ⟨fun n v h => ?nat, fun n v hlo hhi => ?int, fun w => readWindow_windowBytes,
    fun n r => readGateRecord_gateRecordBytes n, fun e => encfSettings_encSettingsBytes, fun r0 scale => readMnts_mount,
    fun p h => ?point, fun m h => ?summary, fun k p h => ?notice⟩
  case nat => rw [natOfBytes_beNat, Nat.mod_eq_of_lt h]
  case int => rw [intOfBytes_beInt, bmod_of_range hlo hhi]
  case point =>
    obtain ⟨hlen, hid, hseq, hblade, hwindow, hj, hflags, hatt, hcause, hrest⟩ := pointBytes_holds h
    refine ⟨hlen, hid, hseq, hblade, hwindow, hj, ?_, hatt, hcause.trans ?_, hrest⟩
    · rw [hflags]
      exact flagsByte_bits p.flags
    · cases p.lastCause with
      | none => rfl
      | some c => cases c <;> rfl
  case summary =>
    obtain ⟨hlen, hid, hend, hrest⟩ := summaryBytes_holds h
    refine ⟨hlen, hid, hend.trans ?_, hrest⟩
    cases m.endStatus with
    | none => rfl
    | some st => cases st <;> rfl
  case notice =>
    obtain ⟨hlen, hkind, hcount, hdetail⟩ := noticeBytes_holds k h
    refine ⟨hlen, hkind, hcount, hdetail.trans ?_⟩
    generalize p.detail = d
    cases d
    case probeFault tag n =>
      have nibble : BitVec.ofNat 8 tag.toNat = tag.setWidth 8 := BitVec.eq_of_toNat_eq (by simp)
      simp [noticeDetail, nibble]
    case encoderFault c => cases c <;> rfl
    case gateFault g st => cases st <;> rfl
    case storeDone op r => cases op <;> cases r <;> rfl
    case holdChange a => cases a <;> rfl
    case linkError c v => cases c <;> rfl
    all_goals rfl

end Sys2Proof.Machine
end

