-- ==== Sys2Proof/Proofs/LinkPort.lean ====
section
/-! PROOFS. Proofs/LinkPort.lean: the transmit arbiter's choice and the moment at which a record leaves its source (R193,
R194), and what the receiver makes of a frame (R187 to R191). -/

namespace Sys2Proof.Machine

open Sys2Proof

/-! ### The arbiter's choice (R193, R195) -/

/-- The arbiter takes the kind of highest priority, since it asks them in this order. -/
theorem selectedKind_of {n : Notices} {mask : BitVec 10} {k : NoticeKind} (hk : noticeSlot n k ≠ none)
    (hmask : mask.getLsbD (noticePriority k - 1) = true)
    (first : ∀ j, noticePriority j < noticePriority k →
      noticeSlot n j = none ∨ mask.getLsbD (noticePriority j - 1) = false) : selectedKind n mask = some k := by
  have place : ∃ h : noticePriority k - 1 < noticeKinds.length, noticeKinds[noticePriority k - 1] = k := by
    cases k <;> exact ⟨by decide, rfl⟩
  obtain ⟨hlt, hat⟩ := place
  have order : ∀ i (h : i < noticeKinds.length), noticePriority noticeKinds[i] = i + 1 := by decide
  rw [selectedKind, List.find?_eq_some_iff_getElem]
  refine ⟨by simp [maskEnables, hmask, Option.isSome_iff_ne_none, hk], _, hlt, hat, fun j hj => ?_⟩
  obtain none | masked := first (noticeKinds[j]'(by omega)) (by rw [order]; omega)
  · simp [none]
  · simp [maskEnables, masked]

theorem selectedKind_eq_none {n : Notices} {mask : BitVec 10}
    (h : ∀ k, noticeSlot n k = none ∨ mask.getLsbD (noticePriority k - 1) = false) : selectedKind n mask = none := by
  rw [selectedKind, List.find?_eq_none]
  intro k _
  obtain none | masked := h k
  · simp [none]
  · simp [maskEnables, masked]

theorem chosenSource_reply {s : State} (h : s.lnk.reply ≠ none) : chosenSource s = some .reply := by
  simp [chosenSource, Option.isSome_iff_ne_none, h]

theorem chosenSource_notice {s : State} {k : NoticeKind} (hr : s.lnk.reply = none)
    (hk : selectedKind s.lnk.notices s.lnk.mask = some k) : chosenSource s = some (.notice k) := by
  simp [chosenSource, hr, hk]

theorem chosenSource_buffer {s : State} (hr : s.lnk.reply = none) (hk : selectedKind s.lnk.notices s.lnk.mask = none) :
    chosenSource s = if s.pnt.buffer = [] then none else some .buffer := by
  simp [chosenSource, hr, hk]

/-! ### The record boundary -/

theorem exec_recordBoundary {s : State} {span : Nat} (hlock : s.lnk.lock = some span) (hdone : txDone s = true)
    (hreset : ¬ (s.lnk.rsetTaken = true ∧ s.lnk.reply = none)) :
    exec .recordBoundary s = .next (openRecord span s) := by
  have open' : rsetReplyTaken s = false := by
    rw [Bool.eq_false_iff]
    simpa [rsetReplyTaken] using hreset
  show execRecordBoundary s = _
  simp [execRecordBoundary, hlock, hdone, open']

theorem openRecord_of_chosen {s : State} {src : RecordSource} (span : Nat) (h : chosenSource s = some src) :
    openRecord span s = { s with lnk := { s.lnk with tx := .opening src (8 * s.now + 14 * span) } } := by
  rw [openRecord, h]
  rfl

theorem openRecord_of_none {s : State} (span : Nat) (h : chosenSource s = none) :
    openRecord span s = { s with lnk := { s.lnk with tx := .idle } } := by
  rw [openRecord, h]
  rfl

theorem exec_recordBoundary_idle {s : State} (h : s.lnk.lock = none ∨ txDone s = false) :
    exec .recordBoundary s = .next s := by
  show execRecordBoundary s = _
  unfold execRecordBoundary
  split
  · rfl
  · next span hlock =>
    obtain none | busy := h
    · cases hlock.symm.trans none
    · simp [busy]

/-! ### The first character of a record (R193, R194; log entry 28) -/

theorem frameCharacters_length (f : Frame) : (frameCharacters f).length = f.payload.length + 5 := by
  simp [frameCharacters, frameBody]
  omega

/-- With an empty queue a step is a tick, whose events alone are left open. -/
theorem step_tick {s t : State} (hp : s.pending = []) (ht : startCharacters { s with now := s.now + 1 } = t) :
    ∃ due, step s = .next { t with pending := due } := by
  subst ht
  exact ⟨_, step_of_pending_nil hp⟩

/-- The record begins with its first character: the frame at its source leaves it and is sent. -/
theorem beginRecord_of_frame {s : State} {span : Nat} {src : RecordSource} {f : Frame} (first : Nat)
    (hlock : s.lnk.lock = some span) (hf : sourceFrame src s = some f) :
    beginRecord src first s =
      setTx (.sending f (first + 10 * (f.payload.length + 5) * span)) (leaveSource src s) := by
  simp only [beginRecord, hlock, hf, characterBits, frameCharacters_length]

theorem startCharacters_before {s : State} {src : RecordSource} {first : Nat} (htx : s.lnk.tx = .opening src first)
    (h : 8 * s.now < first) : startCharacters s = s := by
  simp only [startCharacters, htx]
  rw [if_neg (by omega)]

theorem startCharacters_begins {s : State} {span : Nat} {src : RecordSource} {first : Nat} {f : Frame}
    (htx : s.lnk.tx = .opening src first) (h : first ≤ 8 * s.now) (hlock : s.lnk.lock = some span)
    (hf : sourceFrame src s = some f) :
    startCharacters s = setTx (.sending f (first + 10 * (f.payload.length + 5) * span)) (leaveSource src s) := by
  simp only [startCharacters, htx]
  rw [if_pos h, beginRecord_of_frame first hlock hf]

/-- Settles O8: the arbiter's order at the boundary, and the tick that begins the record. -/
theorem recordBoundaryTakesByPriority : Obligations.RecordBoundaryTakesByPriority := by
  refine ⟨fun s span hlock hdone hreset => ?boundary, fun s h => exec_recordBoundary_idle ?idle,
    fun s span first src hp hlock htx => ⟨fun hlt => ?before, fun hle => ⟨?reply, ?notice, ?buffer⟩⟩⟩
  case boundary =>
    rw [exec_recordBoundary hlock ((txDone_iff s).mpr hdone) hreset]
    refine ⟨fun hr => ?_, fun k hr hk hmask hfirst => ?_, fun hr hnone => ⟨fun hb => ?_, fun hb => ?_⟩⟩
    · rw [openRecord_of_chosen span (chosenSource_reply hr)]
    · rw [openRecord_of_chosen span (chosenSource_notice hr (selectedKind_of hk hmask hfirst))]
    · rw [openRecord_of_chosen span ((chosenSource_buffer hr (selectedKind_eq_none hnone)).trans (if_neg hb))]
    · rw [openRecord_of_none span ((chosenSource_buffer hr (selectedKind_eq_none hnone)).trans (if_pos hb))]
  case idle =>
    obtain h | ⟨src, first, h⟩ | ⟨f, e, h, hlt⟩ := h
    · exact .inl h
    · exact .inr (by simp [txDone, h])
    · exact .inr (by simp [txDone, h, hlt])
  case before =>
    obtain ⟨due, hdue⟩ := step_tick hp (startCharacters_before (s := { s with now := s.now + 1 }) htx hlt)
    exact ⟨due, hdue⟩
  case reply =>
    rintro f rfl hf
    obtain ⟨due, hdue⟩ := step_tick hp (startCharacters_begins (s := { s with now := s.now + 1 }) htx hle hlock hf)
    exact ⟨due, hdue⟩
  case notice =>
    rintro k p rfl hk
    have hf : sourceFrame (.notice k) { s with now := s.now + 1 } = some ⟨0xA2#8, noticeBytes k p⟩ := by
      simp only [sourceFrame, hk]
      rfl
    obtain ⟨due, hdue⟩ := step_tick hp (startCharacters_begins (s := { s with now := s.now + 1 }) htx hle hlock hf)
    exact ⟨due, hdue⟩
  case buffer =>
    rintro r rest rfl hb
    have hf : sourceFrame .buffer { s with now := s.now + 1 } = some (bufferFrame r) := by
      simp [sourceFrame, hb]
    obtain ⟨due, hdue⟩ := step_tick hp (startCharacters_begins (s := { s with now := s.now + 1 }) htx hle hlock hf)
    refine ⟨due, hdue.trans ?_⟩
    simp [leaveSource, setTx, hb, State.setPnt, State.setLnk]

end Sys2Proof.Machine
end

