-- ==== Sys2Proof/Proofs/HostReceiver.lean ====
section
/-! PROOFS. Proofs/HostReceiver.lean: what the receiver makes of a frame (R187 to R191): the opening by break and sync, the
body byte by byte, the frame taken or counted as an error. -/

namespace Sys2Proof.Machine

open Sys2Proof

/-! ### Single items -/

theorem setRx_self {s : State} {r : LinkRx} (h : s.lnk.rx = r) : setRx r s = s := by
  subst h
  rfl

/-- A receiver that was idle is idle again. -/
theorem setRx_idle_setRx {s : State} (h : s.lnk.rx = .idle) (r : LinkRx) : setRx .idle (setRx r s) = s :=
  (show setRx .idle (setRx r s) = setRx .idle s from rfl).trans (setRx_self h)

theorem exec_hostFrame (items : List RxItem) (s : State) : exec (.hostFrame items) s = .next (items.foldl takeRx s) := rfl

theorem linkError_counted (c : LinkCounter) (s : State) : linkErrorCounted c s (linkError c s) := by
  unfold linkErrorCounted linkError linkErrorMax
  dsimp only
  exact ⟨fun h => if_pos h, fun h => if_neg (by omega)⟩

theorem isBreak_iff (low span : Nat) : isBreak low span = true ↔ 11 * span ≤ 8 * low := by simp [isBreak]

theorem syncOk_iff (locked span : Nat) : syncOk locked span = true ↔ 16 * ((span : Int) - locked).natAbs ≤ locked := by
  simp [syncOk]

theorem rateOk_iff (span : Nat) : rateOk span = true ↔ 57600 * span ≤ 800000000 ∧ 800000000 ≤ 4000000 * span := by
  simp [rateOk]

section Idle

variable {s : State} (hrx : s.lnk.rx = .idle)

include hrx

theorem takeRx_idle (item : RxItem) : takeRx s item = rxIdle item s := by
  simp only [takeRx, hrx]

theorem takeRx_low_locked {bit low : Nat} (hlock : s.lnk.lock = some bit) (h : 11 * bit ≤ 8 * low) :
    takeRx s (.low low) = setRx (.sync low) s := by
  simp only [takeRx_idle hrx, rxIdle, hlock, if_pos ((isBreak_iff low bit).mpr h)]

theorem takeRx_low_short {bit low : Nat} (hlock : s.lnk.lock = some bit) (h : 8 * low < 11 * bit) :
    takeRx s (.low low) = s := by
  simp only [takeRx_idle hrx, rxIdle, hlock]
  rw [if_neg (by rw [isBreak_iff]; omega)]

theorem takeRx_low_unlocked {low : Nat} (hlock : s.lnk.lock = none) : takeRx s (.low low) = setRx (.sync low) s := by
  simp only [takeRx_idle hrx, rxIdle, hlock]

end Idle

theorem takeRx_sync_locked {s : State} {bit : Nat} (hlock : s.lnk.lock = some bit) (low : Nat) (item : RxItem) :
    takeRx (setRx (.sync low) s) item = rxSyncLocked bit item (setRx (.sync low) s) := by
  have hrx : (setRx (.sync low) s).lnk.rx = .sync low := rfl
  have hlock' : (setRx (.sync low) s).lnk.lock = some bit := hlock
  simp only [takeRx, hrx, hlock']

theorem takeRx_sync_unlocked {s : State} (hlock : s.lnk.lock = none) (low : Nat) (item : RxItem) :
    takeRx (setRx (.sync low) s) item = rxSyncUnlocked low item (setRx (.sync low) s) := by
  have hrx : (setRx (.sync low) s).lnk.rx = .sync low := rfl
  have hlock' : (setRx (.sync low) s).lnk.lock = none := hlock
  simp only [takeRx, hrx, hlock']

theorem takeRx_body {s : State} {bit : Nat} {bytes : List Byte} (hrx : s.lnk.rx = .body bytes)
    (hlock : s.lnk.lock = some bit) (item : RxItem) : takeRx s item = rxBody bit bytes item s := by
  simp only [takeRx, hrx, hlock]

/-! ### The opening of a frame (R187) -/

/-- The part with the receiver locked to a sync span. -/
def lockedTo (bit : Nat) (s : State) : State := { s with lnk := { s.lnk with lock := some bit } }

/-- A break and a sync within the locked rate, or one that locks the receiver, open a frame. -/
theorem takeRx_opening {s : State} {low span bit : Nat} (hrx : s.lnk.rx = .idle)
    (hrate : (s.lnk.lock = some bit ∧ 16 * ((span : Int) - bit).natAbs ≤ bit) ∨
      (s.lnk.lock = none ∧ bit = span ∧ 57600 * span ≤ 800000000 ∧ 800000000 ≤ 4000000 * span))
    (hbreak : 11 * bit ≤ 8 * low) :
    takeRx (takeRx s (.low low)) (.char 0x55#8 span) = setRx (.body []) (lockedTo bit s) := by
  obtain ⟨hlock, hsync⟩ | ⟨hlock, rfl, hslow, hfast⟩ := hrate
  · rw [takeRx_low_locked hrx hlock hbreak, takeRx_sync_locked hlock]
    unfold rxSyncLocked
    dsimp only
    rw [if_pos ⟨rfl, (syncOk_iff bit span).mpr hsync⟩, lockedTo, ← hlock]
    rfl
  · rw [takeRx_low_unlocked hrx hlock, takeRx_sync_unlocked hlock]
    unfold rxSyncUnlocked
    dsimp only
    rw [if_pos ⟨rfl, (rateOk_iff bit).mpr ⟨hslow, hfast⟩, (isBreak_iff low bit).mpr hbreak⟩]
    rfl

/-! ### The body (R188) -/

/-- The bytes of a frame between its sync and its CRC. -/
theorem frameBody_eq (f : Frame) : frameBody f = f.kind :: (beNat 2 f.payload.length ++ f.payload) := rfl

theorem frameBody_length (f : Frame) : (frameBody f).length = f.payload.length + 3 := by
  simp [frameBody_eq]
  omega

/-- The length field of a frame, once it has been received. -/
theorem fieldNat_of_prefix {f : Frame} {bytes : List Byte} (hp : bytes <+: frameBody f) (hlen : 3 ≤ bytes.length)
    (hf : f.payload.length ≤ 1023) : fieldNat bytes 1 2 = f.payload.length := by
  obtain ⟨rest, hrest⟩ := hp
  have whole : fieldBytes (frameBody f) 1 2 = beNat 2 f.payload.length := by
    rw [frameBody_eq, fieldBytes_cons (by omega), fieldBytes_first (by simp)]
  rw [← hrest, fieldBytes_within _ (by omega)] at whole
  rw [fieldNat, whole, natOfBytes_beNat, Nat.mod_eq_of_lt (by omega)]

/-- Before its CRC byte the receiver goes on taking the frame. -/
theorem takeBytes_of_prefix {f : Frame} {bytes : List Byte} (hp : bytes <+: frameBody f)
    (hf : f.payload.length ≤ 1023) (s : State) : takeBytes bytes s = setRx (.body bytes) s := by
  have hle := hp.length_le
  rw [frameBody_length] at hle
  have short : ¬ (bytes.length = 3 ∧ maxPayload < fieldNat bytes 1 2) := by
    rintro ⟨hlen, hlong⟩
    rw [fieldNat_of_prefix hp (by omega) hf] at hlong
    unfold maxPayload at hlong
    omega
  have open' : ¬ (4 ≤ bytes.length ∧ bytes.length = 4 + fieldNat bytes 1 2) := by
    rintro ⟨hlen, heq⟩
    rw [fieldNat_of_prefix hp (by omega) hf] at heq
    omega
  rw [takeBytes, if_neg short, if_neg open']

theorem takeRx_characters {f : Frame} {s : State} {bit : Nat} (hlock : s.lnk.lock = some bit)
    (hf : f.payload.length ≤ 1023) (rest : List Byte) :
    ∀ (front : List Byte) (spans : List Nat), front ++ rest = frameBody f → spans.length = rest.length →
      (List.zipWith RxItem.char rest spans).foldl takeRx (setRx (.body front) s) = setRx (.body (frameBody f)) s := by
  induction rest with
  | nil =>
    intro front spans hfront _
    rw [← hfront, List.append_nil]
    rfl
  | cons b rest ih =>
    intro front spans hfront hspans
    obtain _ | ⟨span, spans⟩ := spans
    · simp at hspans
    · have hp : front ++ [b] <+: frameBody f := ⟨rest, by rw [← hfront]; simp⟩
      have taken : takeRx (setRx (.body front) s) (.char b span) = setRx (.body (front ++ [b])) s := by
        rw [takeRx_body (s := setRx (.body front) s) rfl hlock]
        exact takeBytes_of_prefix hp hf _
      rw [List.zipWith_cons_cons, List.foldl_cons, taken]
      exact ih (front ++ [b]) spans (by rw [← hfront]; simp) (by simpa using hspans)

/-- The CRC byte completes the frame. -/
theorem takeBytes_whole {f : Frame} (hf : f.payload.length ≤ 1023) (b : Byte) (s : State) :
    takeBytes (frameBody f ++ [b]) s =
      if b ≠ frameCrc f then linkError .crc (setRx .idle s)
      else if s.lnk.requests.length < 2 then
        (setRx .idle s).setLnk { (setRx .idle s).lnk with requests := s.lnk.requests ++ [f] }
      else linkError .overrun (setRx .idle s) := by
  have hlen := frameBody_length f
  have hn : fieldNat (frameBody f ++ [b]) 1 2 = f.payload.length := by
    rw [fieldNat, fieldBytes_within _ (by omega)]
    exact fieldNat_of_prefix (List.prefix_refl _) (by omega) hf
  have hcrc : (frameBody f ++ [b]).getD (3 + f.payload.length) 0#8 = b := by
    rw [show 3 + f.payload.length = (frameBody f).length by omega]
    simp
  have hpayload : fieldBytes (frameBody f ++ [b]) 3 f.payload.length = f.payload := by
    rw [fieldBytes_within _ (by omega), frameBody_eq, fieldBytes_cons (by omega), fieldBytes_skip (by simp)]
    exact fieldBytes_all rfl
  rw [takeBytes, if_neg (by rw [List.length_append]; simp; omega), if_pos (by rw [hn, List.length_append]; simp; omega)]
  unfold completeFrame
  dsimp only
  rw [hn, hcrc, hpayload]
  rfl

/-- A whole frame, from its break to its CRC byte. -/
theorem takeRx_frame {s : State} {f : Frame} (b : Byte) {low span bit : Nat} {spans : List Nat} (hrx : s.lnk.rx = .idle)
    (hrate : (s.lnk.lock = some bit ∧ 16 * ((span : Int) - bit).natAbs ≤ bit) ∨
      (s.lnk.lock = none ∧ bit = span ∧ 57600 * span ≤ 800000000 ∧ 800000000 ≤ 4000000 * span))
    (hbreak : 11 * bit ≤ 8 * low) (hf : f.payload.length ≤ 1023) (hspans : spans.length = f.payload.length + 3) :
    (.low low :: .char 0x55#8 span :: (List.zipWith RxItem.char (frameBody f) spans ++ [.char b span])).foldl takeRx s =
      if b ≠ frameCrc f then linkError .crc (lockedTo bit s)
      else if s.lnk.requests.length < 2 then
        (lockedTo bit s).setLnk { (lockedTo bit s).lnk with requests := s.lnk.requests ++ [f] }
      else linkError .overrun (lockedTo bit s) := by
  have idle := setRx_idle_setRx (s := lockedTo bit s) hrx
  rw [List.foldl_cons, List.foldl_cons, takeRx_opening hrx hrate hbreak, List.foldl_append,
    takeRx_characters rfl hf (frameBody f) [] spans rfl (by rw [hspans, frameBody_length]), List.foldl_cons,
    List.foldl_nil, takeRx_body (s := setRx (.body (frameBody f)) (lockedTo bit s)) rfl rfl]
  show takeBytes (frameBody f ++ [b]) _ = _
  rw [takeBytes_whole hf, idle]
  rfl

/-! ### Failed syncs and broken bodies (R187, R188) -/

theorem rxSyncLocked_fails {bit span : Nat} {b : Byte} (h : b ≠ 0x55#8 ∨ bit < 16 * ((span : Int) - bit).natAbs)
    (s : State) : rxSyncLocked bit (.char b span) s = linkError .sync (setRx .idle s) := by
  unfold rxSyncLocked
  dsimp only
  rw [if_neg]
  rintro ⟨hb, hsync⟩
  rw [syncOk_iff] at hsync
  exact h.elim (absurd hb) (by omega)

theorem rxSyncUnlocked_fails {low span : Nat} {b : Byte}
    (h : b ≠ 0x55#8 ∨ 800000000 < 57600 * span ∨ 4000000 * span < 800000000 ∨ 8 * low < 11 * span) (s : State) :
    rxSyncUnlocked low (.char b span) s = setRx .idle s := by
  unfold rxSyncUnlocked
  dsimp only
  rw [if_neg]
  rintro ⟨hb, hrate, hbreak⟩
  rw [rateOk_iff] at hrate
  rw [isBreak_iff] at hbreak
  exact h.elim (absurd hb) (by omega)

theorem fieldNat_kind_length (kind high b : Byte) : fieldNat [kind, high, b] 1 2 = high.toNat * 256 + b.toNat := by
  simp [fieldNat, fieldBytes, natOfBytes]

/-- Settles O7: a whole frame by `takeRx_frame`, and each item that fails by its case. -/
theorem hostFrameReceivesFrames : Obligations.HostFrameReceivesFrames := by
  refine ⟨fun s f b low span bit spans hrx hrate hbreak hf hspans => ?whole,
    fun s low span bit b hrx hlock => ?locked, fun s low span b hrx => ?idle,
    fun s bytes bit span n b hrx hlock => ?body⟩
  case whole =>
    intro items locked
    have taken : exec (.hostFrame items) s = .next _ :=
      congrArg Host.Outcome.next (takeRx_frame b hrx hrate hbreak hf hspans)
    refine ⟨fun hb hroom => ?_, fun hb hfull => ⟨_, taken, ?_⟩, fun hb => ⟨_, taken, ?_⟩⟩
    · rw [taken, if_neg (by simpa using hb), if_pos hroom]
      rfl
    · rw [if_neg (by simpa using hb), if_neg (by omega)]
      exact linkError_counted _ _
    · rw [if_pos hb]
      exact linkError_counted _ _
  case locked =>
    have idle := setRx_idle_setRx hrx
    refine ⟨fun hshort => ?_, fun hlow hfail => ⟨_, rfl, ?_⟩, fun n hlow => ⟨_, rfl, ?_⟩⟩
    · exact congrArg Host.Outcome.next (takeRx_low_short hrx hlock hshort)
    · rw [List.foldl_cons, List.foldl_cons, List.foldl_nil, takeRx_low_locked hrx hlock hlow, takeRx_sync_locked hlock,
        rxSyncLocked_fails hfail, idle]
      exact linkError_counted _ _
    · rw [List.foldl_cons, List.foldl_cons, List.foldl_nil, takeRx_low_locked hrx hlock hlow, takeRx_sync_locked hlock]
      show linkErrorCounted _ _ (linkError .sync (setRx .idle (setRx (.sync low) s)))
      rw [idle]
      exact linkError_counted _ _
  case idle =>
    have idle := setRx_idle_setRx hrx
    refine ⟨congrArg Host.Outcome.next (takeRx_idle hrx _), fun hlock => ⟨fun hfail => ?_, fun n => ?_⟩⟩
    · rw [exec_hostFrame, List.foldl_cons, List.foldl_cons, List.foldl_nil, takeRx_low_unlocked hrx hlock,
        takeRx_sync_unlocked hlock, rxSyncUnlocked_fails hfail, idle]
    · rw [exec_hostFrame, List.foldl_cons, List.foldl_cons, List.foldl_nil, takeRx_low_unlocked hrx hlock,
        takeRx_sync_unlocked hlock]
      exact congrArg Host.Outcome.next (idle _)
  case body =>
    intro taking
    have one : ∀ item, exec (.hostFrame [item]) s = .next (rxBody bit bytes item s) := fun item =>
      congrArg Host.Outcome.next (takeRx_body hrx hlock item)
    refine ⟨fun hbreak item hitem => ⟨_, one item, ?_⟩, fun hlow => ⟨_, one _, ?_⟩,
      fun kind high hbytes hlong => ⟨_, one _, ?_⟩⟩
    · have broken : rxBody bit bytes item s = linkError .frame (taking (.sync n)) := by
        obtain rfl | rfl := hitem
        all_goals
          unfold rxBody
          exact if_pos ((isBreak_iff n bit).mpr hbreak)
      rw [broken]
      exact linkError_counted _ _
    · have short : rxBody bit bytes (.badChar b span n) s = linkError .frame (taking .idle) := by
        unfold rxBody
        exact if_neg (by rw [isBreak_iff]; omega)
      rw [short]
      exact linkError_counted _ _
    · have long : rxBody bit bytes (.char b span) s = linkError .frame (taking .idle) := by
        subst hbytes
        show takeBytes [kind, high, b] s = _
        rw [takeBytes, if_pos ⟨rfl, by rw [fieldNat_kind_length]; exact hlong⟩]
        rfl
      rw [long]
      exact linkError_counted _ _

end Sys2Proof.Machine
end

