-- ==== Sys2Proof/Proofs/InputLines.lean ====
section
/-! PROOFS. Proofs/InputLines.lean: single samples of the encoder lines (R1, R2, R6), the HOLD pin (R93, R94) and the
waiting trigger frame (R108). -/

namespace Sys2Proof.Machine

open Sys2Proof

/-! ### The input filter (R1) -/

theorem exec_filterSample {l : Lines} {s : State} (hdue : s.enc.nextSample ≤ s.now) (hstays : makesUpdate s.enc l = false) :
    exec (.filterSample l) s = .next (sampled (s.setEnc
      (if s.enc.primed = true then { s.enc with noted := filterNoted s.enc l } else firstSample l s.enc))) := by
  show execFilterSample l s = _
  simp [execFilterSample, sampleDue, hdue, hstays]

/-- A line that was not noted keeps its accepted level. -/
theorem filterLine_of_stands {accepted noted level : Bool} (h : level ≠ accepted → noted = false) :
    filterLine accepted noted level = (accepted, level != accepted) := by
  unfold filterLine
  by_cases hl : level = accepted
  · simp [hl]
  · simp [hl, h hl]

theorem filterLine_of_noted {accepted noted level : Bool} (hl : level ≠ accepted) (hn : noted = true) :
    filterLine accepted noted level = (level, false) := by
  simp [filterLine, hl, hn]

/-- Where neither A nor B changes, an update renews the accepted levels and rearms the index (R2, R6). -/
theorem encWork_of_still {e : Enc} {after : Lines} (h : decodePair e.settings.sense e.accepted after = .none) :
    encWork after e =
      { enc := { e with accepted := after, indexArmed := e.indexArmed || (e.accepted.z && !after.z) }
        notices := [], crossing := none, leftHomed := none } := by
  unfold encWork
  simp only [h, rearm]
  cases e.accepted.z <;> cases after.z <;> simp

/-- Work that moves nothing is handed on to nobody (R5, R13). -/
theorem handOn_of_still {e : Enc} {s : State} (h : encU e = encU s.enc) :
    handOn { enc := e, notices := [], crossing := none, leftHomed := none } s = s.setEnc e := by
  simp [handOn, handCrossing, handState, handPosition, h]

/-- Settles O12: the three kinds of sample, and the filter line by line. -/
theorem filterSampleNotesLines : Obligations.FilterSampleNotesLines := by
  intro s l hdue
  refine ⟨fun hfirst => ?first, fun hprimed ha hb hz => ?noted, fun hprimed ha hb hz hnz => ?accepted,
    filterAccepted_eq s.enc l, filterNoted_eq s.enc l⟩
  case first =>
    rw [exec_filterSample hdue (by simp [makesUpdate, hfirst]), if_neg (by simp [hfirst])]
    rfl
  case noted =>
    have kept : filterAccepted s.enc l = s.enc.accepted := by
      simp only [filterAccepted, filterLine_of_stands ha, filterLine_of_stands hb, filterLine_of_stands hz]
    have notes : filterNoted s.enc l =
        ⟨l.a != s.enc.accepted.a, l.b != s.enc.accepted.b, l.z != s.enc.accepted.z⟩ := by
      simp only [filterNoted, filterLine_of_stands ha, filterLine_of_stands hb, filterLine_of_stands hz]
    rw [exec_filterSample hdue (by simp [makesUpdate, kept]), if_pos hprimed, notes]
    rfl
  case accepted =>
    have takes : filterAccepted s.enc l = { s.enc.accepted with z := l.z } := by
      simp only [filterAccepted, filterLine_of_stands ha, filterLine_of_stands hb, filterLine_of_noted hz hnz]
    have notes : filterNoted s.enc l = ⟨l.a != s.enc.accepted.a, l.b != s.enc.accepted.b, false⟩ := by
      simp only [filterNoted, filterLine_of_stands ha, filterLine_of_stands hb, filterLine_of_noted hz hnz]
    have accepts : acceptsUpdate s l := by
      refine ⟨hprimed, hdue, fun h => hz ?_⟩
      rw [takes] at h
      rw [← h]
    have armed : (s.enc.accepted.z && !l.z) = s.enc.accepted.z := by
      revert hz
      cases s.enc.accepted.z <;> cases l.z <;> simp
    have still : decodePair s.enc.settings.sense s.enc.accepted { s.enc.accepted with z := l.z } = .none := by
      simp [decodePair]
    have work := encWork_of_still (e := { afterSample s.now s.enc with
      noted := ⟨l.a != s.enc.accepted.a, l.b != s.enc.accepted.b, false⟩ }) still
    rw [exec_acceptedUpdate_of_accepts accepts, acceptUpdate_sampled, updateWork, takes, notes, work,
      handOn_of_still (s := sampled s) (by rfl)]
    simp only [afterSample, armed]
    rfl

/-! ### The HOLD pin (R93, R94) -/

/-- Settles O27: the pin starts or cancels its time, and a level that has stood is worked into the condition. -/
theorem holdPinQualifies : Obligations.HoldPinQualifies := by
  refine ⟨fun s level h => if_neg h, fun s => if_pos rfl, fun s t hsince ht => ?_⟩
  have due : holdDue s = true := by
    simp only [holdDue, hsince]
    exact decide_eq_true ht
  have qualified : exec .holdQualified s =
      .next (updateHold (s.setHold { s.hold with qualified := s.hold.pin, since := none })) := if_pos due
  intro now
  have condition : holdCondition s.hold.sense s.hold.pin = now := rfl
  refine ⟨fun unchanged => ?unchanged, fun changed => ?changed⟩
  case unchanged =>
    rw [qualified, updateHold_of_unchanged (condition.trans unchanged)]
    rfl
  case changed =>
    rw [qualified, updateHold_of_changed (fun same => changed (condition.symm.trans same))]
    rfl

/-! ### The waiting trigger frame (R108) -/

/-- Settles O40: the frame begins once its start has come. -/
theorem waitingTriggerFrameBegins : Obligations.WaitingTriggerFrameBegins := by
  have starts : ∀ s : State, exec .triggerFrameStart s = .next (s.setPrb (startWaiting s.now s.prb)) := fun _ => rfl
  refine fun s => ⟨fun f hf hstart => ?_, fun f hf hstart => ?_, fun hf => ?_⟩
  · rw [starts, startWaiting, hf]
    simp only [hstart, if_true]
    rfl
  · rw [starts, startWaiting, hf]
    simp only [show ¬ f.start ≤ s.now by omega, if_false]
    rfl
  · rw [starts, startWaiting, hf]
    rfl

end Sys2Proof.Machine
end

