-- ==== Sys2Proof/Proofs/Store.lean ====
section
/-! PROOFS. Proofs/Store.lean: what a program operation leaves in the image, and what a reset makes of the image and of the
gates (R162, R175, R184, R185). -/

namespace Sys2Proof.Machine

open Sys2Proof

/-! ### Images (R175) -/

theorem imageOk_wholeImage (w : Settings) (lockBit : Bool) : imageOk (wholeImage w lockBit) = true := by
  simp [imageOk, wholeImage]

theorem ne_complement {n : Nat} (hn : 0 < n) (x : BitVec n) : ~~~x ≠ x := by
  intro h
  have bit := congrArg (fun y => y.getLsbD 0) h
  simp [hn] at bit

theorem imageOk_spoiltImage (n : Nat) : imageOk (spoiltImage n) = false := by
  rw [Bool.eq_false_iff]
  intro h
  exact ne_complement (by decide) _ (eq_of_beq h)

/-- The settings that an operation writes (R182, R183). -/
def writtenSettings (op : ProgOp) (c : Cal) : Settings :=
  match op with
  | .cers => Settings.default
  | _ => c.working

theorem writtenImage_eq (op : ProgOp) (c : Cal) :
    writtenImage op c = wholeImage (writtenSettings op c) (decide (op = .clck)) := by
  cases op <;> rfl

theorem checkedCal_of_ok {i : Image} (h : imageOk i = true) :
    checkedCal i = { image := i, working := i.settings, origin := .stored, locked := i.lockBit, programming := none } :=
  if_pos h

theorem checkedCal_of_bad {i : Image} (h : imageOk i = false) :
    checkedCal i =
      { image := i, working := Settings.default, origin := .defaults, locked := false, programming := none } :=
  if_neg (by simp [h])

theorem stopProgram_of_idle {s : State} (h : s.cal.programming = none) : stopProgram s = s := by
  simp only [stopProgram, h]

theorem stopProgram_image {s : State} {p : Programming} (h : s.cal.programming = some p) :
    (stopProgram s).cal.image = spoiltImage s.freeNext := by
  simp only [stopProgram, h]
  rfl

/-! ### Completion (R184) -/

theorem exec_programCompletion {s : State} {p : Programming} (h : s.cal.programming = some p) (result : VerifyResult) :
    exec (.programCompletion result) s = .next (completeProgram p.op result s) := by
  show execProgramCompletion result s = _
  simp only [execProgramCompletion, h]

/-- Settles O58: the image that the operation wrote, or a spoilt one. -/
theorem programCompletionSetsStore : Obligations.ProgramCompletionSetsStore := by
  intro s p hp settings
  have written : writtenSettings p.op s.cal = settings := by
    show _ = (match p.op with
      | .cers => Settings.default
      | _ => s.cal.working)
    cases p.op <;> rfl
  refine ⟨⟨writtenImage p.op s.cal, ?_, ?_, ?_, exec_programCompletion hp .ok⟩,
    ⟨spoiltImage s.freeNext, imageOk_spoiltImage _, exec_programCompletion hp .verifyFail⟩⟩
  · rw [writtenImage_eq]
    exact written
  · rw [writtenImage_eq]
    rfl
  · rw [writtenImage_eq]
    exact imageOk_wholeImage _ _

/-! ### The image over a reset (R175, R185) -/

theorem exec_pinReset (s : State) : exec .pinReset s = .next (resetPart { s.lnk.causes with pin := true } s) := rfl

/-- Settles O59: the start-up check finds what the operation left. -/
theorem programmedImageSurvivesReset : Obligations.ProgrammedImageSurvivesReset := by
  intro s p hp
  have after : ∀ t : State, t.cal.programming = none → ∀ causes,
      (resetPart causes t).cal = checkedCal t.cal.image := fun t ht causes => by
    simp [stopProgram_of_idle ht]
  refine ⟨⟨_, _, exec_programCompletion hp .ok, exec_pinReset _, ?_⟩,
    ⟨_, _, exec_programCompletion hp .verifyFail, exec_pinReset _, ?_⟩, ⟨_, exec_pinReset s, ?_⟩⟩
  · have written : (completeProgram p.op .ok s).cal = completedOk p.op s.cal := by simp
    rw [after _ (by rw [written]; rfl), written]
    have whole : imageOk (writtenImage p.op s.cal) = true := by
      rw [writtenImage_eq]
      exact imageOk_wholeImage _ _
    rw [show (completedOk p.op s.cal).image = writtenImage p.op s.cal from rfl, checkedCal_of_ok whole, writtenImage_eq]
    refine ⟨rfl, rfl, fun hop => ?_, fun hop => ?_⟩
    · show writtenSettings p.op s.cal = _
      cases hc : p.op <;> simp_all [writtenSettings]
    · show writtenSettings p.op s.cal = _
      rw [hop]
      rfl
  · have failed : (completeProgram p.op .verifyFail s).cal = completedFail s.freeNext s.cal := by simp
    rw [after _ (by rw [failed]; rfl), failed]
    rw [show (completedFail s.freeNext s.cal).image = spoiltImage s.freeNext from rfl,
      checkedCal_of_bad (imageOk_spoiltImage _)]
    exact ⟨rfl, rfl, rfl⟩
  · have stopped : ∀ causes, (resetPart causes s).cal = checkedCal (spoiltImage s.freeNext) := fun causes => by
      simp [stopProgram_image hp]
    rw [stopped, checkedCal_of_bad (imageOk_spoiltImage _)]
    refine ⟨rfl, rfl, rfl, ?_⟩
    simp [Lnk.reset]

/-! ### The gates after a reset (R162, R174) -/

theorem gateGroup_empty (n : Fin 8) : gateGroup Bank.empty n = none := by
  fin_cases n <;> rfl

/-- With no exclusion group each gate takes its safe level and starts to qualify (R162, R169). -/
theorem gatesReset_gate {s : State} (hbank : s.wbk.active = Bank.empty) (n : Fin 8) :
    (gatesReset s).gte.gates.get n =
      { driven := s.cal.working.safe.get n, due := .none, waiting := false, status := .ok
        qual := if (s.gte.gates.get n).sense = s.cal.working.safe.get n then none else some s.now
        sense := (s.gte.gates.get n).sense } := by
  have candidate : safeCandidate (s.setGte (Gte.reset fun n => (s.gte.gates.get n).sense)) n = s.cal.working.safe.get n := by
    simp [safeCandidate, Gte.reset, Gate.reset]
  have level : arbitrated (gateGroup s.wbk.active) (fun _ => false)
      (safeCandidate (s.setGte (Gte.reset fun n => (s.gte.gates.get n).sense))) n = s.cal.working.safe.get n := by
    rw [hbank]
    simp [arbitrated, gateGroup_empty, candidate]
  simp only [gatesReset, driveSafe, State.setGte_gte, State.setGte_wbk, State.setGte_now, Eight.get_ofFn, level]
  simp only [Gte.reset, Eight.get_ofFn, Gate.reset, driveGate, startQual]
  cases s.cal.working.safe.get n <;> cases (s.gte.gates.get n).sense <;> rfl

/-- Settles O11: a reset is `resetPart`, whose check and whose gates are said above. -/
theorem resetChecksImageAndDrivesSafe : Obligations.ResetChecksImageAndDrivesSafe := by
  intro c s causes h
  obtain ⟨-, henc, -, -, hhold, -, -, -, hcal, -, -⟩ := resetPart_frame causes s
  obtain ⟨hmode, hlast, -, -⟩ := safeAfter_resetPart causes s
  refine ⟨_, exec_of_isReset h, fun hp hi => ?good, fun hp hi => ?bad, fun hp => ?stopped, by rw [henc, hcal]; rfl, hhold,
    hmode, hlast, ?conflicts, fun n => ?gates⟩
  case good => rw [hcal, stopProgram_of_idle hp, checkedCal_of_ok hi]
  case bad => rw [hcal, stopProgram_of_idle hp, checkedCal_of_bad hi]
  case stopped =>
    obtain ⟨p, hp⟩ := Option.ne_none_iff_exists'.mp hp
    rw [hcal, stopProgram_image hp, checkedCal_of_bad (imageOk_spoiltImage _)]
    exact ⟨imageOk_spoiltImage _, rfl, rfl, rfl, rfl⟩
  case conflicts => simp [resetPart, gatesReset, driveSafe, Gte.reset]
  case gates =>
    rw [hcal, resetPart, gatesReset_gate rfl]
    simp

end Sys2Proof.Machine
end

