-- ==== Sys2Proof/Proofs/StagedBank.lean ====
section
/-! PROOFS. Proofs/StagedBank.lean: the edits of the staged bank: STWN, STGT, STCL and SWCN (R44 to R49, R54). -/

namespace Sys2Proof.Machine

open Sys2Proof

/-! ### Refusals by the state of the staged bank -/

theorem swapPending_iff (s : State) : swapPending s = true ↔ s.wbk.stagedState = .pending := by
  simp [swapPending]

theorem not_swapPending {s : State} (h : s.wbk.stagedState = .editing) : ¬ swapPending (takeRequest s) = true := by
  rw [swapPending_iff]
  simp [h]

theorem swapPending_take {s : State} (h : s.wbk.stagedState = .pending) : swapPending (takeRequest s) = true := by
  rw [swapPending_iff]
  simp [h]

/-! ### What the codes of a record stand for (R44, R47) -/

/-- The codes of a blade range that STWN and STGT accept. -/
def rangeLegal (first count : Nat) : Prop := first = 255 ∨ (first ≤ 127 ∧ 1 ≤ count ∧ count ≤ 128)

/-- The codes of a required gate that STWN accepts. -/
def gateLegal (gate level : Nat) : Prop := gate = 255 ∨ (gate ≤ 7 ∧ level ≤ 1)

/-- The code of an exclusion group that STGT accepts. -/
def groupLegal (group : Nat) : Prop := group = 255 ∨ group ≤ 3

theorem readRange_of_legal {first count : Nat} (h : rangeLegal first count) :
    ∃ r, readRange first count = some r ∧ (first = 255 → r = none) ∧
      (first ≠ 255 → r = some { first := first, count := count }) := by
  unfold readRange absentCode
  by_cases hf : first = 255
  · exact ⟨none, if_pos hf, fun _ => rfl, fun hne => absurd hf hne⟩
  · obtain hf' | ⟨hle, hlo, hhi⟩ := h
    · exact absurd hf' hf
    · rw [if_neg hf, if_neg (by omega)]
      exact ⟨_, rfl, fun he => absurd he hf, fun _ => rfl⟩

theorem readRange_of_illegal {first count : Nat} (h : ¬ rangeLegal first count) : readRange first count = none := by
  unfold rangeLegal at h
  unfold readRange absentCode
  rw [if_neg (by omega), if_pos (by omega)]

theorem levelOfCode_of_le {level : Nat} (h : level ≤ 1) : ∃ l, levelOfCode level = some l ∧ l.toNat = level := by
  interval_cases level
  · exact ⟨false, rfl, rfl⟩
  · exact ⟨true, rfl, rfl⟩

theorem levelOfCode_of_gt {level : Nat} (h : 1 < level) : levelOfCode level = none := by
  unfold levelOfCode
  rw [if_neg (by omega), if_neg (by omega)]

theorem readRequiredGate_of_legal {gate level : Nat} (h : gateLegal gate level) :
    ∃ r, readRequiredGate gate level = some r ∧ (gate = 255 → r = none) ∧
      (gate ≠ 255 → ∃ g, r = some g ∧ g.gate.val = gate ∧ g.level.toNat = level) := by
  unfold readRequiredGate absentCode
  by_cases hg : gate = 255
  · exact ⟨none, if_pos hg, fun _ => rfl, fun hne => absurd hg hne⟩
  · obtain hg' | ⟨hgate, hlevel⟩ := h
    · exact absurd hg' hg
    · obtain ⟨l, hl, hll⟩ := levelOfCode_of_le hlevel
      rw [if_neg hg, dif_pos (by omega), hl]
      exact ⟨_, rfl, fun he => absurd he hg, fun _ => ⟨_, rfl, rfl, hll⟩⟩

theorem readRequiredGate_of_illegal {gate level : Nat} (h : ¬ gateLegal gate level) :
    readRequiredGate gate level = none := by
  unfold gateLegal at h
  unfold readRequiredGate absentCode
  rw [if_neg (by omega)]
  split_ifs with hg
  · rw [levelOfCode_of_gt (by omega)]
    rfl
  · rfl

theorem readGroup_of_legal {group : Nat} (h : groupLegal group) :
    ∃ r, readGroup group = some r ∧ (group = 255 → r = none) ∧
      (group ≠ 255 → ∃ q : Fin 4, r = some q ∧ q.val = group) := by
  unfold readGroup absentCode
  by_cases hg : group = 255
  · exact ⟨none, if_pos hg, fun _ => rfl, fun hne => absurd hg hne⟩
  · obtain hg' | hle := h
    · exact absurd hg' hg
    · rw [if_neg hg, dif_pos (by omega)]
      exact ⟨_, rfl, fun he => absurd he hg, fun _ => ⟨_, rfl, rfl⟩⟩

theorem readGroup_of_illegal {group : Nat} (h : ¬ groupLegal group) : readGroup group = none := by
  unfold groupLegal at h
  unfold readGroup absentCode
  rw [if_neg (by omega), dif_neg (by omega)]

theorem clamp_zero (hi v : Nat) : clamp 0 hi v = min hi v := by
  unfold clamp
  omega

/-! ### STWN (R44 to R46) -/

/-- The record that STWN accepts. -/
def windowLegal (a : StwnArgs) : Prop :=
  a.start < a.stop ∧ a.stop ≤ 18874368 ∧ 1 ≤ a.step ∧ a.step ≤ 16777216 ∧ gateLegal a.gate a.level ∧
    rangeLegal a.first a.count

theorem readWindow_of_legal {a : StwnArgs} (h : windowLegal a) :
    ∃ w, readWindow a = some w ∧ w.start = a.start ∧ w.stop = a.stop ∧ w.step = a.step ∧
      w.exposure = min 15 a.exposure ∧ w.floor = min 4095 a.floor ∧ (a.gate = 255 → w.gate = none) ∧
      (a.gate ≠ 255 → ∃ g, w.gate = some g ∧ g.gate.val = a.gate ∧ g.level.toNat = a.level) ∧
      (a.first = 255 → w.range = none) ∧
      (a.first ≠ 255 → w.range = some { first := a.first, count := a.count }) := by
  obtain ⟨hss, hstop, hpos, hstep, hgate, hrange⟩ := h
  obtain ⟨g, hg, hgn, hgs⟩ := readRequiredGate_of_legal hgate
  obtain ⟨r, hr, hrn, hrs⟩ := readRange_of_legal hrange
  simp only [readWindow, phaseBound, pitchUnits, hg, hr]
  rw [if_neg (by omega), if_neg (by omega), if_neg (by omega)]
  exact ⟨_, rfl, rfl, rfl, rfl, clamp_zero 15 _, clamp_zero 4095 _, hgn, hgs, hrn, hrs⟩

theorem readWindow_of_illegal {a : StwnArgs} (h : ¬ windowLegal a) : readWindow a = none := by
  unfold readWindow phaseBound pitchUnits
  split_ifs with hss hstop hstep
  iterate 3 rfl
  split
  · next g r hg hr =>
    refine absurd ⟨by omega, by omega, by omega, by omega, ?_, ?_⟩ h
    · by_contra hgate
      rw [readRequiredGate_of_illegal hgate] at hg
      cases hg
    · by_contra hrange
      rw [readRange_of_illegal hrange] at hr
      cases hr
  · rfl

/-- Settles O30: refusals in the order of R46, and insertion behind the windows that start no later. -/
theorem stwnInsertsInStartOrder : Obligations.StwnInsertsInStartOrder := by
  intro s p hd hlen a gateLegal' rangeLegal' legal old refused
  have answered : exec (.stwn p) s = .next (placeReply 0x90#8 (answerStwn p (takeRequest s))) :=
    dispatchFixed_of_length hd hlen (answerStwn p)
  refine ⟨fun hp => ?pending, fun he hl => ?illegal, fun he hl hfull => ?full, fun he hl hroom hsorted => ?inserted⟩
  case pending => rw [answered, answerStwn, if_pos (swapPending_take hp), placeReply_refuse]; rfl
  case illegal =>
    rw [answered, answerStwn, if_neg (not_swapPending he), readWindow_of_illegal (a := readStwn p) hl]
    exact congrArg Host.Outcome.next (placeReply_refuse _ _ s)
  case full =>
    obtain ⟨w, hw, -⟩ := readWindow_of_legal (a := readStwn p) hl
    rw [answered, answerStwn, if_neg (not_swapPending he), hw]
    dsimp only
    rw [if_pos (show bankWindows ≤ (takeRequest s).wbk.staged.windows.length from hfull), placeReply_refuse]
    rfl
  case inserted =>
    obtain ⟨w, hw, hstart, hstop, hstep, hexp, hfloor, hgn, hgs, hrn, hrs⟩ := readWindow_of_legal (a := readStwn p) hl
    refine ⟨old.takeWhile fun v => decide (v.start ≤ w.start), old.dropWhile fun v => decide (v.start ≤ w.start), w,
      List.takeWhile_append_dropWhile.symm, start_le_of_mem_takeWhile w.start,
      start_lt_of_mem_dropWhile hsorted w.start, hstart, hstop, hstep, hexp, hfloor, hgn, hgs, hrn, hrs, ?_⟩
    rw [answered, answerStwn, if_neg (not_swapPending he), hw]
    dsimp only
    rw [if_neg (show ¬ bankWindows ≤ (takeRequest s).wbk.staged.windows.length from not_le.mpr hroom)]
    rfl

/-! ### STGT (R47, R48) -/

/-- The record that STGT accepts in PHASE. -/
def phaseLegal (a : StgtArgs) : Prop :=
  a.mode = 1 ∧ a.on < a.off ∧ a.off ≤ 18874368 ∧ groupLegal a.group ∧ rangeLegal a.first a.count

theorem readGateRecord_of_unused {a : StgtArgs} (h : a.mode = 0) : readGateRecord a = some none := if_pos h

theorem readGateRecord_of_phase {a : StgtArgs} (h : phaseLegal a) :
    ∃ g : GateRecord, readGateRecord a = some (some g) ∧ g.on = a.on ∧ g.off = a.off ∧
      g.extension = min 1048576 a.extension ∧ (a.group = 255 → g.group = none) ∧
      (a.group ≠ 255 → ∃ q : Fin 4, g.group = some q ∧ q.val = a.group) ∧
      (a.first = 255 → g.range = none) ∧
      (a.first ≠ 255 → g.range = some { first := a.first, count := a.count }) := by
  obtain ⟨hmode, hon, hoff, hgroup, hrange⟩ := h
  obtain ⟨q, hq, hqn, hqs⟩ := readGroup_of_legal hgroup
  obtain ⟨r, hr, hrn, hrs⟩ := readRange_of_legal hrange
  simp only [readGateRecord, phaseBound, hq, hr]
  rw [if_neg (by omega), if_neg (by omega), if_neg (by omega), if_neg (by omega)]
  exact ⟨_, rfl, rfl, rfl, clamp_zero _ _, hqn, hqs, hrn, hrs⟩

theorem readGateRecord_of_illegal {a : StgtArgs} (hmode : a.mode ≠ 0) (h : ¬ phaseLegal a) :
    readGateRecord a = none := by
  unfold readGateRecord phaseBound
  rw [if_neg hmode]
  split_ifs with hphase hon hoff
  iterate 3 rfl
  split
  · next q r hq hr =>
    refine absurd ⟨by omega, by omega, by omega, ?_, ?_⟩ h
    · by_contra hgroup
      rw [readGroup_of_illegal hgroup] at hq
      cases hq
    · by_contra hrange
      rw [readRange_of_illegal hrange] at hr
      cases hr
  · rfl

theorem gates_set_get (gates : Eight (Option GateRecord)) (n m : Fin 8) (r : Option GateRecord) :
    (gates.set n r).get m = if m = n then r else gates.get m := by
  fin_cases n <;> fin_cases m <;> rfl

theorem answerStgt_of_legal {p : List Byte} {s : State} {r : Option GateRecord} (he : s.wbk.stagedState = .editing)
    (hg : (readStgt p).gate < 8) (hr : readGateRecord (readStgt p) = some r) :
    answerStgt p (takeRequest s) = accept (beNat 1 (readStgt p).gate ++ gateRecordBytes r)
      (setStaged { s.wbk.staged with gates := s.wbk.staged.gates.set ⟨(readStgt p).gate, hg⟩ r } (takeRequest s)) := by
  unfold answerStgt
  dsimp only
  rw [if_neg (not_swapPending he), dif_pos hg, hr]
  rfl

/-- Settles O31: refusals in the order of R48, and the replaced record of the named gate. -/
theorem stgtReplacesGateRecord : Obligations.StgtReplacesGateRecord := by
  intro s p hd hlen a rangeLegal' groupLegal' legal
  have answered : exec (.stgt p) s = .next (placeReply 0x91#8 (answerStgt p (takeRequest s))) :=
    dispatchFixed_of_length hd hlen (answerStgt p)
  refine ⟨fun hp => ?pending, fun he hl => ?illegal, fun he hl => ?legal⟩
  case pending =>
    rw [answered, answerStgt]
    dsimp only
    rw [if_pos (swapPending_take hp), placeReply_refuse]
    rfl
  case illegal =>
    have refusal : answerStgt p (takeRequest s) = refuse .badArg (takeRequest s) := by
      unfold answerStgt
      dsimp only
      rw [if_neg (not_swapPending he)]
      split_ifs with hg
      · have hg' : a.gate ≤ 7 := Nat.le_of_lt_succ hg
        rw [readGateRecord_of_illegal (fun h0 => hl ⟨hg', .inl h0⟩) (fun h1 => hl ⟨hg', .inr h1⟩)]
      · rfl
    rw [answered, refusal]
    exact congrArg Host.Outcome.next (placeReply_refuse _ _ s)
  case legal =>
    obtain ⟨hgate, hmode⟩ := hl
    have hg : (readStgt p).gate < 8 := Nat.lt_succ_of_le hgate
    obtain h0 | h1 := hmode
    · refine ⟨⟨a.gate, hg⟩, none, _, rfl, (gates_set_get s.wbk.staged.gates _ _ _).trans (if_pos rfl),
        fun m hm => (gates_set_get _ _ _ _).trans (if_neg hm), fun _ => rfl, fun h1 => by omega, ?_⟩
      rw [answered, answerStgt_of_legal he hg (readGateRecord_of_unused h0)]
      rfl
    · obtain ⟨g, hread, hfields⟩ := readGateRecord_of_phase (a := readStgt p) h1
      refine ⟨⟨a.gate, hg⟩, some g, _, rfl, (gates_set_get s.wbk.staged.gates _ _ _).trans (if_pos rfl),
        fun m hm => (gates_set_get _ _ _ _).trans (if_neg hm), fun h0 => absurd h1.1 (by omega),
        fun _ => ⟨g, rfl, hfields⟩, ?_⟩
      rw [answered, answerStgt_of_legal he hg hread]
      rfl

/-! ### STCL and SWCN (R49, R54) -/

theorem leadArmed_iff (p : Psc) : leadArmed p = true ↔ ∃ l, p.lead = some l ∧ l.phase = .armed := by
  unfold leadArmed
  cases p.lead <;> simp

/-- Settles O33: each row of R49 and R54. -/
theorem stclEmptiesAndSwcnReturnsToEditing : Obligations.StclEmptiesAndSwcnReturnsToEditing := by
  refine ⟨fun s hd => ?stcl, fun s hd => ?swcn⟩
  case stcl =>
    have answered : exec (.stcl []) s = .next (placeReply 0x8F#8 (answerStcl (takeRequest s))) :=
      dispatchFixed_of_canDispatch hd answerStcl
    refine ⟨fun he => ?_, fun hp => ?_⟩
    · rw [answered, answerStcl, if_neg (not_swapPending he)]
      rfl
    · rw [answered, answerStcl, if_pos (swapPending_take hp), placeReply_refuse]
      rfl
  case swcn =>
    have answered : exec (.swcn []) s = .next (placeReply 0x93#8 (answerSwcn (takeRequest s))) :=
      dispatchFixed_of_canDispatch hd answerSwcn
    have depends : (leadArmed (takeRequest s).psc = true ∧ (takeRequest s).wbk.activeState = .empty) ↔
        (∃ l, s.psc.lead = some l ∧ l.phase = .armed) ∧ s.wbk.activeState = .empty := by
      rw [leadArmed_iff]
      rfl
    refine ⟨fun he => ?_, fun hp harm => ?_, fun hp harm => ?_⟩
    · rw [answered, answerSwcn, if_pos (by simpa using not_swapPending he)]
      rfl
    · rw [answered, answerSwcn, if_neg (by simpa using swapPending_take hp), if_pos (depends.mpr harm), placeReply_refuse]
      rfl
    · rw [answered, answerSwcn, if_neg (by simpa using swapPending_take hp), if_neg (mt depends.mp harm)]
      rfl

end Sys2Proof.Machine
end

