-- ==== Sys2Proof/Proofs/Validation.lean ====
section
/-! PROOFS. Proofs/Validation.lean: SWAP names the first check of R51 that fails and the first index that fails it, and its
warnings are those of R52 in their order. -/

namespace Sys2Proof.Machine

open Sys2Proof

/-! ### Which index fails which check (R51) -/

section Checks

variable (b : Bank) (n : Nat)

/-- A failing index of a check over the windows is one that the check's test finds. -/
theorem fails_window_iff {test : Window → Bool} {i : Nat} :
    (∃ w, b.windows[i]? = some w ∧ test w = true) ↔ ∃ h : i < b.windows.length, test b.windows[i] = true := by
  simp only [List.getElem?_eq_some_iff]
  exact ⟨fun ⟨_, ⟨h, rfl⟩, ht⟩ => ⟨h, ht⟩, fun ⟨h, ht⟩ => ⟨_, ⟨h, rfl⟩, ht⟩⟩

theorem fails_blades_iff (i : Nat) :
    failsCheck b n 2 i ↔ ∃ h : i < b.windows.length, (!rangeFits b.windows[i].range n) = true := by
  rw [← fails_window_iff b (test := fun w => !rangeFits w.range n)]
  simp only [failsCheck, Bool.not_eq_true']

theorem needsUnused_iff (w : Window) :
    needsUnused b w = true ↔ ∃ g, w.gate = some g ∧ b.gates.get g.gate = none := by
  unfold needsUnused
  cases w.gate <;> simp

theorem fails_unused_iff (i : Nat) :
    failsCheck b n 3 i ↔ ∃ h : i < b.windows.length, needsUnused b b.windows[i] = true := by
  rw [← fails_window_iff b (test := needsUnused b)]
  simp only [failsCheck, needsUnused_iff]
  exact ⟨fun ⟨w, g, hw, hg, hn⟩ => ⟨w, hw, g, hg, hn⟩, fun ⟨w, hw, g, hg, hn⟩ => ⟨w, g, hw, hg, hn⟩⟩

theorem gateRangeBad_iff (r : Option GateRecord) :
    gateRangeBad n r = true ↔ ∃ g, r = some g ∧ rangeFits g.range n = false := by
  unfold gateRangeBad
  cases r <;> simp

theorem toList_getElem {α : Type} (e : Eight α) (i : Nat) (h : i < e.toList.length) :
    e.toList[i] = e.get ⟨i, h⟩ := by
  have bound : i < 8 := h
  interval_cases i <;> rfl

theorem fails_gate_iff (i : Nat) :
    failsCheck b n 4 i ↔ ∃ h : i < b.gates.toList.length, gateRangeBad n b.gates.toList[i] = true := by
  simp only [failsCheck, gateRangeBad_iff, toList_getElem]
  constructor
  · rintro ⟨k, r, rfl, hr, hbad⟩
    exact ⟨k.isLt, r, hr, hbad⟩
  · rintro ⟨h, r, hr, hbad⟩
    exact ⟨⟨i, h⟩, r, rfl, hr, hbad⟩

/-- The test of check 5 at a position (R51). -/
def overlapsBefore (i : Nat) : Bool :=
  match b.windows[i]? with
  | none => false
  | some w => (b.windows.take i).any fun a => windowsOverlap n a w

theorem overlapAt_eq : overlapAt n b.windows = (List.range b.windows.length).find? (overlapsBefore b n) := rfl

theorem fails_overlap_iff (i : Nat) : failsCheck b n 5 i ↔ overlapsBefore b n i = true := by
  unfold overlapsBefore failsCheck
  cases hw : b.windows[i]? with
  | none => simp
  | some w =>
    simp only [List.any_eq_true, List.mem_take_iff_getElem, windowsOverlap, Bool.and_eq_true, decide_eq_true_eq,
      sharesBlade_iff]
    constructor
    · rintro ⟨w', v, j, hw', hj, hv, hshare, hlt⟩
      obtain rfl : w = w' := by simpa using hw'
      obtain ⟨hjl, rfl⟩ := List.getElem?_eq_some_iff.mp hv
      exact ⟨_, ⟨j, by omega, rfl⟩, hlt, hshare⟩
    · rintro ⟨v, ⟨j, hj, rfl⟩, hlt, hshare⟩
      exact ⟨w, _, j, rfl, by omega, List.getElem?_eq_getElem (by omega), hshare, hlt⟩

/-- A bank that fails a check does not pass them all. -/
theorem not_bankValid_of_fails {check i : Nat} (h : failsCheck b n check i) : ¬ bankValid b n := by
  rintro ⟨hne, hblades, hunused, hgates, hpair⟩
  unfold failsCheck at h
  split at h
  · exact hne h.1
  · obtain ⟨w, hw, hbad⟩ := h
    simp [hblades w (List.mem_of_getElem? hw)] at hbad
  · obtain ⟨w, g, hw, hg, hbad⟩ := h
    exact hunused w (List.mem_of_getElem? hw) g hg hbad
  · obtain ⟨k, r, -, hr, hbad⟩ := h
    simp [hgates k r hr] at hbad
  · obtain ⟨w, v, j, hw, hj, hv, hshare, hlt⟩ := h
    obtain ⟨hi, rfl⟩ := List.getElem?_eq_some_iff.mp hw
    obtain ⟨hjl, rfl⟩ := List.getElem?_eq_some_iff.mp hv
    have := List.pairwise_iff_getElem.mp hpair j i hjl hi hj hshare
    omega
  · exact h

/-- Check `check` is the first that the bank fails, and `i` the first index that fails it. -/
def firstFailure (check i : Nat) : Prop :=
  failsCheck b n check i ∧ (∀ j, j < i → ¬ failsCheck b n check j) ∧ ∀ c j, c < check → ¬ failsCheck b n c j

/-- What a search over a list finds first. -/
theorem findIdx_first {α : Type} {xs : List α} {test : α → Bool} {fails : Nat → Prop} {i : Nat}
    (hfails : ∀ j, fails j ↔ ∃ h : j < xs.length, test xs[j] = true) (hfind : xs.findIdx? test = some i) :
    fails i ∧ ∀ j, j < i → ¬ fails j := by
  obtain ⟨hi, ht, hfirst⟩ := List.findIdx?_eq_some_iff_getElem.mp hfind
  refine ⟨(hfails i).mpr ⟨hi, ht⟩, fun j hj hf => ?_⟩
  obtain ⟨hjl, hjt⟩ := (hfails j).mp hf
  exact hfirst j hj hjt

theorem findIdx_none {α : Type} {xs : List α} {test : α → Bool} {fails : Nat → Prop}
    (hfails : ∀ j, fails j ↔ ∃ h : j < xs.length, test xs[j] = true) (hfind : xs.findIdx? test = none) (j : Nat) :
    ¬ fails j := by
  rw [hfails]
  rintro ⟨hj, ht⟩
  rw [List.findIdx?_eq_none_iff] at hfind
  simp [hfind _ (List.getElem_mem hj)] at ht

/-- Validation finds the first failure (R51). -/
theorem validate_first {reason : InvalidReason} {i : Nat} (h : validate b n = some (reason, i)) :
    firstFailure b n (reasonCode reason).toNat i := by
  have zero : ∀ j, ¬ failsCheck b n 0 j := fun _ h => h
  unfold validate at h
  split at h
  · next hempty =>
    cases h
    refine ⟨⟨by simpa using hempty, rfl⟩, fun j hj => absurd hj (by omega), fun c j hc => ?_⟩
    obtain rfl : c = 0 := Nat.lt_one_iff.mp hc
    exact zero j
  next hempty =>
  have one : ∀ j, ¬ failsCheck b n 1 j := fun j hj => hempty (by simpa using hj.1)
  split at h
  · next hfind =>
    cases h
    obtain ⟨hfail, hfirst⟩ := findIdx_first (fails_blades_iff b n) hfind
    refine ⟨hfail, hfirst, fun c j hc => ?_⟩
    have : c < 2 := hc
    interval_cases c
    exacts [zero j, one j]
  next hblades =>
  have two := findIdx_none (fails_blades_iff b n) hblades
  split at h
  · next hfind =>
    cases h
    obtain ⟨hfail, hfirst⟩ := findIdx_first (fails_unused_iff b n) hfind
    refine ⟨hfail, hfirst, fun c j hc => ?_⟩
    have : c < 3 := hc
    interval_cases c
    exacts [zero j, one j, two j]
  next hunused =>
  have three := findIdx_none (fails_unused_iff b n) hunused
  split at h
  · next hfind =>
    cases h
    obtain ⟨hfail, hfirst⟩ := findIdx_first (fails_gate_iff b n) hfind
    refine ⟨hfail, hfirst, fun c j hc => ?_⟩
    have : c < 4 := hc
    interval_cases c
    exacts [zero j, one j, two j, three j]
  next hgates =>
  have four := findIdx_none (fails_gate_iff b n) hgates
  rw [overlapAt_eq, Option.map_eq_some_iff] at h
  obtain ⟨k, hfind, heq⟩ := h
  cases heq
  obtain ⟨ht, -, hfirst⟩ := List.find?_range_eq_some.mp hfind
  refine ⟨(fails_overlap_iff b n _).mpr ht, fun j hj hf => ?_, fun c j hc => ?_⟩
  · have unmet := hfirst j hj
    simp [(fails_overlap_iff b n j).mp hf] at unmet
  · have : c < 5 := hc
    interval_cases c
    exacts [zero j, one j, two j, three j, four j]

theorem validate_of_valid (h : bankValid b n) : validate b n = none := by
  cases hv : validate b n with
  | none => rfl
  | some x => exact absurd h (not_bankValid_of_fails b n (validate_first b n hv).1)

end Checks

/-! ### Warnings (R52) -/

theorem filterMap_if {α β : Type} (p : α → Bool) (f : α → β) (l : List α) :
    (l.filterMap fun x => if p x = true then some (f x) else none) = (l.filter p).map f := by
  induction l with
  | nil => rfl
  | cons x l ih => by_cases h : p x = true <;> simp [h, ih]

/-- The positions of the windows whose step is finer than one count. -/
def finePositions (bank : Bank) (blades cpr : Nat) : List Nat :=
  (bank.windows.zipIdx.filter fun wi => stepFine wi.1 blades cpr).map Prod.snd

theorem stepFineWarnings_eq (bank : Bank) (blades cpr : Nat) :
    stepFineWarnings bank blades cpr = (finePositions bank blades cpr).map .stepFine := by
  rw [stepFineWarnings, filterMap_if, finePositions, List.map_map]
  rfl

theorem finePositions_sorted (bank : Bank) (blades cpr : Nat) :
    (finePositions bank blades cpr).Pairwise fun a b => a < b := by
  have all : (bank.windows.zipIdx.map Prod.snd).Pairwise fun a b => a < b := by
    rw [List.zipIdx_map_snd]
    exact List.pairwise_lt_range' 1
  exact all.sublist (List.filter_sublist.map Prod.snd)

theorem mem_finePositions {bank : Bank} {blades cpr i : Nat} :
    i ∈ finePositions bank blades cpr ↔ ∃ w, bank.windows[i]? = some w ∧ w.step * cpr < blades * 16777216 := by
  simp only [finePositions, List.mem_map, List.mem_filter, List.mem_zipIdx_iff_getElem?, stepFine, decide_eq_true_eq]
  constructor
  · rintro ⟨⟨w, _⟩, ⟨hw, hfine⟩, rfl⟩
    exact ⟨w, hw, hfine⟩
  · rintro ⟨w, hw, hfine⟩
    exact ⟨⟨w, i⟩, ⟨hw, hfine⟩, rfl⟩

/-- The gates numbered above `a` whose records turn ON close to its record. -/
def closeTo (bank : Bank) (blades cpr : Nat) (a : Fin 8) : List (Fin 8) :=
  gateNumbers.filter fun b => decide (a < b) && edgeClose (bank.gates.get a) (bank.gates.get b) blades cpr

/-- The pairs of gates that turn ON less than one count apart. -/
def closePairs (bank : Bank) (blades cpr : Nat) : List (Fin 8 × Fin 8) :=
  gateNumbers.flatMap fun a => (closeTo bank blades cpr a).map fun b => (a, b)

theorem edgeCloseWarnings_eq (bank : Bank) (blades cpr : Nat) :
    edgeCloseWarnings bank blades cpr = (closePairs bank blades cpr).map fun x => .edgeClose x.1 x.2 := by
  simp only [edgeCloseWarnings, closePairs, closeTo, filterMap_if, List.map_flatMap, List.map_map]
  rfl

theorem gateNumbers_sorted : gateNumbers.Pairwise fun a b => a < b := by decide

theorem closePairs_sorted (bank : Bank) (blades cpr : Nat) :
    (closePairs bank blades cpr).Pairwise fun x y => x.1 < y.1 ∨ (x.1 = y.1 ∧ x.2 < y.2) := by
  rw [closePairs, List.pairwise_flatMap]
  refine ⟨fun a _ => ?_, gateNumbers_sorted.imp fun {a b} hab x hx y hy => ?_⟩
  · rw [List.pairwise_map]
    exact (gateNumbers_sorted.filter _).imp fun h => .inr ⟨rfl, h⟩
  · obtain ⟨_, -, rfl⟩ := List.mem_map.mp hx
    obtain ⟨_, -, rfl⟩ := List.mem_map.mp hy
    exact .inl hab

theorem edgeClose_iff {x y : Option GateRecord} {blades cpr : Nat} :
    edgeClose x y blades cpr = true ↔ ∃ g h, x = some g ∧ y = some h ∧ shareABlade g.range h.range blades ∧
      ((g.on : Int) - h.on).natAbs * cpr < blades * 16777216 := by
  cases x with
  | none => simp [edgeClose]
  | some g =>
    cases y with
    | none => simp [edgeClose]
    | some h =>
      rw [edgeClose, Bool.and_eq_true, sharesBlade_iff, decide_eq_true_iff]
      exact ⟨fun close => ⟨g, h, rfl, rfl, close⟩, fun ⟨_, _, rfl, rfl, close⟩ => close⟩

theorem mem_closePairs {bank : Bank} {blades cpr : Nat} {a b : Fin 8} :
    (a, b) ∈ closePairs bank blades cpr ↔
      a < b ∧ edgeClose (bank.gates.get a) (bank.gates.get b) blades cpr = true := by
  have every : ∀ n : Fin 8, n ∈ gateNumbers := by decide
  simp [closePairs, closeTo, every]

/-! ### SWAP (R50 to R53) -/

theorem answerSwap_of_valid {s : State} {w : Workpiece} (he : s.wbk.stagedState = .editing)
    (hw : s.wbk.workpiece = some w) (hv : validate s.wbk.staged w.blades = none) :
    let bank := { s.wbk.staged with warnings := findWarnings s.wbk.staged w.blades s.enc.settings.cpr }
    answerSwap (takeRequest s) =
      accept ([stagedStateCode .pending] ++ beNat 1 bank.windows.length ++ beNat 4 (phaseGates bank) ++
        warningListBytes bank.warnings) (holdPending bank (takeRequest s)) := by
  rw [answerSwap, if_neg (not_swapPending he)]
  simp only [takeRequest_frame, hw, hv]

theorem answerSwap_of_invalid {s : State} {w : Workpiece} {reason : InvalidReason} {i : Nat}
    (he : s.wbk.stagedState = .editing) (hw : s.wbk.workpiece = some w)
    (hv : validate s.wbk.staged w.blades = some (reason, i)) :
    answerSwap (takeRequest s) =
      refuseWith .invalid (reasonCode reason) (BitVec.ofNat 8 i) (takeRequest s) := by
  rw [answerSwap, if_neg (not_swapPending he)]
  simp only [takeRequest_frame, hw, hv]

/-- Settles O32: the rows of R50, the first failure by `validate_first`, and the two lists of warnings. -/
theorem swapHoldsValidBank : Obligations.SwapHoldsValidBank := by
  refine ⟨fun s hd => ?swap, fun bank blades cpr => ⟨finePositions bank blades cpr, closePairs bank blades cpr,
    by rw [findWarnings, stepFineWarnings_eq, edgeCloseWarnings_eq], finePositions_sorted bank blades cpr,
    closePairs_sorted bank blades cpr, fun i => mem_finePositions, fun a b => ?_⟩⟩
  case swap =>
    intro refused
    have answered : exec (.swap []) s = .next (placeReply 0x92#8 (answerSwap (takeRequest s))) :=
      dispatchFixed_of_canDispatch hd answerSwap
    refine ⟨fun hp => ?_, fun he hw => ?_, fun w he hw => ⟨fun hvalid => ?_, fun hvalid => ?_⟩⟩
    · show exec _ _ = _
      rw [answered, answerSwap, if_pos (swapPending_take hp), placeReply_refuse]
      rfl
    · show exec _ _ = _
      rw [answered, answerSwap, if_neg (not_swapPending he)]
      simp only [takeRequest_frame, hw, placeReply_refuse]
      rfl
    · rw [answered, answerSwap_of_valid he hw (validate_of_valid _ _ hvalid)]
      rfl
    · obtain ⟨⟨reason, i⟩, hv⟩ := Option.ne_none_iff_exists'.mp fun hn => hvalid (validate_valid hn)
      obtain ⟨hfail, hfirst, hearlier⟩ := validate_first _ _ hv
      refine ⟨_, i, hfail, hfirst, hearlier, ?_⟩
      show exec _ _ = _
      rw [answered, answerSwap_of_invalid he hw hv, BitVec.ofNat_toNat, BitVec.setWidth_eq]
      rfl
  · rw [mem_closePairs, edgeClose_iff]

end Sys2Proof.Machine
end

