-- ==== Sys2Proof/Proofs/WorkpieceLoad.lean ====
section
/-! PROOFS. Proofs/WorkpieceLoad.lean: WKLD: its refusals, the blades with the least and the greatest pitch, and the part
with its banks emptied and GTE in SAFE (R39 to R41). -/

namespace Sys2Proof.Machine

open Sys2Proof

/-! ### The blade that none betters (R41) -/

/-- The first of `0 … n − 1` whose value no other's betters, as `bestBlade` finds it. -/
def firstBest (f : Nat → Nat) (better : Nat → Nat → Bool) (n : Nat) : Nat :=
  (List.range n).foldl (fun best k => if better (f k) (f best) then k else best) 0

theorem bestBlade_eq (w : Workpiece) (better : Nat → Nat → Bool) :
    bestBlade w better = firstBest (pitchLength w) better w.blades := rfl

theorem firstBest_succ (f : Nat → Nat) (better : Nat → Nat → Bool) (n : Nat) :
    firstBest f better (n + 1) =
      if better (f n) (f (firstBest f better n)) then n else firstBest f better n := by
  rw [firstBest, List.range_succ, List.foldl_append]
  rfl

theorem firstBest_lt (f : Nat → Nat) (better : Nat → Nat → Bool) {n : Nat} (hn : 0 < n) : firstBest f better n < n := by
  induction n with
  | zero => omega
  | succ n ih =>
    rw [firstBest_succ]
    split_ifs
    · omega
    · obtain rfl | hpos := Nat.eq_zero_or_pos n
      · exact Nat.zero_lt_one
      · exact (ih hpos).trans (Nat.lt_succ_self n)

/-- No value betters the first best, and the first best betters every one before it. -/
theorem firstBest_best (f : Nat → Nat) {better : Nat → Nat → Bool} (irrefl : ∀ a, better a a = false)
    (trans : ∀ {a b c}, better a b = true → better b c = true → better a c = true)
    (split : ∀ {a c} b, better a c = true → better a b = true ∨ better b c = true) (n : Nat) :
    ∀ k, k < n → better (f k) (f (firstBest f better n)) = false ∧
      (k < firstBest f better n → better (f (firstBest f better n)) (f k) = true) := by
  induction n with
  | zero => intro k hk; omega
  | succ n ih =>
    intro k hk
    rw [firstBest_succ]
    split_ifs with hbetter
    · obtain rfl | hlt : k = n ∨ k < n := by omega
      · exact ⟨irrefl _, fun h => absurd h (lt_irrefl _)⟩
      · obtain ⟨hk', -⟩ := ih k hlt
        refine ⟨?_, fun _ => ?_⟩
        · rw [Bool.eq_false_iff]
          intro h
          simp [trans h hbetter] at hk'
        · obtain h | h := split (f k) hbetter
          · exact h
          · simp [h] at hk'
    · obtain rfl | hlt : k = n ∨ k < n := by omega
      · refine ⟨by simpa using hbetter, fun h => ?_⟩
        obtain rfl | hpos := Nat.eq_zero_or_pos k
        · exact absurd h (by simp [firstBest])
        · exact absurd h (not_lt.mpr (firstBest_lt f better hpos).le)
      · exact ih k hlt

theorem bestBlade_lt {w : Workpiece} (better : Nat → Nat → Bool) (h : 1 ≤ w.blades) : bestBlade w better < w.blades :=
  firstBest_lt (pitchLength w) better h

theorem shortestBlade_least (w : Workpiece) {k : Nat} (hk : k < w.blades) :
    pitchLength w (shortestBlade w) ≤ pitchLength w k ∧
      (k < shortestBlade w → pitchLength w (shortestBlade w) < pitchLength w k) := by
  have best := firstBest_best (pitchLength w) (better := fun a b => decide (a < b)) (by simp)
    (by simp only [decide_eq_true_eq]; omega) (by simp only [decide_eq_true_eq]; omega) w.blades k hk
  simpa [shortestBlade, bestBlade_eq] using best

theorem longestBlade_greatest (w : Workpiece) {k : Nat} (hk : k < w.blades) :
    pitchLength w k ≤ pitchLength w (longestBlade w) ∧
      (k < longestBlade w → pitchLength w k < pitchLength w (longestBlade w)) := by
  have best := firstBest_best (pitchLength w) (better := fun a b => decide (b < a)) (by simp)
    (by simp only [decide_eq_true_eq]; omega) (by simp only [decide_eq_true_eq]; omega) w.blades k hk
  simpa [longestBlade, bestBlade_eq] using best

/-! ### The loaded workpiece (R40) -/

/-- With no exclusion group a safe level is driven unless its gate is SHORT (R162). -/
theorem driven_of_no_group {t : State} (h : safeLevelsDriven t) {n : Fin 8} (hgroup : gateGroup t.wbk.active n = none) :
    (t.gte.gates.get n).driven = true ↔ t.cal.working.safe.get n = true ∧ (t.gte.gates.get n).status ≠ .short := by
  rw [(h n).2, hgroup]
  simp

theorem loadWorkpiece_entersSafe (w : Workpiece) (s : State) : entersSafe s (loadWorkpiece w s) :=
  entersSafe_congr (enterSafe_rule (s.setWbk { Wbk.reset with workpiece := some w })) rfl rfl rfl rfl rfl

/-! ### WKLD (R39) -/

section Rows

variable {s : State} {p : List Byte}

theorem exec_wkld (hd : CanDispatch 0x0E#8 p s) (hlen : 4 ≤ p.length) :
    exec (.wkld p) s = .next (placeReply 0x8E#8 (answerWkld p (takeRequest s))) := by
  show dispatch kindWkld p (decide (4 ≤ p.length)) (answerWkld p) s = _
  have hdisp : dispatchable ⟨kindWkld, p⟩ s = true := dispatchable_of_can hd
  rw [dispatch, if_pos hdisp]
  dsimp only
  rw [if_pos (decide_eq_true hlen)]
  rfl

theorem answerWkld_lead (h : s.psc.lead ≠ none) : answerWkld p (takeRequest s) = refuse .busy (takeRequest s) :=
  if_pos ((not_leadIdle_iff (takeRequest s)).mpr h)

variable (hidle : s.psc.lead = none)

include hidle

theorem leadIdle_take : ¬ (!leadIdle (takeRequest s)) = true := by
  rw [not_leadIdle_iff]
  simpa using hidle

theorem answerWkld_blades (h : wkldBlades p < 1 ∨ 128 < wkldBlades p) :
    answerWkld p (takeRequest s) = refuse .badArg (takeRequest s) := by
  unfold answerWkld
  dsimp only
  rw [if_neg (leadIdle_take hidle), if_pos h]

variable (hlo : 1 ≤ wkldBlades p) (hhi : wkldBlades p ≤ 128)

include hlo hhi

theorem answerWkld_length (h : p.length ≠ 4 + 3 * wkldBlades p) :
    answerWkld p (takeRequest s) = refuse .badLength (takeRequest s) := by
  unfold answerWkld
  dsimp only
  rw [if_neg (leadIdle_take hidle), if_neg (by omega), if_pos h]

variable (hlen : p.length = 4 + 3 * wkldBlades p)

include hlen

theorem answerWkld_trim {k : Nat} (h : ((wkldTrims p (wkldBlades p)).findIdx? fun t => !trimOk t) = some k) :
    answerWkld p (takeRequest s) = refuseWith .badArg (BitVec.ofNat 8 k) 0#8 (takeRequest s) := by
  unfold answerWkld
  dsimp only
  rw [if_neg (leadIdle_take hidle), if_neg (by omega), if_neg (by omega), h]

theorem answerWkld_loaded (h : ((wkldTrims p (wkldBlades p)).findIdx? fun t => !trimOk t) = none) :
    let w : Workpiece := { blades := wkldBlades p, datum := wkldDatum p, trims := wkldTrims p (wkldBlades p) }
    answerWkld p (takeRequest s) =
      accept (beNat 1 w.blades ++ beNat 3 w.datum ++ beNat 4 (pitchLength w (shortestBlade w)) ++
        beNat 1 (shortestBlade w) ++ beNat 4 (pitchLength w (longestBlade w)) ++ beNat 1 (longestBlade w))
        (loadWorkpiece w (takeRequest s)) := by
  unfold answerWkld
  dsimp only
  rw [if_neg (leadIdle_take hidle), if_neg (by omega), if_neg (by omega), h]

end Rows

theorem findIdx_trims {p : List Byte} {b k : Nat} (hk : k < b)
    (hbad : ¬ (-1048576 ≤ fieldInt p (4 + 3 * k) 3 ∧ fieldInt p (4 + 3 * k) 3 ≤ 1048576))
    (hfirst : ∀ i, i < k → -1048576 ≤ fieldInt p (4 + 3 * i) 3 ∧ fieldInt p (4 + 3 * i) 3 ≤ 1048576) :
    ((wkldTrims p b).findIdx? fun t => !trimOk t) = some k := by
  rw [List.findIdx?_eq_some_iff_getElem]
  refine ⟨by simpa [wkldTrims] using hk, ?_, fun j hj => ?_⟩
  · simpa [wkldTrims, trimOk_iff, ← Bool.not_eq_true] using hbad
  · simpa [wkldTrims, trimOk_iff, ← Bool.not_eq_true] using hfirst j hj

theorem findIdx_trims_none {p : List Byte} {b : Nat}
    (h : ∀ k, k < b → -1048576 ≤ fieldInt p (4 + 3 * k) 3 ∧ fieldInt p (4 + 3 * k) 3 ≤ 1048576) :
    ((wkldTrims p b).findIdx? fun t => !trimOk t) = none := by
  rw [List.findIdx?_eq_none_iff]
  intro t ht
  obtain ⟨k, hk, rfl⟩ := List.mem_map.mp ht
  simpa [trimOk_iff] using (trimOk_iff _).mpr (h k (List.mem_range.mp hk))

/-- Settles O29: the rows of R39 in order, and the loaded workpiece. -/
theorem wkldReplacesWorkpiece : Obligations.WkldReplacesWorkpiece := by
  intro s p hd hlen blades trimLegal refused
  have answered := exec_wkld hd hlen
  refine ⟨fun hlead => ?lead, fun hidle hb => ?blades, fun hidle hlo hhi hl => ?length,
    fun hidle hlo hhi hl k hk hbad hfirst => ?trim, fun hidle hlo hhi hl hall => ?loaded⟩
  case lead =>
    show exec _ _ = _
    rw [answered, answerWkld_lead hlead, placeReply_refuse]
    rfl
  case blades =>
    show exec _ _ = _
    rw [answered, answerWkld_blades hidle hb, placeReply_refuse]
    rfl
  case length =>
    show exec _ _ = _
    rw [answered, answerWkld_length hidle hlo hhi hl, placeReply_refuse]
    rfl
  case trim =>
    show exec _ _ = _
    rw [answered, answerWkld_trim hidle hlo hhi hl (findIdx_trims hk hbad hfirst)]
    rfl
  case loaded =>
    intro w
    have accepted := answered
    rw [answerWkld_loaded hidle hlo hhi hl (findIdx_trims_none hall)] at accepted
    have safe : entersSafe s (loadWorkpiece w (takeRequest s)) :=
      entersSafe_congr (loadWorkpiece_entersSafe w (takeRequest s)) rfl rfl rfl rfl rfl
    have status : ∀ n, ((loadWorkpiece w (takeRequest s)).gte.gates.get n).status = (s.gte.gates.get n).status :=
      fun n => (safe.1.2.2.2.2 n).1
    refine ⟨_, shortestBlade w, longestBlade w, accepted, bestBlade_lt (w := w) _ hlo, bestBlade_lt (w := w) _ hlo,
      fun k hk => shortestBlade_least w hk, fun k hk => longestBlade_greatest w hk,
      entersSafe_congr safe rfl rfl rfl rfl rfl, fun n => ?_, rfl⟩
    have driven := driven_of_no_group (t := loadWorkpiece w (takeRequest s)) safe.1.2.2.1 (gateGroup_empty n)
    rw [status n] at driven
    exact driven

end Sys2Proof.Machine
end

