-- ==== Sys2Proof/Proofs/ResetInvariants.lean ====
section
/-! PROOFS. Proofs/ResetInvariants.lean: the invariants of every step hold of the part right after a power-on reset. -/

namespace Sys2Proof.Machine

open Sys2Proof

theorem reset_gate (n : Fin 8) : State.reset.gte.gates.get n = Gate.reset false := by
  simp [State.reset, Gte.reset]

theorem gatesSound_state_reset : gatesSound State.reset := by
  refine ⟨fun m n q _ _ hm => ?_, fun n _ => ?_⟩
  · rw [reset_gate] at hm
    cases hm
  · rw [reset_gate]
    rfl

theorem encoderSound_state_reset : encoderSound State.reset := by
  refine ⟨⟨by decide, by decide, by decide⟩, ⟨rfl, by decide, fun _ => by decide⟩, fun h => by cases h⟩

theorem lnkBounded_reset (causes : ResetCauses) : lnkBounded (Lnk.reset causes) := by
  refine ⟨fun c => by cases c <;> exact Nat.zero_le _, Nat.zero_le _, fun k p hp => ?_⟩
  cases k <;> cases hp

/-- Settles O60: at reset there is no pass, no tag, no record, no notice and no bank. -/
theorem invariantsHoldAtReset : Obligations.InvariantsHoldAtReset := by
  obtain ⟨hposition, hsettings, hrun⟩ := encoderSound_state_reset
  obtain ⟨hgroups, hshort⟩ := gatesSound_state_reset
  obtain ⟨hlink, hnotices⟩ := (lnkBounded_iff State.reset).mp (lnkBounded_reset _)
  have noLead : ∀ l, State.reset.psc.lead ≠ some l := fun l hl => by cases hl
  have noContext : contexts State.reset.psc = [] := rfl
  have noTag : State.reset.prb.queue = [] := rfl
  refine ⟨hposition, hsettings, hrun, hgroups, hshort, ?buffer, ?drain, ⟨Nat.zero_le _, .nil⟩, fun _ => rfl,
    ⟨fun l hl => absurd hl (noLead l), ?drained⟩, ⟨?counts, ?ids, ?named⟩, fun l hl => absurd hl (noLead l),
    ?workpiece, ?balanced, ?probe, ⟨fun _ => rfl, .nil, ?fired, ?issued⟩, hlink,
    ⟨fun h => StagedState.noConfusion h, fun h => ActiveState.noConfusion h, fun _ => rfl⟩, hnotices, bankOk_empty,
    bankOk_empty⟩
  case workpiece => simp [workpieceKnown, State.reset, Wbk.reset]
  case buffer => exact Nat.zero_le _
  case drain => exact Nat.zero_le _
  case drained => simp [State.reset, Psc.reset]
  case counts => simp [noContext]
  case ids => simp [noContext]
  case named => simp [noTag]
  case balanced => simp [noContext]
  case probe => exact ⟨Nat.zero_le _, by decide, by decide, by decide, by decide, by decide⟩
  case fired => simp [noTag]
  case issued => simp [noTag]

end Sys2Proof.Machine
end

