-- ==== Sys2Proof/Proofs/SettingsRequests.lean ====
section
/-! PROOFS. Proofs/SettingsRequests.lean: the requests that edit the working copy or program it: ENCF, GSAF, CCMT, CLCK and
CERS (R14 to R16, R162, R180, R182, R183). -/

namespace Sys2Proof.Machine

open Sys2Proof

/-! ### Renewed settings with the lead IDLE (R14) -/

/-- CPR or sense change. -/
def settingsChange (new old : EncSettings) : Prop := new.cpr ≠ old.cpr ∨ new.sense ≠ old.sense

theorem cprOrSenseChanges_iff {old new : EncSettings} :
    cprOrSenseChanges old new = true ↔ settingsChange new old := by
  rw [← not_iff_not, not_cprOrSenseChanges_iff]
  unfold settingsChange
  tauto

/-- With CPR and sense kept a renewal moves ENC alone. -/
theorem renewSettings_unchanged {s : State} (h : ¬ settingsChange s.cal.working.enc s.enc.settings) :
    renewSettings s = s.setEnc (renewedEnc s.cal.working.enc s.enc) := by
  have hch := cprOrSenseChanges_iff.not.mpr h
  have hcpr := (not_cprOrSenseChanges_iff.mp hch).1
  have hU : encU (renewedEnc s.cal.working.enc s.enc) = encU s.enc := by
    rw [renewedEnc_eq]
    simp [hch, encU, hcpr]
  unfold renewSettings
  dsimp only
  rw [if_neg (by simp [hch])]
  exact if_pos hU

section Renewal

variable {s : State} (hl : s.psc.lead = none)

include hl

/-- A position change reaches GTE alone. -/
theorem handPosition_shape (old : Int) :
    let t := handPosition old s
    t = { s with gte := t.gte, lnk := { s.lnk with notices := t.lnk.notices } } := by
  unfold handPosition
  dsimp only
  split_ifs
  · rfl
  · have stays : passPosition (encU s.enc) (gatesPosition (changeDir old (encU s.enc)) (encU s.enc) s) =
        gatesPosition (changeDir old (encU s.enc)) (encU s.enc) s := by
      simp [passPosition, hl]
    rw [stays]
    exact (gatesPosition_shape _ _ s).1

/-- A renewal changes ENC, GTE and the notices alone. -/
theorem renewSettings_shape :
    let t := renewSettings s
    t = { s with
      enc := renewedEnc s.cal.working.enc s.enc, gte := t.gte
      lnk := { s.lnk with notices := t.lnk.notices } } := by
  by_cases hleft : s.enc.state = .homed ∧ cprOrSenseChanges s.enc.settings s.cal.working.enc = true
  · rw [renewSettings_left hl hleft.1 hleft.2]
    rfl
  · have stays : renewSettings s = handPosition (encU s.enc) (s.setEnc (renewedEnc s.cal.working.enc s.enc)) := by
      unfold renewSettings
      dsimp only
      rw [if_neg (by simpa using hleft)]
    rw [stays]
    exact handPosition_shape (s := s.setEnc (renewedEnc s.cal.working.enc s.enc)) hl _

/-- Out of HOMED, where GTE is in SAFE, it does too. -/
theorem renewSettings_unhomed (hrun : runHomed s) (hst : s.enc.state ≠ .homed) :
    renewSettings s = s.setEnc (renewedEnc s.cal.working.enc s.enc) := by
  have hsafe : s.gte.mode = .safe := by
    cases hm : s.gte.mode with
    | safe => rfl
    | run => exact absurd (hrun hm) hst
  exact renewSettings_idle hsafe (by simp [noRunningLead, hl]) (fun h => absurd h hst)

theorem renewSettings_notices (h : ¬ settingsChange s.cal.working.enc s.enc.settings ∨ runHomed s) :
    (renewSettings s).lnk.notices = s.lnk.notices := by
  by_cases hch : settingsChange s.cal.working.enc s.enc.settings
  · have hrun := h.resolve_left (not_not.mpr hch)
    by_cases hst : s.enc.state = .homed
    · rw [renewSettings_left hl hst (cprOrSenseChanges_iff.mpr hch)]
      simp
    · rw [renewSettings_unhomed hl hrun hst]
      simp
  · rw [renewSettings_unchanged hch]
    simp

end Renewal

/-! ### ENCF (R15, R16) -/

/-- ENCF past the rows that the edits share. -/
def encfAnswer (p : List Byte) (s : State) : Answer :=
  match encfSettings (readEncf p) with
  | none => refuse .badArg s
  | some e => accept (encSettingsBytes e ++ [encStateCode (applyEncf e s).enc.state]) (applyEncf e s)

theorem answerEncf_eq_editAnswer (p : List Byte) : answerEncf p = editAnswer (encfAnswer p) := rfl

theorem encfSettings_of_cpr {a : EncfArgs} (h : a.cpr < 1024 ∨ 16777216 < a.cpr) : encfSettings a = none := by
  refine if_neg ?_
  simp only [cprOk, Bool.and_eq_true, decide_eq_true_eq]
  omega

theorem encfSettings_of_sense {a : EncfArgs} (h : 1 < a.sense) : encfSettings a = none := by
  have code : senseOfCode a.sense = none := by
    unfold senseOfCode
    rw [if_neg (by omega), if_neg (by omega)]
  unfold encfSettings
  rw [code, Option.map_none, ite_self]

theorem senseOfCode_of_le {n : Nat} (h : n ≤ 1) : senseOfCode n = some (if n = 0 then .aLeads else .bLeads) := by
  interval_cases n <;> rfl

theorem encfSettings_of_legal {a : EncfArgs} (hcpr : ¬ (a.cpr < 1024 ∨ 16777216 < a.cpr)) (hsense : ¬ 1 < a.sense) :
    encfSettings a = some
      { cpr := a.cpr, sense := if a.sense = 0 then .aLeads else .bLeads, tolerance := min 255 a.tolerance
        filterPeriod := max 1 (min 128 a.filterPeriod) } := by
  unfold encfSettings
  rw [if_pos (by simp only [cprOk, Bool.and_eq_true, decide_eq_true_eq]; omega),
    senseOfCode_of_le (Nat.not_lt.mp hsense), Option.map_some, clamp_zero]
  rfl

theorem applyEncf_shape {s : State} (hl : s.psc.lead = none) (e : EncSettings) :
    let t := applyEncf e s
    t = { s with
      enc := renewedEnc e s.enc, gte := t.gte, lnk := { s.lnk with notices := t.lnk.notices }
      cal := { s.cal with working := { s.cal.working with enc := e }, origin := .edited } } :=
  renewSettings_shape (s := editWorking { s.cal.working with enc := e } s) hl

/-- What an ENCF taken with OK makes of the part. -/
theorem applyEncf_renews {s : State} (hl : s.psc.lead = none) (e : EncSettings) :
    let t := applyEncf e s
    let changed := settingsChange e s.enc.settings
    (¬ changed ∨ runHomed s → t.lnk.notices = s.lnk.notices) ∧ (¬ changed → t.gte = s.gte) ∧
      (changed → s.enc.state = .homed → entersSafe s t) ∧
      (changed → s.enc.state ≠ .homed → runHomed s → t.gte = s.gte) := by
  have hl' : (editWorking { s.cal.working with enc := e } s).psc.lead = none := hl
  refine ⟨fun h => renewSettings_notices hl' h, fun h => ?_, fun hch hst => ?_, fun hch hst hrun => ?_⟩
  · have stays := renewSettings_unchanged (s := editWorking { s.cal.working with enc := e } s) h
    simp only [applyEncf, stays]
    rfl
  · exact applyEncf_entersSafe hl hst (cprOrSenseChanges_iff.mpr hch)
  · have stays := renewSettings_unhomed (s := editWorking { s.cal.working with enc := e } s) hl' hrun hst
    simp only [applyEncf, stays]
    rfl

theorem renewedEnc_of_settings (new : EncSettings) (e : Enc) :
    renewedEnc new e = { e with
      settings := new
      noted := if new.filterPeriod = e.settings.filterPeriod then e.noted else ⟨false, false, false⟩
      c := if new.cpr ≠ e.settings.cpr ∨ new.sense ≠ e.settings.sense then 0 else e.c
      state := if new.cpr ≠ e.settings.cpr ∨ new.sense ≠ e.settings.sense then .notHomed else e.state } := by
  rw [renewedEnc_eq]
  have hc : cprOrSenseChanges e.settings new = true ↔ new.cpr ≠ e.settings.cpr ∨ new.sense ≠ e.settings.sense :=
    cprOrSenseChanges_iff
  simp only [hc, eq_comm (a := e.settings.filterPeriod), noLines]

/-- The rows that the edits share, past which the lead is IDLE. -/
theorem rows_of_editAnswer_idle {kind : Byte} {own : State → Answer} {s : State}
    {out : Host.Outcome State Fault Refusal} {ownRows : Prop}
    (hout : out = .next (placeReply kind (editAnswer own (takeRequest s))))
    (hown : s.psc.lead = none → out = .next (placeReply kind (own (takeRequest s))) → ownRows) :
    let refused := fun st : Byte => out = .next { s with lnk := answered s.lnk kind [st, 0#8, 0#8] }
    if s.cal.locked = true then refused 4#8
    else if s.cal.programming ≠ none then refused 1#8
    else if s.psc.lead ≠ none then refused 1#8
    else ownRows := by
  by_cases hl : s.psc.lead = none
  · exact rows_of_editAnswer hout (hown hl)
  · have rows := rows_of_editAnswer (ownRows := True) hout fun _ => trivial
    simp only [ne_eq, hl, not_false_eq_true, if_true] at rows ⊢
    exact rows

/-- Settles O19: the rows of R15, and a renewal with the lead IDLE. -/
theorem encfRenewsSettings : Obligations.EncfRenewsSettings := by
  intro s p hd hlen
  have answered : exec (.encf p) s = .next (placeReply 0x86#8 (editAnswer (encfAnswer p) (takeRequest s))) := by
    rw [← answerEncf_eq_editAnswer]
    exact dispatchFixed_of_length hd hlen (answerEncf p)
  refine rows_of_editAnswer_idle answered fun hl own => ?_
  by_cases hcpr : fieldNat p 0 4 < 1024 ∨ 16777216 < fieldNat p 0 4
  · rw [if_pos hcpr, own, encfAnswer, encfSettings_of_cpr (a := readEncf p) hcpr, placeReply_refuse]
    rfl
  by_cases hsense : 1 < fieldNat p 4 1
  · rw [if_neg hcpr, if_pos hsense, own, encfAnswer, encfSettings_of_sense (a := readEncf p) hsense, placeReply_refuse]
    rfl
  rw [if_neg hcpr, if_neg hsense]
  intro new changed
  have taken : encfAnswer p (takeRequest s) = accept
      (encSettingsBytes new ++ [encStateCode (applyEncf new (takeRequest s)).enc.state])
      (applyEncf new (takeRequest s)) := by
    rw [encfAnswer, encfSettings_of_legal (a := readEncf p) hcpr hsense]
    rfl
  have shape := applyEncf_shape (s := takeRequest s) hl new
  obtain ⟨hnotices, hkept, hleft, hunhomed⟩ := applyEncf_renews (s := takeRequest s) hl new
  rw [taken] at own
  refine ⟨_, own, ?_, ?_, ?_, hnotices, hkept, fun hch hst => ?_, hunhomed⟩
  · exact (congrArg State.cal shape).trans rfl
  · exact (congrArg State.enc shape).trans (renewedEnc_of_settings new s.enc)
  · dsimp only [accept, placeReply]
    rw [shape]
    rfl
  · exact entersSafe_congr (hleft hch hst) rfl rfl rfl rfl rfl

/-! ### GSAF (R162, R180) -/

theorem fieldBytes_levels (levels : Eight Bool) (n : Fin 8) :
    fieldNat (levels.toList.map byteOfBool) n.val 1 = (levels.get n).toNat := by
  have byte : ∀ b, natOfBytes [byteOfBool b] = b.toNat := fun b => by cases b <;> rfl
  rw [← byte]
  fin_cases n <;> rfl

theorem readGsaf_levels (levels : Eight Bool) (n : Fin 8) :
    readGsaf (levels.toList.map byteOfBool) n = some (levels.get n) := by
  rw [readGsaf, fieldBytes_levels]
  cases levels.get n <;> rfl

theorem gsafLevels_levels (levels : Eight Bool) : gsafLevels (levels.toList.map byteOfBool) = levels := by
  simp only [gsafLevels, readGsaf_levels, Option.getD_some]
  rfl

theorem gsafLegal_levels (levels : Eight Bool) : gsafLegal (levels.toList.map byteOfBool) = true := by
  simp [gsafLegal, readGsaf_levels]

theorem gsafLegal_of_illegal {p : List Byte} {i : Nat} (hi : i < 8) (h : 1 < fieldNat p i 1) : gsafLegal p = false := by
  have every : ∀ n : Fin 8, n ∈ gateNumbers := by decide
  rw [Bool.eq_false_iff]
  intro hlegal
  have one := List.all_eq_true.mp hlegal ⟨i, hi⟩ (every _)
  rw [readGsaf, levelOfCode_of_gt h] at one
  cases one

theorem safeLevelsChanged_of_safe {s : State} (h : s.gte.mode = .safe) : safeLevelsChanged s = driveSafe s := by
  simp only [safeLevelsChanged, h]

theorem safeLevelsChanged_of_run {s : State} (h : s.gte.mode = .run) : safeLevelsChanged s = s := by
  simp only [safeLevelsChanged, h]

/-- New safe levels reach GTE alone. -/
theorem safeLevelsChanged_shape (s : State) : safeLevelsChanged s = { s with gte := (safeLevelsChanged s).gte } := by
  cases h : s.gte.mode with
  | safe =>
    rw [safeLevelsChanged_of_safe h]
    rfl
  | run => rw [safeLevelsChanged_of_run h]

/-- Settles O56: the rows of R180, and the safe levels driven at once in SAFE. -/
theorem gsafSetsSafeLevels : Obligations.GsafSetsSafeLevels := by
  refine ⟨fun s p hd hlen => ?refused, fun s levels hd hlocked hprog => ?taken⟩
  case refused =>
    have answered : exec (.gsaf p) s = .next (placeReply 0x8A#8 (answerGsaf p (takeRequest s))) :=
      dispatchFixed_of_length hd hlen (answerGsaf p)
    refine ⟨fun hlocked => ?_, fun hlocked hprog => ?_, fun hlocked hprog ⟨i, hi, hbad⟩ => ?_⟩
    · show exec _ _ = _
      rw [answered, answerGsaf, if_pos (by simpa using hlocked), placeReply_refuse]
      rfl
    · show exec _ _ = _
      rw [answered, answerGsaf, if_neg (by simp [hlocked]), if_pos ((programming_iff (takeRequest s)).mpr hprog),
        placeReply_refuse]
      rfl
    · show exec _ _ = _
      rw [answered, answerGsaf, if_neg (by simp [hlocked]), if_neg (by simp [programming, hprog]),
        if_pos (by simp [gsafLegal_of_illegal hi hbad]), placeReply_refuse]
      rfl
  case taken =>
    have answered : exec (.gsaf (levels.toList.map byteOfBool)) s =
        .next (placeReply 0x8A#8 (answerGsaf (levels.toList.map byteOfBool) (takeRequest s))) :=
      dispatchFixed_of_length hd (by simp [Eight.toList]) (answerGsaf _)
    rw [answerGsaf, if_neg (by simp [hlocked]), if_neg (by simp [programming, hprog]),
      if_neg (by simp [gsafLegal_levels]), gsafLevels_levels] at answered
    let m := editWorking { s.cal.working with safe := levels } (takeRequest s)
    have shape : applyGsaf levels (takeRequest s) = { m with gte := (safeLevelsChanged m).gte } :=
      safeLevelsChanged_shape m
    have mode : (safeLevelsChanged m).gte.mode = s.gte.mode := safeLevelsChanged_mode m
    refine ⟨_, answered, ?_, fun hrun => ?_, fun hsafe => ?_⟩
    · dsimp only [accept, placeReply]
      rw [shape]
      simp only [mode]
      rfl
    · have same : applyGsaf levels (takeRequest s) = m := safeLevelsChanged_of_run (s := m) hrun
      dsimp only [accept, placeReply]
      rw [same]
      rfl
    · obtain ⟨hdriven, hlast, hdue⟩ := driveSafe_driven_rule m hsafe
      have same : applyGsaf levels (takeRequest s) = driveSafe m := safeLevelsChanged_of_safe (s := m) hsafe
      dsimp only [accept, placeReply]
      rw [same]
      refine ⟨hdriven, hlast, hdue, fun n hgroup => ?_⟩
      obtain ⟨-, -, hlevels, -, hkept⟩ := hdriven
      have driven := driven_of_no_group hlevels (n := n) hgroup
      rw [(hkept n).1] at driven
      exact driven

/-! ### CCMT, CLCK and CERS (R182, R183) -/

theorem placeReply_answerProgram {k : Byte} {op : ProgOp} {s : State}
    {out : Host.Outcome State Fault Refusal}
    (h : out = .next (placeReply (k ||| 0x80#8) (answerProgram op (takeRequest s)))) :
    let refused := fun st : Byte => out = .next { s with lnk := answered s.lnk (k ||| 0x80#8) [st, 0#8, 0#8] }
    if s.cal.locked = true then refused 4#8
    else if s.cal.programming ≠ none then refused 1#8
    else out = .next { s with
      cal := { s.cal with programming := some { op := op, deadline := s.now + 4000000 } }
      lnk := answered s.lnk (k ||| 0x80#8) [0#8, 1#8] } := by
  intro refused
  split_ifs with hlocked hprog
  · rw [answerProgram, if_pos (show (takeRequest s).cal.locked = true from hlocked), placeReply_refuse] at h
    exact h
  · rw [answerProgram, if_neg (show ¬ (takeRequest s).cal.locked = true from hlocked),
      if_pos ((programming_iff (takeRequest s)).mpr hprog), placeReply_refuse] at h
    exact h
  · rw [answerProgram, if_neg (show ¬ (takeRequest s).cal.locked = true from hlocked),
      if_neg (mt (programming_iff (takeRequest s)).mp hprog)] at h
    exact h

/-- The part as CERS leaves CAL, before ENC and GTE take it (R183). -/
def erasing (s : State) : State :=
  startProgram .cers (s.setCal { s.cal with working := Settings.default, origin := .defaults, locked := false })

theorem applyCers_eq (s : State) : applyCers s = safeLevelsChanged (renewSettings (erasing s)) := rfl

theorem applyCers_shape {s : State} (hl : s.psc.lead = none) :
    let t := applyCers s
    t = { s with
      enc := renewedEnc Settings.default.enc s.enc, gte := t.gte, lnk := { s.lnk with notices := t.lnk.notices }
      cal := { image := s.cal.image, working := Settings.default, origin := .defaults, locked := false
               programming := some { op := .cers, deadline := s.now + 4000000 } } } := by
  have renewed := renewSettings_shape (s := erasing s) hl
  dsimp only at renewed ⊢
  rw [applyCers_eq, safeLevelsChanged_shape, renewed]
  rfl

theorem applyCers_notices {s : State} (hl : s.psc.lead = none)
    (h : ¬ settingsChange Settings.default.enc s.enc.settings ∨ runHomed s) :
    (applyCers s).lnk.notices = s.lnk.notices := by
  rw [applyCers_eq, safeLevelsChanged_shape]
  exact renewSettings_notices (s := erasing s) hl h

/-- In RUN the gates stay over a CERS that keeps CPR and sense. -/
theorem applyCers_run {s : State} (h : ¬ settingsChange Settings.default.enc s.enc.settings) (hrun : s.gte.mode = .run) :
    (applyCers s).gte = s.gte := by
  rw [applyCers_eq, renewSettings_unchanged (s := erasing s) h, safeLevelsChanged_of_run]
  · rfl
  · exact hrun

/-- In SAFE a CERS that does not leave HOMED drives the default levels. -/
theorem applyCers_safe {s : State} (hl : s.psc.lead = none) (hsafe : s.gte.mode = .safe)
    (h : ¬ (settingsChange Settings.default.enc s.enc.settings ∧ s.enc.state = .homed)) :
    safeDriven s (applyCers s) ∧ (applyCers s).gte.last = s.gte.last ∧
      ∀ n, ((applyCers s).gte.gates.get n).due = (s.gte.gates.get n).due := by
  have stays : renewSettings (erasing s) = (erasing s).setEnc (renewedEnc Settings.default.enc s.enc) := by
    refine renewSettings_idle (s := erasing s) hsafe (by simp [noRunningLead, erasing, startProgram, hl]) fun hst => ?_
    rw [← Bool.not_eq_true]
    exact fun hch => h ⟨cprOrSenseChanges_iff.mp hch, hst⟩
  rw [applyCers_eq, stays, safeLevelsChanged_of_safe]
  · exact driveSafe_driven_rule ((erasing s).setEnc (renewedEnc Settings.default.enc s.enc)) hsafe
  · exact hsafe

/-- In SAFE every gate is OFF, since the default levels are OFF. -/
theorem applyCers_off {s : State} (h : (applyCers s).gte.mode = .safe) (n : Fin 8) :
    ((applyCers s).gte.gates.get n).driven = false := by
  have hmode : (renewSettings (erasing s)).gte.mode = .safe := by
    rw [applyCers_eq, safeLevelsChanged_mode] at h
    exact h
  have driven : safeLevelsDriven (applyCers s) := by
    rw [applyCers_eq, safeLevelsChanged_of_safe hmode]
    exact driveSafe_rule _
  rw [← Bool.not_eq_true, (driven n).2]
  rintro ⟨⟨hon, -⟩, -⟩
  have off : (applyCers s).cal.working.safe.get n = false := by
    rw [(applyCers_frame s).2.2.2.2.1]
    fin_cases n <;> rfl
  rw [off] at hon
  cases hon

theorem exec_cers {s : State} (hd : CanDispatch 0x0D#8 [] s) :
    exec (.cers []) s = .next (placeReply 0x8D#8 (answerCers (takeRequest s))) :=
  dispatchFixed_of_canDispatch hd answerCers

/-- Settles O57: the rows of R182 and R183, and what CERS makes of ENC and GTE. -/
theorem programOperationsBegin : Obligations.ProgramOperationsBegin := by
  refine ⟨fun s k op hk hd => ?program, fun s hd hbusy => ?busy, fun s hd hprog hl => ?erased⟩
  case program =>
    obtain ⟨rfl, rfl⟩ | ⟨rfl, rfl⟩ := hk
    · exact placeReply_answerProgram (k := 0x0B#8) (dispatchFixed_of_canDispatch hd (answerProgram .ccmt))
    · exact placeReply_answerProgram (k := 0x0C#8) (dispatchFixed_of_canDispatch hd (answerProgram .clck))
  case busy =>
    have refusal : answerCers (takeRequest s) = refuse .busy (takeRequest s) := by
      unfold answerCers
      split_ifs with hp hle
      · rfl
      · rfl
      · exact absurd hbusy (not_or.mpr ⟨mt (programming_iff _).mpr hp, mt (not_leadIdle_iff _).mpr hle⟩)
    rw [exec_cers hd, refusal, placeReply_refuse]
    rfl
  case erased =>
    have taken : answerCers (takeRequest s) = accept [originCode .defaults, 0#8, 1#8] (applyCers (takeRequest s)) := by
      rw [answerCers, if_neg (mt (programming_iff (takeRequest s)).mp (not_not.mpr hprog)), if_neg (leadIdle_take hl)]
    have shape := applyCers_shape (s := takeRequest s) hl
    have answered := exec_cers hd
    rw [taken] at answered
    have default_changed : s.enc.settings.cpr ≠ 360000 ∨ s.enc.settings.sense ≠ .aLeads ↔
        settingsChange Settings.default.enc s.enc.settings := by
      unfold settingsChange
      rw [ne_comm, ne_comm (a := s.enc.settings.sense)]
      rfl
    refine ⟨_, answered, (congrArg State.cal shape).trans rfl, ?_, fun hch hst => ?_, fun hch hrun => ?_,
      fun hsafe hleft => ?_, applyCers_off, fun h => ?_, ?_⟩
    · have hc := cprOrSenseChanges_iff.trans default_changed.symm
      refine (congrArg State.enc shape).trans ((renewedEnc_eq _ _).trans ?_)
      simp only [takeRequest_frame, hc, noLines]
      rfl
    · exact entersSafe_congr (applyCers_entersSafe (s := takeRequest s) hl hst
        (cprOrSenseChanges_iff.mpr (default_changed.mp hch))) rfl rfl rfl rfl rfl
    · exact applyCers_run (s := takeRequest s) (mt default_changed.mpr hch) hrun
    · exact applyCers_safe (s := takeRequest s) hl hsafe fun h => hleft ⟨default_changed.mpr h.1, h.2⟩
    · exact applyCers_notices (s := takeRequest s) hl (h.imp_left (mt default_changed.mpr))
    · dsimp only [accept, placeReply]
      rw [shape]
      rfl

end Sys2Proof.Machine
end

