-- ==== Sys2Proof/Proofs/LoadSense.lean ====
section
/-! PROOFS. Proofs/LoadSense.lean: a load sense input, the expiry of its qualification, and the latches that GCLR clears (R169
to R171). -/

namespace Sys2Proof.Machine

open Sys2Proof

/-! ### A qualification that expires (R169, R170) -/

/-- The qualification of gate `n` has expired. -/
def expiredAt (s : State) (n : Fin 8) : Bool := qualExpired s.now (s.gte.gates.get n)

theorem expiredAt_iff {s : State} {n : Fin 8} :
    expiredAt s n = true ↔ ∃ since, (s.gte.gates.get n).qual = some since ∧ since + 5000 ≤ s.now := qualExpired_iff

theorem expiredAt_eq (s : State) (n : Fin 8) :
    expiredAt s n = (s.gte.gates.get n).qual.any fun since => decide (since + 5000 ≤ s.now) := by
  rw [Bool.eq_iff_iff, expiredAt_iff, Option.any_eq_true]
  simp only [decide_eq_true_eq]

theorem latchExpired_of_not {s : State} {n : Fin 8} (h : expiredAt s n = false) : latchExpired s n = s :=
  if_neg (by simpa [expiredAt] using h)

theorem latchExpired_of_expired {s : State} {n : Fin 8} (h : expiredAt s n = true) :
    latchExpired s n = raise (.gateFault n (latchedStatus (s.gte.gates.get n)))
      (s.setGte { s.gte with gates := s.gte.gates.set n (latchGate (s.gte.gates.get n)) }) :=
  if_pos h

theorem latchExpired_gate (s : State) (m n : Fin 8) :
    (latchExpired s m).gte.gates.get n =
      if n = m ∧ expiredAt s m = true then latchGate (s.gte.gates.get n) else s.gte.gates.get n := by
  cases h : expiredAt s m with
  | false => rw [latchExpired_of_not h]; simp
  | true =>
    rw [latchExpired_of_expired h]
    by_cases hn : n = m
    · subst hn; simp
    · simp [hn]

theorem latchExpired_expiredAt {s : State} {m n : Fin 8} (h : n ≠ m) : expiredAt (latchExpired s m) n = expiredAt s n := by
  unfold expiredAt
  rw [latchExpired_gate, if_neg (by tauto), (latchExpired_frame s m).1]

/-- A latch touches the gates and the notices alone, and of these the slot of GATE_FAULT. -/
theorem latchExpired_others (s : State) (m : Fin 8) :
    let t := latchExpired s m
    t = { s with gte := { s.gte with gates := t.gte.gates }, lnk := { s.lnk with notices := t.lnk.notices } } ∧
      ∀ k, k ≠ .gateFault → noticeSlot t.lnk.notices k = noticeSlot s.lnk.notices k := by
  cases h : expiredAt s m with
  | false => rw [latchExpired_of_not h]; simp
  | true =>
    rw [latchExpired_of_expired h]
    exact ⟨rfl, fun k hk => (raise_slot _ _ k).trans (if_neg hk)⟩

theorem latchExpired_slot {s : State} {m : Fin 8} (h : expiredAt s m = true) :
    noticeSlot (latchExpired s m).lnk.notices .gateFault =
      some (raisedSlot (noticeSlot s.lnk.notices .gateFault) (.gateFault m (latchedStatus (s.gte.gates.get m)))) := by
  rw [latchExpired_of_expired h]
  exact (raise_slot _ _ _).trans (if_pos rfl)

theorem latchExpired_count {s : State} {m : Fin 8} (h : expiredAt s m = true) :
    noticeCount (latchExpired s m).lnk.notices .gateFault = min (noticeCount s.lnk.notices .gateFault + 1) 255 := by
  simp only [noticeCount, latchExpired_slot h]
  cases noticeSlot s.lnk.notices .gateFault <;> simp [raisedSlot]

/-- The latches of a list of gates touch the gates and the notices alone, and of these the slot of GATE_FAULT. -/
theorem latches_others (l : List (Fin 8)) (s : State) :
    let t := l.foldl latchExpired s
    t = { s with gte := { s.gte with gates := t.gte.gates }, lnk := { s.lnk with notices := t.lnk.notices } } ∧
      ∀ k, k ≠ .gateFault → noticeSlot t.lnk.notices k = noticeSlot s.lnk.notices k := by
  induction l generalizing s with
  | nil => exact ⟨rfl, fun _ _ => rfl⟩
  | cons m l ih =>
    obtain ⟨first, slots⟩ := latchExpired_others s m
    obtain ⟨rest, slots'⟩ := ih (latchExpired s m)
    dsimp only [List.foldl_cons] at rest slots' ⊢
    exact ⟨by rw [rest, first], fun k hk => (slots' k hk).trans (slots k hk)⟩

theorem latches_idle {l : List (Fin 8)} {s : State} (h : ∀ n ∈ l, expiredAt s n = false) : l.foldl latchExpired s = s := by
  induction l with
  | nil => rfl
  | cons m l ih =>
    rw [List.foldl_cons, latchExpired_of_not (h m (by simp))]
    exact ih fun n hn => h n (by simp [hn])

theorem latches_gate {l : List (Fin 8)} (sorted : l.Pairwise (· < ·)) (s : State) (n : Fin 8) :
    (l.foldl latchExpired s).gte.gates.get n =
      if n ∈ l ∧ expiredAt s n = true then latchGate (s.gte.gates.get n) else s.gte.gates.get n := by
  induction l generalizing s with
  | nil => simp
  | cons m l ih =>
    obtain ⟨above, sorted⟩ := List.pairwise_cons.mp sorted
    rw [List.foldl_cons, ih sorted, latchExpired_gate]
    by_cases hn : n = m
    · subst hn
      have away : n ∉ l := fun h => lt_irrefl _ (above n h)
      simp [away]
    · rw [latchExpired_expiredAt hn]
      simp [hn]

/-- Each expiry of the list counts once in GATE_FAULT, which names the last of them. -/
theorem latches_slot {l : List (Fin 8)} (sorted : l.Pairwise (· < ·)) {s : State} {n : Fin 8} (hn : n ∈ l)
    (he : expiredAt s n = true) (highest : ∀ m ∈ l, n < m → expiredAt s m = false)
    (hc : noticeCount s.lnk.notices .gateFault ≤ 255) :
    noticeSlot (l.foldl latchExpired s).lnk.notices .gateFault =
      some { count := min (noticeCount s.lnk.notices .gateFault + l.countP (expiredAt s)) 255
             detail := .gateFault n (latchedStatus (s.gte.gates.get n)) } := by
  induction l generalizing s with
  | nil => simp at hn
  | cons m l ih =>
    obtain ⟨above, sorted⟩ := List.pairwise_cons.mp sorted
    have apart : ∀ k ∈ l, k ≠ m := fun k hk => ne_of_gt (above k hk)
    have later : ∀ k ∈ l, expiredAt (latchExpired s m) k = expiredAt s k := fun k hk =>
      latchExpired_expiredAt (apart k hk)
    have counted : l.countP (expiredAt (latchExpired s m)) = l.countP (expiredAt s) :=
      List.countP_congr fun k hk => by rw [later k hk]
    rw [List.foldl_cons]
    by_cases hm : n = m
    · subst hm
      have rest : ∀ k ∈ l, expiredAt s k = false := fun k hk => highest k (by simp [hk]) (above k hk)
      have none : l.countP (expiredAt s) = 0 := List.countP_eq_zero.mpr fun k hk => by simp [rest k hk]
      rw [latches_idle fun k hk => (later k hk).trans (rest k hk), latchExpired_slot he, List.countP_cons_of_pos he, none]
      simp only [noticeCount]
      cases noticeSlot s.lnk.notices .gateFault <;> simp [raisedSlot]
    · have hn' : n ∈ l := by simpa [hm] using hn
      have gate : (latchExpired s m).gte.gates.get n = s.gte.gates.get n := by
        rw [latchExpired_gate, if_neg (by tauto)]
      have tail := ih sorted (s := latchExpired s m) hn' ((later n hn').trans he)
        fun k hk hlt => (later k hk).trans (highest k (by simp [hk]) hlt)
      cases hx : expiredAt s m with
      | false =>
        rw [latchExpired_of_not hx] at tail ⊢
        rw [tail hc, List.countP_cons_of_neg (by simp [hx])]
      | true =>
        rw [tail (by rw [latchExpired_count hx]; omega), latchExpired_count hx, counted, gate,
          List.countP_cons_of_pos hx]
        congr 2
        omega

/-- Settles O53, with the latches of the eight gates as a fold in ascending order. -/
theorem senseQualifiesAndLatches : Obligations.SenseQualifiesAndLatches := by
  refine ⟨fun s n level hl => ?sense, fun s => ⟨_, rfl, ?_⟩⟩
  case sense =>
    refine ⟨_, rfl, fun m hm => ?_, ?_⟩
    · rw [Eight.get_set, if_neg hm]
    · rw [Eight.get_set, if_pos rfl, senseGate, if_neg (Ne.symm hl)]
      rfl
  obtain ⟨shape, slots⟩ := latches_others gateNumbers s
  have gate := latches_gate gateNumbers_sorted s
  have idle := latches_idle (l := gateNumbers) (s := s)
  have slot := fun n => latches_slot gateNumbers_sorted (s := s) (n := n)
  generalize gateNumbers.foldl latchExpired s = t at shape slots gate idle slot
  dsimp only at shape slots
  refine ⟨by rw [shape], by rw [shape], by rw [shape], by rw [shape], fun n => ?_, slots, fun none => ?_,
    fun n he highest hn => ?_⟩
  · dsimp only
    rw [gate n]
    by_cases he : expiredAt s n = true
    · rw [if_pos ⟨mem_gateNumbers n, he⟩]
      exact ⟨rfl, rfl, rfl, fun h => absurd (expiredAt_iff.mp he) h, fun _ => ⟨rfl, rfl⟩⟩
    · rw [if_neg (by tauto)]
      exact ⟨rfl, rfl, rfl, fun _ => rfl, fun h => absurd (expiredAt_iff.mpr h) he⟩
  · exact idle fun n _ => Bool.eq_false_iff.mpr (mt expiredAt_iff.mp (none n))
  · rw [slot n (mem_gateNumbers n) (expiredAt_iff.mpr he)
      (fun m _ hlt => Bool.eq_false_iff.mpr (mt expiredAt_iff.mp (highest m hlt))) (noticeCount_le hn _),
      show expiredAt s = _ from funext (expiredAt_eq s)]
    rfl

/-! ### The latches that GCLR clears (R171) -/

theorem gateMask_singleton (mask : Byte) (n : Fin 8) : gateMask [mask] n = mask.getLsbD n.val := by
  rw [gateMask, fieldNat_singleton]
  rfl

theorem clearedGates_get (mask : Fin 8 → Bool) (now : Nat) (gates : Eight Gate) (n : Fin 8) :
    (clearedGates mask now gates).get n =
      if mask n = true ∧ (gates.get n).status ≠ .ok then
        { gates.get n with
          status := .ok
          qual := if (gates.get n).sense ≠ (gates.get n).driven then some now else none }
      else gates.get n := by
  simp only [clearedGates, Eight.get_ofFn, clearLatch, gateLatched, startQual, decide_eq_true_eq, true_and]
  split_ifs <;> simp_all

theorem clearedGates_frame (mask : Fin 8 → Bool) (now : Nat) (gates : Eight Gate) (n : Fin 8) :
    let g := gates.get n
    let h := (clearedGates mask now gates).get n
    h.driven = g.driven ∧ h.due = g.due ∧ h.sense = g.sense ∧ h.waiting = g.waiting := by
  dsimp only
  rw [clearedGates_get]
  split
  · exact ⟨rfl, rfl, rfl, rfl⟩
  · exact ⟨rfl, rfl, rfl, rfl⟩

theorem clearedGates_status (mask : Fin 8 → Bool) (now : Nat) (gates : Eight Gate) (n : Fin 8) :
    ((clearedGates mask now gates).get n).status = if mask n then GateStatus.ok else (gates.get n).status := by
  rw [clearedGates_get]
  by_cases hm : mask n = true <;> by_cases hs : (gates.get n).status = .ok <;> simp [hm, hs]

theorem namesShort_iff {mask : Fin 8 → Bool} {gates : Eight Gate} :
    namesShort mask gates = true ↔ ∃ n, mask n = true ∧ (gates.get n).status = .short := by
  simp [namesShort]

/-- The part once the named latches are cleared, before GTE arbitrates. -/
def clearing (mask : Fin 8 → Bool) (s : State) : State :=
  s.setGte { s.gte with gates := clearedGates mask s.now s.gte.gates }

theorem clearLatches_of_not {mask : Fin 8 → Bool} {s : State} (h : namesShort mask s.gte.gates = false) :
    clearLatches mask s = clearing mask s := if_neg (by simp [h])

theorem clearLatches_of_safe {mask : Fin 8 → Bool} {s : State} (h : namesShort mask s.gte.gates = true)
    (hm : s.gte.mode = .safe) : clearLatches mask s = driveSafe (clearing mask s) := by
  refine (if_pos h).trans ?_
  split
  · next e => exact absurd (hm.symm.trans e) (by simp)
  · rfl

theorem clearLatches_of_run {mask : Fin 8 → Bool} {s : State} (h : namesShort mask s.gte.gates = true)
    (hm : s.gte.mode = .run) : clearLatches mask s = arbitrateRun false (clearing mask s) := by
  refine (if_pos h).trans ?_
  split
  · rfl
  · next e => exact absurd (hm.symm.trans e) (by simp)

/-- Gates `new` are the gates `old` with other levels driven and other waiting flags (R169). -/
def redriven (now : Nat) (old new : Eight Gate) : Prop :=
  (∀ n, (new.get n).status = (old.get n).status ∧ (new.get n).due = (old.get n).due ∧
    (new.get n).sense = (old.get n).sense) ∧ qualRule now old new

theorem redriven_of {now : Nat} {old new : Eight Gate} (on waiting : Fin 8 → Bool)
    (h : ∀ n, new.get n = { driveGate now (on n) (old.get n) with waiting := waiting n }) : redriven now old new := by
  refine ⟨fun n => by rw [h]; simp, fun n => ?_⟩
  have hd : (new.get n).driven = on n := by rw [h]; simp
  rw [hd, h]
  simp only [driveGate, startQual]
  by_cases hc : (old.get n).driven = on n
  · simp [hc]
  · simp [hc, Ne.symm hc]

theorem arbitrateRun_redriven (fresh : Bool) (s : State) : redriven s.now s.gte.gates (arbitrateRun fresh s).gte.gates := by
  refine redriven_of (arbitrated (gateGroup s.wbk.active) (holders fresh s.gte) fun m => runCandidate (s.gte.gates.get m))
    (fun n => runCandidate (s.gte.gates.get n) &&
      !arbitrated (gateGroup s.wbk.active) (holders fresh s.gte) (fun m => runCandidate (s.gte.gates.get m)) n)
    fun n => ?_
  unfold arbitrateRun
  dsimp only
  split <;> simp

theorem driveSafe_redriven (s : State) : redriven s.now s.gte.gates (driveSafe s).gte.gates :=
  redriven_of (arbitrated (gateGroup s.wbk.active) (fun _ => false) (safeCandidate s)) (fun _ => false) fun n => by
    simp [driveSafe]

/-- The timers of cleared gates and of gates whose level changes start afresh. -/
theorem qual_of_redriven {mask : Fin 8 → Bool} {now : Nat} {gates new : Eight Gate}
    (h : redriven now (clearedGates mask now gates) new) (n : Fin 8) :
    let g := gates.get n
    let h := new.get n
    let timer := if h.status = .ok ∧ h.sense ≠ h.driven then some now else none
    h.due = g.due ∧ h.sense = g.sense ∧
      h.qual = (if h.driven ≠ g.driven ∨ (mask n = true ∧ g.status ≠ .ok) then timer else g.qual) := by
  obtain ⟨kept, timers⟩ := h
  obtain ⟨status, due, sense⟩ := kept n
  obtain ⟨driven', due', sense', -⟩ := clearedGates_frame mask now gates n
  have timer := timers n
  dsimp only
  refine ⟨due.trans due', sense.trans sense', ?_⟩
  rw [timer, status, driven', sense]
  by_cases hc : mask n = true ∧ (gates.get n).status ≠ .ok
  · rw [if_pos (Or.inr hc), clearedGates_get, if_pos hc]
    by_cases hd : (new.get n).driven = (gates.get n).driven <;> simp [hd]
  · rw [clearedGates_get, if_neg hc]
    by_cases hd : (new.get n).driven = (gates.get n).driven <;> simp [hd, hc]

theorem clearLatches_shape (mask : Fin 8 → Bool) (s : State) :
    let t := clearLatches mask s
    t = { s with gte := t.gte, lnk := { s.lnk with notices := t.lnk.notices } } ∧ t.gte.mode = s.gte.mode ∧
      t.gte.last = s.gte.last ∧
      ∀ n, (t.gte.gates.get n).status = if mask n then GateStatus.ok else (s.gte.gates.get n).status := by
  cases h : namesShort mask s.gte.gates with
  | false =>
    rw [clearLatches_of_not h]
    exact ⟨rfl, rfl, rfl, clearedGates_status mask s.now s.gte.gates⟩
  | true =>
    cases hm : s.gte.mode with
    | safe =>
      rw [clearLatches_of_safe h hm]
      exact ⟨rfl, hm, rfl, fun n => ((driveSafe_redriven (clearing mask s)).1 n).1.trans (clearedGates_status ..)⟩
    | run =>
      rw [clearLatches_of_run h hm]
      obtain ⟨shape, mode, last⟩ := arbitrateRun_shape false (clearing mask s)
      exact ⟨shape, mode.trans hm, last,
        fun n => ((arbitrateRun_redriven false (clearing mask s)).1 n).1.trans (clearedGates_status ..)⟩

/-- With no SHORT gate named the latches are cleared and nothing else changes. -/
theorem clearLatches_unshorted {mask : Fin 8 → Bool} {s : State}
    (h : ∀ n, mask n = true → (s.gte.gates.get n).status ≠ .short) :
    let t := clearLatches mask s
    t.lnk.notices = s.lnk.notices ∧ t.gte.conflicts = s.gte.conflicts ∧ t.gte.gates = clearedGates mask s.now s.gte.gates := by
  have none : namesShort mask s.gte.gates = false := Bool.eq_false_iff.mpr fun hn => by
    obtain ⟨n, hm, hs⟩ := namesShort_iff.mp hn
    exact h n hm hs
  rw [clearLatches_of_not none]
  exact ⟨rfl, rfl, rfl⟩

/-- In SAFE a SHORT gate named makes GTE drive the safe levels. -/
theorem clearLatches_safe {mask : Fin 8 → Bool} {s : State} (h : namesShort mask s.gte.gates = true)
    (hm : s.gte.mode = .safe) :
    let t := clearLatches mask s
    redriven s.now (clearedGates mask s.now s.gte.gates) t.gte.gates ∧ safeLevelsDriven t ∧
      t.gte.conflicts = s.gte.conflicts ∧ t.lnk.notices = s.lnk.notices := by
  rw [clearLatches_of_safe h hm]
  exact ⟨driveSafe_redriven (clearing mask s), driveSafe_rule _, rfl, rfl⟩

/-- In RUN it makes GTE arbitrate, with the holders there are. -/
theorem clearLatches_run {mask : Fin 8 → Bool} {s : State} (h : namesShort mask s.gte.gates = true)
    (hm : s.gte.mode = .run) :
    let t := clearLatches mask s
    redriven s.now (clearedGates mask s.now s.gte.gates) t.gte.gates ∧
      (groupsExclusive s → noticesOk s →
        arbitrationRule s.wbk.active (fun n => (s.gte.gates.get n).driven = true) t.gte.gates t.gte.gates ∧
        conflictsReported s.wbk.active s t) := by
  rw [clearLatches_of_run h hm]
  refine ⟨arbitrateRun_redriven false (clearing mask s), fun hx hn => ?_⟩
  have driven : ∀ n, ((clearing mask s).gte.gates.get n).driven = (s.gte.gates.get n).driven := fun n =>
    (clearedGates_frame mask s.now s.gte.gates n).1
  have waiting : ∀ n, ((clearing mask s).gte.gates.get n).waiting = (s.gte.gates.get n).waiting := fun n =>
    (clearedGates_frame mask s.now s.gte.gates n).2.2.2
  have one : groupsExclusive (clearing mask s) := fun m n q hm hn h1 h2 =>
    hx m n q hm hn ((driven m).symm.trans h1) ((driven n).symm.trans h2)
  obtain ⟨-, -, -, -, rule, -, -, reported⟩ := arbitrateRun_rule false (clearing mask s) fun _ => one
  have reported := reported rfl hn
  generalize arbitrateRun false (clearing mask s) = t at rule reported ⊢
  constructor
  · intro n
    have status := fun n => (rule n).1
    have here := rule n
    simp only [driven, ← status, true_and] at here
    exact ⟨rfl, rfl, here.2⟩
  · have begins : beginsToWait (clearing mask s) t = beginsToWait s t :=
      funext fun n => by simp only [beginsToWait, waiting]
    unfold conflictsReported at reported ⊢
    rw [begins] at reported
    exact reported

/-- Settles O54: the latches are cleared first, and the arbitration is then the one of R163 or of R162 from there. -/
theorem gclrClearsNamedLatches : Obligations.GclrClearsNamedLatches := by
  intro s mask hd
  have answered : exec (.gclr [mask]) s = .next (placeReply 0x95#8 (answerGclr [mask] (takeRequest s))) :=
    dispatchFixed_of_length hd rfl (answerGclr [mask])
  have named : gateMask [mask] = fun n => mask.getLsbD n.val := funext (gateMask_singleton mask)
  obtain ⟨m, hm⟩ : ∃ m, m = fun n : Fin 8 => mask.getLsbD n.val := ⟨_, rfl⟩
  have hget : ∀ n : Fin 8, mask.getLsbD n.val = m n := fun n => by rw [hm]
  rw [answerGclr, named, ← hm] at answered
  simp only [hget]
  obtain ⟨shape, mode, last, status⟩ := clearLatches_shape m (takeRequest s)
  refine ⟨_, answered, mode, rfl, ?_, status, fun unshorted => ?_, fun shorted => ⟨?_, last, fun hsafe => ?_, fun hrun => ?_⟩⟩
  · dsimp only [accept, placeReply]
    rw [shape]
    rfl
  · obtain ⟨notices, conflicts, gates⟩ := clearLatches_unshorted (s := takeRequest s) unshorted
    refine ⟨notices, conflicts, last, fun n => ?_⟩
    refine (congrArg (fun gates : Eight Gate => gates.get n) gates).trans ?_
    exact clearedGates_get m s.now s.gte.gates n
  · have again : redriven s.now (clearedGates m s.now s.gte.gates) (clearLatches m (takeRequest s)).gte.gates := by
      cases hmode : s.gte.mode with
      | safe => exact (clearLatches_safe (s := takeRequest s) (namesShort_iff.mpr shorted) hmode).1
      | run => exact (clearLatches_run (s := takeRequest s) (namesShort_iff.mpr shorted) hmode).1
    exact qual_of_redriven again
  · obtain ⟨-, levels, conflicts, notices⟩ := clearLatches_safe (s := takeRequest s) (namesShort_iff.mpr shorted) hsafe
    exact ⟨levels, conflicts, notices⟩
  · exact (clearLatches_run (s := takeRequest s) (namesShort_iff.mpr shorted) hrun).2

end Sys2Proof.Machine
end

