-- ==== Sys2Proof/Proofs/PassRequests.lean ====
section
/-! PROOFS. Proofs/PassRequests.lean: ARMP, ABRT and the expiry of the stall timer (R62, R63, R71, R73, R74). -/

namespace Sys2Proof.Machine

open Sys2Proof

/-! ### ARMP (R62, R63) -/

theorem roundingOfCode_of_le {n : Nat} (h : n ≤ 1) : roundingOfCode n = some (if n = 0 then .chop else .nearest) := by
  interval_cases n <;> rfl

theorem dropoutOfCode_of_le {n : Nat} (h : n ≤ 1) : dropoutOfCode n = some (if n = 0 then .emit else .retry) := by
  interval_cases n <;> rfl

theorem rangePolicyOfCode_of_le {n : Nat} (h : n ≤ 1) : rangePolicyOfCode n = some (if n = 0 then .keep else .zero) := by
  interval_cases n <;> rfl

/-- The settings that R63 fills from the arguments of a legal ARMP. -/
def armedSettings (a : ArmpArgs) (cpr : Nat) : PassSettings :=
  { passId := a.passId, height := a.height, overlap := min (cpr / 4) a.overlap
    retryTurns := min 3 a.retryTurns
    rounding := if a.rounding = 0 then .chop else .nearest
    dropout := if a.dropout = 0 then .emit else .retry
    range := if a.range = 0 then .keep else .zero
    rLo := a.rLo, rHi := a.rHi, stallMs := max 10 (min 65535 a.stallMs) }

theorem armpSettings_of_legal {a : ArmpArgs} {cpr : Nat} (h : ¬ (1 < a.rounding ∨ 1 < a.dropout ∨ 1 < a.range)) :
    armpSettings a cpr = some (armedSettings a cpr) := by
  unfold armpSettings
  rw [roundingOfCode_of_le (by omega), dropoutOfCode_of_le (by omega), rangePolicyOfCode_of_le (by omega), clamp_zero,
    clamp_zero]
  rfl

theorem armpSettings_of_illegal {a : ArmpArgs} {cpr : Nat} (h : 1 < a.rounding ∨ 1 < a.dropout ∨ 1 < a.range) :
    armpSettings a cpr = none := by
  unfold armpSettings roundingOfCode dropoutOfCode rangePolicyOfCode
  obtain h | h | h := h
  · rw [if_neg (by omega), if_neg (by omega)]
    rfl
  · rw [if_neg (c := a.dropout = 0) (by omega), if_neg (c := a.dropout = 1) (by omega)]
    cases (if a.rounding = 0 then some Rounding.chop else if a.rounding = 1 then some .nearest else none) <;> rfl
  · rw [if_neg (c := a.range = 0) (by omega), if_neg (c := a.range = 1) (by omega)]
    cases (if a.rounding = 0 then some Rounding.chop else if a.rounding = 1 then some .nearest else none) <;>
      cases (if a.dropout = 0 then some DropoutPolicy.emit else if a.dropout = 1 then some .retry else none) <;> rfl

theorem drainIds_iff {s : State} {id : Nat} :
    (s.psc.drain.any fun c => c.settings.passId == id) = true ↔ ∃ c ∈ s.psc.drain, c.settings.passId = id := by
  simp only [List.any_eq_true, beq_iff_eq]

/-- Settles O36, row by row. -/
theorem armpArmsOrRefuses : Obligations.ArmpArmsOrRefuses := by
  intro s p hd hlen a refused owed
  have answered : exec (.armp p) s = .next (placeReply 0x97#8 (answerArmp p (takeRequest s))) :=
    dispatchFixed_of_length hd hlen (answerArmp p)
  have refuses : ∀ st, answerArmp p (takeRequest s) = refuse st (takeRequest s) →
      exec (.armp p) s = refused (statusCode st) := fun st h => by
    rw [answered, h, placeReply_refuse]
  rw [answerArmp] at refuses answered
  by_cases hlead : s.psc.lead ≠ none
  · rw [if_pos hlead]
    exact refuses .busy (if_pos ((not_leadIdle_iff (takeRequest s)).mpr hlead))
  have idle : s.psc.lead = none := not_not.mp hlead
  rw [if_neg hlead]
  rw [if_neg (leadIdle_take idle)] at refuses answered
  by_cases hdrain : 4 ≤ s.psc.drain.length
  · rw [if_pos hdrain]
    exact refuses .busy (if_pos hdrain)
  rw [if_neg hdrain]
  rw [if_neg (show ¬ 4 ≤ (takeRequest s).psc.drain.length from hdrain)] at refuses answered
  by_cases hid : a.passId = 0 ∨ ∃ c ∈ s.psc.drain, c.settings.passId = a.passId
  · rw [if_pos hid]
    exact refuses .badArg (if_pos (hid.imp_right drainIds_iff.mpr))
  rw [if_neg hid]
  rw [if_neg (show ¬ ((readArmp p).passId = 0 ∨ _ = true) from
    mt (Or.imp_right (drainIds_iff (s := takeRequest s)).mp) hid)] at refuses answered
  by_cases hcodes : 1 < a.rounding ∨ 1 < a.dropout ∨ 1 < a.range
  · rw [if_pos hcodes]
    exact refuses .badArg (by rw [armpSettings_of_illegal hcodes])
  rw [if_neg hcodes]
  rw [armpSettings_of_legal hcodes] at refuses answered
  dsimp only at refuses answered
  by_cases hradius : 100000000 < a.rLo ∨ 100000000 < a.rHi ∨ a.rHi < a.rLo
  · rw [if_pos hradius]
    exact refuses .badArg (if_pos hradius)
  rw [if_neg hradius]
  rw [if_neg (show ¬ (radiusMax < (readArmp p).rLo ∨ radiusMax < (readArmp p).rHi ∨ (readArmp p).rHi < (readArmp p).rLo)
    from hradius)] at refuses answered
  by_cases hwork : s.wbk.workpiece = none
  · rw [if_pos hwork]
    exact refuses .notReady (if_pos (by simp [hwork]))
  rw [if_neg hwork]
  rw [if_neg (by simpa using hwork)] at refuses answered
  by_cases hbank : s.wbk.activeState = .empty ∧ s.wbk.stagedState ≠ .pending
  · rw [if_pos hbank]
    exact refuses .notReady (if_pos hbank)
  rw [if_neg hbank]
  rw [if_neg (show ¬ ((takeRequest s).wbk.activeState = .empty ∧ (takeRequest s).wbk.stagedState ≠ .pending) from hbank)]
    at refuses answered
  have load : bufferLoad (takeRequest s) = s.pnt.buffer.length + owed := by
    simp [bufferLoad, summariesOwed, owed, idle]
  by_cases hfull : 1024 ≤ s.pnt.buffer.length + owed
  · rw [if_pos hfull]
    exact refuses .full (if_pos (by rw [load]; exact hfull))
  · rw [if_neg hfull]
    rw [if_neg (by rw [load]; exact hfull)] at answered
    exact answered

/-! ### ABRT (R74) -/

theorem endLead_shape (st : EndStatus) (s : State) :
    let t := endLead st s
    t = { s with psc := t.psc, prb := t.prb, pnt := t.pnt, stack := t.stack, gte := t.gte } := by
  obtain ⟨now, enc, wbk, hold, cal, lnk, free, pending⟩ := endLead_frame st s
  generalize endLead st s = t at *
  cases t
  simp only at *
  subst_vars
  rfl

/-- The disposition names the drain list exactly where the pass has joined it. -/
theorem abrtDisposition_of_drain {t : State} {drain : List PassCtx} {c : PassCtx}
    (h : t.psc.drain = if drain = [] then [] else drain ++ [c]) :
    (drain = [] → abrtDisposition c.settings.passId t = 0#8) ∧ (drain ≠ [] → abrtDisposition c.settings.passId t = 1#8) := by
  unfold abrtDisposition
  constructor
  · intro none
    rw [h, if_pos none]
    rfl
  · intro some
    rw [h, if_neg some]
    simp

/-- Settles O37: the ending itself is `endLead_abandoned`. -/
theorem abrtEndsLead : Obligations.AbrtEndsLead := by
  refine ⟨fun s l hd hl h1 h2 => ?lead, fun s hd hl => ?idle⟩
  case lead =>
    have answered : exec (.abrt []) s = .next (placeReply 0x98#8 (answerAbrt (takeRequest s))) :=
      dispatchFixed_of_length hd rfl answerAbrt
    have lead : (takeRequest s).psc.lead = some l := hl
    have ended := endLead_abandoned (s := takeRequest s) (st := .aborted) rfl lead h1 h2
    obtain ⟨enters, stack, psc, prb, pnt⟩ := ended
    have shape := endLead_shape .aborted (takeRequest s)
    have disposition := abrtDisposition_of_drain (t := endLead .aborted (takeRequest s)) (congrArg Psc.drain psc)
    rw [answerAbrt, lead] at answered
    dsimp only at answered
    refine ⟨_, _, answered, ⟨enters, stack, psc, prb, pnt⟩, ?_, disposition.1, disposition.2⟩
    dsimp only [accept, placeReply]
    rw [shape]
    rfl
  case idle =>
    have answered : exec (.abrt []) s = .next (placeReply 0x98#8 (answerAbrt (takeRequest s))) :=
      dispatchFixed_of_length hd rfl answerAbrt
    rw [answerAbrt, show (takeRequest s).psc.lead = none from hl] at answered
    exact ⟨_, answered⟩

/-! ### The stall timer (R71) -/

/-- A lead that ends with a status that keeps its tags: the stack goes into unresolved, and the context drains, or is
summarised at once (R73). -/
theorem endLead_kept {st : EndStatus} (ha : abandons st = false) {s : State} {l : Lead} (hl : s.psc.lead = some l) :
    let ctx := { l.ctx with
      endStatus := some st
      counters := { l.ctx.counters with unresolved := satAdd l.ctx.counters.unresolved s.stack.length } }
    (noTags l.ctx = true ∧ s.psc.drain = [] → endLead st s = { s with
      psc := { lead := none, drain := [], stall := none }, stack := []
      pnt := { buffer := s.pnt.buffer ++ [.summary (summaryOf ctx)]
               largest := max s.pnt.largest (s.pnt.buffer.length + 1) } }) ∧
    (¬ (noTags l.ctx = true ∧ s.psc.drain = []) → endLead st s = { s with
      psc := { lead := none, drain := s.psc.drain ++ [ctx], stall := none }, stack := [] }) := by
  intro ctx
  have left : endLead st s = retireLead { s with
      psc := { s.psc with lead := some { l with ctx := ctx }, stall := none }, stack := [] } := by
    simp [endLead, hl, ha, emptyStack, recordEnd, modLead, onCounters, ctx, State.setPsc, State.setStack]
  have tags : noTags ctx = noTags l.ctx := rfl
  rw [left]
  constructor
  · rintro ⟨hnone, hdrain⟩
    simp [retireLead, tags, hnone, hdrain, appendSummary, appendRecord, State.setPsc, State.setPnt]
  · intro h
    refine if_neg ?_
    rw [Bool.and_eq_true, tags, List.isEmpty_iff]
    exact h

/-- Settles O38. -/
theorem stallExpiryEndsLead : Obligations.StallExpiryEndsLead := by
  intro s l due hstall hdue hl hphase k ctx
  have ends : exec .stallExpiry s = .next (endRunningLead .stalled s) := by
    show execStallExpiry s = _
    unfold execStallExpiry
    rw [hstall]
    exact if_pos hdue
  have running : endRunningLead .stalled s = endLead .stalled s := by
    simp [endRunningLead, hl, leadRunning, hphase]
  have tags : ctx.mainInFlight = 0 ∧ ctx.retryInFlight = 0 ∧ s.psc.drain = [] ↔ noTags l.ctx = true ∧ s.psc.drain = [] := by
    simp [noTags, ctx, and_assoc]
  obtain ⟨summarised, drains⟩ := endLead_kept (st := .stalled) rfl hl
  rw [ends, running, tags]
  exact ⟨fun h => congrArg _ (summarised h), fun h => congrArg _ (drains h)⟩

end Sys2Proof.Machine
end

