-- ==== Sys2Proof/Proofs/EncoderWork.lean ====
section
/-! PROOFS. Proofs/EncoderWork.lean: what ENC itself does in an accepted update, case by case: a quadrature error, a count, a
missing index and the outcomes of a crossing (R2 to R11). -/

namespace Sys2Proof.Machine

open Sys2Proof

/-! ### The levels and the index flag (R1, R6) -/

/-- ENC with the levels and the history that a sample gives it, the next sample due one filter period later. -/
def leveled (s : State) (l : Lines) : Enc :=
  { s.enc with
    accepted := filterAccepted s.enc l, noted := filterNoted s.enc l
    nextSample := s.now + s.enc.settings.filterPeriod * 2 }

/-- The index-armed flag after an update that is no crossing. -/
def rearmed (s : State) (l : Lines) : Bool := s.enc.indexArmed || (s.enc.accepted.z && !(filterAccepted s.enc l).z)

theorem rearm_eq (before : Lines) (w : EncWork) :
    rearm before w =
      { w with enc := { w.enc with indexArmed := w.enc.indexArmed || (before.z && !w.enc.accepted.z) } } := by
  unfold rearm
  cases before.z <;> cases w.enc.accepted.z <;> simp

/-- ENC's work on a quadrature error. -/
theorem updateWork_of_error {s : State} {l : Lines} (ha : (filterAccepted s.enc l).a ≠ s.enc.accepted.a)
    (hb : (filterAccepted s.enc l).b ≠ s.enc.accepted.b) :
    updateWork l s =
      { enc := { leveled s l with
          quadErrors := satInc s.enc.quadErrors, state := .fault, indexArmed := rearmed s l }
        notices := [.encoderFault .quadrature]
        crossing := none
        leftHomed := if s.enc.state = .homed then some .encoderFault else none } := by
  have decoded : decodePair s.enc.settings.sense s.enc.accepted (filterAccepted s.enc l) = .quadError :=
    decodePair_of_both_changed _ (Ne.symm ha) (Ne.symm hb)
  unfold updateWork encWork
  rw [rearm_eq]
  dsimp only [afterSample]
  rw [decoded]
  rfl

/-! ### A count (R4) -/

/-- ENC's work once the count is made, before the index is looked at. -/
def countedWork (s : State) (l : Lines) (dir : Dir) : EncWork :=
  { enc := applyCount dir (leveled s l)
    notices := if overruns (countRev dir s.enc) then [.encoderFault .overrange] else []
    crossing := none
    leftHomed := if overruns (countRev dir s.enc) && decide (s.enc.state = .homed) then some .encoderFault else none }

@[simp] theorem applyCount_kept (dir : Dir) (e : Enc) :
    (applyCount dir e).accepted = e.accepted ∧ (applyCount dir e).indexArmed = e.indexArmed ∧
      (applyCount dir e).settings = e.settings := by
  unfold applyCount setRev
  split <;> exact ⟨rfl, rfl, rfl⟩

theorem crossesIndex_iff (s : State) (l : Lines) (dir : Dir) :
    ((applyCount dir (leveled s l)).accepted.z && (applyCount dir (leveled s l)).indexArmed) = true ↔
      crossesIndex s l := by
  simp only [applyCount_kept, Bool.and_eq_true]
  rfl

theorem countRev_leveled (s : State) (l : Lines) (dir : Dir) : countRev dir (leveled s l) = countRev dir s.enc := rfl

theorem updateWork_of_count {s : State} {l : Lines} {dir : Dir} (h : countsOnce s l dir) :
    (¬ crossesIndex s l → updateWork l s = rearm s.enc.accepted (checkMissing (countedWork s l dir))) ∧
      (crossesIndex s l → updateWork l s = rearm s.enc.accepted (checkCrossing dir (countedWork s l dir))) := by
  obtain ⟨-, -, decoded⟩ := h
  have worked : updateWork l s = rearm s.enc.accepted
      (if ((applyCount dir (leveled s l)).accepted.z && (applyCount dir (leveled s l)).indexArmed) = true then
        checkCrossing dir (countedWork s l dir) else checkMissing (countedWork s l dir)) := by
    unfold updateWork encWork
    dsimp only [afterSample]
    rw [decoded]
    refine congrArg (rearm s.enc.accepted) ?_
    unfold workCount
    cases overruns (countRev dir s.enc) <;> rfl
  rw [worked]
  exact ⟨fun hx => by rw [if_neg (mt (crossesIndex_iff s l dir).mp hx)],
    fun hx => by rw [if_pos ((crossesIndex_iff s l dir).mpr hx)]⟩

theorem overruns_iff {s : State} (h : positionOk s) (dir : Dir) :
    overruns (countRev dir s.enc) = true ↔ overrunsBound s dir := by
  obtain ⟨hc, hlo, hhi⟩ := h
  simp only [overruns, Bool.or_eq_true, decide_eq_true_eq]
  cases dir with
  | forward =>
    simp only [countRev, overrunsBound, reduceCtorEq, false_and, or_false, true_and]
    have : revMin ≤ revMax := by simp [revMin, revMax]
    split_ifs <;> omega
  | reverse =>
    simp only [countRev, overrunsBound, reduceCtorEq, false_and, false_or, true_and]
    have : revMin ≤ revMax := by simp [revMin, revMax]
    split_ifs <;> omega

/-- Within the turn the position gives revolution number and turn count back. -/
theorem divMod_encU {e : Enc} (h : e.c < e.settings.cpr) :
    e.rev = encU e / e.settings.cpr ∧ (e.c : Int) = encU e % e.settings.cpr := by
  have pos : (0 : Int) < e.settings.cpr := by omega
  have rest : (e.c : Int) < e.settings.cpr := by omega
  unfold encU
  rw [Int.add_comm]
  constructor
  · rw [Int.add_mul_ediv_right _ _ (by omega), Int.ediv_eq_zero_of_lt (by omega) rest, zero_add]
  · rw [Int.add_mul_emod_self_right, Int.emod_eq_of_lt (by omega) rest]

/-- The revolution number and the turn count that a count gives are those of the position next to the one before. -/
theorem counted_position {s : State} (h : positionOk s) (dir : Dir) :
    countRev dir s.enc * s.enc.settings.cpr + (countC dir s.enc : Int) = countedU s dir := by
  obtain ⟨hc, -⟩ := h
  cases dir with
  | forward =>
    simp only [countRev, countC, countedU, encU]
    split_ifs with hin
    · push_cast
      ring
    · have : (s.enc.c : Int) + 1 = s.enc.settings.cpr := by omega
      push_cast
      linear_combination -this
  | reverse =>
    simp only [countRev, countC, countedU, encU]
    split_ifs with h0
    · rw [h0, Nat.cast_sub (by omega)]
      push_cast
      ring
    · rw [Nat.cast_sub (by omega)]
      push_cast
      ring

/-- A count within the bounds of the revolution number. -/
theorem applyCount_within {s : State} {l : Lines} {dir : Dir} (h : positionOk s) (hin : ¬ overrunsBound s dir) :
    applyCount dir (leveled s l) = { leveled s l with c := countC dir s.enc, rev := countRev dir s.enc } := by
  have := mt (overruns_iff h dir).mp hin
  rw [← countRev_leveled s l] at this
  unfold applyCount setRev
  rw [if_neg]
  · rfl
  · simpa [overruns] using this

/-- A count past a bound. -/
theorem applyCount_past {s : State} {l : Lines} {dir : Dir} (h : positionOk s) (hover : overrunsBound s dir) :
    applyCount dir (leveled s l) = { leveled s l with c := countC dir s.enc, rev := 0, state := .fault } := by
  have := (overruns_iff h dir).mpr hover
  rw [← countRev_leveled s l] at this
  unfold applyCount setRev
  rw [if_pos]
  · rfl
  · simpa [overruns] using this

theorem countC_of_overrun {s : State} {dir : Dir} (hover : overrunsBound s dir) :
    countC dir s.enc = if dir = .forward then 0 else s.enc.settings.cpr - 1 := by
  obtain ⟨rfl, hc, -⟩ | ⟨rfl, hc, -⟩ := hover
  · simp [countC, hc]
  · simp [countC, hc]

theorem countedWork_within {s : State} {l : Lines} {dir : Dir} (h : positionOk s) (hin : ¬ overrunsBound s dir) :
    countedWork s l dir =
      { enc := { leveled s l with c := countC dir s.enc, rev := countRev dir s.enc }
        notices := [], crossing := none, leftHomed := none } := by
  unfold countedWork
  rw [applyCount_within h hin, Bool.eq_false_iff.mpr (mt (overruns_iff h dir).mp hin)]
  rfl

theorem countedWork_past {s : State} {l : Lines} {dir : Dir} (h : positionOk s) (hover : overrunsBound s dir) :
    countedWork s l dir =
      { enc := { leveled s l with c := countC dir s.enc, rev := 0, state := .fault }
        notices := [.encoderFault .overrange], crossing := none
        leftHomed := if s.enc.state = .homed then some .encoderFault else none } := by
  unfold countedWork
  rw [applyCount_past h hover, (overruns_iff h dir).mpr hover]
  simp

/-! ### A count that is no crossing (R11) -/

theorem checkMissing_of_not {w : EncWork} (h : ¬ (w.enc.state = .homed ∧ indexMissing w.enc = true)) :
    checkMissing w = w := if_neg h

theorem updateWork_within {s : State} {l : Lines} {dir : Dir} (h : countsOnce s l dir) (hx : ¬ crossesIndex s l)
    (hin : ¬ overrunsBound s dir)
    (hnear : s.enc.state = .homed →
      (countedU s dir - s.enc.uLastIndex).natAbs ≤ s.enc.settings.cpr + s.enc.settings.tolerance) :
    updateWork l s =
      { enc := { leveled s l with c := countC dir s.enc, rev := countRev dir s.enc, indexArmed := rearmed s l }
        notices := [], crossing := none, leftHomed := none } := by
  have hp := h.2.1
  rw [(updateWork_of_count h).1 hx, countedWork_within hp hin, checkMissing_of_not, rearm_eq]
  · rfl
  · rintro ⟨homed, missing⟩
    have near := hnear homed
    rw [indexMissing, decide_eq_true_eq] at missing
    have here : encU { leveled s l with c := countC dir s.enc, rev := countRev dir s.enc } = countedU s dir :=
      counted_position hp dir
    rw [here] at missing
    exact absurd missing (not_lt.mpr near)

theorem updateWork_past {s : State} {l : Lines} {dir : Dir} (h : countsOnce s l dir) (hx : ¬ crossesIndex s l)
    (hover : overrunsBound s dir) :
    updateWork l s =
      { enc := { leveled s l with
          c := countC dir s.enc, rev := 0, state := .fault, indexArmed := rearmed s l }
        notices := [.encoderFault .overrange], crossing := none
        leftHomed := if s.enc.state = .homed then some .encoderFault else none } := by
  rw [(updateWork_of_count h).1 hx, countedWork_past h.2.1 hover, checkMissing_of_not (by simp), rearm_eq]
  rfl

theorem updateWork_missing {s : State} {l : Lines} {dir : Dir} (h : countsOnce s l dir) (hx : ¬ crossesIndex s l)
    (hin : ¬ overrunsBound s dir) (homed : s.enc.state = .homed)
    (hfar : s.enc.settings.cpr + s.enc.settings.tolerance < (countedU s dir - s.enc.uLastIndex).natAbs) :
    updateWork l s =
      { enc := { leveled s l with
          c := countC dir s.enc, rev := countRev dir s.enc, state := .notHomed, indexArmed := rearmed s l }
        notices := [.indexMissing], crossing := none, leftHomed := some .indexFault } := by
  have hp := h.2.1
  have here : encU { leveled s l with c := countC dir s.enc, rev := countRev dir s.enc } = countedU s dir :=
    counted_position hp dir
  rw [(updateWork_of_count h).1 hx, countedWork_within hp hin, checkMissing, if_pos, rearm_eq]
  · rfl
  · refine ⟨homed, ?_⟩
    rw [indexMissing, here, decide_eq_true_eq]
    exact hfar

/-! ### A crossing (R7 to R10) -/

/-- An update that crosses the index has Z high, and so does not rearm. -/
theorem updateWork_crossing {s : State} {l : Lines} {dir : Dir} (h : countsOnce s l dir) (hx : crossesIndex s l) :
    updateWork l s = checkCrossing dir (countedWork s l dir) := by
  have kept : (checkCrossing dir (countedWork s l dir)).enc.accepted.z = true := by
    have : ∀ w : EncWork, (checkCrossing dir w).enc.accepted = w.enc.accepted := fun w => by
      unfold checkCrossing snap setRev
      dsimp only
      split
      · split_ifs <;> rfl
      · cases dir <;> rfl
    rw [this]
    exact (congrArg Lines.z (applyCount_kept dir (leveled s l)).1).trans hx.1
  rw [(updateWork_of_count h).2 hx, rearm_eq, kept]
  simp

section Crossing

variable {w : EncWork}

/-- A forward crossing outside HOMED homes (R8). -/
theorem checkCrossing_homes (h : w.enc.state ≠ .homed) :
    let delta := indexDeviation w.enc.settings.cpr w.enc.c
    checkCrossing .forward w =
      { w with
        enc := { w.enc with
          c := 0, uLastIndex := w.enc.rev * w.enc.settings.cpr, state := .homed, indexArmed := false
          lastDeviation := delta, lastDirection := .forward, lastOutcome := .homing }
        crossing := some ⟨.forward, delta, .homing, .homed⟩ } := by
  unfold checkCrossing
  dsimp only
  split
  · contradiction
  · rfl

/-- A reverse one is recorded and no more (R10). -/
theorem checkCrossing_records (h : w.enc.state ≠ .homed) :
    let delta := indexDeviation w.enc.settings.cpr w.enc.c
    checkCrossing .reverse w =
      { w with
        enc := { w.enc with
          indexArmed := false, lastDeviation := delta, lastDirection := .reverse, lastOutcome := .none }
        crossing := some ⟨.reverse, delta, .none, w.enc.state⟩ } := by
  unfold checkCrossing
  dsimp only
  split
  · contradiction
  · rfl

variable (h : w.enc.state = .homed) (dir : Dir)

include h

/-- A crossing in HOMED within the tolerance snaps (R9). -/
theorem checkCrossing_snaps (hin : (indexDeviation w.enc.settings.cpr w.enc.c).natAbs ≤ w.enc.settings.tolerance)
    (hrev : overruns (if indexDeviation w.enc.settings.cpr w.enc.c < 0 then w.enc.rev + 1 else w.enc.rev) = false) :
    let delta := indexDeviation w.enc.settings.cpr w.enc.c
    let rev := if delta < 0 then w.enc.rev + 1 else w.enc.rev
    checkCrossing dir w =
      { w with
        enc := { w.enc with
          c := 0, rev := rev, uLastIndex := rev * w.enc.settings.cpr, largestSnap := max w.enc.largestSnap delta.natAbs
          indexArmed := false, lastDeviation := delta, lastDirection := dir, lastOutcome := .snap }
        crossing := some ⟨dir, delta, .snap, .homed⟩ } := by
  intro delta rev
  have within : ¬ (rev < revMin ∨ revMax < rev) := by simpa [overruns, rev, delta] using hrev
  have stays : ¬ (decide (delta < 0) && overruns (w.enc.rev + 1)) = true := by
    by_cases hd : delta < 0
    · simpa [delta, hd] using hrev
    · simp [hd]
  have snapped : snap delta { w.enc with indexArmed := false } = { w.enc with
      c := 0, rev := rev, uLastIndex := rev * w.enc.settings.cpr, largestSnap := max w.enc.largestSnap delta.natAbs
      indexArmed := false } := by
    unfold snap setRev
    dsimp only
    rw [if_neg within]
    simp [encU, rev]
  unfold checkCrossing
  dsimp only
  split
  · rw [if_pos hin, snapped, if_neg stays, if_neg stays]
    simp only [recordCrossing, h, delta]
  · next other => exact absurd h other

/-- One that carries the revolution number past its bound overruns (R4, R9). -/
theorem checkCrossing_overruns
    (hin : (indexDeviation w.enc.settings.cpr w.enc.c).natAbs ≤ w.enc.settings.tolerance)
    (hneg : indexDeviation w.enc.settings.cpr w.enc.c < 0) (hrev : w.enc.rev = revMax) :
    let delta := indexDeviation w.enc.settings.cpr w.enc.c
    checkCrossing dir w =
      { enc := { w.enc with
          c := 0, rev := 0, state := .fault, uLastIndex := 0, largestSnap := max w.enc.largestSnap delta.natAbs
          indexArmed := false, lastDeviation := delta, lastDirection := dir, lastOutcome := .snap }
        notices := w.notices ++ [.encoderFault .overrange]
        crossing := some ⟨dir, delta, .snap, .fault⟩
        leftHomed := some .encoderFault } := by
  intro delta
  have past : overruns (w.enc.rev + 1) = true := by
    rw [hrev]
    rfl
  have left : (decide (delta < 0) && overruns (w.enc.rev + 1)) = true := by
    rw [past, decide_eq_true (show delta < 0 from hneg)]
    rfl
  have snapped : snap delta { w.enc with indexArmed := false } = { w.enc with
      c := 0, rev := 0, state := .fault, uLastIndex := 0, largestSnap := max w.enc.largestSnap delta.natAbs
      indexArmed := false } := by
    unfold snap setRev
    dsimp only
    rw [if_pos (show delta < 0 from hneg), if_pos (by simpa [overruns] using past)]
    simp [encU]
  unfold checkCrossing
  dsimp only
  split
  · rw [if_pos hin, snapped, if_pos left, if_pos left]
    rfl
  · next other => exact absurd h other

/-- One beyond the tolerance is a slip (R10). -/
theorem checkCrossing_slips (hout : w.enc.settings.tolerance < (indexDeviation w.enc.settings.cpr w.enc.c).natAbs) :
    let delta := indexDeviation w.enc.settings.cpr w.enc.c
    checkCrossing dir w =
      { enc := { w.enc with
          state := .notHomed, indexArmed := false, lastDeviation := delta, lastDirection := dir, lastOutcome := .slip }
        notices := w.notices ++ [.indexSlip delta]
        crossing := some ⟨dir, delta, .slip, .notHomed⟩
        leftHomed := some .indexFault } := by
  intro delta
  unfold checkCrossing
  dsimp only
  split
  · rw [if_neg (not_le.mpr hout)]
    rfl
  · next other => exact absurd h other

end Crossing

end Sys2Proof.Machine
end

