-- ==== Sys2Proof/Proofs/PositionUpdates.lean ====
section
/-! PROOFS. Proofs/PositionUpdates.lean: what an accepted update hands on, and the updates that count, err and find the index
(R2 to R13, R75, R162, R163). -/

namespace Sys2Proof.Machine

open Sys2Proof

/-! ### GTE takes a position (R163) -/

theorem bladePhaseAt_blade_lt {w : Workpiece} (hw : workpieceOk w) (cpr : Nat) (u : Int) :
    (bladePhaseAt w cpr u).blade < w.blades :=
  trimmed_blade_lt hw (nominal_bounds hw _).1

/-- The part once ENC has come to `e` and GTE has taken the position, before PSC takes it. -/
def followed (e : Enc) (s : State) : State :=
  if encU e = encU s.enc then s.setEnc e
  else gatesPosition (changeDir (encU s.enc) (encU e)) (encU e) (s.setEnc e)

theorem handPosition_eq (e : Enc) (s : State) :
    handPosition (encU s.enc) (s.setEnc e) =
      if encU e = encU s.enc then followed e s else passPosition (encU e) (followed e s) := by
  unfold handPosition followed
  dsimp only [State.setEnc_enc]
  split_ifs <;> rfl

theorem gatesFollow_followed {e : Enc} {s : State} (hc : e.settings = s.enc.settings) : gatesFollow e s (followed e s) := by
  unfold followed
  by_cases hu : encU e = encU s.enc
  · rw [if_pos hu]
    exact ⟨rfl, fun _ => rfl, fun w _ _ _ _ _ h => absurd hu h⟩
  · rw [if_neg hu]
    refine ⟨(gatesPosition_shape _ _ (s.setEnc e)).1, fun h => ?_, fun w hm hw hok hx hn _ => ?_⟩
    · have safe : (s.setEnc e).gte.mode = .safe := h.resolve_right hu
      unfold gatesPosition
      rw [safe]
      rfl
    · have blade : (bladePhaseAt w (s.setEnc e).enc.settings.cpr (encU e)).blade < w.blades := bladePhaseAt_blade_lt hok _ _
      have evaluated := gatesPosition_rule (dir := changeDir (encU s.enc) (encU e)) (s := s.setEnc e) hw blade hm hx hn
      rw [State.setEnc_enc, hc] at evaluated
      exact evaluated

/-! ### The notices of an update (R194) -/

/-- An arbitration raises GROUP_CONFLICT alone. -/
theorem arbitrateRun_slot (fresh : Bool) (s : State) {k : NoticeKind} (hk : k ≠ .groupConflict) :
    noticeSlot (arbitrateRun fresh s).lnk.notices k = noticeSlot s.lnk.notices k := by
  unfold arbitrateRun
  dsimp only
  split
  · rfl
  · rw [reportWaits_eq]
    exact (beginWaits_rule _ _ _).2.2.2.2.2.1 k (.inl hk)

theorem gatesPosition_slot (dir : Dir) (u : Int) (s : State) {k : NoticeKind} (hk : k ≠ .groupConflict) :
    noticeSlot (gatesPosition dir u s).lnk.notices k = noticeSlot s.lnk.notices k := by
  unfold gatesPosition
  split
  · rfl
  · rw [arbitrateRun_slot _ _ hk, setDue_lnk]

theorem handPosition_slot (old : Int) (s : State) {k : NoticeKind} (hk : k ≠ .groupConflict) :
    noticeSlot (handPosition old s).lnk.notices k = noticeSlot s.lnk.notices k := by
  unfold handPosition
  dsimp only
  split_ifs
  · rfl
  · simp [gatesPosition_slot _ _ _ hk]

theorem beforeCrossing_slot (w : EncWork) (s : State) {k : NoticeKind} (hk : k ≠ .groupConflict) :
    noticeSlot (beforeCrossing w s).lnk.notices k =
      noticeSlot (w.notices.foldl (fun t n => raise n t) (s.setEnc w.enc)).lnk.notices k := by
  rw [beforeCrossing, handPosition_slot _ _ hk]
  simp only [handState_frame]

theorem startPass_slot (l : Lead) (snap : Nat) (s : State) (k : NoticeKind) :
    noticeSlot (startPass l snap s).lnk.notices k =
      if k = .passStart then some (raisedSlot (noticeSlot s.lnk.notices k) (.passStart l.ctx.settings.passId))
      else noticeSlot s.lnk.notices k := by
  have entered : ∀ m : State, (enterRun m).lnk = m.lnk := fun m => setDue_lnk _ _ _
  have restarted : ∀ m : State, (restartStall m).lnk = m.lnk := fun m => (restartStall_frame m).2.2.2.2.2.2.2.2.2.1
  unfold startPass
  dsimp only
  rw [raise_slot, entered, restarted]
  rfl

theorem passCrossing_slot (dir : Dir) (delta : Int) (outcome : IndexOutcome) (st : EncState) (s : State) {k : NoticeKind}
    (hk : k ≠ .passStart) :
    noticeSlot (passCrossing dir delta outcome st s).lnk.notices k = noticeSlot s.lnk.notices k := by
  unfold passCrossing
  split
  · rfl
  · next l _ =>
    dsimp only
    split
    · by_cases starts : dir = .forward ∧ st = .homed
      · rw [if_pos starts, startPass_slot, if_neg hk]
      · rw [if_neg starts]
    · simp

/-- A crossing raises SWAP_DONE and PASS_START alone. -/
theorem handCrossing_slot (eligible : Bool) (x : Option IndexCrossing) (s : State) {k : NoticeKind}
    (hs : k ≠ .swapDone) (hp : k ≠ .passStart) :
    noticeSlot (handCrossing eligible x s).lnk.notices k = noticeSlot s.lnk.notices k := by
  cases x with
  | none => rfl
  | some x =>
    have banks : noticeSlot (banksCrossing eligible x.state s).lnk.notices k = noticeSlot s.lnk.notices k := by
      unfold banksCrossing
      split_ifs
      · rw [exchange, raise_slot]
        refine (if_neg hs).trans ?_
        rw [(gatesExchange_rule _).1]
        rfl
      · rfl
    exact (passCrossing_slot _ _ _ _ _ hp).trans banks

/-- The slot of the one notice of ENC that an update raises. -/
theorem handOn_slot {w : EncWork} {n : Notice} (hw : w.notices = [n]) (s : State)
    (hk : noticeKind n = .encoderFault ∨ noticeKind n = .indexFault) :
    noticeSlot (handOn w s).lnk.notices (noticeKind n) =
      some (raisedSlot (noticeSlot s.lnk.notices (noticeKind n)) n) := by
  have apart : noticeKind n ≠ .swapDone ∧ noticeKind n ≠ .passStart ∧ noticeKind n ≠ .groupConflict := by
    obtain hk | hk := hk <;> simp [hk]
  obtain ⟨hs, hp, hg⟩ := apart
  rw [handOn_eq, handCrossing_slot _ _ _ hs hp, beforeCrossing_slot _ _ hg, hw]
  exact (raise_slot n _ _).trans (if_pos rfl)

/-! ### What an update hands on while no pass runs (R13) -/

theorem noRunningLead_iff (s : State) : noRunningLead s ↔ leadEligible s.psc = true := by
  unfold noRunningLead leadEligible
  cases s.psc.lead <;> simp

theorem handState_shape {s : State} (hr : noRunningLead s) (left : Option EndStatus) :
    handState left s = { s with gte := (handState left s).gte } := by
  cases left with
  | none => rfl
  | some st =>
    have stays : handState (some st) s = enterSafe s :=
      endRunningLead_of_eligible (s := enterSafe s) ((noRunningLead_iff s).mp hr) st
    rw [stays]
    rfl

theorem handPosition_shape_of_noRunning {s : State} (hr : noRunningLead s) (old : Int) :
    let t := handPosition old s
    t = { s with gte := t.gte, lnk := { s.lnk with notices := t.lnk.notices } } := by
  unfold handPosition
  dsimp only
  split_ifs
  · rfl
  · have shape := (gatesPosition_shape (changeDir old (encU s.enc)) (encU s.enc) s).1
    have stays : ∀ t : State, t.psc = s.psc → passPosition (encU s.enc) t = t := fun t ht =>
      passPosition_of_eligible (by rw [ht]; exact (noRunningLead_iff s).mp hr) _
    rw [stays _ (by simp)]
    exact shape

theorem beforeCrossing_shape {s : State} (hr : noRunningLead s) (w : EncWork) :
    let t := beforeCrossing w s
    t = { s with enc := w.enc, gte := t.gte, lnk := { s.lnk with notices := t.lnk.notices } } := by
  have raised := raises_eq w.notices (s.setEnc w.enc)
  have state := handState_shape (s := w.notices.foldl (fun t n => raise n t) (s.setEnc w.enc))
    (by rw [raised]; exact hr) w.leftHomed
  have position := handPosition_shape_of_noRunning
    (s := handState w.leftHomed (w.notices.foldl (fun t n => raise n t) (s.setEnc w.enc)))
    (by rw [state, raised]; exact hr) (encU s.enc)
  unfold beforeCrossing
  dsimp only at position ⊢
  rw [position, state, raised]
  rfl

/-- A crossing that neither starts a pass nor exchanges the banks hands nothing on. -/
theorem handOn_aside {w : EncWork} {s : State} (hr : noRunningLead s)
    (ha : s.psc.lead = none ∨ ∀ x, w.crossing = some x → x.dir = .reverse ∨ x.state ≠ .homed)
    (hb : s.wbk.stagedState = .pending → ∀ x, w.crossing = some x → x.state ≠ .homed) :
    handOn w s = beforeCrossing w s := by
  have shape := beforeCrossing_shape hr w
  rw [handOn_eq, (noRunningLead_iff s).mp hr]
  generalize beforeCrossing w s = m at shape ⊢
  have wbk : m.wbk = s.wbk := by rw [shape]
  have psc : m.psc = s.psc := by rw [shape]
  cases hx : w.crossing with
  | none => rfl
  | some x =>
    have banks : banksCrossing true x.state m = m := by
      obtain ⟨homed, pending, -⟩ | ⟨-, stays⟩ := banksCrossing_cases x.state m
      · exact absurd homed (hb (wbk ▸ pending) x hx)
      · exact stays
    show passCrossing x.dir x.delta x.outcome x.state (banksCrossing true x.state m) = m
    rw [banks]
    unfold passCrossing
    rw [psc]
    cases hl : s.psc.lead with
    | none => rfl
    | some l =>
      have armed := hr l hl
      have kept := (ha.resolve_left (by simp [hl])) x hx
      dsimp only
      rw [armed]
      exact if_neg (by rintro ⟨forward, homed⟩; simp_all)

/-! ### A count (R4, R5) -/

/-- Work that finds nothing but a new position hands on that alone. -/
theorem handOn_position (e : Enc) (s : State) :
    handOn { enc := e, notices := [], crossing := none, leftHomed := none } s = handPosition (encU s.enc) (s.setEnc e) := rfl

theorem changeDir_counted (s : State) (dir : Dir) :
    (if encU s.enc < countedU s dir then Dir.forward else .reverse) = dir ∧ countedU s dir ≠ encU s.enc := by
  cases dir with
  | forward => exact ⟨if_pos (by simp only [countedU]; omega), by simp only [countedU]; omega⟩
  | reverse => exact ⟨if_neg (by simp only [countedU]; omega), by simp only [countedU]; omega⟩

/-- Settles O14. -/
theorem countMovesPosition : Obligations.CountMovesPosition := by
  intro s l dir h hx cpr counted
  have hp := h.2.1
  have answered : exec (.acceptedUpdate l) s = .next (handOn (updateWork l s) s) := exec_acceptedUpdate_of_accepts h.1
  refine ⟨fun hin hnear => ⟨_, answered, ?_⟩, fun hover => ⟨_, answered, ?_⟩⟩
  · rw [updateWork_within h hx hin hnear]
    obtain ⟨e, he⟩ : ∃ e : Enc, e = { leveled s l with
      c := countC dir s.enc, rev := countRev dir s.enc, indexArmed := rearmed s l } := ⟨_, rfl⟩
    have position : encU e = countedU s dir := by
      rw [he]
      exact counted_position hp dir
    rw [← he, handOn_position]
    have enc : (handPosition (encU s.enc) (s.setEnc e)).enc = e := by simp
    obtain ⟨dirs, moved⟩ := changeDir_counted s dir
    have follows : noRunningLead s → gatesFollow e s (handPosition (encU s.enc) (s.setEnc e)) := fun hr =>
      handPosition_follows e hr (by rw [he]; rfl) fun w u hw => bladePhaseAt_blade_lt hw _ u
    refine ⟨enc.symm ▸ position, ?_, ?_, by simp, by simp, by simp, fun hr => ?_, fun hr hsafe => ?_,
      fun w hr hrun hw hok hex hn => ?_⟩
    · rw [enc, he]
      exact countC_lt dir hp.1
    · rw [enc, he]
      rfl
    · rw [(follows hr).1]
    · rw [enc]
      exact (follows hr).2.1 (.inl hsafe)
    · have evaluated := (follows hr).2.2 w hrun hw hok hex hn (by rw [position]; exact moved)
      rw [position, dirs] at evaluated
      rw [enc]
      exact evaluated
  · have work := updateWork_past h hx hover
    have plain : handOn (updateWork l s) s = beforeCrossing (updateWork l s) s := by
      rw [handOn_eq, work]
      rfl
    refine ⟨?_, ?_, ?_, by simp, by simp, fun hs => ?_, fun hr => ?_⟩
    · rw [(handOn_frame _ _).2.1, work, countC_of_overrun hover]
      rfl
    · exact handOn_slot (n := .encoderFault .overrange) (by rw [work]) s (.inl rfl)
    · rw [plain]
      simp [beforeCrossing]
    · have left := acceptUpdate_homedLeft hs (l := l) (by rw [work]; simp)
      rw [work] at left
      exact left
    · rw [plain, beforeCrossing_shape hr]
      exact ⟨rfl, rfl, rfl, rfl⟩

/-! ### A quadrature error (R3) -/

/-- An update that leaves U where it was and crosses nothing hands on its notices and the state change alone. -/
theorem handOn_unmoved {w : EncWork} {s : State} (hx : w.crossing = none) (hU : encU w.enc = encU s.enc) :
    handOn w s = handState w.leftHomed (w.notices.foldl (fun t n => raise n t) (s.setEnc w.enc)) := by
  rw [handOn_eq, hx]
  unfold handCrossing beforeCrossing handPosition
  dsimp only
  rw [if_pos]
  simpa using hU

/-- Settles O15. -/
theorem quadratureErrorFaults : Obligations.QuadratureErrorFaults := by
  intro s l h ha hb
  have answered : exec (.acceptedUpdate l) s = .next (handOn (updateWork l s) s) := exec_acceptedUpdate_of_accepts h
  have work := updateWork_of_error ha hb
  have unmoved := handOn_unmoved (w := updateWork l s) (s := s) (by rw [work]) (by rw [work]; rfl)
  refine ⟨_, answered, ?_, ?_, fun k hk => ?_, fun hs => ?_, fun hs => ?_⟩
  · rw [(handOn_frame _ _).2.1, work]
    rfl
  · exact handOn_slot (n := .encoderFault .quadrature) (by rw [work]) s (.inl rfl)
  · rw [unmoved, (handState_frame _ _).2.2.2.2.2.1, work]
    exact (raise_slot _ _ _).trans (if_neg hk)
  · have left := acceptUpdate_homedLeft hs (l := l) (by rw [work]; simp)
    rw [work] at left
    exact left
  · rw [unmoved, work]
    dsimp only
    rw [if_neg hs]
    rfl

end Sys2Proof.Machine
end

