-- ==== Sys2Proof/Proofs/IndexCrossings.lean ====
section
/-! PROOFS. Proofs/IndexCrossings.lean: the outcomes of an index crossing and of a missing index (R7 to R13, R75). -/

namespace Sys2Proof.Machine

open Sys2Proof

/-! ### ENC at a crossing -/

theorem divMod_counted {s : State} (h : positionOk s) (dir : Dir) :
    countRev dir s.enc = countedU s dir / s.enc.settings.cpr ∧
      (countC dir s.enc : Int) = countedU s dir % s.enc.settings.cpr := by
  have position := counted_position h dir
  have := divMod_encU (e := { s.enc with c := countC dir s.enc, rev := countRev dir s.enc }) (countC_lt dir h.1)
  rwa [show encU { s.enc with c := countC dir s.enc, rev := countRev dir s.enc } = countedU s dir from position] at this

/-- The deviation δ of the turn count of a position, as R7 gives it. -/
def deviationOf (u cpr : Int) : Int := if 2 * (u % cpr) ≤ cpr then u % cpr else u % cpr - cpr

theorem indexDeviation_counted {s : State} (h : positionOk s) (dir : Dir) :
    indexDeviation s.enc.settings.cpr (countC dir s.enc) = deviationOf (countedU s dir) s.enc.settings.cpr := by
  have turn := (divMod_counted h dir).2
  unfold indexDeviation deviationOf
  rw [← turn]
  refine if_congr ?_ rfl rfl
  omega

/-- U after a snap. -/
theorem snapped_position {u cpr : Int} (hcpr : 0 < cpr) :
    (if deviationOf u cpr < 0 then u / cpr + 1 else u / cpr) * cpr = u - deviationOf u cpr := by
  have turn := Int.emod_add_mul_ediv u cpr
  have low := Int.emod_nonneg u (ne_of_gt hcpr)
  have high := Int.emod_lt_of_pos u hcpr
  unfold deviationOf
  by_cases half : 2 * (u % cpr) ≤ cpr
  · rw [if_pos half, if_neg (by omega)]
    linear_combination turn
  · rw [if_neg half, if_pos (by omega)]
    linear_combination turn

section Outcomes

variable {s : State} {l : Lines} {dir : Dir} (h : countsOnce s l dir) (hx : crossesIndex s l)

include h hx

/-- Outside HOMED a forward crossing homes, also one whose count overran. -/
theorem updateWork_homes (hdir : dir = .forward) (hin : ¬ overrunsBound s dir) (hs : s.enc.state ≠ .homed) :
    let delta := deviationOf (countedU s dir) s.enc.settings.cpr
    updateWork l s =
      { enc := { leveled s l with
          c := 0, rev := countRev dir s.enc, uLastIndex := countRev dir s.enc * s.enc.settings.cpr, state := .homed
          indexArmed := false, lastDeviation := delta, lastDirection := dir, lastOutcome := .homing }
        notices := [], crossing := some ⟨dir, delta, .homing, .homed⟩, leftHomed := none } := by
  subst hdir
  have homes := checkCrossing_homes (w := countedWork s l .forward) (by rw [countedWork_within h.2.1 hin]; exact hs)
  rw [updateWork_crossing h hx, homes, countedWork_within h.2.1 hin, ← indexDeviation_counted h.2.1]
  rfl

theorem updateWork_records (hdir : dir = .reverse) (hin : ¬ overrunsBound s dir) (hs : s.enc.state ≠ .homed) :
    let delta := deviationOf (countedU s dir) s.enc.settings.cpr
    updateWork l s =
      { enc := { leveled s l with
          c := countC dir s.enc, rev := countRev dir s.enc
          indexArmed := false, lastDeviation := delta, lastDirection := dir, lastOutcome := .none }
        notices := [], crossing := some ⟨dir, delta, .none, s.enc.state⟩, leftHomed := none } := by
  subst hdir
  have records := checkCrossing_records (w := countedWork s l .reverse) (by rw [countedWork_within h.2.1 hin]; exact hs)
  rw [updateWork_crossing h hx, records, countedWork_within h.2.1 hin, ← indexDeviation_counted h.2.1]
  rfl

/-- In HOMED a crossing within the tolerance snaps. -/
theorem updateWork_snaps (hin : ¬ overrunsBound s dir) (hs : s.enc.state = .homed)
    (hnear : (deviationOf (countedU s dir) s.enc.settings.cpr).natAbs ≤ s.enc.settings.tolerance)
    (hrev : 0 ≤ deviationOf (countedU s dir) s.enc.settings.cpr ∨ countRev dir s.enc < revMax) :
    let delta := deviationOf (countedU s dir) s.enc.settings.cpr
    let rev := if delta < 0 then countRev dir s.enc + 1 else countRev dir s.enc
    updateWork l s =
      { enc := { leveled s l with
          c := 0, rev := rev, uLastIndex := rev * s.enc.settings.cpr, largestSnap := max s.enc.largestSnap delta.natAbs
          indexArmed := false, lastDeviation := delta, lastDirection := dir, lastOutcome := .snap }
        notices := [], crossing := some ⟨dir, delta, .snap, .homed⟩, leftHomed := none } := by
  have dev : indexDeviation (countedWork s l dir).enc.settings.cpr (countedWork s l dir).enc.c =
      deviationOf (countedU s dir) s.enc.settings.cpr := by
    rw [countedWork_within h.2.1 hin]
    exact indexDeviation_counted h.2.1 dir
  have rev : (countedWork s l dir).enc.rev = countRev dir s.enc := by rw [countedWork_within h.2.1 hin]
  have tolerance : (countedWork s l dir).enc.settings.tolerance = s.enc.settings.tolerance := by
    rw [countedWork_within h.2.1 hin]
    rfl
  have within := mt (overruns_iff h.2.1 dir).mp hin
  have snaps := checkCrossing_snaps (w := countedWork s l dir) (by rw [countedWork_within h.2.1 hin]; exact hs) dir
    (by rw [dev, tolerance]; exact hnear) (by
      rw [dev, rev]
      simp only [overruns, Bool.or_eq_true, decide_eq_true_eq, not_or] at within
      simp only [overruns, Bool.or_eq_false_iff, decide_eq_false_iff_not]
      split_ifs <;> omega)
  dsimp only at snaps ⊢
  rw [dev, rev] at snaps
  rw [updateWork_crossing h hx, snaps, countedWork_within h.2.1 hin]
  simp only [leveled, hs]

theorem updateWork_snapOverruns (hin : ¬ overrunsBound s dir) (hs : s.enc.state = .homed)
    (hnear : (deviationOf (countedU s dir) s.enc.settings.cpr).natAbs ≤ s.enc.settings.tolerance)
    (hneg : deviationOf (countedU s dir) s.enc.settings.cpr < 0) (hrev : countRev dir s.enc = revMax) :
    let delta := deviationOf (countedU s dir) s.enc.settings.cpr
    updateWork l s =
      { enc := { leveled s l with
          c := 0, rev := 0, state := .fault, uLastIndex := 0, largestSnap := max s.enc.largestSnap delta.natAbs
          indexArmed := false, lastDeviation := delta, lastDirection := dir, lastOutcome := .snap }
        notices := [.encoderFault .overrange], crossing := some ⟨dir, delta, .snap, .fault⟩
        leftHomed := some .encoderFault } := by
  have overruns := checkCrossing_overruns (w := countedWork s l dir) (by rw [countedWork_within h.2.1 hin]; exact hs) dir
  rw [countedWork_within h.2.1 hin] at overruns
  dsimp only [leveled] at overruns
  rw [indexDeviation_counted h.2.1] at overruns
  rw [updateWork_crossing h hx, countedWork_within h.2.1 hin]
  exact overruns hnear hneg hrev

/-- In HOMED a crossing beyond the tolerance is a slip. -/
theorem updateWork_slips (hin : ¬ overrunsBound s dir) (hs : s.enc.state = .homed)
    (hfar : s.enc.settings.tolerance < (deviationOf (countedU s dir) s.enc.settings.cpr).natAbs) :
    let delta := deviationOf (countedU s dir) s.enc.settings.cpr
    updateWork l s =
      { enc := { leveled s l with
          c := countC dir s.enc, rev := countRev dir s.enc, state := .notHomed
          indexArmed := false, lastDeviation := delta, lastDirection := dir, lastOutcome := .slip }
        notices := [.indexSlip delta], crossing := some ⟨dir, delta, .slip, .notHomed⟩
        leftHomed := some .indexFault } := by
  have slips := checkCrossing_slips (w := countedWork s l dir) (by rw [countedWork_within h.2.1 hin]; exact hs) dir
  rw [countedWork_within h.2.1 hin] at slips
  dsimp only [leveled] at slips
  rw [indexDeviation_counted h.2.1] at slips
  rw [updateWork_crossing h hx, countedWork_within h.2.1 hin]
  exact slips hfar

theorem updateWork_homes_past (hdir : dir = .forward) (hover : overrunsBound s dir) :
    updateWork l s =
      { enc := { leveled s l with
          c := 0, rev := 0, uLastIndex := 0, state := .homed, indexArmed := false
          lastDeviation := indexDeviation s.enc.settings.cpr (countC dir s.enc)
          lastDirection := dir, lastOutcome := .homing }
        notices := [.encoderFault .overrange]
        crossing := some ⟨dir, indexDeviation s.enc.settings.cpr (countC dir s.enc), .homing, .homed⟩
        leftHomed := if s.enc.state = .homed then some .encoderFault else none } := by
  subst hdir
  have homes := checkCrossing_homes (w := countedWork s l .forward) (by rw [countedWork_past h.2.1 hover]; simp)
  rw [updateWork_crossing h hx, homes, countedWork_past h.2.1 hover]
  simp [leveled]

theorem updateWork_records_past (hdir : dir = .reverse) (hover : overrunsBound s dir) :
    updateWork l s =
      { enc := { leveled s l with
          c := countC dir s.enc, rev := 0, state := .fault, indexArmed := false
          lastDeviation := indexDeviation s.enc.settings.cpr (countC dir s.enc)
          lastDirection := dir, lastOutcome := .none }
        notices := [.encoderFault .overrange]
        crossing := some ⟨dir, indexDeviation s.enc.settings.cpr (countC dir s.enc), .none, .fault⟩
        leftHomed := if s.enc.state = .homed then some .encoderFault else none } := by
  subst hdir
  have records := checkCrossing_records (w := countedWork s l .reverse) (by rw [countedWork_past h.2.1 hover]; simp)
  rw [updateWork_crossing h hx, records, countedWork_past h.2.1 hover]
  rfl

end Outcomes

/-! ### What a crossing hands on -/

/-- The lead is IDLE, or ARMED at a reverse crossing. -/
def standsAside (s : State) (dir : Dir) : Prop := s.psc.lead = none ∨ (dir = .reverse ∧ noRunningLead s)

theorem standsAside.noRunningLead {s : State} {dir : Dir} (h : standsAside s dir) : noRunningLead s := by
  obtain hl | ⟨-, hr⟩ := h
  · intro l h
    simp [hl] at h
  · exact hr

theorem handOn_of_standsAside {w : EncWork} {s : State} {dir : Dir} (ha : standsAside s dir)
    (hw : ∀ x, w.crossing = some x → x.dir = dir ∧ x.state = w.enc.state)
    (hb : s.wbk.stagedState = .pending → w.enc.state ≠ .homed) : handOn w s = beforeCrossing w s := by
  refine handOn_aside ha.noRunningLead ?_ fun hp x hx => (hw x hx).2 ▸ hb hp
  exact ha.imp_right fun ⟨hdir, _⟩ x hx => .inl ((hw x hx).1.trans hdir)

/-- Work that raises nothing and stays as to HOMED moves GTE alone. -/
theorem handOn_follows {w : EncWork} {s : State} {dir : Dir} (ha : standsAside s dir)
    (hw : ∀ x, w.crossing = some x → x.dir = dir ∧ x.state = w.enc.state)
    (hb : s.wbk.stagedState = .pending → w.enc.state ≠ .homed) (hn : w.notices = []) (hl : w.leftHomed = none)
    (hc : w.enc.settings = s.enc.settings) : gatesFollow w.enc s (handOn w s) := by
  rw [handOn_of_standsAside ha hw hb, beforeCrossing, hn, hl]
  exact handPosition_follows w.enc ha.noRunningLead hc fun w u hw => bladePhaseAt_blade_lt hw _ u

/-- A lead that was running when ENC left HOMED ends, and no more is handed on to PSC, WBK or GTE, even where the update
homes again. -/
theorem handOn_endsLead {w : EncWork} {s : State} {st : EndStatus} (hw : w.leftHomed = some st)
    (ha : abandons st = true) {l : Lead} (hl : s.psc.lead = some l) (hrun : l.phase ≠ .armed) :
    handOn w s = handState (some st) (w.notices.foldl (fun t n => raise n t) (s.setEnc w.enc)) := by
  have kept : leadEligible s.psc = false := by simp [leadEligible, hl, hrun]
  have ended : (handState (some st) (w.notices.foldl (fun t n => raise n t) (s.setEnc w.enc))).psc.lead = none :=
    endRunningLead_ends (l := l) (by simpa using hl) hrun
  have safe := (handState_enters ha (w.notices.foldl (fun t n => raise n t) (s.setEnc w.enc))).1.1
  have idle : noRunningLead (handState (some st) (w.notices.foldl (fun t n => raise n t) (s.setEnc w.enc))) := fun l h => by
    rw [ended] at h
    cases h
  rw [handOn_eq, kept, beforeCrossing, hw, handPosition_idle safe idle]
  unfold handCrossing
  split
  · rfl
  · simp [banksCrossing, passCrossing, ended]

/-- Settles O16: ENC by the outcomes above, and what it hands on where it has left HOMED by `acceptUpdate_homedLeft`. -/
theorem indexCrossingOutcomes : Obligations.IndexCrossingOutcomes := by
  intro s l dir h cpr u rev delta faulted moved aside
  have hp := h.2.1
  have answered : exec (.acceptedUpdate l) s = .next (handOn (updateWork l s) s) := exec_acceptedUpdate_of_accepts h.1
  have enc : (handOn (updateWork l s) s).enc = (updateWork l s).enc := (handOn_frame _ _).2.1
  obtain ⟨hrev, hturn⟩ := divMod_counted hp dir
  have left : s.enc.state = .homed → (updateWork l s).enc.state ≠ .homed →
      homedLeft (leavingStatus (updateWork l s).enc.state) s (handOn (updateWork l s) s) := fun hs hne =>
    acceptUpdate_homedLeft hs hne
  refine ⟨fun hx hin => ⟨_, answered, ?_⟩, fun hx hover => ⟨_, answered, ?_⟩, fun hx hin hs hfar => ⟨_, answered, ?_⟩⟩
  · have follows := handOn_follows (w := updateWork l s) (s := s) (dir := dir)
    by_cases hs : s.enc.state = .homed
    · by_cases hnear : delta.natAbs ≤ s.enc.settings.tolerance
      · by_cases hover : 0 ≤ delta ∨ countRev dir s.enc < revMax
        · have work := updateWork_snaps h hx hin hs hnear hover
          have snapped : (if delta < 0 then countRev dir s.enc + 1 else countRev dir s.enc) * cpr = u - delta := by
            rw [hrev]
            exact snapped_position (by have := hp.1; simp only [cpr]; omega)
          rw [enc]
          rw [work] at follows ⊢
          refine ⟨rfl, fun _ ha hb => follows ha (fun x hx => by cases hx; exact ⟨rfl, hs.symm⟩) hb rfl rfl rfl, rfl, rfl,
            rfl, fun hne => absurd hs hne, fun hne => absurd hs hne,
            fun _ _ => ⟨rfl, rfl, rfl, fun _ => ⟨hs, (add_zero _).trans snapped, snapped⟩, fun hneg hmax => ?_⟩,
            fun _ hfar => absurd hnear (not_le.mpr hfar)⟩
          exact absurd (hrev.trans hmax) (ne_of_lt (hover.resolve_left (not_le.mpr hneg)))
        · have hneg : delta < 0 := by omega
          have hmax : countRev dir s.enc = revMax := by
            have within := mt (overruns_iff hp dir).mp hin
            simp only [overruns, Bool.or_eq_true, decide_eq_true_eq, not_or] at within
            omega
          have work := updateWork_snapOverruns h hx hin hs hnear hneg hmax
          have left := left hs (by rw [work]; simp)
          have slot := handOn_slot (n := .encoderFault .overrange) (w := updateWork l s) (by rw [work]) s (.inl rfl)
          rw [enc]
          rw [work] at left slot ⊢
          refine ⟨rfl, fun hh => ?_, rfl, rfl, rfl, fun hne => absurd hs hne, fun hne => absurd hs hne,
            fun _ _ => ⟨rfl, rfl, rfl, fun hin => ?_, fun _ _ => ⟨rfl, rfl, slot, left⟩⟩,
            fun _ hfar => absurd hnear (not_le.mpr hfar)⟩
          · simp [hs] at hh
          · exact absurd (hrev.symm.trans hmax) (ne_of_lt (hin.resolve_left (not_le.mpr hneg)))
      · have hfar := not_le.mp hnear
        have work := updateWork_slips h hx hin hs hfar
        have left := left hs (by rw [work]; simp)
        have slot := handOn_slot (n := .indexSlip delta) (w := updateWork l s) (by rw [work]; rfl) s (.inr rfl)
        rw [enc]
        rw [work] at left slot ⊢
        refine ⟨rfl, fun hh => ?_, rfl, rfl, rfl, fun hne => absurd hs hne, fun hne => absurd hs hne,
          fun _ hnear' => absurd hnear' hnear,
          fun _ _ => ⟨rfl, counted_position hp dir, hturn, rfl, rfl, rfl, slot, left⟩⟩
        simp [hs] at hh
    · obtain hdir | hdir : dir = .forward ∨ dir = .reverse := by cases dir <;> simp
      · have work := updateWork_homes h hx hdir hin hs
        rw [enc]
        rw [work] at follows ⊢
        refine ⟨rfl, fun _ ha hb => follows ha (fun x hx => by cases hx; exact ⟨rfl, rfl⟩) hb rfl rfl rfl, rfl, rfl, rfl,
          fun _ _ => ⟨rfl, rfl, hrev, by rw [hrev], rfl, rfl⟩, fun _ hback => ?_, fun hh => absurd hh hs,
          fun hh => absurd hh hs⟩
        simp [hdir] at hback
      · have work := updateWork_records h hx hdir hin hs
        rw [enc]
        rw [work] at follows ⊢
        refine ⟨rfl, fun _ ha hb => follows ha (fun x hx => by cases hx; exact ⟨rfl, rfl⟩) hb rfl rfl rfl, rfl, rfl, rfl,
          fun _ hforth => ?_, fun _ _ => ⟨rfl, hturn, hrev, rfl, rfl, rfl⟩, fun hh => absurd hh hs,
          fun hh => absurd hh hs⟩
        simp [hdir] at hforth
  · have slot : ∀ w : EncWork, w.notices = [.encoderFault .overrange] → faulted (handOn w s) := fun w hw =>
      handOn_slot (n := .encoderFault .overrange) hw s (.inl rfl)
    have shape : aside → (s.wbk.stagedState = .pending → (updateWork l s).enc.state ≠ .homed) →
        (∀ x, (updateWork l s).crossing = some x → x.dir = dir ∧ x.state = (updateWork l s).enc.state) →
        handOn (updateWork l s) s = { s with
          enc := (updateWork l s).enc, gte := (handOn (updateWork l s) s).gte
          lnk := { s.lnk with notices := (handOn (updateWork l s) s).lnk.notices } } := fun ha hb hw => by
      rw [handOn_of_standsAside ha hw hb]
      exact beforeCrossing_shape (standsAside.noRunningLead ha) _
    obtain hdir | hdir : dir = .forward ∨ dir = .reverse := by cases dir <;> simp
    · have work := updateWork_homes_past h hx hdir hover
      have ends : s.enc.state = .homed → leadCountersOk s → ∀ lead, s.psc.lead = some lead → lead.phase ≠ .armed →
          leadAbandoned .encoderFault lead s (handOn (updateWork l s) s) := fun hs hk lead hl hrun => by
        have ended := handOn_endsLead (w := updateWork l s) (by rw [work]; exact if_pos hs) (st := .encoderFault) rfl hl hrun
        rw [ended]
        have whole := homedLeft_of (s := s) (handState_left (st := .encoderFault) rfl
          ((updateWork l s).notices.foldl (fun t n => raise n t) (s.setEnc (updateWork l s).enc)))
          (by rw [raises_eq]; rfl)
        exact whole.2.2.1 hk lead hl hrun
      rw [enc]
      rw [work] at shape ends ⊢
      refine ⟨rfl, fun ha hb => shape ha hb fun x hx => by cases hx; exact ⟨rfl, rfl⟩, rfl, slot _ rfl, rfl, rfl, rfl,
        fun _ => ⟨rfl, rfl, rfl, rfl⟩, fun _ => ends, fun hback => ?_⟩
      simp [hdir] at hback
    · have work := updateWork_records_past h hx hdir hover
      have left := fun hs => left hs (by rw [work]; simp)
      rw [enc]
      rw [work] at shape left ⊢
      refine ⟨rfl, fun ha hb => shape ha hb fun x hx => by cases hx; exact ⟨rfl, rfl⟩, rfl, slot _ rfl, rfl, rfl, rfl,
        fun hforth => ?_, fun hforth => ?_, fun _ => ⟨rfl, ?_, rfl, rfl, left⟩⟩
      · simp [hdir] at hforth
      · simp [hdir] at hforth
      · have := hp.1
        show ((countC dir s.enc : Nat) : Int) = _
        rw [countC_of_overrun hover, if_neg (by simp [hdir])]
        simp only [cpr]
        omega
  · have work := updateWork_missing h hx hin hs hfar
    have left := left hs (by rw [work]; simp)
    have slot := handOn_slot (n := .indexMissing) (w := updateWork l s) (by rw [work]) s (.inr rfl)
    rw [enc]
    rw [work] at left slot ⊢
    exact ⟨rfl, counted_position hp dir, hturn, rfl, slot, left⟩

end Sys2Proof.Machine
end

