-- ==== Sys2Proof/Proofs/CrossingUpdates.lean ====
section
/-! PROOFS. Proofs/CrossingUpdates.lean: what an index crossing starts: the exchange of the banks and an ARMED pass (R55, R56,
R65, R168). -/

namespace Sys2Proof.Machine

open Sys2Proof

/-! ### The notices of ENC's work -/

/-- ENC raises ENCODER_FAULT and INDEX_FAULT alone. -/
def faultNotices (w : EncWork) : Prop := ∀ n ∈ w.notices, noticeKind n = .encoderFault ∨ noticeKind n = .indexFault

theorem faultNotices_append {w : EncWork} (h : faultNotices w) {n : Notice}
    (hn : noticeKind n = .encoderFault ∨ noticeKind n = .indexFault) {w' : EncWork}
    (hw : w'.notices = w.notices ++ [n] ∨ w'.notices = w.notices) : faultNotices w' := by
  intro m hm
  obtain hw | hw := hw
  · rw [hw, List.mem_append, List.mem_singleton] at hm
    obtain hm | rfl := hm
    · exact h m hm
    · exact hn
  · exact h m (hw ▸ hm)

theorem faultNotices_checkCrossing (dir : Dir) {w : EncWork} (h : faultNotices w) : faultNotices (checkCrossing dir w) := by
  unfold checkCrossing
  dsimp only
  split
  · split_ifs with hin hover
    · exact faultNotices_append h (n := .encoderFault .overrange) (.inl rfl) (.inl rfl)
    · exact h
    · exact faultNotices_append h (n := .indexSlip _) (.inr rfl) (.inl rfl)
  · cases dir <;> exact h

theorem faultNotices_checkMissing {w : EncWork} (h : faultNotices w) : faultNotices (checkMissing w) := by
  unfold checkMissing
  split_ifs
  · exact faultNotices_append h (n := .indexMissing) (.inr rfl) (.inl rfl)
  · exact h

theorem faultNotices_workCount (dir : Dir) {w : EncWork} (h : faultNotices w) : faultNotices (workCount dir w) := by
  unfold workCount
  dsimp only
  have counted : faultNotices { w with
      enc := applyCount dir w.enc
      notices := if overruns (countRev dir w.enc) = true then w.notices ++ [.encoderFault .overrange] else w.notices
      leftHomed := if (overruns (countRev dir w.enc) && decide (w.enc.state = .homed)) = true then some .encoderFault
        else w.leftHomed } := by
    refine faultNotices_append h (n := .encoderFault .overrange) (.inl rfl) ?_
    dsimp only
    split_ifs
    · exact .inl rfl
    · exact .inr rfl
  by_cases hx : ((applyCount dir w.enc).accepted.z && (applyCount dir w.enc).indexArmed) = true
  · rw [if_pos hx]
    exact faultNotices_checkCrossing dir counted
  · rw [if_neg hx]
    exact faultNotices_checkMissing counted

theorem faultNotices_updateWork (l : Lines) (s : State) : faultNotices (updateWork l s) := by
  have start : faultNotices
      ⟨{ afterSample s.now s.enc with noted := filterNoted s.enc l, accepted := filterAccepted s.enc l }, [], none, none⟩ :=
    fun n hn => by cases hn
  unfold updateWork encWork
  rw [rearm_eq]
  dsimp only
  split
  · exact start
  · exact faultNotices_workCount _ start
  · exact faultNotices_append start (n := .encoderFault .quadrature) (.inl rfl) (.inl rfl)

/-- Notices of other kinds leave a slot as it is. -/
theorem raises_slot {ns : List Notice} {k : NoticeKind} (h : ∀ n ∈ ns, noticeKind n ≠ k) (s : State) :
    noticeSlot (ns.foldl (fun t n => raise n t) s).lnk.notices k = noticeSlot s.lnk.notices k := by
  induction ns generalizing s with
  | nil => rfl
  | cons n ns ih =>
    rw [List.foldl_cons, ih (fun m hm => h m (List.mem_cons_of_mem _ hm)), raise_slot,
      if_neg (Ne.symm (h n List.mem_cons_self))]

/-- Before a crossing is handed on, an update has touched the slots of GROUP_CONFLICT and of ENC's faults alone. -/
theorem beforeCrossing_slot_of_update (l : Lines) (s : State) {k : NoticeKind} (hg : k ≠ .groupConflict)
    (he : k ≠ .encoderFault) (hi : k ≠ .indexFault) :
    noticeSlot (beforeCrossing (updateWork l s) s).lnk.notices k = noticeSlot s.lnk.notices k := by
  rw [beforeCrossing_slot _ _ hg]
  refine raises_slot (fun n hn => ?_) _
  obtain hn | hn := faultNotices_updateWork l s n hn
  · exact hn ▸ Ne.symm he
  · exact hn ▸ Ne.symm hi

/-! ### The exchange of the banks (R55, R56, R168) -/

/-- Where an update changes the banks it exchanges them. -/
theorem handOn_exchanges {w : EncWork} {s : State} (h : (handOn w s).wbk ≠ s.wbk) :
    ∃ x, w.crossing = some x ∧ x.state = .homed ∧ leadEligible s.psc = true ∧ s.wbk.stagedState = .pending ∧
      handOn w s = passCrossing x.dir x.delta x.outcome x.state (exchange (beforeCrossing w s)) := by
  have kept : (beforeCrossing w s).wbk = s.wbk := by simp [beforeCrossing]
  rw [handOn_eq] at h ⊢
  cases hx : w.crossing with
  | none =>
    rw [hx] at h
    exact absurd kept h
  | some x =>
    rw [hx] at h
    have h : (banksCrossing (leadEligible s.psc) x.state (beforeCrossing w s)).wbk ≠ s.wbk := by
      simpa [handCrossing] using h
    cases he : leadEligible s.psc with
    | false =>
      rw [he] at h
      exact absurd kept h
    | true =>
      rw [he] at h
      obtain ⟨homed, pending, exchanges⟩ | ⟨-, stays⟩ := banksCrossing_cases x.state (beforeCrossing w s)
      · refine ⟨x, rfl, homed, rfl, kept ▸ pending, ?_⟩
        rw [← exchanges]
        rfl
      · rw [stays] at h
        exact absurd kept h

theorem exchange_slot (s : State) (k : NoticeKind) :
    noticeSlot (exchange s).lnk.notices k =
      if k = .swapDone then
        some (raisedSlot (noticeSlot s.lnk.notices k)
          (.swapDone s.wbk.staged.windows.length
            (stepFineCount (exchangedBanks s.wbk s.enc.settings.cpr).active.warnings)
            (edgeCloseCount (exchangedBanks s.wbk s.enc.settings.cpr).active.warnings)))
      else noticeSlot s.lnk.notices k := by
  have kept : (gatesExchange (s.setWbk (exchangedBanks s.wbk s.enc.settings.cpr))).lnk = s.lnk := by
    rw [(gatesExchange_rule _).1]
    rfl
  unfold exchange
  dsimp only
  rw [raise_slot, kept]
  rfl

/-! ### GTE at an exchange and at a pass start (R161, R168) -/

theorem enterRun_eq (s : State) :
    enterRun s = arbitrateRun true
      (setDue .forward (encU s.enc) ((clearDue s).setGte { (clearDue s).gte with mode := .run })) := rfl

theorem gatesExchange_of_run {s : State} (h : s.gte.mode = .run) :
    gatesExchange s = arbitrateRun true (setDue .forward (encU s.enc) (clearDue s)) := by
  have mode : (clearDue s).gte.mode = .run := h
  unfold gatesExchange
  dsimp only
  rw [mode]
  rfl

theorem clearDue_due (s : State) (n : Fin 8) : ((clearDue s).gte.gates.get n).due = .none := by simp [clearDue]

theorem clearDue_status (s : State) (n : Fin 8) :
    ((clearDue s).gte.gates.get n).status = (s.gte.gates.get n).status := by simp [clearDue]

theorem setDue_status (dir : Dir) (u : Int) (s : State) (n : Fin 8) :
    ((setDue dir u s).gte.gates.get n).status = (s.gte.gates.get n).status := by
  rw [(setDue_shape dir u s).2.2.2 n]

theorem enterRun_status (s : State) (n : Fin 8) :
    ((enterRun s).gte.gates.get n).status = (s.gte.gates.get n).status := by
  rw [enterRun_eq, (arbitrateRun_gate _ _ n).2.2, setDue_status]
  exact clearDue_status s n

theorem enterRun_mode (s : State) : (enterRun s).gte.mode = .run := by
  rw [enterRun_eq, (arbitrateRun_gate _ _ 0).1]
  exact (setDue_shape _ _ _).2.1

theorem enterRun_fresh {s : State} {w : Workpiece} (hw : s.wbk.workpiece = some w) (hok : workpieceOk w) :
    freshlyEvaluated w.blades (bladePhaseAt w s.enc.settings.cpr (encU s.enc)) (enterRun s) :=
  (freshEvaluation_rule (s := (clearDue s).setGte { (clearDue s).gte with mode := .run }) hw
    (bladePhaseAt_blade_lt hok _ _) rfl (clearDue_due s)).1

theorem gatesExchange_fresh {s : State} {w : Workpiece} (hr : s.gte.mode = .run) (hw : s.wbk.workpiece = some w)
    (hok : workpieceOk w) :
    freshlyEvaluated w.blades (bladePhaseAt w s.enc.settings.cpr (encU s.enc)) (gatesExchange s) := by
  rw [gatesExchange_of_run hr]
  exact (freshEvaluation_rule (s := clearDue s) hw (bladePhaseAt_blade_lt hok _ _) rfl (clearDue_due s)).1

theorem gatesPosition_status (dir : Dir) (u : Int) (s : State) (n : Fin 8) :
    ((gatesPosition dir u s).gte.gates.get n).status = (s.gte.gates.get n).status := by
  unfold gatesPosition
  split
  · rfl
  · rw [(arbitrateRun_gate _ _ n).2.2, setDue_status]

theorem handPosition_status (old : Int) (s : State) (n : Fin 8) :
    ((handPosition old s).gte.gates.get n).status = (s.gte.gates.get n).status := by
  unfold handPosition
  dsimp only
  split_ifs
  · rfl
  · rw [(passPosition_frame _ _).2.2.2.2.1, gatesPosition_status]

theorem beforeCrossing_status (l : Lines) (s : State) (hr : noRunningLead s) (n : Fin 8) :
    ((beforeCrossing (updateWork l s) s).gte.gates.get n).status = (s.gte.gates.get n).status := by
  have raised : (((updateWork l s).notices.foldl (fun t n => raise n t) (s.setEnc (updateWork l s).enc)).gte.gates.get n).status =
      (s.gte.gates.get n).status := by simp
  rw [beforeCrossing, handPosition_status, ← raised]
  cases (updateWork l s).leftHomed with
  | none => rfl
  | some st =>
    have stays := endRunningLead_of_eligible
      (s := enterSafe ((updateWork l s).notices.foldl (fun t n => raise n t) (s.setEnc (updateWork l s).enc)))
      (by simpa using (noRunningLead_iff s).mp hr) st
    rw [handState, stays]
    exact ((enterSafe_rule _).1.2.2.2.2 n).1

/-- The crossing that ENC hands on is the one it records. -/
theorem checkCrossing_hands (dir : Dir) (w : EncWork) :
    let e := (checkCrossing dir w).enc
    (checkCrossing dir w).crossing = some ⟨dir, e.lastDeviation, e.lastOutcome, e.state⟩ ∧ e.lastDirection = dir := by
  unfold checkCrossing
  dsimp only
  split
  · split_ifs <;> exact ⟨rfl, rfl⟩
  · cases dir <;> exact ⟨rfl, rfl⟩

/-- The part as PSC finds it at a crossing that no running lead meets. -/
def atCrossing (l : Lines) (s : State) : State :=
  banksCrossing true (updateWork l s).enc.state (beforeCrossing (updateWork l s) s)

theorem handOn_crossing {s : State} {l : Lines} {dir : Dir} (h : countsOnce s l dir) (hx : crossesIndex s l)
    (hr : noRunningLead s) :
    let e := (updateWork l s).enc
    handOn (updateWork l s) s = passCrossing dir e.lastDeviation e.lastOutcome e.state (atCrossing l s) := by
  have crossing := (checkCrossing_hands dir (countedWork s l dir)).1
  rw [← updateWork_crossing h hx] at crossing
  rw [handOn_eq, crossing, (noRunningLead_iff s).mp hr]
  rfl

theorem atCrossing_keeps (l : Lines) {s : State} (hr : noRunningLead s) :
    let b := atCrossing l s
    b = { s with
      enc := (updateWork l s).enc, wbk := b.wbk, gte := b.gte, lnk := { s.lnk with notices := b.lnk.notices } } ∧
    b.wbk.workpiece = s.wbk.workpiece ∧ (∀ n, (b.gte.gates.get n).status = (s.gte.gates.get n).status) ∧
    noticeSlot b.lnk.notices .passStart = noticeSlot s.lnk.notices .passStart := by
  have before := beforeCrossing_shape hr (updateWork l s)
  have status := beforeCrossing_status l s hr
  have slot := beforeCrossing_slot_of_update l s (k := .passStart) (by simp) (by simp) (by simp)
  unfold atCrossing
  generalize beforeCrossing (updateWork l s) s = m at before status slot
  have wbk : m.wbk = s.wbk := by rw [before]
  obtain ⟨-, -, exchanges⟩ | ⟨-, stays⟩ := banksCrossing_cases (updateWork l s).enc.state m
  · rw [exchanges]
    obtain ⟨shape, -, -, -, gates, -⟩ := gatesExchange_rule (m.setWbk (exchangedBanks m.wbk m.enc.settings.cpr))
    refine ⟨?_, ?_, fun n => ?_, ?_⟩
    · unfold exchange
      dsimp only
      rw [shape, before]
      rfl
    · rw [← wbk]
      simp [exchange, exchangedBanks]
    · rw [← status n, exchange, raise_frame _ _ |>.2.2.2.2.2.2.2.2.1]
      exact (gates n).1
    · rw [exchange_slot, if_neg (by simp), slot]
  · rw [stays]
    exact ⟨by rw [before], by rw [wbk], status, slot⟩

/-! ### A pass starts (R65) -/

theorem startPass_psc (l : Lead) (snap : Nat) (s : State) :
    (startPass l snap s).psc = { s.psc with
      lead := some
        { phase := .scanning
          ctx := { l.ctx with uStart := encU s.enc, highWater := 0, turn := 0, largestSnap := snap } }
      stall := some (s.now + l.ctx.settings.stallMs * 100000) } := by
  simp [startPass, restartStall, msTicks]

theorem startPass_gates (l : Lead) (snap : Nat) (s : State) :
    (startPass l snap s).gte.mode = .run ∧
    (∀ n, ((startPass l snap s).gte.gates.get n).status = (s.gte.gates.get n).status) ∧
    ∀ w, s.wbk.workpiece = some w → workpieceOk w →
      freshlyEvaluated w.blades (bladePhaseAt w s.enc.settings.cpr (encU s.enc)) (startPass l snap s) := by
  let m := restartStall (s.setPsc { s.psc with
    lead := some { phase := .scanning, ctx := { l.ctx with
      uStart := encU s.enc, highWater := 0, turn := 0, largestSnap := snap } } })
  exact ⟨enterRun_mode m, enterRun_status m, fun w hw hok => enterRun_fresh (s := m) hw hok⟩

/-- Settles O39. -/
theorem armedPassStartsAtCrossing : Obligations.ArmedPassStartsAtCrossing := by
  intro s l dir lead h hx hl harmed
  have answered : exec (.acceptedUpdate l) s = .next (handOn (updateWork l s) s) := exec_acceptedUpdate_of_accepts h.1
  have hr : noRunningLead s := fun l' hl' => by
    rw [hl, Option.some.injEq] at hl'
    exact hl' ▸ harmed
  have handed := handOn_crossing h hx hr
  obtain ⟨shape, workpiece, status, slot⟩ := atCrossing_keeps l hr
  have settings : (updateWork l s).enc.settings = s.enc.settings := (updateWork_sound l s).1
  have psc : (atCrossing l s).psc = s.psc := by rw [shape]
  have enc : (atCrossing l s).enc = (updateWork l s).enc := by rw [shape]
  have now : (atCrossing l s).now = s.now := by rw [shape]
  refine ⟨_, answered, ?_⟩
  by_cases starts : dir = .forward ∧ (updateWork l s).enc.state = .homed
  · have started : handOn (updateWork l s) s = startPass lead
        (if (updateWork l s).enc.lastOutcome = .snap then (updateWork l s).enc.lastDeviation.natAbs else 0)
        (atCrossing l s) := by
      rw [handed]
      unfold passCrossing
      rw [psc, hl]
      dsimp only
      rw [harmed]
      exact if_pos starts
    rw [started]
    obtain ⟨-, enc', -, hold', prb', pnt', stack', cal', -⟩ := startPass_frame lead
      (if (updateWork l s).enc.lastOutcome = .snap then (updateWork l s).enc.lastDeviation.natAbs else 0) (atCrossing l s)
    obtain ⟨mode, status', fresh⟩ := startPass_gates lead
      (if (updateWork l s).enc.lastOutcome = .snap then (updateWork l s).enc.lastDeviation.natAbs else 0) (atCrossing l s)
    rw [enc', startPass_psc, startPass_slot, if_pos rfl, hold', prb', pnt', stack', cal', enc, psc, now, slot]
    refine ⟨rfl, by rw [shape], by rw [shape], by rw [shape], by rw [shape], by rw [shape],
      fun _ _ => ⟨rfl, rfl, mode, fun n => (status' n).trans (status n), fun w hw hok => ?_, rfl⟩,
      fun h => absurd starts h⟩
    have evaluated := fresh w (workpiece.trans hw) hok
    rw [enc, settings] at evaluated
    exact evaluated
  · have stays : handOn (updateWork l s) s = atCrossing l s := by
      rw [handed]
      unfold passCrossing
      rw [psc, hl]
      dsimp only
      rw [harmed]
      exact if_neg starts
    rw [stays, shape]
    exact ⟨rfl, rfl, rfl, rfl, rfl, rfl, fun hdir hst => absurd ⟨hdir, hst⟩ starts, fun _ => rfl⟩

/-! ### The active bank (R55, R56, R168) -/

/-- Only a reset, a WKLD and an accepted update change the active bank. -/
theorem Work.changesActive {c : Instr} {s t : State} (hw : Work c s t) (h : t.wbk.active ≠ s.wbk.active) :
    (c = .powerOnReset ∨ c = .pinReset ∨ c = .requestReset ∨ ∃ p, c = .wkld p) ∨ ∃ l, c = .acceptedUpdate l := by
  cases hw
  case reset causes hc =>
    obtain ⟨hc, -⟩ | ⟨hc, -⟩ | ⟨hc, -⟩ := hc
    · exact .inl (.inl hc)
    · exact .inl (.inr (.inl hc))
    · exact .inl (.inr (.inr (.inl hc)))
  case workpiece p _ _ _ => exact .inl (.inr (.inr (.inr ⟨p, rfl⟩)))
  case update l _ => exact .inr ⟨l, rfl⟩
  all_goals exact absurd (by simp) h

theorem exec_changesActive {c : Instr} {s t : State} (h : exec c s = .next t) (hne : t.wbk.active ≠ s.wbk.active) :
    (c = .powerOnReset ∨ c = .pinReset ∨ c = .requestReset ∨ ∃ p, c = .wkld p) ∨
      ∃ l, c = .acceptedUpdate l ∧ t = handOn (updateWork l s) s := by
  have changes : (c = .powerOnReset ∨ c = .pinReset ∨ c = .requestReset ∨ ∃ p, c = .wkld p) ∨
      ∃ l, c = .acceptedUpdate l := by
    obtain hw | ⟨k, body, u, hw, rfl⟩ := work_of_exec h
    · exact hw.changesActive hne
    · exact hw.changesActive hne
  refine changes.imp_right fun ⟨l, hl⟩ => ⟨l, hl, ?_⟩
  subst hl
  by_cases hacc : acceptsUpdate s l
  · rw [exec_acceptedUpdate_of_accepts hacc, Host.Outcome.next.injEq] at h
    exact h.symm
  · rw [exec_acceptedUpdate, if_neg (mt (acceptsUpdate_iff s l).mp hacc), Host.Outcome.next.injEq] at h
    exact absurd (by rw [h]) hne

/-- The banks after an exchange. -/
theorem exchange_wbk (s : State) : (exchange s).wbk = exchangedBanks s.wbk s.enc.settings.cpr := by simp [exchange]

/-- A crossing that leaves ENC HOMED within the bounds raises nothing and reports nothing of HOMED. -/
theorem updateWork_quiet {s : State} {l : Lines} {dir : Dir} (h : countsOnce s l dir) (hx : crossesIndex s l)
    (hin : ¬ overrunsBound s dir) (hst : (updateWork l s).enc.state = .homed) :
    (updateWork l s).notices = [] ∧ (updateWork l s).leftHomed = none ∧
      (s.enc.state = .homed → (updateWork l s).enc.lastOutcome = .snap) := by
  by_cases hs : s.enc.state = .homed
  · by_cases hnear : (deviationOf (countedU s dir) s.enc.settings.cpr).natAbs ≤ s.enc.settings.tolerance
    · by_cases hover : 0 ≤ deviationOf (countedU s dir) s.enc.settings.cpr ∨ countRev dir s.enc < revMax
      · rw [updateWork_snaps h hx hin hs hnear hover]
        exact ⟨rfl, rfl, fun _ => rfl⟩
      · have within := mt (overruns_iff h.2.1 dir).mp hin
        simp only [overruns, Bool.or_eq_true, decide_eq_true_eq, not_or] at within
        rw [updateWork_snapOverruns h hx hin hs hnear (by omega) (by omega)] at hst
        cases hst
    · rw [updateWork_slips h hx hin hs (not_le.mp hnear)] at hst
      cases hst
  · obtain hdir | hdir : dir = .forward ∨ dir = .reverse := by cases dir <;> simp
    · rw [updateWork_homes h hx hdir hin hs]
      exact ⟨rfl, rfl, fun homed => absurd homed hs⟩
    · rw [updateWork_records h hx hdir hin hs] at hst
      exact absurd hst hs

/-- What an exchange makes of GTE, which has taken the position already. -/
theorem exchange_gates (m : State) :
    let t := exchange m
    t.gte.mode = m.gte.mode ∧ t.gte.conflicts = m.gte.conflicts ∧ qualRule m.now m.gte.gates t.gte.gates ∧
      (∀ n, (t.gte.gates.get n).sense = (m.gte.gates.get n).sense) ∧ (m.gte.mode = .safe → entersSafe m t) ∧
      ∀ w, m.gte.mode = .run → m.wbk.workpiece = some w → workpieceOk w →
        freshlyEvaluated w.blades (bladePhaseAt w m.enc.settings.cpr (encU m.enc)) t := by
  obtain ⟨-, mode, conflicts, qual, gates, safe⟩ :=
    gatesExchange_rule (m.setWbk (exchangedBanks m.wbk m.enc.settings.cpr))
  refine ⟨mode, conflicts, qual, fun n => (gates n).2, fun hm => ?_, fun w hr hw hok => ?_⟩
  · exact entersSafe_congr (safe hm) rfl rfl rfl (by simp [exchange]) (by simp [exchange])
  · have workpiece : (m.setWbk (exchangedBanks m.wbk m.enc.settings.cpr)).wbk.workpiece = some w := by
      simpa [exchangedBanks] using hw
    exact gatesExchange_fresh (s := m.setWbk (exchangedBanks m.wbk m.enc.settings.cpr)) hr workpiece hok

/-- What an update that exchanges the banks makes of them. -/
theorem updateExchanges {l : Lines} {s : State} (hne : (handOn (updateWork l s) s).wbk.active ≠ s.wbk.active) :
    let t := handOn (updateWork l s) s
    s.wbk.stagedState = .pending ∧ t.enc.state = .homed ∧ noRunningLead s ∧
      t.wbk = exchangedBanks s.wbk s.enc.settings.cpr ∧ t.enc.settings = s.enc.settings ∧
      ∃ d, noticeSlot t.lnk.notices .swapDone = some (raisedSlot (noticeSlot s.lnk.notices .swapDone) d) ∧
        noticeKind d = .swapDone := by
  obtain ⟨x, crossing, homed, eligible, pending, exchanges⟩ := handOn_exchanges (fun e => hne (congrArg Wbk.active e))
  obtain ⟨settings, -, states⟩ := updateWork_sound l s
  have enc : (handOn (updateWork l s) s).enc = (updateWork l s).enc := (handOn_frame _ _).2.1
  have slot := beforeCrossing_slot_of_update l s (k := .swapDone) (by simp) (by simp) (by simp)
  have before := beforeCrossing_shape ((noRunningLead_iff s).mpr eligible) (updateWork l s)
  dsimp only
  rw [enc]
  refine ⟨pending, states x crossing ▸ homed, (noRunningLead_iff s).mpr eligible, ?_, settings, ?_⟩
  · rw [exchanges, passCrossing_wbk, exchange_wbk, before]
    show exchangedBanks s.wbk (updateWork l s).enc.settings.cpr = _
    rw [settings]
  · rw [exchanges, passCrossing_slot _ _ _ _ _ (by simp), exchange_slot, if_pos rfl, slot]
    exact ⟨_, rfl, rfl⟩

/-- With no running lead a crossing starts the ARMED pass or hands PSC nothing. -/
theorem passCrossing_cases {s : State} (hr : noRunningLead s) (dir : Dir) (delta : Int) (outcome : IndexOutcome)
    (st : EncState) :
    passCrossing dir delta outcome st s = s ∨
      ∃ lead snap, dir = .forward ∧ s.psc.lead = some lead ∧ passCrossing dir delta outcome st s = startPass lead snap s := by
  unfold passCrossing
  cases hl : s.psc.lead with
  | none => exact .inl rfl
  | some lead =>
    dsimp only
    rw [hr lead hl]
    dsimp only
    by_cases starts : dir = .forward ∧ st = .homed
    · rw [if_pos starts]
      exact .inr ⟨lead, _, starts.1, rfl, rfl⟩
    · rw [if_neg starts]
      exact .inl rfl

/-- Settles O34. -/
theorem activeBankChangesOnlyAtExchange : Obligations.ActiveBankChangesOnlyAtExchange := by
  refine ⟨fun c s t h hne => ?changes, fun s l dir w h hx hw hpend hr => ?crossing⟩
  case changes =>
    refine (exec_changesActive h hne).imp_right fun ⟨l, hc, ht⟩ => ?_
    subst ht
    obtain ⟨pending, homed, idle, banks, settings, raised⟩ := updateExchanges hne
    refine ⟨⟨l, hc⟩, pending, homed, idle, ?_, ?_, ?_, ?_, fun w hw => ?_, ?_, ?_, raised⟩
    · rw [banks]
      rfl
    · rw [banks]
      rfl
    · rw [banks]
      rfl
    · rw [banks]
      rfl
    · rw [banks, settings]
      simp [exchangedBanks, hw]
    · rw [banks]
      rfl
    · rw [banks]
      rfl
  case crossing =>
    intro warnings fine
    have answered : exec (.acceptedUpdate l) s = .next (handOn (updateWork l s) s) := exec_acceptedUpdate_of_accepts h.1
    have enc : (handOn (updateWork l s) s).enc = (updateWork l s).enc := (handOn_frame _ _).2.1
    have settings : (updateWork l s).enc.settings = s.enc.settings := (updateWork_sound l s).1
    have handed := handOn_crossing h hx hr
    have before := beforeCrossing_shape hr (updateWork l s)
    have status := beforeCrossing_status l s hr
    have slot := beforeCrossing_slot_of_update l s (k := .swapDone) (by simp) (by simp) (by simp)
    refine ⟨_, answered, fun hst => ?_, fun hst => ?_⟩
    · obtain kept | ⟨-, homed, -⟩ := acceptUpdate_wbk l s
      · exact kept
      · exact absurd homed hst
    rw [enc] at hst
    have exchanged : atCrossing l s = exchange (beforeCrossing (updateWork l s) s) := by
      have wbk : (beforeCrossing (updateWork l s) s).wbk = s.wbk := by rw [before]
      obtain ⟨-, -, exchanges⟩ | ⟨stays, -⟩ := banksCrossing_cases (updateWork l s).enc.state (beforeCrossing (updateWork l s) s)
      · exact exchanges
      · exact absurd ⟨hst, wbk ▸ hpend⟩ stays
    have banks : exchangedBanks s.wbk s.enc.settings.cpr =
        { workpiece := some w, activeState := .active, active := { s.wbk.staged with warnings := warnings }
          stagedState := .editing, staged := { s.wbk.active with warnings := [] } } := by
      simp [exchangedBanks, hw, warnings]
    have follows : standsAside s dir → ¬ overrunsBound s dir →
        gatesFollow (updateWork l s).enc s (beforeCrossing (updateWork l s) s) := fun ha hin => by
      obtain ⟨hn, hl, -⟩ := updateWork_quiet h hx hin hst
      rw [beforeCrossing, hn, hl]
      exact handPosition_follows _ hr settings fun w u hw => bladePhaseAt_blade_lt hw _ u
    rw [exchanged] at handed
    obtain ⟨m, hm⟩ : ∃ m, m = beforeCrossing (updateWork l s) s := ⟨_, rfl⟩
    rw [← hm] at handed before status slot follows
    have mwbk : m.wbk = s.wbk := by rw [before]
    have menc : m.enc = (updateWork l s).enc := by rw [before]
    have mnow : m.now = s.now := by rw [before]
    have mpsc : m.psc = s.psc := by rw [before]
    have wbk : (exchange m).wbk = exchangedBanks s.wbk s.enc.settings.cpr := by rw [exchange_wbk, mwbk, menc, settings]
    obtain ⟨mode, conflicts, qual, sense, safe, fresh⟩ := exchange_gates m
    have exchangeStatus : ∀ n, ((exchange m).gte.gates.get n).status = (s.gte.gates.get n).status := fun n =>
      ((gatesExchange_rule (m.setWbk (exchangedBanks m.wbk m.enc.settings.cpr))).2.2.2.2.1 n).1.trans (status n)
    have cases := passCrossing_cases (s := exchange m) (fun l hl => hr l (by simpa [mpsc] using hl)) dir
      (updateWork l s).enc.lastDeviation (updateWork l s).enc.lastOutcome (updateWork l s).enc.state
    rw [enc]
    refine ⟨?_, ?_, fun n => ?_, fun hsafe => ?_, fun hrun hok => ?_, fun ha => ?_⟩
    · rw [handed, passCrossing_wbk, wbk, banks]
    · rw [handed, passCrossing_slot _ _ _ _ _ (by simp), exchange_slot, if_pos rfl, slot, mwbk, menc, settings, banks]
      have count : stepFineCount warnings = fine := List.countP_eq_length_filter.symm
      rw [edgeCloseCount, count]
    · rw [handed]
      obtain stays | ⟨lead, snap, -, -, starts⟩ := cases
      · rw [stays, exchangeStatus]
      · rw [starts, (startPass_gates lead snap _).2.1, exchangeStatus]
    · rw [handed] at hsafe ⊢
      obtain stays | ⟨lead, snap, -, -, starts⟩ := cases
      · rw [stays] at hsafe ⊢
        exact (safe (mode.symm.trans hsafe)).1.2.2.1
      · rw [starts, (startPass_gates lead snap _).1] at hsafe
        cases hsafe
    · rw [handed] at hrun ⊢
      obtain stays | ⟨lead, snap, -, -, starts⟩ := cases
      · rw [stays] at hrun ⊢
        have evaluated := fresh w (mode.symm.trans hrun) (by rw [mwbk, hw]) hok
        rw [menc, settings] at evaluated
        exact evaluated
      · rw [starts]
        have evaluated := (startPass_gates lead snap (exchange m)).2.2 w (by rw [wbk, banks]) hok
        rw [(exchange_frame m).2.1, menc, settings] at evaluated
        exact evaluated
    · have stays : handOn (updateWork l s) s = exchange m := by
        rw [handed]
        obtain stays | ⟨lead, snap, hdir, hl, -⟩ := cases
        · exact stays
        · obtain ha | ha := ha
          · simp [mpsc, ha] at hl
          · rw [ha] at hdir
            cases hdir
      have aside : standsAside s dir := ha.imp_right fun hdir => ⟨hdir, hr⟩
      rw [stays]
      refine ⟨?_, fun hin => ⟨m, follows aside hin, fun k hk => ?_, mode, conflicts, mnow ▸ qual, sense, safe⟩⟩
      · unfold exchange
        dsimp only
        rw [(gatesExchange_rule (m.setWbk (exchangedBanks m.wbk m.enc.settings.cpr))).1, before]
        rfl
      · rw [exchange_slot, if_neg hk]

end Sys2Proof.Machine
end

