-- ==== Sys2Proof/Proofs/Advances.lean ====
section
/-! PROOFS. Proofs/Advances.lean: the advance of a running lead, position by position (R66 to R72, R85, R98). -/

namespace Sys2Proof.Machine

open Sys2Proof

/-! ### One trigger at most (R97, R98) -/

/-- From `s` to `t` no tag is issued and the last trigger stands, or one tag is issued on a free port, which is then no longer
free. -/
def issuesOnce (s t : State) : Prop :=
  t.now = s.now ∧ t.prb.tmin = s.prb.tmin ∧
    ((t.prb.nextTag = s.prb.nextTag ∧ t.prb.lastTrigger = s.prb.lastTrigger) ∨
      (t.prb.nextTag = s.prb.nextTag + 1 ∧ tminPassed s.prb s.now = true ∧ tminPassed t.prb t.now = false))

theorem issuesOnce_of {s t : State} (hnow : t.now = s.now) (htmin : t.prb.tmin = s.prb.tmin)
    (htag : t.prb.nextTag = s.prb.nextTag) (hlast : t.prb.lastTrigger = s.prb.lastTrigger) : issuesOnce s t :=
  ⟨hnow, htmin, .inl ⟨htag, hlast⟩⟩

theorem issuesOnce_of_prb {s t : State} (hnow : t.now = s.now) (hprb : t.prb = s.prb) : issuesOnce s t :=
  issuesOnce_of hnow (by rw [hprb]) (by rw [hprb]) (by rw [hprb])

theorem tminPassed_congr {p p' : Prb} (htmin : p'.tmin = p.tmin) (hlast : p'.lastTrigger = p.lastTrigger) (now : Nat) :
    tminPassed p' now = tminPassed p now := by
  unfold tminPassed
  rw [htmin, hlast]

theorem issuesOnce.trans {s t u : State} (h : issuesOnce s t) (h' : issuesOnce t u) : issuesOnce s u := by
  obtain ⟨now, tmin, h⟩ := h
  obtain ⟨now', tmin', h'⟩ := h'
  refine ⟨now'.trans now, tmin'.trans tmin, ?_⟩
  obtain ⟨tag, last⟩ | ⟨tag, free, busy⟩ := h
  · obtain ⟨tag', last'⟩ | ⟨tag', free', busy'⟩ := h'
    · exact .inl ⟨tag'.trans tag, last'.trans last⟩
    · rw [tminPassed_congr tmin last, now] at free'
      exact .inr ⟨tag ▸ tag', free', busy'⟩
  · obtain ⟨tag', last'⟩ | ⟨tag', free', busy'⟩ := h'
    · refine .inr ⟨tag'.trans tag, free, ?_⟩
      rw [tminPassed_congr tmin' last', now']
      exact busy
    · rw [busy] at free'
      cases free'

theorem not_tminPassed {p : Prb} {now start : Nat} (hlast : p.lastTrigger = some start) (hstart : now ≤ start)
    (htmin : 2 ≤ p.tmin) : tminPassed p now = false := by
  unfold tminPassed usTicks
  rw [hlast]
  exact decide_eq_false (by omega)

theorem tminPassed_of_free {s : State} (h : probeFree s = true) : tminPassed s.prb s.now = true := by
  unfold probeFree at h
  exact (Bool.and_eq_true _ _ ▸ h).1

theorem issuesOnce_taken {s t : State} {r : TriggerRequest} (hfree : probeFree s = true) (htmin : 2 ≤ s.prb.tmin)
    (hnow : t.now = s.now) (hprb : t.prb = takeTrigger r s.now s.prb) : issuesOnce s t := by
  obtain ⟨tag, -, tmin, -, -, start, late, last, -⟩ := takeTrigger_rule r s.now s.prb
  rw [← hprb] at tag tmin last
  refine ⟨hnow, tmin, .inr ⟨tag, tminPassed_of_free hfree, not_tminPassed last (hnow ▸ late) (tmin ▸ htmin)⟩⟩

theorem issuesOnce_lost {s t : State} (hfree : probeFree s = true) (htmin : 2 ≤ s.prb.tmin) (hnow : t.now = s.now)
    (hprb : t.prb = lostPrb s.now s.prb) : issuesOnce s t := by
  refine ⟨hnow, by rw [hprb]; rfl, .inr ⟨by rw [hprb]; rfl, tminPassed_of_free hfree, ?_⟩⟩
  exact not_tminPassed (start := s.now) (by rw [hprb]; rfl) (hnow ▸ le_refl _) (by rw [hprb]; exact htmin)

theorem issuesOnce_crossMain {s : State} {l l' : Lead} (u : Int) (o : Bool) (pt : CrossedPoint)
    (hl : s.psc.lead = some l') (hset : l'.ctx.settings = l.ctx.settings) (htmin : 2 ≤ s.prb.tmin) :
    issuesOnce s (crossMain l u o s pt) := by
  have crossed := crossMain_crossed hl hset u o pt
  generalize crossMain l u o s pt = t at crossed
  cases crossed with
  | blanked => exact issuesOnce_of_prb (by simp) (by simp)
  | stands => exact issuesOnce_of_prb (by simp) (by simp)
  | pushed => exact issuesOnce_of_prb (by simp) (by simp)
  | fired hr ho hfree hready => exact issuesOnce_taken hfree htmin (by simp) (by simp; rfl)
  | lost hr ho hfault hfree => exact issuesOnce_lost hfree htmin (by simp) (by simp)

theorem issuesOnce_crossRetry {s : State} {l l' : Lead} (u : Int) (pt : CrossedPoint)
    (hl : s.psc.lead = some l') (hset : l'.ctx.settings = l.ctx.settings) (htmin : 2 ≤ s.prb.tmin) :
    issuesOnce s (crossRetry l u s pt) := by
  have crossed := crossRetry_crossed hl hset u pt
  generalize crossRetry l u s pt = t at crossed
  cases crossed with
  | passed => exact issuesOnce_of_prb rfl rfl
  | fired hm hr ho hfree hready => exact issuesOnce_taken hfree htmin (by simp) (by simp; rfl)
  | lost hm hr ho hfault hfree => exact issuesOnce_lost hfree htmin (by simp) (by simp)

theorem issuesOnce.tmin {s t : State} (h : issuesOnce s t) (htmin : 2 ≤ s.prb.tmin) : 2 ≤ t.prb.tmin := h.2.1 ▸ htmin

theorem issuesOnce_crossPosition {s : State} {l : Lead} (hl : s.psc.lead = some l) (hrun : leadRunning l = true) (u : Int)
    (prog : Nat) (htmin : 2 ≤ s.prb.tmin) : issuesOnce s (crossPosition l u prog s) :=
  crossPosition_keeps (P := issuesOnce s) hl hrun
    (fun u o pt hl' hset _ h => h.trans (issuesOnce_crossMain u o pt hl' hset (h.tmin htmin)))
    (fun u pt hl' hset _ h => h.trans (issuesOnce_crossRetry u pt hl' hset (h.tmin htmin)))
    (issuesOnce_of_prb rfl rfl) u prog

theorem issuesOnce_endLead (st : EndStatus) (s : State) : issuesOnce s (endLead st s) := by
  cases hl : s.psc.lead with
  | none =>
    rw [endLead_none hl]
    exact issuesOnce_of_prb rfl rfl
  | some l =>
    cases ha : abandons st with
    | false =>
      obtain ⟨summarised, drains⟩ := endLead_kept ha hl
      by_cases h : noTags l.ctx = true ∧ s.psc.drain = []
      · rw [summarised h]
        exact issuesOnce_of_prb rfl rfl
      · rw [drains h]
        exact issuesOnce_of_prb rfl rfl
    | true =>
      obtain ⟨waiting, prb⟩ := abandon_prb (fun e => e.passId == l.ctx.settings.passId) (recordEnd st s)
      have ended : (endLead st s).prb = (abandon (fun e => e.passId == l.ctx.settings.passId) (recordEnd st s)).prb := by
        simp [endLead, hl, ha, abandonLead]
      rw [prb] at ended
      exact issuesOnce_of (by simp) (by rw [ended]; simp) (by rw [ended]; simp) (by rw [ended]; simp)

theorem issuesOnce_endRunningLead (st : EndStatus) (s : State) : issuesOnce s (endRunningLead st s) := by
  unfold endRunningLead
  split
  · exact issuesOnce_of_prb rfl rfl
  · split_ifs
    · exact issuesOnce_endLead st s
    · exact issuesOnce_of_prb rfl rfl

theorem issuesOnce_turnBoundary (s : State) : issuesOnce s (turnBoundary s) := by
  unfold turnBoundary
  split
  · exact issuesOnce_of_prb rfl rfl
  · dsimp only
    split_ifs
    · exact issuesOnce_endLead _ s
    · exact issuesOnce_of_prb (by simp) (by simp)
    · exact issuesOnce_of_prb rfl rfl

theorem issuesOnce_advanceOne {s : State} (htmin : 2 ≤ s.prb.tmin) : issuesOnce s (advanceOne s) := by
  unfold advanceOne
  split
  · exact issuesOnce_of_prb rfl rfl
  · next l hl =>
    split_ifs with hrun
    · have crossed := issuesOnce_crossPosition hl hrun (l.ctx.uStart + (l.ctx.highWater + 1 : Nat)) (l.ctx.highWater + 1) htmin
      exact (crossed.trans (issuesOnce_of_prb (by simp) (by simp))).trans (issuesOnce_turnBoundary _)
    · exact issuesOnce_of_prb rfl rfl

theorem issuesOnce_advancePositions (n : Nat) {s : State} (htmin : 2 ≤ s.prb.tmin) :
    issuesOnce s (advancePositions n s) := by
  induction n generalizing s with
  | zero => exact issuesOnce_of_prb rfl rfl
  | succ n ih =>
    have first := issuesOnce_advanceOne htmin
    exact first.trans (ih (first.tmin htmin))

theorem issuesOnce_handPosition (old : Int) {s : State} (htmin : 2 ≤ s.prb.tmin) : issuesOnce s (handPosition old s) := by
  unfold handPosition
  dsimp only
  split_ifs
  · exact issuesOnce_of_prb rfl rfl
  · have followed : issuesOnce s (gatesPosition (changeDir old (encU s.enc)) (encU s.enc) s) :=
      issuesOnce_of_prb (by simp) (by simp)
    refine followed.trans ?_
    unfold passPosition
    split
    · exact issuesOnce_of_prb rfl rfl
    · next l _ =>
      dsimp only
      split_ifs
      · have advanced := issuesOnce_advancePositions (encU s.enc - l.ctx.uStart - l.ctx.highWater).toNat
          (followed.tmin htmin)
        exact advanced.trans (issuesOnce_of_prb (restartStall_frame _).1 (restartStall_frame _).2.2.2.2.1)
      · exact issuesOnce_of_prb rfl rfl

theorem issuesOnce_handOn (w : EncWork) {s : State} (htmin : 2 ≤ s.prb.tmin) : issuesOnce s (handOn w s) := by
  have raised : issuesOnce s (w.notices.foldl (fun t n => raise n t) (s.setEnc w.enc)) :=
    issuesOnce_of_prb (by simp) (by simp)
  have left : ∀ m, issuesOnce m (handState w.leftHomed m) := fun m => by
    cases w.leftHomed with
    | none => exact issuesOnce_of_prb rfl rfl
    | some st => exact (issuesOnce_of_prb (by simp) (by simp)).trans (issuesOnce_endRunningLead st (enterSafe m))
  have state := raised.trans (left _)
  have before : issuesOnce s (beforeCrossing w s) := state.trans (issuesOnce_handPosition _ (state.tmin htmin))
  rw [handOn_eq]
  refine before.trans ?_
  cases w.crossing with
  | none => exact issuesOnce_of_prb rfl rfl
  | some x => exact issuesOnce_of_prb (by simp) (by simp [handCrossing])

/-! ### What an advance leaves of the lead -/

/-- The lead runs, or it has ended and its stall timer stands still. -/
def runsOrEnded (s : State) : Prop :=
  (s.psc.lead = none → s.psc.stall = none) ∧ ∀ l, s.psc.lead = some l → l.phase ≠ .armed

theorem runsOrEnded_of_lead {s : State} {l : Lead} (hl : s.psc.lead = some l) (hp : l.phase ≠ .armed) : runsOrEnded s :=
  ⟨fun h => by simp [hl] at h, fun l' h => by rw [hl, Option.some.injEq] at h; exact h ▸ hp⟩

section Boundary

variable {s : State} {l : Lead} (hl : s.psc.lead = some l)

include hl

theorem turnBoundary_inside (h : l.ctx.highWater ≠ mainSpan s l.ctx + l.ctx.turn * s.enc.settings.cpr) :
    turnBoundary s = s := by
  unfold turnBoundary
  rw [hl]
  exact if_neg h

theorem turnBoundary_turns (h : l.ctx.highWater = mainSpan s l.ctx + l.ctx.turn * s.enc.settings.cpr)
    (hs : s.stack ≠ []) (ht : l.ctx.turn ≠ l.ctx.settings.retryTurns) :
    turnBoundary s = enterTurn (l.ctx.turn + 1) s := by
  unfold turnBoundary
  rw [hl]
  refine (if_pos h).trans (if_neg ?_)
  rw [List.isEmpty_iff]
  tauto

theorem turnBoundary_ends (h : l.ctx.highWater = mainSpan s l.ctx + l.ctx.turn * s.enc.settings.cpr)
    (hs : s.stack = [] ∨ l.ctx.turn = l.ctx.settings.retryTurns) : turnBoundary s = endLead .complete s := by
  unfold turnBoundary
  rw [hl]
  refine (if_pos h).trans (if_pos ?_)
  rw [List.isEmpty_iff]
  exact hs

theorem runsOrEnded_turnBoundary (hp : l.phase ≠ .armed) : runsOrEnded (turnBoundary s) := by
  by_cases h : l.ctx.highWater = mainSpan s l.ctx + l.ctx.turn * s.enc.settings.cpr
  · by_cases hs : s.stack = [] ∨ l.ctx.turn = l.ctx.settings.retryTurns
    · rw [turnBoundary_ends hl h hs]
      obtain ⟨summarised, drains⟩ := endLead_kept (st := .complete) rfl hl
      by_cases hd : noTags l.ctx = true ∧ s.psc.drain = []
      · rw [summarised hd]
        exact ⟨fun _ => rfl, fun l h => by cases h⟩
      · rw [drains hd]
        exact ⟨fun _ => rfl, fun l h => by cases h⟩
    · rw [not_or] at hs
      rw [turnBoundary_turns hl h hs.1 hs.2]
      exact runsOrEnded_of_lead (l := { phase := .retrying, ctx := { l.ctx with
          turn := l.ctx.turn + 1, turnsUsed := l.ctx.turn + 1 } })
        (by simp [enterTurn, hl]) (by simp)
  · rw [turnBoundary_inside hl h]
    exact runsOrEnded_of_lead hl hp

/-- The lead once its points at a position are crossed and its high-water has risen. -/
theorem advanceOne_eq (hp : l.phase ≠ .armed) :
    ∃ l', (crossPosition l (l.ctx.uStart + (l.ctx.highWater + 1 : Nat)) (l.ctx.highWater + 1) s).psc =
        { s.psc with lead := some l' } ∧
      l'.phase = l.phase ∧
      l'.ctx = { l.ctx with
        mainInFlight := l'.ctx.mainInFlight, retryInFlight := l'.ctx.retryInFlight, counters := l'.ctx.counters } ∧
      advanceOne s = turnBoundary
        { crossPosition l (l.ctx.uStart + (l.ctx.highWater + 1 : Nat)) (l.ctx.highWater + 1) s with
          psc := { s.psc with lead := some { l with ctx := { l'.ctx with highWater := l.ctx.highWater + 1 } } } } := by
  obtain ⟨l', psc, phase, ctx⟩ := crossPosition_countsAlone hl (l.ctx.uStart + (l.ctx.highWater + 1 : Nat)) (l.ctx.highWater + 1)
  have running : leadRunning l = true := by simpa [leadRunning] using hp
  refine ⟨l', psc, phase, ctx, ?_⟩
  unfold advanceOne
  rw [hl]
  dsimp only
  rw [if_pos running, modLead_of_lead (l := l') (by rw [psc])]
  refine congrArg turnBoundary ?_
  rw [psc, ← phase]
  rfl

theorem runsOrEnded_advanceOne (hp : l.phase ≠ .armed) : runsOrEnded (advanceOne s) := by
  obtain ⟨l', -, -, -, advanced⟩ := advanceOne_eq hl hp
  rw [advanced]
  exact runsOrEnded_turnBoundary rfl hp

end Boundary

theorem advanceOne_idle {s : State} (h : s.psc.lead = none) : advanceOne s = s := by
  unfold advanceOne
  rw [h]

theorem runsOrEnded_advancePositions (n : Nat) {s : State} (h : runsOrEnded s) : runsOrEnded (advancePositions n s) := by
  induction n generalizing s with
  | zero => exact h
  | succ n ih =>
    refine ih ?_
    cases hl : s.psc.lead with
    | none =>
      rw [advanceOne_idle hl]
      exact h
    | some l => exact runsOrEnded_advanceOne hl (h.2 l hl)

/-- Behind an advance the stall timer restarts, where a lead still runs (R71). -/
theorem restartStall_eq {s : State} (h : runsOrEnded s) :
    restartStall s = { s with
      psc := { s.psc with stall := s.psc.lead.map fun l => s.now + l.ctx.settings.stallMs * 100000 } } := by
  unfold restartStall
  split
  · next hl =>
    have still : (s.psc.lead.map fun l => s.now + l.ctx.settings.stallMs * 100000) = s.psc.stall := by
      rw [hl, h.1 hl]
      rfl
    rw [still]
  · next l hl => simp [hl, State.setPsc, msTicks]

theorem passPosition_of_running {s : State} {l : Lead} (hl : s.psc.lead = some l) (hp : l.phase ≠ .armed) (u : Int) :
    let n := (u - l.ctx.uStart - l.ctx.highWater).toNat
    passPosition u s = if n = 0 then s else restartStall (advancePositions n s) := by
  have running : leadRunning l = true := by simpa [leadRunning] using hp
  unfold passPosition
  rw [hl]
  dsimp only
  by_cases ahead : (l.ctx.highWater : Int) < u - l.ctx.uStart
  · rw [if_pos ⟨running, ahead⟩, if_neg (by omega)]
  · rw [if_neg (by tauto), if_pos (by omega)]

theorem passCrossing_of_running {s : State} (h : runsOrEnded s) (dir : Dir) (delta : Int) (st : EncState) :
    passCrossing dir delta .snap st s = { s with
      psc := { s.psc with
        lead := s.psc.lead.map fun l => { l with
          ctx := { l.ctx with largestSnap := max l.ctx.largestSnap delta.natAbs } } } } := by
  unfold passCrossing
  cases hl : s.psc.lead with
  | none =>
    show s = _
    rw [Option.map_none, ← hl]
  | some l =>
    have running := h.2 l hl
    dsimp only
    split
    · contradiction
    · simp [modLead, hl, State.setPsc]

theorem followed_psc (e : Enc) (s : State) : (followed e s).psc = s.psc ∧ (followed e s).now = s.now := by
  unfold followed
  split_ifs <;> simp

/-- A running lead takes the new position by its advance, and then the stall timer restarts. -/
theorem handPosition_advances {e : Enc} {s : State} {lead : Lead} (hl : s.psc.lead = some lead) (hp : lead.phase ≠ .armed)
    (hU : encU s.enc ≤ lead.ctx.uStart + lead.ctx.highWater) :
    let n := (encU e - lead.ctx.uStart - lead.ctx.highWater).toNat
    let s2 := if n = 0 then followed e s else advancePositions n (followed e s)
    let s3 := if n = 0 then followed e s else { s2 with
      psc := { s2.psc with stall := s2.psc.lead.map fun l => s.now + l.ctx.settings.stallMs * 100000 } }
    handPosition (encU s.enc) (s.setEnc e) = s3 ∧ runsOrEnded s3 := by
  intro n s2 s3
  obtain ⟨psc, now⟩ := followed_psc e s
  have lead : (followed e s).psc.lead = some lead := by rw [psc, hl]
  have start := runsOrEnded_of_lead lead hp
  rw [handPosition_eq]
  by_cases hn : n = 0
  · have still : passPosition (encU e) (followed e s) = followed e s := by
      rw [passPosition_of_running lead hp]
      exact if_pos hn
    have stands : s3 = followed e s := if_pos hn
    rw [stands, still, ite_self]
    exact ⟨rfl, start⟩
  · have moved : encU e ≠ encU s.enc := fun h => hn (by simp only [n]; omega)
    have advanced := runsOrEnded_advancePositions n start
    have restarted := restartStall_eq advanced
    have nows : (advancePositions n (followed e s)).now = s.now := by rw [(advancePositions_frame _ _).1, now]
    have stands : s3 = restartStall (advancePositions n (followed e s)) := by
      rw [restarted]
      simp only [s3, s2, if_neg hn, nows]
    rw [if_neg moved, passPosition_of_running lead hp, stands]
    refine ⟨if_neg hn, ?_⟩
    rw [restarted]
    refine ⟨fun hnone => ?_, advanced.2⟩
    have ended : (advancePositions n (followed e s)).psc.lead = none := hnone
    show Option.map _ (advancePositions n (followed e s)).psc.lead = none
    rw [ended]
    rfl

/-- A count that crosses nothing and keeps ENC HOMED finds the index where it should be. -/
theorem updateWork_stays {s : State} {l : Lines} {dir : Dir} (h : countsOnce s l dir) (hx : ¬ crossesIndex s l)
    (hin : ¬ overrunsBound s dir) (hs : s.enc.state = .homed) (hst : (updateWork l s).enc.state = .homed) :
    updateWork l s =
      { enc := (updateWork l s).enc, notices := [], crossing := none, leftHomed := none } := by
  by_cases hfar : s.enc.settings.cpr + s.enc.settings.tolerance < (countedU s dir - s.enc.uLastIndex).natAbs
  · rw [updateWork_missing h hx hin hs hfar] at hst
    cases hst
  · rw [updateWork_within h hx hin fun _ => not_lt.mp hfar]

theorem crossPosition_shape (l : Lead) (u : Int) (prog : Nat) (s : State) :
    let t := crossPosition l u prog s
    t = { s with psc := t.psc, prb := t.prb, stack := t.stack } := by
  obtain ⟨now, enc, wbk, hold, pnt, gte, cal, lnk, free, pending⟩ := crossPosition_frame l u prog s
  generalize crossPosition l u prog s = t at *
  cases t
  simp only at *
  subst_vars
  rfl

/-- Settles O26: one trigger by `issuesOnce_handOn`, the advance by the position that GTE has taken, and each position by
`advanceOne_eq`. -/
theorem oneTriggerPerAdvance : Obligations.OneTriggerPerAdvance := by
  refine ⟨fun s t l h hk => ?once, fun s l dir lead h hin hl hp hs hU => ?advance,
    fun n s => ⟨rfl, rfl, advanceOne_idle⟩, fun s l hl hp => ?position⟩
  case once =>
    obtain ⟨-, -, htmin, -⟩ := hk
    by_cases hacc : acceptsUpdate s l
    · obtain rfl : handOn (updateWork l s) s = t :=
        Host.Outcome.next.inj ((exec_acceptedUpdate_of_accepts hacc).symm.trans h)
      obtain ⟨-, -, ⟨tag, -⟩ | ⟨tag, -⟩⟩ := issuesOnce_handOn (updateWork l s) htmin
      · exact .inl tag
      · exact .inr tag
    · rw [exec_acceptedUpdate, if_neg (mt (acceptsUpdate_iff s l).mp hacc), Host.Outcome.next.injEq] at h
      exact .inl (by rw [h])
  case advance =>
    have answered : exec (.acceptedUpdate l) s = .next (handOn (updateWork l s) s) := exec_acceptedUpdate_of_accepts h.1
    have enc : (handOn (updateWork l s) s).enc = (updateWork l s).enc := (handOn_frame _ _).2.1
    have settings : (updateWork l s).enc.settings = s.enc.settings := (updateWork_sound l s).1
    refine ⟨_, answered, fun hst => ?_⟩
    rw [enc] at hst ⊢
    refine ⟨followed (updateWork l s).enc s, gatesFollow_followed settings, ?_⟩
    intro n s2 s3
    have positioned : handPosition (encU s.enc) (s.setEnc (updateWork l s).enc) = s3 ∧ runsOrEnded s3 :=
      handPosition_advances hl hp hU
    have eligible : leadEligible s.psc = false := by simp [leadEligible, hl, hp]
    refine ⟨fun hx => ?_, fun hx => ?_⟩
    · rw [updateWork_stays h hx hin hs hst, ← positioned.1]
      rfl
    · obtain ⟨quiet, stays, outcome⟩ := updateWork_quiet h hx hin hst
      have crossing := (checkCrossing_hands dir (countedWork s l dir)).1
      rw [← updateWork_crossing h hx, outcome hs] at crossing
      have handed : handOn (updateWork l s) s =
          passCrossing dir (updateWork l s).enc.lastDeviation .snap (updateWork l s).enc.state s3 := by
        rw [handOn_eq, crossing, eligible, beforeCrossing, quiet, stays, ← positioned.1]
        rfl
      rw [handed]
      exact passCrossing_of_running positioned.2 _ _ _
  case position =>
    intro cpr span turn prog u
    obtain ⟨l', psc, phase, ctx, advanced⟩ := advanceOne_eq hl hp
    obtain ⟨s', hs'⟩ : ∃ s', s' = crossPosition l (l.ctx.uStart + (l.ctx.highWater + 1 : Nat)) (l.ctx.highWater + 1) s :=
      ⟨_, rfl⟩
    have shape : s' = { s with psc := s'.psc, prb := s'.prb, stack := s'.stack } := hs' ▸ crossPosition_shape l _ _ s
    rw [← hs'] at psc advanced
    refine ⟨s', l', shape, fun hin => ?_, fun hout => ?_, psc, phase, ctx, ?_⟩
    · rw [hs']
      exact if_pos hin
    · rw [hs']
      exact if_neg (not_le.mpr hout)
    intro c
    have settings : l'.ctx.settings = l.ctx.settings := by rw [ctx]
    have turns : l'.ctx.turn = l.ctx.turn := by rw [ctx]
    have enc : s'.enc = s.enc := by rw [shape]
    have pnt : s'.pnt = s.pnt := by rw [shape]
    obtain ⟨m, hm⟩ : ∃ m : State, m = { s' with psc := { s.psc with lead := some { l with ctx := c } } } := ⟨_, rfl⟩
    have advanced : advanceOne s = turnBoundary m := by rw [hm]; exact advanced
    have lead : m.psc.lead = some { l with ctx := c } := by rw [hm]
    have boundary : mainSpan m c + c.turn * m.enc.settings.cpr = span + turn * cpr := by
      rw [hm]
      simp only [mainSpan, enc, c, settings, turns]
      rfl
    have stack : m.stack = s'.stack := by rw [hm]
    have last : c.turn = c.settings.retryTurns ↔ turn = l.ctx.settings.retryTurns := by
      simp only [c, settings, turns]
      rfl
    rw [advanced]
    refine ⟨fun hne => ?_, fun heq hstack hturn => ?_, fun heq hend => ?_⟩
    · rw [turnBoundary_inside lead (by rw [boundary]; exact hne), hm]
    · rw [turnBoundary_turns lead (by rw [boundary]; exact heq) (by rw [stack]; exact hstack) (mt last.mp hturn), hm]
      have next : c.turn + 1 = turn + 1 := congrArg (· + 1) turns
      simp only [enterTurn, State.setPsc, Option.map_some, next]
    · rw [turnBoundary_ends lead (by rw [boundary]; exact heq) (by rw [stack]; exact hend.imp_right last.mpr)]
      have ended := endLead_kept (st := .complete) rfl lead
      rw [hm] at ended ⊢
      rw [← pnt]
      exact ended

end Sys2Proof.Machine
end

