-- ==== Sys2Proof/Proofs/ReadingReceiver.lean ====
section
/-! PROOFS. Proofs/ReadingReceiver.lean: what the receiver of the Probe Port makes of a reading frame and of its gaps
(R112 to R114). -/

namespace Sys2Proof.Machine

open Sys2Proof

/-- A character received with its stop bit high. -/
def goodChar (b : Byte) : ProbeItem := .char { byte := b, stopHigh := true }

/-- A reading as the seven characters of a body give it (R113). -/
def readingOf (b1 b2 b3 b4 b5 b6 : Byte) : Reading where
  tag := (b1 >>> 4).setWidth 4
  saturated := b1.getLsbD 0
  distance := (b2.toNat * 256 + b3.toNat) * 256 + b4.toNat
  intensity := b5.toNat % 16 * 256 + b6.toNat

theorem readingOfBody_eq (b1 b2 b3 b4 b5 b6 b7 : Byte) :
    readingOfBody [b1, b2, b3, b4, b5, b6, b7] = readingOf b1 b2 b3 b4 b5 b6 := by
  have htag : BitVec.ofNat 4 (b1.toNat / 16) = (b1 >>> 4).setWidth 4 := by
    apply BitVec.eq_of_toNat_eq
    simp [Nat.shiftRight_eq_div_pow]
  have hlow : (b5.toNat * 256 + b6.toNat) % 4096 = b5.toNat % 16 * 256 + b6.toNat := by
    have := b6.isLt
    omega
  simp [readingOfBody, readingOf, fieldNat, fieldBytes, natOfBytes, htag, hlow, BitVec.getLsbD]

/-- A frame whose check character is the sum of its body is a reading; another is discarded (R112, R113). -/
theorem exec_readingFrame {s : State} (hrx : s.prb.rx = .hunting) (b1 b2 b3 b4 b5 b6 b7 : Byte) :
    exec (.reading ([0x7E#8, b1, b2, b3, b4, b5, b6, b7].map goodChar)) s =
      .next (if b7 = b1 + b2 + b3 + b4 + b5 + b6 then matchReading (readingOf b1 b2 b3 b4 b5 b6) s
        else discardFrame s) := by
  have hgap : ∀ t, discardAtGap t s = s := fun t => by simp [discardAtGap, gapPassed, hrx]
  have hs : s.setPrb { s.prb with rx := .hunting } = s := by
    obtain ⟨p, hp⟩ : ∃ p, s.prb = p := ⟨_, rfl⟩
    cases s
    cases hp
    simp_all [State.setPrb]
    rw [← hrx]
  show execReading _ s = _
  simp [execReading, hgap, goodChar, takeProbeItem, takeProbeChar, hrx, takeBody, bodyCheck, bodySum, readingOfBody_eq,
    discardFrame, State.setPrb]
  split <;> simp_all [State.setPrb]

/-- The end of a reading frame's gap is posted exactly when it is due. -/
theorem mem_dueEvents_gap (t : State) : .readingGapTimeout ∈ dueEvents t ↔ gapDue t = true := by
  have hrequest : .readingGapTimeout ∉ dispatchDue t := by
    unfold dispatchDue
    split
    · exact List.not_mem_nil
    · next f _ _ =>
      obtain ⟨-, r, hr, -⟩ | ⟨-, hu⟩ := requestOfFrame_cases f.kind f.payload
      · intro h
        simp only [eventIf] at h
        split at h
        · simp only [List.mem_singleton] at h
          rw [show (⟨f.kind, f.payload⟩ : Frame) = f from rfl, ← h] at hr
          cases hr
        · cases h
      · simp [eventIf, show requestOfFrame f = _ from hu]
  simp [dueEvents, eventIf, hrequest]

/-- The receiver in a frame: its gap has passed by `t` when nothing has begun for more than 4 µs (R112). -/
theorem gapPassed_inFrame {p : Prb} {body : List Byte} {lastEnd : Nat} {begun : Bool}
    (hrx : p.rx = .inFrame body lastEnd begun) (t : Nat) :
    gapPassed p t = true ↔ begun = false ∧ lastEnd + 400 < t := by
  unfold gapPassed
  rw [hrx]
  cases begun <;> simp [show probeGapTicks = 400 from rfl]

theorem discardAtGap_of_passed {s : State} {t : Nat} (h : gapPassed s.prb t = true) : discardAtGap t s = discardFrame s :=
  if_pos h

theorem discardAtGap_of_not {s : State} {t : Nat} (h : ¬ gapPassed s.prb t = true) : discardAtGap t s = s := if_neg h

/-- One item whose gap has not passed is taken as it comes. -/
theorem exec_readingItem {s : State} (i : ProbeItem)
    (h : ¬ gapPassed s.prb (s.now - charCount [i] * 100) = true) :
    exec (.reading [i]) s = .next (takeProbeItem s i) := by
  show execReading _ s = _
  simp only [execReading, readingBegan, show probeCharTicks = 100 from rfl, List.cons_ne_nil, if_false]
  rw [discardAtGap_of_not h]
  rfl

theorem exec_readingGapTimeout (s : State) : exec .readingGapTimeout s = .next (discardAtGap s.now s) := rfl

/-- After a frame is discarded the receiver hunts, and no gap can pass. -/
theorem discardAtGap_discardFrame (t : Nat) (s : State) : discardAtGap t (discardFrame s) = discardFrame s :=
  discardAtGap_of_not (by simp [gapPassed, discardFrame, State.setPrb])

/-- Settles O42: a whole frame by `exec_readingFrame`, an item inside a frame by the receiver's own branches, and the
tick by the one event of `dueEvents` that the gap posts. -/
theorem unmatchedReadingsCounted : Obligations.UnmatchedReadingsCounted := by
  refine ⟨fun s b1 b2 b3 b4 b5 b6 b7 hrx => ⟨fun hsum htag => ?orphan, fun hsum => ?badSum, ?start, ?idle⟩,
    fun s body lastEnd begun b hrx => ⟨fun hgap => ⟨?lowStop, fun hlen => ?character⟩, fun hgap => ⟨?begins, ?inGap⟩,
      fun hbegun hgap => ?gapEnds, fun items hne hbegun hgap => ?late, fun hp => ?tick⟩⟩
  case orphan =>
    refine (exec_readingFrame hrx b1 b2 b3 b4 b5 b6 b7).trans ?_
    rw [if_pos hsum]
    have hnone : tagIndex s.prb.queue (readingOf b1 b2 b3 b4 b5 b6).tag = none := by
      simpa [tagIndex, readingOf] using htag
    simp only [matchReading, hnone]
    rfl
  case badSum =>
    refine (exec_readingFrame hrx b1 b2 b3 b4 b5 b6 b7).trans ?_
    rw [if_neg hsum]
    simp only [discardFrame, State.setPrb, ← hrx]
    rfl
  case start =>
    rw [exec_readingItem _ (by simp [gapPassed, hrx])]
    simp only [takeProbeItem, beginProbeChar, hrx]
  case idle =>
    rw [exec_readingGapTimeout, discardAtGap_of_not (by simp [gapPassed, hrx])]
  case lowStop =>
    rw [exec_readingItem _ (by rw [gapPassed_inFrame hrx, show charCount [ProbeItem.char _] = 1 from rfl]; grind)]
    simp only [takeProbeItem, takeProbeChar, hrx]
    rfl
  case character =>
    rw [exec_readingItem _ (by rw [gapPassed_inFrame hrx, show charCount [ProbeItem.char _] = 1 from rfl]; grind)]
    have hbody : ¬ (body ++ [b]).length = 7 := by simp; omega
    simp only [takeProbeItem, takeProbeChar, hrx, hbody, if_false]
    rfl
  case begins =>
    rw [exec_readingItem _ (by rw [gapPassed_inFrame hrx, show charCount [ProbeItem.start] = 0 from rfl]; grind)]
    simp only [takeProbeItem, beginProbeChar, hrx]
    rfl
  case inGap =>
    rw [exec_readingGapTimeout, discardAtGap_of_not (by rw [gapPassed_inFrame hrx]; grind)]
  case gapEnds =>
    rw [exec_readingGapTimeout, discardAtGap_of_passed ((gapPassed_inFrame hrx _).2 ⟨hbegun, hgap⟩)]
    rfl
  case late =>
    have hpassed : gapPassed s.prb (readingBegan items s.now) = true := by
      rw [gapPassed_inFrame hrx, readingBegan, show probeCharTicks = 100 from rfl]
      exact ⟨hbegun, by omega⟩
    show execReading items s = execReading items (discardFrame s)
    simp only [execReading, hne, if_false, discardAtGap_of_passed hpassed, discardAtGap_discardFrame]
  case tick =>
    refine ⟨_, step_of_pending_nil hp, ?_⟩
    have hprb : (startCharacters (s.setNow (s.now + 1))).prb = s.prb := by
      obtain h | ⟨src, first, -, -, h⟩ := startCharacters_cases (s.setNow (s.now + 1))
      · rw [h]; rfl
      · rw [h]; simp
    have hnow : (startCharacters (s.setNow (s.now + 1))).now = s.now + 1 := by
      obtain h | ⟨src, first, -, -, h⟩ := startCharacters_cases (s.setNow (s.now + 1))
      · rw [h]; rfl
      · rw [h]; simp
    refine (mem_dueEvents_gap _).trans ?_
    rw [gapDue, gapPassed_inFrame (by rw [hprb]; exact hrx), hnow]
    exact and_congr_right fun _ => by omega

end Sys2Proof.Machine
end

