-- ==== Sys2Proof/Proofs/Timeouts.lean ====
section
/-! PROOFS. Proofs/Timeouts.lean: the timeouts of tags in flight, the probe fault, and PRBF (R117 to R125). -/

namespace Sys2Proof.Machine

open Sys2Proof

/-! ### What a resolution leaves alone -/

theorem reportedTo.kept {id : Nat} {f : PassCtx → PassCtx} {s t : State} (h : reportedTo id f s t) :
    t = { s with psc := t.psc, pnt := t.pnt } := h.1

/-- A resolved miss changes PSC, PNT and the stack alone. -/
theorem missResolved.kept {e : TagEntry} {cause : MissCause} {counts : Counters → Counters} {s t : State}
    (h : missResolved e cause counts s t) : t = { s with psc := t.psc, pnt := t.pnt, stack := t.stack } := by
  obtain ⟨stands, pushed, late⟩ := h
  by_cases hr : ∃ l, s.psc.lead = some l ∧ l.phase ≠ .armed ∧ l.ctx.settings.passId = e.passId
  · rcases Bool.eq_false_or_eq_true (s.stack.any (sameKey
      { blade := e.blade, window := e.window, j := e.j, overlap := e.overlap, cause := cause
        attempts := if e.origin ≠ .retry then 1 else min (e.attempts + 1) 255 })) with hk | hk
    · rw [(stands hr hk).kept]
    · rw [(pushed hr hk).kept]
  · rw [(late hr).kept]

/-! ### The times of the port -/

/-- From `s` to `t` Tmin and Tr stand. -/
def timesKept (s t : State) : Prop := t.prb.tmin = s.prb.tmin ∧ t.prb.tr = s.prb.tr

theorem timesKept_of_prb {s t : State} (h : t.prb = s.prb) : timesKept s t := ⟨by rw [h], by rw [h]⟩

theorem timesKept.trans {s t u : State} (h : timesKept s t) (h' : timesKept t u) : timesKept s u :=
  ⟨h'.1.trans h.1, h'.2.trans h.2⟩

theorem timesKept_abandon (which : TagEntry → Bool) (s : State) : timesKept s (abandon which s) := by
  obtain ⟨waiting, h⟩ := abandon_prb which s
  exact ⟨by rw [h], by rw [h]⟩

theorem timesKept_abandonLead (id : Nat) (s : State) : timesKept s (abandonLead id s) := by
  unfold abandonLead
  exact (timesKept_abandon (fun e => e.passId == id) s).trans (timesKept_of_prb (by simp))

theorem timesKept_endLead (st : EndStatus) (s : State) : timesKept s (endLead st s) := by
  unfold endLead
  split
  · exact timesKept_of_prb rfl
  · next l hl =>
    dsimp only
    refine timesKept.trans (t := if abandons st then abandonLead l.ctx.settings.passId (recordEnd st s) else recordEnd st s)
      ?_ (timesKept_of_prb (by simp))
    split
    · exact timesKept.trans (t := recordEnd st s) (timesKept_of_prb (by simp)) (timesKept_abandonLead _ _)
    · exact timesKept_of_prb (by simp)

theorem timesKept_enterProbeFault (tag : BitVec 4) (s : State) : timesKept s (enterProbeFault tag s) := by
  have faulted : timesKept s (abandon (fun _ => true) (s.setPrb { s.prb with state := .fault })) :=
    timesKept.trans (t := s.setPrb { s.prb with state := .fault }) ⟨rfl, rfl⟩ (timesKept_abandon _ _)
  exact (faulted.trans (timesKept_of_prb (by simp))).trans (timesKept_endLead .probeFault _)

theorem timesKept_timeoutHead (s : State) : timesKept s (timeoutHead s) := by
  unfold timeoutHead
  split
  · exact timesKept_of_prb rfl
  · next e rest hq =>
    split
    · refine timesKept.trans (t := resolveHeadMiss .timeout s) ?_ ?_
      · simp [resolveHeadMiss, hq, timesKept]
      · unfold countTimeout
        dsimp only
        split
        · exact timesKept.trans ⟨rfl, rfl⟩ (timesKept_enterProbeFault _ _)
        · exact ⟨rfl, rfl⟩
    · exact timesKept_of_prb rfl

theorem timesKept_timeoutHeads (n : Nat) (s : State) : timesKept s (timeoutHeads n s) := by
  induction n generalizing s with
  | zero => exact timesKept_of_prb rfl
  | succ n ih => exact (timesKept_timeoutHead s).trans (ih _)

/-- Below the eighth timeout the port's state and LNK stand (R120). -/
theorem timeoutHeads_below {q : List TagEntry} {s : State} (hq : s.prb.queue = q) (h : s.prb.timeouts + q.length < 8) :
    (timeoutHeads q.length s).prb.state = s.prb.state ∧ (timeoutHeads q.length s).lnk = s.lnk := by
  induction q generalizing s with
  | nil => exact ⟨rfl, rfl⟩
  | cons e rest ih =>
    by_cases hx : e.fireTime + s.prb.tr * 100 ≤ s.now
    · rw [List.length_cons] at h
      obtain ⟨hm, hp⟩ := timeoutHead_rule hq hx (by omega)
      obtain ⟨hstate, hlnk⟩ := ih (s := timeoutHead s) (by rw [hp]) (by rw [hp]; simp only; omega)
      exact ⟨hstate.trans (by rw [hp]), hlnk.trans (by rw [hm.kept])⟩
    · rw [timeoutHeads_wait _ fun e' rest' he => ?_]
      · exact ⟨rfl, rfl⟩
      · rw [hq, List.cons.injEq] at he
        rw [← he.1]
        omega

/-! ### PRBF (R124, R125) -/

section
variable {s : State} {a b c d : Byte}

/-- PRBF's new times, READY, and no timeouts, before the entries that have expired are resolved. -/
def retimed (tmin tr : Nat) (s : State) : State :=
  s.setPrb { s.prb with tmin := tmin, tr := tr, state := .ready, timeouts := 0 }

/-- PRBF's reply (R124). -/
def timingContent (tmin tr : Nat) (st : ProbeState) : List Byte := beNat 2 tmin ++ beNat 2 tr ++ [probeStateCode st]

theorem exec_prbf (hd : CanDispatch 0x16#8 [a, b, c, d] s) : exec (.prbf [a, b, c, d]) s =
    .next (placeReply 0x96#8 (answerPrbf [a, b, c, d] (takeRequest s))) :=
  dispatchFixed_of_length hd rfl (answerPrbf [a, b, c, d])

theorem answerPrbf_running (h : ∃ l, s.psc.lead = some l ∧ l.phase ≠ .armed) :
    answerPrbf [a, b, c, d] s = refuse .busy s := by
  obtain ⟨l, hl, hp⟩ := h
  have running : leadRunning l = true := by simpa [leadRunning] using hp
  simp [answerPrbf, hl, running]

theorem readPrbf_bytes : readPrbf [a, b, c, d] = ⟨a.toNat * 256 + b.toNat, c.toNat * 256 + d.toNat⟩ := by
  simp [readPrbf, fieldNat, fieldBytes, natOfBytes]

theorem answerPrbf_applies (h : ∀ l, s.psc.lead = some l → l.phase = .armed) :
    let tmin := max 2 (min 1000 (a.toNat * 256 + b.toNat))
    let tr := max 10 (min 10000 (c.toNat * 256 + d.toNat))
    let t := timeoutHeads s.prb.queue.length (retimed tmin tr s)
    answerPrbf [a, b, c, d] s = accept (timingContent tmin tr t.prb.state) t := by
  intro tmin tr t
  unfold answerPrbf
  rw [readPrbf_bytes]
  cases hl : s.psc.lead with
  | none => rfl
  | some l =>
    simp only [Option.map_some, leadRunning, h l hl]
    rfl

end

/-- Settles O44: the answer is `answerPrbf_applies`, and the entries that have expired go by `timeoutHeads_rule`. -/
theorem prbfAppliesTiming : Obligations.PrbfAppliesTiming := by
  intro s a b c d hd tmin tr
  refine ⟨fun hrun => ?busy, fun harmed => ?applied⟩
  case busy => rw [exec_prbf hd, answerPrbf_running (s := takeRequest s) hrun, placeReply_refuse]; rfl
  case applied =>
    let started := retimed tmin tr (takeRequest s)
    let t := timeoutHeads s.prb.queue.length started
    have answers : exec (.prbf [a, b, c, d]) s =
        .next { t with lnk := { t.lnk with reply := some ⟨0x96#8, 0#8 :: timingContent tmin tr t.prb.state⟩ } } := by
      rw [exec_prbf hd, answerPrbf_applies (s := takeRequest s) harmed]
      rfl
    have times : timesKept started t := timesKept_timeoutHeads _ started
    refine ⟨⟨_, answers, times.1, times.2⟩, fun hlen => ?rule, fun hwait => ?still⟩
    case rule =>
      have few : started.prb.timeouts + s.prb.queue.length < 8 := by
        show 0 + s.prb.queue.length < 8
        omega
      obtain ⟨state, lnk⟩ := timeoutHeads_below (s := started) rfl few
      refine ⟨t, timeoutHeads_rule (s := started) rfl few, times.1, times.2, state, ?_⟩
      rw [answers, show t.prb.state = .ready from state, show t.lnk = started.lnk from lnk]
      rfl
    case still =>
      have none : t = started := timeoutHeads_wait _ fun e rest he =>
        hwait e (by rw [show s.prb.queue = e :: rest from he]; exact List.mem_cons_self)
      rw [answers, none]
      rfl

end Sys2Proof.Machine
end

