-- ==== Sys2Proof/Proofs/ProbeFaults.lean ====
section
/-! PROOFS. Proofs/ProbeFaults.lean: an expired tag as a miss, and the probe fault at the eighth in a row (R117 to R121). -/

namespace Sys2Proof.Machine

open Sys2Proof

/-! ### The expired head -/

/-- The entry at the head has left the queue and is resolved as TIMEOUT, which is counted. -/
def timedOutHead (e : TagEntry) (rest : List TagEntry) (s : State) : State :=
  (resolveMiss e .timeout (s.setPrb { s.prb with queue := rest })).setPrb
    { s.prb with queue := rest, timeouts := min (s.prb.timeouts + 1) 8 }

variable {s : State} {e : TagEntry} {rest : List TagEntry}

theorem timedOutHead_resolved (e : TagEntry) (rest : List TagEntry) (s : State) : missResolved e .timeout id
    { s with prb := { s.prb with queue := rest, timeouts := min (s.prb.timeouts + 1) 8 } } (timedOutHead e rest s) := by
  have resolved := resolveMiss_rule e .timeout id (fun _ => ⟨rfl, rfl, rfl, rfl, rfl, rfl, rfl⟩)
    (s.setPrb { s.prb with queue := rest })
  rw [show modCtx e.passId (onCounters id) _ = _ from modCtx_id e.passId (s.setPrb { s.prb with queue := rest })] at resolved
  exact missResolved_setPrb (s := s.setPrb { s.prb with queue := rest }) _ resolved

@[simp] theorem timedOutHead_frame (e : TagEntry) (rest : List TagEntry) (s : State) :
    (timedOutHead e rest s).now = s.now ∧ (timedOutHead e rest s).enc = s.enc ∧ (timedOutHead e rest s).wbk = s.wbk ∧
    (timedOutHead e rest s).hold = s.hold ∧ (timedOutHead e rest s).gte = s.gte ∧ (timedOutHead e rest s).cal = s.cal ∧
    (timedOutHead e rest s).lnk = s.lnk ∧
    (timedOutHead e rest s).prb = { s.prb with queue := rest, timeouts := min (s.prb.timeouts + 1) 8 } := by
  simp [timedOutHead]

/-- TAG_TIMEOUT at an expired head: the miss, and in READY at the eighth the fault (R117, R120). -/
theorem exec_tagTimeout (hq : s.prb.queue = e :: rest) (hx : e.fireTime + s.prb.tr * 100 ≤ s.now) :
    exec .tagTimeout s = .next (if s.prb.state = .ready ∧ min (s.prb.timeouts + 1) 8 = 8
      then enterProbeFault e.tag (timedOutHead e rest s) else timedOutHead e rest s) := by
  have hexpired : expired s.prb s.now e = true := by simp [expired, usTicks, hx]
  show execTagTimeout s = _
  simp only [execTagTimeout, timeoutHead, hq, hexpired, if_true, resolveHeadMiss, countTimeout, resolveMiss_frame,
    State.setPrb_prb, show timeoutLimit = 8 from rfl]
  rfl

/-! ### A miss and PSC's tests -/

theorem exists_lead_of_runningLeadIs {id : Nat} (h : runningLeadIs id s = true) :
    ∃ l, s.psc.lead = some l ∧ l.phase ≠ .armed ∧ l.ctx.settings.passId = id := by
  unfold runningLeadIs at h
  cases hl : s.psc.lead <;> simp_all [leadRunning]

/-- A miss leaves a stack with an entry, or none of a running lead: no retry turn ends with it (R70). -/
theorem passTests_missOne (e : TagEntry) (cause : MissCause) (s : State) :
    passTests e.passId (missOne e cause s) = flushDrain (missOne e cause s) := by
  have stays : ∀ l, (missOne e cause s).psc.lead = some l → leadIs e.passId (missOne e cause s).psc = true →
      ¬ (l.phase = .retrying ∧ (missOne e cause s).stack.isEmpty ∧ noTags l.ctx) := by
    rintro l hl hid ⟨hphase, hempty, -⟩
    have running : runningLeadIs e.passId (missOne e cause s) = true := by
      unfold leadIs at hid
      unfold runningLeadIs
      simp_all [leadRunning]
    cases hr : runningLeadIs e.passId s with
    | false =>
      rw [missOne_late cause hr, (modCtx_running (missCtx_settings _ _) e.passId s).2, hr] at running
      cases running
    | true =>
      cases hs : s.stack.any (sameKey (missOf e cause)) with
      | true =>
        rw [missOne_stands cause hr hs] at hempty
        simp_all
      | false =>
        rw [missOne_pushed cause hr hs] at hempty
        simp [pushed] at hempty
  unfold passTests
  split_ifs with hid
  · rw [show testRetryDone (missOne e cause s) = missOne e cause s from ?_]
    unfold testRetryDone
    split
    · rfl
    · next l hl => exact if_neg (stays l hl hid)
  · rfl

/-- What a miss counts in the context of its pass, where the tags of an ended pass are counted too. -/
theorem missOne_psc (e : TagEntry) (cause : MissCause) (s : State) : ∃ f : Counters → Counters,
    (∀ k, (f k).abandoned = k.abandoned ∧ ((f k).retryLost = k.retryLost ∨ (f k).retryLost = satInc k.retryLost)) ∧
      (missOne e cause s).psc = (modCtx e.passId (missCtx e.origin f) s).psc := by
  have caused : ∀ k, (countCause cause k).abandoned = k.abandoned ∧ (countCause cause k).retryLost = k.retryLost :=
    fun k => by cases cause <;> exact ⟨rfl, rfl⟩
  cases hr : runningLeadIs e.passId s with
  | false =>
    refine ⟨_, fun k => ?_, by rw [missOne_late cause hr]⟩
    rw [(caused _).1, (caused _).2]
    refine ⟨rfl, ?_⟩
    unfold lateCounts
    split
    · exact .inr rfl
    · exact .inl rfl
  | true =>
    cases hs : s.stack.any (sameKey (missOf e cause)) with
    | true =>
      refine ⟨_, fun k => ?_, by rw [missOne_stands cause hr hs]⟩
      rw [(caused _).1, (caused _).2]
      exact ⟨rfl, .inl rfl⟩
    | false =>
      refine ⟨fun k => countCause cause (missedCounts e.origin (pushedCounts (stackFull s) k)), fun k => ?_,
        by
          rw [missOne_pushed cause hr hs]
          exact modCtx_psc_congr (s := s) (t := s.setStack (pushed (missOf e cause) s)) rfl e.passId _⟩
      rw [(caused _).1, (caused _).2]
      exact ⟨rfl, .inl rfl⟩

theorem timedOutHead_psc (e : TagEntry) (rest : List TagEntry) (s : State) :
    (timedOutHead e rest s).psc = (flushDrain (missOne e .timeout (s.setPrb { s.prb with queue := rest }))).psc := by
  unfold timedOutHead
  rw [resolveMiss_eq, passTests_missOne]
  rfl

theorem modCtx_lead_none (id : Nat) (f : PassCtx → PassCtx) (s : State) :
    (modCtx id f s).psc.lead = none ↔ s.psc.lead = none := by
  unfold modCtx
  split
  · simp [modLead]
  · rfl

theorem timedOutHead_lead (e : TagEntry) (rest : List TagEntry) (s : State) :
    (timedOutHead e rest s).psc.lead = none ↔ s.psc.lead = none := by
  obtain ⟨f, -, hpsc⟩ := missOne_psc e .timeout (s.setPrb { s.prb with queue := rest })
  rw [timedOutHead_psc, flushDrain_psc, hpsc, modCtx_lead_none]
  rfl

/-- The counts of lost tags are within their 32 bits. -/
def lossesBounded (s : State) : Prop :=
  ∀ c ∈ contexts s.psc, c.counters.abandoned ≤ counterMax ∧ c.counters.retryLost ≤ counterMax

theorem contexts_flushDrain_subset {s : State} {c : PassCtx} (h : c ∈ contexts (flushDrain s).psc) :
    c ∈ contexts s.psc := by
  rw [flushDrain_psc] at h
  simp only [contexts, List.mem_append] at h ⊢
  exact h.imp_right fun h => (List.dropWhile_sublist _).subset h

theorem timedOutHead_bounded (hd : distinctIds (contexts s.psc)) (h : lossesBounded s) :
    lossesBounded (timedOutHead e rest s) := by
  intro c hc
  obtain ⟨f, hf, hpsc⟩ := missOne_psc e .timeout (s.setPrb { s.prb with queue := rest })
  rw [timedOutHead_psc] at hc
  have hc := contexts_flushDrain_subset hc
  rw [hpsc, contexts_modCtx (by exact hd)] at hc
  obtain ⟨d, hd, rfl⟩ := List.mem_map.1 hc
  obtain ⟨ha, hr⟩ := h d hd
  unfold ctxOf
  split
  · have counts : (missCtx e.origin f d).counters = f d.counters := by
      unfold missCtx
      cases e.origin <;> rfl
    rw [counts, (hf _).1]
    refine ⟨ha, ?_⟩
    obtain same | inc := (hf d.counters).2
    · exact same ▸ hr
    · exact inc ▸ satAdd_le _ _
  · exact ⟨ha, hr⟩

theorem inFlightOk_timedOutHead (hq : s.prb.queue = e :: rest) (h : inFlightOk s) : inFlightOk (timedOutHead e rest s) := by
  have resolved := (accountsOf_kept mainBooks_true).run (passRun_miss .timeout hq)
    (accounts_of_inFlightOk h fun _ _ => trivial)
  refine inFlightOk_of_accounts (accountsOf_of_blocks (s := resolveMiss e .timeout (s.setPrb { s.prb with queue := rest }))
    rfl rfl ?_ resolved)
  simp

/-! ### Every tag is abandoned (R121, R122) -/

/-- A change of the contexts of PSC, whether of the lead or of the drain list. -/
def mapContexts (f : PassCtx → PassCtx) (p : Psc) : Psc :=
  { p with lead := p.lead.map fun l => { l with ctx := f l.ctx }, drain := p.drain.map f }

theorem mapContexts_congr {f g : PassCtx → PassCtx} {p : Psc} (h : ∀ c ∈ contexts p, f c = g c) :
    mapContexts f p = mapContexts g p := by
  have hdrain : p.drain.map f = p.drain.map g := List.map_congr_left fun c hc => h c (by simp [contexts, hc])
  unfold mapContexts
  rw [hdrain]
  cases hl : p.lead with
  | none => rfl
  | some l =>
    have hc := h l.ctx (by simp [contexts, hl])
    simp only [Option.map_some, hc]

theorem contexts_mapContexts (f : PassCtx → PassCtx) (p : Psc) : contexts (mapContexts f p) = (contexts p).map f := by
  unfold contexts mapContexts
  cases p.lead <;> simp

theorem modCtx_psc (hd : distinctIds (contexts s.psc)) (id : Nat) (f : PassCtx → PassCtx) :
    (modCtx id f s).psc = mapContexts (ctxOf id f) s.psc := by
  unfold modCtx mapContexts
  cases hl : s.psc.lead with
  | none =>
    rw [if_neg (by simp [leadIs, hl])]
    simp only [State.setPsc, hl, Option.map_none]
    rfl
  | some l =>
    have hother : ∀ c ∈ s.psc.drain, c.settings.passId ≠ l.ctx.settings.passId := by
      rw [contexts_of_lead hl] at hd
      exact fun c hc => ((List.pairwise_cons.1 hd).1 c hc).symm
    by_cases hid : l.ctx.settings.passId = id
    · rw [if_pos (leadIs_iff.2 ⟨l, hl, hid⟩), map_ctxOf_other (by rw [← hid]; exact hother), Option.map_some,
        ctxOf_same hid]
      simp [modLead, hl, State.setPsc]
    · rw [if_neg fun h => ?_]
      · simp only [State.setPsc, Option.map_some, ctxOf_other hid, hl]
        rfl
      · obtain ⟨l', hl', hid'⟩ := leadIs_iff.1 h
        rw [hl, Option.some.injEq] at hl'
        exact hid (hl' ▸ hid')

/-- The tags of `q` that belong to the context's pass. -/
def tagsOf (q : List TagEntry) (c : PassCtx) : List TagEntry := q.filter fun e => e.passId == c.settings.passId

/-- Counting abandoned tags, whichever their pass. -/
theorem abandonOnes_psc (gone : List TagEntry) (hd : distinctIds (contexts s.psc)) :
    (gone.foldl abandonOne s).psc = mapContexts (fun c => withdrawnCtx (tagsOf gone c) c) s.psc := by
  induction gone generalizing s with
  | nil => simp [mapContexts, tagsOf, withdrawnCtx]
  | cons e gone ih =>
    have hone : (abandonOne s e).psc = mapContexts (ctxOf e.passId (abandonedCtx e.origin)) s.psc := modCtx_psc hd _ _
    have hset : ∀ c, (ctxOf e.passId (abandonedCtx e.origin) c).settings = c.settings := ctxOf_settings (by simp) _
    rw [List.foldl_cons, ih (by rw [hone, contexts_mapContexts]; exact distinctIds_map hset hd), hone]
    have step : ∀ c, withdrawnCtx (tagsOf gone (ctxOf e.passId (abandonedCtx e.origin) c))
        (ctxOf e.passId (abandonedCtx e.origin) c) = withdrawnCtx (tagsOf (e :: gone) c) c := fun c => by
      unfold tagsOf
      rw [hset]
      by_cases hid : c.settings.passId = e.passId
      · rw [ctxOf_same hid, List.filter_cons_of_pos (by simp [hid])]
        rfl
      · rw [ctxOf_other hid, List.filter_cons_of_neg (by simpa using Ne.symm hid)]
    unfold mapContexts
    simp only [Option.map_map, List.map_map]
    simp only [← step]
    rfl

/-- The context of a pass whose tags `q` are abandoned. -/
def clearedCtx (q : List TagEntry) (c : PassCtx) : PassCtx :=
  { c with
    mainInFlight := 0, retryInFlight := 0
    counters := { c.counters with
      abandoned := satAdd c.counters.abandoned (q.countP fun e => decide (e.origin = .retry) == false)
      retryLost := satAdd c.counters.retryLost (q.countP fun e => decide (e.origin = .retry) == true) } }

theorem abandonedCtx_bounded {c : PassCtx} (o : TagOrigin) (ha : c.counters.abandoned ≤ counterMax)
    (hr : c.counters.retryLost ≤ counterMax) : (abandonedCtx o c).counters.abandoned ≤ counterMax ∧
      (abandonedCtx o c).counters.retryLost ≤ counterMax := by
  cases o
  exacts [⟨satAdd_le _ _, hr⟩, ⟨satAdd_le _ _, hr⟩, ⟨ha, satAdd_le _ _⟩]

theorem withdrawnCtx_cleared {q : List TagEntry} {c : PassCtx} (ha : c.counters.abandoned ≤ counterMax)
    (hr : c.counters.retryLost ≤ counterMax)
    (hmain : c.mainInFlight = q.countP fun e => decide (e.origin = .retry) == false)
    (hretry : c.retryInFlight = q.countP fun e => decide (e.origin = .retry) == true) :
    withdrawnCtx q c = clearedCtx q c := by
  induction q generalizing c with
  | nil =>
    obtain ⟨⟩ := c
    simp only [List.countP_nil] at hmain hretry
    simp [withdrawnCtx, clearedCtx, satAdd_zero ha, satAdd_zero hr, hmain, hretry]
  | cons e q ih =>
    have same : withdrawnCtx (e :: q) c = withdrawnCtx q (abandonedCtx e.origin c) := rfl
    rw [same]
    rw [List.countP_cons] at hmain hretry
    obtain ⟨ha', hr'⟩ := abandonedCtx_bounded e.origin ha hr
    cases ho : e.origin
    all_goals
      rw [ho] at hmain hretry ha' hr'
      rw [ih ha' hr' (by simp [abandonedCtx, countAbandoned, dropInFlight, onCounters, hmain])
        (by simp [abandonedCtx, countAbandoned, dropInFlight, onCounters, hretry])]
      simp [clearedCtx, abandonedCtx, countAbandoned, dropInFlight, onCounters, ho, satInc, satAdd_satAdd, Nat.add_comm]

/-- With no tag in flight, none is abandoned. -/
theorem abandon_of_empty (which : TagEntry → Bool) (hq : s.prb.queue = []) : abandon which s = s := by
  have hdrop : dropWaiting [] s.prb = s.prb := by
    unfold dropWaiting
    cases s.prb.waiting <;> rfl
  have hprb : ({ s.prb with queue := [] } : Prb) = s.prb := by rw [← hq]
  unfold abandon
  simp only [hq, List.filter_nil, hprb, hdrop, List.foldl_nil]
  rfl

/-- Every tag leaves the queue, and a trigger frame that waits for one of them is not sent. -/
theorem abandonAll_prb (s : State) : (abandon (fun _ => true) s).prb = { s.prb with
    queue := [], waiting := s.prb.waiting.filter fun f => !s.prb.queue.any fun x => x.tag == f.tag } := by
  have kept : ∀ (gone : List TagEntry) u, (gone.foldl abandonOne u).prb = u.prb := fun gone u =>
    foldl_keeps State.prb abandonOne (fun b a => by simp [abandonOne]) gone u
  unfold abandon
  dsimp only
  rw [kept, State.setPrb_prb, dropWaiting_eq]
  simp

theorem abandonAll_psc (hd : distinctIds (contexts s.psc)) :
    (abandon (fun _ => true) s).psc = mapContexts (fun c => withdrawnCtx (tagsOf s.prb.queue c) c) s.psc := by
  unfold abandon
  dsimp only
  rw [abandonOnes_psc _ (by exact hd), List.filter_true]
  rfl

theorem abandon_lead (which : TagEntry → Bool) (s : State) :
    ((abandon which s).psc.lead = none ↔ s.psc.lead = none) ∧ (abandon which s).psc.stall = s.psc.stall := by
  have kept : ∀ (gone : List TagEntry) u, ((gone.foldl abandonOne u).psc.lead = none ↔ u.psc.lead = none) ∧
      (gone.foldl abandonOne u).psc.stall = u.psc.stall := by
    intro gone
    induction gone with
    | nil => exact fun u => ⟨.rfl, rfl⟩
    | cons e gone ih =>
      intro u
      obtain ⟨lead, stall⟩ := ih (abandonOne u e)
      refine ⟨lead.trans (modCtx_lead_none _ _ u), stall.trans ?_⟩
      unfold abandonOne modCtx
      split <;> rfl
  exact kept _ _

/-! ### The probe fault (R76, R121) -/

/-- The context of a pass without tags that ends with the status `st` and `left` entries on the stack. -/
def lostCtx (st : EndStatus) (left : Nat) (c : PassCtx) : PassCtx :=
  { c with
    endStatus := some st, mainInFlight := 0, retryInFlight := 0
    counters := { c.counters with unresolved := satAdd c.counters.unresolved left } }

/-- A lead with no tags in flight ends with a status that abandons tags. -/
theorem endLead_of_empty {st : EndStatus} (ha : abandons st = true) {l : Lead} (hl : s.psc.lead = some l)
    (hq : s.prb.queue = []) :
    let t := endLead st s
    t.prb = s.prb ∧ t.stack = [] ∧ t.psc.lead = none ∧ t.psc.stall = none ∧ (s.psc.drain = [] →
      t.psc.drain = [] ∧ t.pnt = { buffer := s.pnt.buffer ++ [.summary (summaryOf (lostCtx st s.stack.length l.ctx))]
                                   largest := max s.pnt.largest (s.pnt.buffer.length + 1) }) := by
  have left : ∃ gte, abandonLead l.ctx.settings.passId (recordEnd st s) = (modLead (fun c =>
      { c with mainInFlight := 0, retryInFlight := 0 }) (recordEnd st s)).setGte gte := by
    rw [abandonLead, abandon_of_empty _ (by simpa [recordEnd] using hq)]
    exact ⟨_, enterSafe_eq _⟩
  obtain ⟨gte, left⟩ := left
  unfold endLead
  simp only [hl, ha, if_true, left, State.setGte]
  simp only [retireLead, emptyStack, modLead, recordEnd, hl, Option.map_some, State.setPsc, State.setStack]
  cases hd : s.psc.drain with
  | nil => simp [noTags, onCounters, appendSummary, appendRecord, State.setPnt, lostCtx]
  | cons d ds => simp

/-- The part as PRB enters FAULT, before the passes end. -/
def faultRaised (tag : BitVec 4) (u : State) : State :=
  raise (.probeFault tag u.prb.queue.length) (abandon (fun _ => true) (u.setPrb { u.prb with state := .fault }))

theorem enterProbeFault_eq (tag : BitVec 4) (u : State) :
    enterProbeFault tag u = endLead .probeFault (flushDrain (faultRaised tag u)) := rfl

theorem faultRaised_prb (tag : BitVec 4) (u : State) : (faultRaised tag u).prb = { u.prb with
    queue := [], state := .fault
    waiting := u.prb.waiting.filter fun f => !u.prb.queue.any fun x => x.tag == f.tag } := by
  simp [faultRaised, abandonAll_prb]

/-- In FAULT the tags, the stall timer, the stack and GTE are as R121 says, whatever the contexts hold. -/
theorem enterProbeFault_shape (tag : BitVec 4) (u : State) :
    let t := enterProbeFault tag u
    t.prb = (faultRaised tag u).prb ∧ (u.psc.lead ≠ none → entersSafe u t) ∧ (u.psc.lead = none → t.gte = u.gte) ∧
      t.psc.lead = none ∧ (u.psc.lead ≠ none → t.psc.stall = none ∧ t.stack = []) ∧
      (u.psc.lead = none → t.psc.stall = u.psc.stall ∧ t.stack = u.stack) ∧
      t.lnk = (faultRaised tag u).lnk := by
  let f := flushDrain (faultRaised tag u)
  have hprb : f.prb = (faultRaised tag u).prb := by simp [f]
  have hpsc : f.psc.lead = (faultRaised tag u).psc.lead ∧ f.psc.stall = (faultRaised tag u).psc.stall := by
    simp [f, flushDrain_psc]
  obtain ⟨alead, astall⟩ := abandon_lead (fun _ => true) (u.setPrb { u.prb with state := .fault })
  have rpsc : (faultRaised tag u).psc = (abandon (fun _ => true) (u.setPrb { u.prb with state := .fault })).psc := by
    simp [faultRaised]
  have hlead : f.psc.lead = none ↔ u.psc.lead = none := by rw [hpsc.1, rpsc]; exact alead
  have hstall : f.psc.stall = u.psc.stall := by rw [hpsc.2, rpsc]; exact astall
  have hgte : f.gte = u.gte := by simp [f, faultRaised]
  have hstack : f.stack = u.stack := by simp [f, faultRaised]
  have hnow : f.now = u.now := by simp [f, faultRaised]
  have hlnk : f.lnk = (faultRaised tag u).lnk := by simp [f]
  rw [enterProbeFault_eq]
  show let t := endLead .probeFault f; _
  cases hl : f.psc.lead with
  | none =>
    have none : u.psc.lead = none := hlead.1 hl
    have ends : endLead .probeFault f = f := by simp [endLead, hl]
    rw [ends]
    exact ⟨hprb, (absurd none ·), fun _ => hgte, hl, (absurd none ·), fun _ => ⟨hstall, hstack⟩, hlnk⟩
  | some l =>
    have some : u.psc.lead ≠ none := fun h => by rw [hlead.2 h] at hl; cases hl
    obtain ⟨prb, stack, lead, stall, -⟩ := endLead_of_empty (st := .probeFault) rfl hl
      (by rw [hprb, faultRaised_prb])
    refine ⟨prb.trans hprb, fun _ => ?_, (absurd · some), lead, fun _ => ⟨stall, stack⟩, (absurd · some), ?_⟩
    · exact entersSafe_congr (endLead_enters rfl (by rw [hl]; simp)) hgte.symm hnow.symm rfl rfl rfl
    · simp

/-- In FAULT the contexts of the drain list and then the lead's are summarised, their tags counted. -/
theorem enterProbeFault_summaries (tag : BitVec 4) {u : State} (h : inFlightOk u) (hb : lossesBounded u) :
    let t := enterProbeFault tag u
    let cleared := fun c => clearedCtx (tagsOf u.prb.queue c) c
    let ended := u.psc.drain.map cleared ++
      (u.psc.lead.map fun l => lostCtx .probeFault u.stack.length (cleared l.ctx)).toList
    t.psc.drain = [] ∧ t.pnt =
      { buffer := u.pnt.buffer ++ ended.map fun c => .summary (summaryOf c)
        largest := if ended = [] then u.pnt.largest else max u.pnt.largest (u.pnt.buffer.length + ended.length) } := by
  intro t cleared ended
  let f := flushDrain (faultRaised tag u)
  have counts : ∀ c ∈ contexts u.psc, withdrawnCtx (tagsOf u.prb.queue c) c = cleared c := fun c hc => by
    obtain ⟨each, -, -⟩ := h
    obtain ⟨main, retry⟩ := each c hc
    obtain ⟨ha, hr⟩ := hb c hc
    refine withdrawnCtx_cleared ha hr ?_ ?_
    · rw [main, tagsOf, List.countP_filter]
      refine List.countP_congr fun e _ => ?_
      simp [and_comm]
    · rw [retry, tagsOf, List.countP_filter]
      refine List.countP_congr fun e _ => ?_
      simp [and_comm]
  have psc : (faultRaised tag u).psc = mapContexts cleared u.psc := by
    have raised : (faultRaised tag u).psc = (abandon (fun _ => true) (u.setPrb { u.prb with state := .fault })).psc := by
      simp [faultRaised]
    obtain ⟨-, distinct, -⟩ := h
    rw [raised, abandonAll_psc (by exact distinct)]
    exact mapContexts_congr counts
  have tagless : ∀ c ∈ u.psc.drain.map cleared, noTags c = true := fun c hc => by
    obtain ⟨d, -, rfl⟩ := List.mem_map.1 hc
    rfl
  obtain ⟨⟨drain, pnt⟩, -⟩ := flushDrain_rule (faultRaised tag u)
  rw [psc, show (mapContexts cleared u.psc).drain = u.psc.drain.map cleared from rfl] at drain pnt
  rw [List.dropWhile_eq_nil_iff.2 tagless] at drain
  rw [List.takeWhile_eq_self_iff.2 tagless, show (faultRaised tag u).pnt = u.pnt by simp [faultRaised]] at pnt
  have lead : f.psc.lead = u.psc.lead.map fun l => { l with ctx := cleared l.ctx } := by
    simp only [f, flushDrain_psc, psc]
    rfl
  have ends : t = endLead .probeFault f := rfl
  have stack : f.stack = u.stack := by simp [f, faultRaised]
  have prb : f.prb.queue = [] := by simp [f, faultRaised_prb]
  cases hl : u.psc.lead with
  | none =>
    have same : t = f := by rw [ends]; simp [endLead, lead, hl]
    simp only [ended, hl, Option.map_none, Option.toList_none, List.append_nil]
    rw [same]
    exact ⟨drain, pnt⟩
  | some l =>
    rw [hl] at lead
    obtain ⟨-, -, -, -, summarised⟩ := endLead_of_empty (st := .probeFault) rfl lead prb
    obtain ⟨tdrain, tpnt⟩ := summarised drain
    rw [ends]
    refine ⟨tdrain, tpnt.trans ?_⟩
    rw [show f.pnt = _ from pnt, stack]
    simp only [ended, hl, Option.map_some, Option.toList_some, List.map_append, List.map_cons, List.map_nil,
      List.length_append, List.length_map, List.length_cons, List.length_nil, List.append_assoc, List.append_eq_nil_iff,
      List.cons_ne_nil, and_false, if_false]
    cases u.psc.drain with
    | nil => simp
    | cons d ds => simp; omega

/-! ### TAG_TIMEOUT (R117, R120) -/

/-- A miss of a main tag of a scanning lead goes onto a stack with room (R119). -/
theorem timedOutHead_scanning {l : Lead} (hl : s.psc.lead = some l) (hphase : l.phase = .scanning)
    (hid : l.ctx.settings.passId = e.passId) (ho : e.origin ≠ .retry) (hn : s.prb.timeouts < 7) (hd : s.psc.drain = [])
    (hlen : s.stack.length < 16) (hs : s.stack.any (sameKey (missOf e .timeout)) = false) :
    timedOutHead e rest s = { s with
      prb := { s.prb with queue := rest, timeouts := s.prb.timeouts + 1 }
      stack := missOf e .timeout :: s.stack
      psc := { s.psc with lead := some { l with ctx := { l.ctx with
        mainInFlight := l.ctx.mainInFlight - 1
        counters := { l.ctx.counters with
          pushes := satInc l.ctx.counters.pushes, missedMain := satInc l.ctx.counters.missedMain
          timeout := satInc l.ctx.counters.timeout } } } } } := by
  have running : runningLeadIs e.passId (s.setPrb { s.prb with queue := rest }) = true := by
    simp [runningLeadIs, hl, leadRunning, hphase, hid]
  have room : stackFull (s.setPrb { s.prb with queue := rest }) = false :=
    decide_eq_false (show ¬ 16 ≤ s.stack.length by omega)
  have lead : leadIs e.passId ((s.setPrb { s.prb with queue := rest }).setStack
      (pushed (missOf e .timeout) (s.setPrb { s.prb with queue := rest }))).psc = true := leadIs_iff.2 ⟨l, hl, hid⟩
  have counts : missCtx e.origin (fun k => countCause .timeout (missedCounts e.origin (pushedCounts false k))) l.ctx =
      { l.ctx with
        mainInFlight := l.ctx.mainInFlight - 1
        counters := { l.ctx.counters with
          pushes := satInc l.ctx.counters.pushes, missedMain := satInc l.ctx.counters.missedMain
          timeout := satInc l.ctx.counters.timeout } } := by
    cases h : e.origin
    · rfl
    · rfl
    · exact absurd h ho
  unfold timedOutHead
  rw [resolveMiss_eq, passTests_missOne, missOne_pushed .timeout running (by simpa using hs), ← modLead_eq lead,
    modLead_of_lead (by exact hl), room, counts, pushed, room, show min (s.prb.timeouts + 1) 8 = s.prb.timeouts + 1 by omega]
  simp [flushDrain, hd, State.setPsc, State.setPrb, State.setStack]

/-- Settles O43: the miss is `timedOutHead_resolved`, the fault `enterProbeFault_shape` with
`enterProbeFault_summaries`. -/
theorem tagTimeoutMissesOrFaults : Obligations.TagTimeoutMissesOrFaults := by
  intro s e rest hq hx
  refine ⟨?pushed, fun hlow => ?resolved, fun hready hn => ?fault⟩
  case pushed =>
    intro l hl hphase hid ho hn hd hlen miss hs k
    have hmiss : missOf e .timeout = miss := by simp [missOf, ho, miss]
    rw [exec_tagTimeout hq hx, if_neg (by omega), timedOutHead_scanning hl hphase hid ho hn hd hlen (hmiss ▸ hs), hmiss]
  case resolved =>
    refine ⟨timedOutHead e rest s, ?_, timedOutHead_resolved e rest s⟩
    rw [exec_tagTimeout hq hx, if_neg]
    rintro ⟨hready, hn⟩
    obtain hfault | hlow := hlow
    · rw [hready] at hfault
      cases hfault
    · omega
  case fault =>
    let u := timedOutHead e rest s
    have eighth : min (s.prb.timeouts + 1) 8 = 8 := by omega
    have resolved := timedOutHead_resolved e rest s
    have queue : u.prb.queue = rest := by simp [u]
    have lead : u.psc.lead = none ↔ s.psc.lead = none := timedOutHead_lead e rest s
    obtain ⟨prb, enters, stays, tlead, ends, idle, lnk⟩ := enterProbeFault_shape e.tag u
    rw [eighth] at resolved
    refine ⟨u, enterProbeFault e.tag u, resolved, ?_, ?_, fun h => ?_, fun h => ?_,
      ⟨tlead, fun h => ends (mt lead.1 h), fun h => idle (lead.2 h)⟩, fun hok hbound => ?_, ?_, ?_, ?_, ?_, ?_⟩
    · rw [exec_tagTimeout hq hx, if_pos ⟨hready, eighth⟩]
    · rw [prb, faultRaised_prb, queue]
    · exact entersSafe_congr (enters (mt lead.1 h)) (by simp [u]) (by simp [u]) rfl rfl rfl
    · rw [stays (lead.2 h)]
      simp [u]
    · obtain ⟨-, distinct, -⟩ := id hok
      have bounded : lossesBounded u := timedOutHead_bounded distinct hbound
      obtain ⟨drain, pnt⟩ := enterProbeFault_summaries e.tag (inFlightOk_timedOutHead hq hok) bounded
      have tags : ∀ c, clearedCtx (tagsOf (timedOutHead e rest s).prb.queue c) c = { c with
          mainInFlight := 0, retryInFlight := 0
          counters := { c.counters with
            abandoned := satAdd c.counters.abandoned (rest.countP fun e =>
              e.passId == c.settings.passId && decide (e.origin = .retry) == false)
            retryLost := satAdd c.counters.retryLost (rest.countP fun e =>
              e.passId == c.settings.passId && decide (e.origin = .retry) == true) } } := by
        intro c
        simp only [clearedCtx, show (timedOutHead e rest s).prb.queue = rest from queue, tagsOf, List.countP_filter,
          Bool.and_comm]
      simp only [tags] at pnt
      exact ⟨drain, lead, pnt⟩
    · rw [lnk]
      simp [faultRaised, noticeKind, u]
    all_goals simp [u]

end Sys2Proof.Machine
end

