-- ==== Sys2Proof/Proofs/Readings.lean ====
section
/-! PROOFS. Proofs/Readings.lean: a matched reading as a point record or a miss, and the ranges of a point record (R114, R115,
R128 to R140). -/

namespace Sys2Proof.Machine

open Sys2Proof

/-! ### Distance, radius and class (R129 to R134) -/

theorem projected_eq (mode : Rounding) (d scale : Nat) :
    projected mode d scale = ((d * scale + roundingBias mode) / 65536 : Nat) := by
  rw [← rnd_natCast]
  exact congrArg (rnd mode · 65536) (Int.natCast_mul d scale).symm

theorem roundingBias_lt (mode : Rounding) : roundingBias mode < 65536 := by cases mode <;> decide

theorem projected_bounds (mode : Rounding) {scale : Nat} (d : Nat) (h : scale ≤ 65536) :
    0 ≤ projected mode d scale ∧ projected mode d scale ≤ d := by
  rw [projected_eq]
  have hd : d * scale ≤ d * 65536 := Nat.mul_le_mul_left d h
  have := roundingBias_lt mode
  omega

theorem classify_void {d i floor : Nat} : classify d i floor = .void ↔ d = 16777215 := by
  unfold classify noReturn
  split_ifs <;> simp [*]

theorem classify_dim {d i floor : Nat} : classify d i floor = .dim ↔ ¬ d = 16777215 ∧ i < floor := by
  unfold classify noReturn
  split_ifs <;> simp [*]

theorem classify_clear {d i floor : Nat} : classify d i floor = .clear ↔ ¬ (d = 16777215 ∨ ¬ d = 16777215 ∧ i < floor) := by
  unfold classify noReturn
  split_ifs <;> simp [*]

/-- Settles O46: the bounds of the distance carry over to the radius, and the class of a reading is one of three. -/
theorem pointRecordRanges : Obligations.PointRecordRanges := by
  refine ⟨fun mode d scale h => projected_bounds mode d h, fun mode d => ?full, fun mode w d rho hd hs hr hlo hhi => ?radius,
    fun e c cal rd => ?flags⟩
  case full =>
    rw [projected_eq]
    have := roundingBias_lt mode
    omega
  case radius =>
    obtain ⟨low, high⟩ := projected_bounds mode d hs
    unfold radius
    omega
  case flags =>
    intro f
    show ¬ (decide (classify rd.distance rd.intensity e.floor = .void) = true ∧
        decide (classify rd.distance rd.intensity e.floor = .dim) = true) ∧
      ¬ (decide (classify rd.distance rd.intensity e.floor = .void) = true ∧
        (judgedRadius e c.settings cal.working (classify rd.distance rd.intensity e.floor) rd.distance).2 = true)
    simp only [decide_eq_true_eq]
    constructor
    · rintro ⟨void, dim⟩
      rw [void] at dim
      cases dim
    · rintro ⟨void, range⟩
      rw [void] at range
      cases range

/-! ### What a point record holds (R128 to R137) -/

section
variable {e : TagEntry} {p : PassSettings} {w : Settings} {cls : ReadingClass} {d : Nat}

theorem judgedRadius_within (hcls : cls ≠ .void)
    (h : ¬ (radius p.rounding w d e.rho < p.rLo ∨ (p.rHi : Int) < radius p.rounding w d e.rho)) :
    judgedRadius e p w cls d = (radius p.rounding w d e.rho, false) := by
  have within : radiusOut p (radius p.rounding w d e.rho) = false := by simpa [radiusOut] using h
  cases cls <;> simp_all [judgedRadius]

theorem judgedRadius_out (hcls : cls ≠ .void)
    (h : radius p.rounding w d e.rho < p.rLo ∨ (p.rHi : Int) < radius p.rounding w d e.rho) :
    judgedRadius e p w cls d = (if p.range = .keep then radius p.rounding w d e.rho else 0, true) := by
  have out : radiusOut p (radius p.rounding w d e.rho) = true := by simpa [radiusOut] using h
  cases cls <;> cases hr : p.range <;> simp_all [judgedRadius]

end

/-- The class of a reading, counted (R129, R140). -/
theorem countClass_classify (d i floor : Nat) (k : Counters) : countClass (classify d i floor) k = { k with
    void := if d = 16777215 then satInc k.void else k.void
    dim := if ¬ d = 16777215 ∧ i < floor then satInc k.dim else k.dim } := by
  unfold classify noReturn
  split_ifs <;> simp_all [countClass]

/-- An emitted point, counted (R140). -/
theorem countEmitted_eq (o : TagOrigin) (q : PointRecord) (k : Counters) : countEmitted o q k = { k with
    emittedMain := if o = .retry then k.emittedMain else satInc k.emittedMain
    emittedRetry := if o = .retry then satInc k.emittedRetry else k.emittedRetry
    range := if q.flags.range = true then satInc k.range else k.range } := by
  unfold countEmitted
  cases o <;> cases q.flags.range <;> rfl

/-! ### Matching (R114, R115) -/

section
variable {s : State} {e : TagEntry} {rest : List TagEntry} {rd : Reading}

/-- The queue without its head, and no timeout in a row. -/
def matchedState (rest : List TagEntry) (s : State) : State :=
  { s with prb := { s.prb with queue := rest, timeouts := 0 } }

theorem matchReading_at {n : Nat} (h : tagIndex s.prb.queue rd.tag = some n) :
    matchReading rd s = resolveHeadReading rd (skipEntries n (s.setPrb { s.prb with timeouts := 0 })) := by
  rw [matchReading, h]

theorem resolveHeadReading_of_head (rd : Reading) (hq : s.prb.queue = e :: rest) :
    resolveHeadReading rd s = resolveReading e rd (s.setPrb { s.prb with queue := rest }) := by
  rw [resolveHeadReading, hq]

theorem resolveHeadMiss_of_head (cause : MissCause) (hq : s.prb.queue = e :: rest) :
    resolveHeadMiss cause s = resolveMiss e cause (s.setPrb { s.prb with queue := rest }) := by
  rw [resolveHeadMiss, hq]

/-- The reading of the entry at the head resolves it. -/
theorem matchReading_head (hq : s.prb.queue = e :: rest) (htag : e.tag = rd.tag) :
    matchReading rd s = resolveReading e rd (matchedState rest s) := by
  have index : tagIndex s.prb.queue rd.tag = some 0 := by
    rw [tagIndex, hq, List.findIdx?_cons, if_pos (by simpa using htag)]
  rw [matchReading_at index, skipEntries, resolveHeadReading_of_head rd (by exact hq)]
  rfl

/-- An entry ahead of the match is skipped, and what is left is matched. -/
theorem matchReading_skips (hq : s.prb.queue = e :: rest) (htag : e.tag ≠ rd.tag) (hin : ∃ x ∈ rest, x.tag = rd.tag) :
    matchReading rd s = matchReading rd (resolveMiss e .skipped (matchedState rest s)) := by
  obtain ⟨n, hn⟩ : ∃ n, tagIndex rest rd.tag = some n := by
    obtain ⟨x, hx, hxt⟩ := hin
    rw [← Option.isSome_iff_exists, tagIndex, List.findIdx?_isSome, List.any_eq_true]
    exact ⟨x, hx, by simp [hxt]⟩
  have index : tagIndex s.prb.queue rd.tag = some (n + 1) := by
    rw [tagIndex] at hn
    rw [tagIndex, hq, List.findIdx?_cons, if_neg (by simpa using htag), hn]
    rfl
  have skipped : (resolveMiss e .skipped (matchedState rest s)).prb = (matchedState rest s).prb := by simp
  have again : (resolveMiss e .skipped (matchedState rest s)).setPrb { (matchedState rest s).prb with timeouts := 0 } =
      resolveMiss e .skipped (matchedState rest s) := by
    rw [show ({ (matchedState rest s).prb with timeouts := 0 } : Prb) = (matchedState rest s).prb from rfl, ← skipped]
    rfl
  rw [matchReading_at index, matchReading_at (s := resolveMiss e .skipped (matchedState rest s)) (n := n)
    (by rw [skipped]; exact hn), skipped, again, skipEntries, resolveHeadMiss_of_head .skipped (by exact hq)]
  rfl

/-- A reading that is not dropped and finds room is appended (R128, R130, R138). -/
theorem resolveReading_appends {c : PassCtx} (hc : findCtx e.passId s.psc = some c)
    (hdrop : dropsOut c.settings.dropout (classify rd.distance rd.intensity e.floor) = false)
    (hroom : bufferLoad s < bufferSize) :
    resolveReading e rd s = settle e (modCtx e.passId
      (fun d => onCounters (countEmitted e.origin (buildPoint e c s.cal rd))
        (onCounters (countClass (classify rd.distance rd.intensity e.floor)) d))
      (appendRecord (.point (buildPoint e c s.cal rd)) s)) := by
  simp only [resolveReading, hc, pointOutcome, hdrop, hroom, if_true, Bool.false_eq_true, if_false]
  rw [modCtx_comp (onCounters_settings _)]

theorem resolveReading_drops {c : PassCtx} (hc : findCtx e.passId s.psc = some c)
    (hdrop : dropsOut c.settings.dropout (classify rd.distance rd.intensity e.floor) = true) :
    resolveReading e rd s = resolveMiss e .dropout
      (modCtx e.passId (onCounters (countClass (classify rd.distance rd.intensity e.floor))) s) := by
  simp only [resolveReading, hc, pointOutcome, hdrop, if_true]

theorem resolveReading_full {c : PassCtx} (hc : findCtx e.passId s.psc = some c)
    (hdrop : dropsOut c.settings.dropout (classify rd.distance rd.intensity e.floor) = false)
    (hfull : bufferSize ≤ bufferLoad s) :
    resolveReading e rd s = resolveMiss e .full
      (modCtx e.passId (onCounters (countClass (classify rd.distance rd.intensity e.floor))) s) := by
  simp only [resolveReading, hc, pointOutcome, hdrop, Nat.not_lt.2 hfull, if_false, Bool.false_eq_true]

end

theorem dropsOut_iff {policy : DropoutPolicy} {d i floor : Nat} : dropsOut policy (classify d i floor) = true ↔
    policy = .retry ∧ (d = 16777215 ∨ ¬ d = 16777215 ∧ i < floor) := by
  have clear := classify_clear (d := d) (i := i) (floor := floor)
  simp only [dropsOut, Bool.and_eq_true, decide_eq_true_eq, ne_eq, clear, not_not]

theorem countClass_cause (cls : ReadingClass) (k : Counters) :
    (countClass cls k).pushes = k.pushes ∧ (countClass cls k).overflowLost = k.overflowLost ∧
      (countClass cls k).lateMissed = k.lateMissed ∧ (countClass cls k).retryLost = k.retryLost ∧
      (countClass cls k).timeout = k.timeout ∧ (countClass cls k).skipped = k.skipped ∧
      (countClass cls k).full = k.full := by
  cases cls <;> exact ⟨rfl, rfl, rfl, rfl, rfl, rfl, rfl⟩

/-- Settles O41: an entry ahead of the match by `matchReading_skips`; the match by the three answers of PNT, of which the
misses go by `resolveMiss_rule` and the point by `settle_rule`. -/
theorem readingBecomesPoint : Obligations.ReadingBecomesPoint := by
  intro s e rest b1 b2 b3 b4 b5 b6 hrx hq tag d i void dim counts chars matched
  let rd := readingOf b1 b2 b3 b4 b5 b6
  have received : ∀ s, s.prb.rx = .hunting → exec (.reading chars) s = .next (matchReading rd s) := fun s hs => by
    have frame := exec_readingFrame hs b1 b2 b3 b4 b5 b6 (b1 + b2 + b3 + b4 + b5 + b6)
    rw [if_pos rfl] at frame
    exact frame
  have counted : countClass (classify d i e.floor) = counts := funext fun k => countClass_classify d i e.floor k
  refine ⟨fun htag hin => ?skipped, fun c htag hc => ?headed⟩
  case skipped =>
    refine ⟨resolveMiss e .skipped matched, ?_, ?_⟩
    · have resolved := resolveMiss_rule e .skipped id (fun _ => ⟨rfl, rfl, rfl, rfl, rfl, rfl, rfl⟩) matched
      rwa [show modCtx e.passId (onCounters id) matched = matched from modCtx_id e.passId matched] at resolved
    · rw [received s hrx, received _ (by simpa [matched] using hrx), matchReading_skips hq htag hin]
      rfl
  case headed =>
    have resolves : exec (.reading chars) s = .next (resolveReading e rd matched) := by
      rw [received s hrx, matchReading_head hq htag]
      rfl
    have keeps : c.settings.dropout = .emit ∨ ¬ (void ∨ dim) →
        dropsOut c.settings.dropout (classify d i e.floor) = false := fun h => by
      rw [← Bool.not_eq_true, dropsOut_iff]
      rintro ⟨hretry, hdim⟩
      obtain hemit | hclear := h
      · rw [hemit] at hretry
        cases hretry
      · exact hclear hdim
    have missed : ∀ cause, missResolved e cause counts matched
        (resolveMiss e cause (modCtx e.passId (onCounters (countClass (classify d i e.floor))) matched)) := fun cause => by
      rw [← counted]
      exact resolveMiss_rule e cause _ (countClass_cause _) matched
    refine ⟨fun hretry hdim => ⟨_, resolves, ?_⟩, fun hkeep hfull => ⟨_, resolves, ?_⟩, fun hkeep hroom => ?appended⟩
    · rw [resolveReading_drops (s := matched) (rd := rd) hc (dropsOut_iff.2 ⟨hretry, hdim⟩)]
      exact missed .dropout
    · rw [resolveReading_full (s := matched) (rd := rd) hc (keeps hkeep) hfull]
      exact missed .full
    case appended =>
      intro r out
      let q := buildPoint e c s.cal rd
      have void_iff : classify d i e.floor = .void ↔ void := classify_void
      have judged : q.radius = (judgedRadius e c.settings s.cal.working (classify d i e.floor) d).1 ∧
          q.flags.range = (judgedRadius e c.settings s.cal.working (classify d i e.floor) d).2 := ⟨rfl, rfl⟩
      have judged_void : void → q.radius = 0 ∧ q.flags.range = false := fun h => by
        rw [judged.1, judged.2, void_iff.2 h]
        exact ⟨rfl, rfl⟩
      have judged_within : ¬ void → ¬ out → q.radius = r ∧ q.flags.range = false := fun h h' => by
        rw [judged.1, judged.2, judgedRadius_within (mt void_iff.1 h) fun hr => h' ⟨h, hr⟩]
        exact ⟨rfl, rfl⟩
      have judged_out : out → q.radius = (if c.settings.range = .keep then r else 0) ∧ q.flags.range = true := fun h => by
        rw [judged.1, judged.2, judgedRadius_out (mt void_iff.1 h.1) h.2]
        exact ⟨rfl, rfl⟩
      have range_iff : q.flags.range = true ↔ out := by
        by_cases hv : void
        · simp [(judged_void hv).2, out, hv]
        · by_cases ho : out
          · simp [(judged_out ho).2, ho]
          · simp [(judged_within hv ho).2, ho]
      have settled := settle_rule e (f := fun d' => onCounters (countEmitted e.origin q)
          (onCounters (countClass (classify d i e.floor)) d')) (fun _ => rfl) (g := fun k => { counts k with
            emittedMain := if e.origin = .retry then k.emittedMain else satInc k.emittedMain
            emittedRetry := if e.origin = .retry then satInc k.emittedRetry else k.emittedRetry
            range := if out then satInc k.range else k.range })
        (fun d' => by simp only [onCounters, countEmitted_eq, counted, range_iff]; rfl) (appendRecord (.point q) matched)
      refine ⟨_, q, resolves.trans (by rw [resolveReading_appends (s := matched) (rd := rd) hc (keeps hkeep) hroom]; rfl),
        settled, rfl, rfl, rfl, rfl, rfl, rfl, rfl, rfl, rfl, fun ho => ?_, fun ho => ?_, fun hv => (judged_void hv).1,
        fun hv ho => (judged_within hv ho).1, fun ho => ?_, rfl, ?_, ?_, ?_, rfl, range_iff, rfl, ?_⟩
      · simp [q, buildPoint, ho]
      · simp [q, buildPoint, ho]
      · rw [(judged_out ho).1]
        cases c.settings.range <;> rfl
      · simp [q, buildPoint, pointFlags]
      · simp [q, buildPoint, pointFlags, ← void_iff, rd, readingOf, d, i]
      · simp [q, buildPoint, pointFlags, rd, readingOf, dim, void, classify_dim, d, i]
      · simp [q, buildPoint, pointFlags]

end Sys2Proof.Machine
end

