-- ==== Sys2Proof/Proofs/Lattice.lean ====
section
/-! PROOFS. Proofs/Lattice.lean: the lattice points of a blade and the points crossed between two positions (R44, R51, R86,
R87). -/

namespace Sys2Proof.Machine

open Sys2Proof

/-! ### The points of a window -/

theorem windowOk.step_pos {w : Window} (h : windowOk w) : 1 ≤ w.step := by
  obtain ⟨-, -, hstep, -⟩ := h
  exact hstep

theorem windowOk.start_lt {w : Window} (h : windowOk w) : w.start < w.stop := h.1

/-- The index from which a window's points lie at or above a phase. -/
theorem firstIndexFrom_le {w : Window} (hstep : 1 ≤ w.step) {x j : Nat} :
    firstIndexFrom w x ≤ j ↔ x ≤ latticePhase w j := by
  unfold firstIndexFrom latticePhase
  rw [← Nat.lt_succ_iff, Nat.div_lt_iff_lt_mul hstep, Nat.succ_mul]
  omega

theorem mem_indicesIn {w : Window} (hstep : 1 ≤ w.step) {lo hi j : Nat} :
    j ∈ indicesIn w lo hi ↔ j < latticeCount w ∧ lo ≤ latticePhase w j ∧ latticePhase w j < hi := by
  have from_lo := firstIndexFrom_le hstep (x := lo) (j := j)
  have from_hi := firstIndexFrom_le hstep (x := hi) (j := j)
  unfold indicesIn
  simp only [List.mem_range'_1]
  omega

theorem latticePhase_lt_stop {w : Window} (hstart : w.start < w.stop) {j : Nat} (hj : j < latticeCount w) :
    latticePhase w j < w.stop := by
  have bound : j ≤ (w.stop - 1 - w.start) / w.step := Nat.lt_succ_iff.1 hj
  have : j * w.step ≤ w.stop - 1 - w.start := (Nat.mul_le_mul_right _ bound).trans (Nat.div_mul_le_self _ _)
  unfold latticePhase
  omega

theorem indicesIn_ascends {w : Window} (hstep : 1 ≤ w.step) (lo hi : Nat) :
    (indicesIn w lo hi).Pairwise fun i j => latticePhase w i < latticePhase w j := by
  unfold indicesIn
  refine List.Pairwise.imp (fun {i j} hij => ?_) (List.pairwise_lt_range' (step := 1))
  exact Nat.add_lt_add_left (Nat.mul_lt_mul_of_pos_right hij hstep) _

/-! ### The points of a blade -/

theorem mem_bladePoints {bank : Bank} {blades blade lo hi : Nat} (hok : ∀ v ∈ bank.windows, windowOk v)
    {pt : CrossedPoint} : pt ∈ bladePoints bank blades blade lo hi ↔
      pt.blade = blade ∧ bank.windows[pt.index]? = some pt.window ∧ covers pt.window.range blades blade = true ∧
        pt.j < latticeCount pt.window ∧ lo ≤ latticePhase pt.window pt.j ∧ latticePhase pt.window pt.j < hi := by
  have step : ∀ {i} {w : Window}, bank.windows[i]? = some w → 1 ≤ w.step := fun h =>
    (hok _ (List.mem_of_getElem? h)).step_pos
  unfold bladePoints
  simp only [List.mem_flatMap, Prod.exists, List.mem_zipIdx_iff_getElem?]
  constructor
  · rintro ⟨w, i, hw, hpt⟩
    split_ifs at hpt with hcovers
    · obtain ⟨j, hj, rfl⟩ := List.mem_map.1 hpt
      exact ⟨rfl, hw, hcovers, (mem_indicesIn (step hw)).1 hj⟩
    · cases hpt
  · rintro ⟨rfl, hw, hcovers, hj⟩
    refine ⟨pt.window, pt.index, hw, ?_⟩
    rw [if_pos hcovers]
    exact List.mem_map.2 ⟨pt.j, (mem_indicesIn (step hw)).2 hj, rfl⟩

/-- In a valid bank the points of a blade ascend: those of one window by index, those of two windows because windows that
share a blade do not overlap (R51; log entry 21). -/
theorem bladePoints_ascends {bank : Bank} {blades blade : Nat} (hok : ∀ v ∈ bank.windows, windowOk v)
    (hvalid : bankValid bank blades) (hblade : blade < blades) (lo hi : Nat) :
    (bladePoints bank blades blade lo hi).Pairwise fun a b =>
      latticePhase a.window a.j < latticePhase b.window b.j := by
  obtain ⟨-, -, -, -, apart⟩ := hvalid
  -- what a point of the window `v` is
  have point : ∀ {v : Window} {i : Nat} {pt : CrossedPoint}, v ∈ bank.windows →
      (pt ∈ if covers v.range blades blade then (indicesIn v lo hi).map fun j =>
        ({ blade := blade, index := i, j := j, window := v } : CrossedPoint) else []) →
      covers v.range blades blade = true ∧ v.start ≤ latticePhase pt.window pt.j ∧
        latticePhase pt.window pt.j < v.stop := by
    intro v i pt hv hpt
    split_ifs at hpt with hcovers
    · obtain ⟨j, hj, rfl⟩ := List.mem_map.1 hpt
      obtain ⟨hcount, -, -⟩ := (mem_indicesIn (hok v hv).step_pos).1 hj
      exact ⟨hcovers, Nat.le_add_right _ _, latticePhase_lt_stop (hok v hv).start_lt hcount⟩
    · cases hpt
  unfold bladePoints
  refine List.pairwise_flatMap.2 ⟨fun wi hwi => ?_, ?_⟩
  · have hw : wi.1 ∈ bank.windows := List.mem_of_getElem? (List.mem_zipIdx_iff_getElem?.1 hwi)
    split_ifs
    · exact List.pairwise_map.2 (indicesIn_ascends (hok _ hw).step_pos lo hi)
    · exact .nil
  · have windows : (bank.windows.zipIdx.map Prod.fst).Pairwise fun v w =>
        shareABlade v.range w.range blades → v.stop ≤ w.start := by
      rw [List.zipIdx_map_fst]
      exact apart
    refine (List.pairwise_map.1 windows).imp_of_mem fun {vi wi} hvi hwi happart a ha b hb => ?_
    have mem : ∀ {x : Window × Nat}, x ∈ bank.windows.zipIdx → x.1 ∈ bank.windows := fun hx =>
      List.mem_of_getElem? (List.mem_zipIdx_iff_getElem?.1 hx)
    obtain ⟨hcovers, -, below⟩ := point (mem hvi) ha
    obtain ⟨hcovers', above, -⟩ := point (mem hwi) hb
    exact lt_of_lt_of_le below ((happart ⟨blade, hblade, hcovers, hcovers'⟩).trans above)

/-! ### Crossing (R86, R87) -/

theorem samePitch_iff {w : Workpiece} {before now : BladePhase} : samePitch w before now = true ↔
    before.blade = now.blade ∧ (w.blades ≠ 1 ∨ before.phase ≤ now.phase) := by
  simp [samePitch]

/-- Settles O24: each part of a crossing is the points of one blade in an interval of phases. -/
theorem crossedPointsAreThosePassed : Obligations.CrossedPointsAreThosePassed := by
  intro w bank before now hw hbefore hnow hok onBlade phase
  have part : ∀ {blade lo hi}, blade < w.blades → ∀ pt, pt ∈ bladePoints bank w.blades blade lo hi ↔
      onBlade pt blade ∧ lo ≤ phase pt ∧ phase pt < hi := fun {blade lo hi} hblade pt => by
    have count : pt.j < latticeCount pt.window ↔ pt.j ≤ (pt.window.stop - 1 - pt.window.start) / pt.window.step :=
      Nat.lt_succ_iff
    rw [mem_bladePoints hok, covers_iff hblade, count]
    simp only [onBlade, and_assoc]
    rfl
  refine ⟨fun hsame pt => ?_, fun hother => ?_, fun hvalid lo hi => bladePoints_ascends hok hvalid hnow lo hi⟩
  · rw [crossedBetween, if_pos (samePitch_iff.2 hsame), part hnow]
    simp only [Nat.succ_le_iff, Nat.lt_succ_iff]
  · rw [crossedBetween, if_neg (mt samePitch_iff.1 hother)]
    refine ⟨_, _, rfl, fun pt => ?_, fun pt => ?_⟩
    · rw [part hbefore]
      simp only [Nat.succ_le_iff]
    · rw [part hnow]
      simp only [Nat.lt_succ_iff, Nat.zero_le, true_and]

end Sys2Proof.Machine
end

