-- ==== Sys2Proof/Proofs/TurnPositions.lean ====
section
/-! PROOFS. Proofs/TurnPositions.lean: the position around the turn that a count, and a blade with a phase, stand at
(sections 2.2, 2.4, 2.5). A count moves that position forward by its advance, and no two points of a turn share one. -/

namespace Sys2Proof.Machine

open Sys2Proof

/-! ### The position of a count -/

/-- The table angle of an unwrapped position, turns included (R22). -/
def angleOf (cpr : Nat) (u : Int) : Int := u * 16777216 / cpr

/-- Q of an unwrapped position, turns included (R28). -/
def positionOf (w : Workpiece) (cpr : Nat) (u : Int) : Int := (angleOf cpr u - w.datum) * w.blades

theorem angleOf_turn {cpr : Nat} (h : 0 < cpr) (u : Int) : angleOf cpr (u + cpr) = angleOf cpr u + 16777216 := by
  have hpos : (cpr : Int) ≠ 0 := by omega
  unfold angleOf
  rw [← Int.add_mul_ediv_right _ _ hpos]
  congr 1
  ring

theorem angleOf_mono {cpr : Nat} (h : 0 < cpr) {u v : Int} (huv : u ≤ v) : angleOf cpr u ≤ angleOf cpr v :=
  Int.ediv_le_ediv (by omega) (by omega)

/-- One count moves the table angle by the floor of 2^24 / CPR or by one more (R23). -/
theorem angleOf_succ {cpr : Nat} (h : 0 < cpr) (u : Int) :
    angleOf cpr (u + 1) = angleOf cpr u + (16777216 / cpr : Nat) ∨
      angleOf cpr (u + 1) = angleOf cpr u + (16777216 / cpr + 1 : Nat) := by
  have hpos : (0 : Int) < cpr := by omega
  have share_le : ((16777216 / cpr : Nat) : Int) * cpr ≤ 16777216 := by exact_mod_cast Nat.div_mul_le_self 16777216 cpr
  have lt_share : (16777216 : Int) < ((16777216 / cpr : Nat) + 1) * cpr := by
    exact_mod_cast (Nat.div_lt_iff_lt_mul h).1 (Nat.lt_succ_self (16777216 / cpr))
  have here_le : angleOf cpr u * cpr ≤ u * 16777216 := Int.ediv_mul_le _ hpos.ne'
  have lt_here : u * 16777216 < (angleOf cpr u + 1) * cpr := Int.lt_ediv_add_one_mul_self _ hpos
  have low : angleOf cpr u + (16777216 / cpr : Nat) ≤ angleOf cpr (u + 1) := by
    refine (Int.le_ediv_iff_mul_le hpos).2 ?_
    linarith [add_mul (angleOf cpr u) ((16777216 / cpr : Nat) : Int) cpr]
  have high : angleOf cpr (u + 1) < angleOf cpr u + (16777216 / cpr : Nat) + 2 := by
    refine (Int.ediv_lt_iff_lt_mul hpos).2 ?_
    linarith [add_mul (angleOf cpr u + 1) (((16777216 / cpr : Nat) : Int) + 1) cpr]
  omega

theorem angleOf_succ_le {cpr : Nat} (h : 1024 ≤ cpr) (u : Int) : angleOf cpr (u + 1) ≤ angleOf cpr u + 16384 := by
  have hpos : (cpr : Int) ≠ 0 := by omega
  unfold angleOf
  rw [← Int.add_mul_ediv_right _ _ hpos]
  exact Int.ediv_le_ediv (by omega) (by omega)

/-- The table angle of the turn count is that of the position, without its turns (R19). -/
theorem tableAngle_turnCount {cpr : Nat} (h : 0 < cpr) (u : Int) :
    (tableAngle cpr (turnCount cpr u) : Int) + 16777216 * (u / cpr) = angleOf cpr u := by
  have hpos : (cpr : Int) ≠ 0 := by omega
  have count : ((turnCount cpr u : Nat) : Int) = u % cpr := Int.toNat_of_nonneg (Int.emod_nonneg _ hpos)
  rw [tableAngle_eq, Int.natCast_ediv, Int.natCast_mul, count, angleOf, ← Int.add_mul_ediv_right _ _ hpos]
  congr 1
  have split := Int.mul_ediv_add_emod u cpr
  calc u % cpr * 16777216 + 16777216 * (u / cpr) * cpr = (cpr * (u / cpr) + u % cpr) * 16777216 := by ring
    _ = u * 16777216 := by rw [split]

/-- Q around the turn is that of the position (R28). -/
theorem turnPhase_modEq (w : Workpiece) {cpr : Nat} (h : 0 < cpr) (u : Int) :
    (turnPhase w (tableAngle cpr (turnCount cpr u)) : Int) ≡ positionOf w cpr u [ZMOD w.blades * 16777216] := by
  have offset : ((((tableAngle cpr (turnCount cpr u) : Int) - w.datum) % (pitchUnits : Int)).toNat : Int) =
      ((tableAngle cpr (turnCount cpr u) : Int) - w.datum) % 16777216 :=
    Int.toNat_of_nonneg (Int.emod_nonneg _ (by decide))
  rw [turnPhase, Int.natCast_mul, offset, positionOf, ← tableAngle_turnCount h u, mul_comm (w.blades : Int)]
  refine Int.ModEq.mul_right' ((Int.mod_modEq _ _).trans ?_)
  refine Int.ModEq.symm (Int.modEq_iff_dvd.2 ⟨-(u / cpr), ?_⟩)
  ring

/-! ### The position of a blade's phase -/

/-- Where the trimmed pitch of a blade starts around the turn (R30). -/
def pitchStart (w : Workpiece) (k : Nat) : Int := k * 16777216 + trim w k

theorem bladePhaseAt_position {w : Workpiece} (hw : workpieceOk w) {cpr : Nat} (h : 0 < cpr) (u : Int) :
    pitchStart w (bladePhaseAt w cpr u).blade + (bladePhaseAt w cpr u).phase ≡ positionOf w cpr u
      [ZMOD w.blades * 16777216] := by
  obtain ⟨hblade, -, hq⟩ := nominal_bounds hw (tableAngle cpr (turnCount cpr u))
  have position := trimmed_position_modEq hw hblade
  refine position.trans (Int.ModEq.trans ?_ (turnPhase_modEq w h u))
  rw [← hq, Nat.cast_add, Nat.cast_mul]
  rfl

theorem bladePhaseAt_phase_lt {w : Workpiece} (hw : workpieceOk w) (cpr : Nat) (u : Int) :
    (bladePhaseAt w cpr u).phase < pitchLength w (bladePhaseAt w cpr u).blade := by
  obtain ⟨hblade, hphase, -⟩ := nominal_bounds hw (tableAngle cpr (turnCount cpr u))
  exact trimmed_phase_lt hw hblade hphase

/-- A pitch ends where the next begins, or a turn after the first began. -/
theorem pitchStart_add_length {w : Workpiece} (hw : workpieceOk w) {k : Nat} (hk : k < w.blades) :
    pitchStart w k + pitchLength w k =
      pitchStart w (nextBlade w k) + if k + 1 = w.blades then (w.blades : Int) * 16777216 else 0 := by
  rw [pitchLength_eq hw]
  unfold pitchStart nextBlade
  split_ifs with hlast
  · rw [hlast, Nat.mod_self]
    push_cast [← hlast]
    ring
  · rw [Nat.mod_eq_of_lt (by omega)]
    push_cast
    ring

/-- Every phase of a pitch stands in the turn that begins with the first pitch. -/
theorem pitch_in_turn {w : Workpiece} (hw : workpieceOk w) {k f : Nat} (hk : k < w.blades) (hf : f < pitchLength w k) :
    pitchStart w 0 ≤ pitchStart w k + f ∧ pitchStart w k + f < pitchStart w 0 + w.blades * 16777216 := by
  have ends := pitchStart_add_length hw hk
  have first := trim_bounds hw 0
  have own := trim_bounds hw k
  have next := trim_bounds hw (nextBlade w k)
  unfold pitchStart at *
  split_ifs at ends with hlast
  · rw [nextBlade, hlast, Nat.mod_self] at ends
    have : k = 0 ∨ 1 ≤ k := by omega
    obtain rfl | hk := this <;> omega
  · rw [nextBlade, Nat.mod_eq_of_lt (by omega)] at ends next
    have : k = 0 ∨ 1 ≤ k := by omega
    obtain rfl | hk := this <;> omega

/-- A position of the turn has one blade and one phase. -/
theorem pitch_position_unique {w : Workpiece} (hw : workpieceOk w) {k f k' f' : Nat} (hk : k < w.blades)
    (hf : f < pitchLength w k) (hk' : k' < w.blades) (hf' : f' < pitchLength w k')
    (h : pitchStart w k + f ≡ pitchStart w k' + f' [ZMOD w.blades * 16777216]) : k = k' ∧ f = f' := by
  obtain ⟨low, high⟩ := pitch_in_turn hw hk hf
  obtain ⟨low', high'⟩ := pitch_in_turn hw hk' hf'
  have equal : pitchStart w k + f = pitchStart w k' + f' := by
    have := Int.eq_zero_of_abs_lt_dvd h.dvd (by rw [abs_lt]; omega)
    omega
  -- an earlier pitch ends before a later one begins
  have before : ∀ {a b : Nat}, a < b → b < w.blades → pitchStart w a + pitchLength w a ≤ pitchStart w b := by
    intro a b hab hb
    have ends := pitchStart_add_length hw (show a < w.blades by omega)
    rw [if_neg (by omega), nextBlade, Nat.mod_eq_of_lt (by omega)] at ends
    have next := trim_bounds hw (a + 1)
    have later := trim_bounds hw b
    unfold pitchStart at *
    by_cases hb : b = a + 1
    · subst hb
      push_cast at *
      omega
    · push_cast at *
      omega
  have same : k = k' := by
    obtain hlt | hlt | hlt := Nat.lt_trichotomy k k'
    · have := before hlt hk'
      omega
    · exact hlt
    · have := before hlt hk
      omega
  subst same
  exact ⟨rfl, by omega⟩

/-! ### The advance of a count (R34, R35) -/

/-- From a position on, the pitch goes on or the next one begins. -/
theorem pitch_advances {w : Workpiece} (hw : workpieceOk w) {old new : BladePhase} {advance : Nat}
    (hold : old.blade < w.blades) (holdp : old.phase < pitchLength w old.blade) (hnew : new.blade < w.blades)
    (hnewp : new.phase < pitchLength w new.blade) (hadvance : advance ≤ 2097152)
    (h : pitchStart w new.blade + new.phase ≡ pitchStart w old.blade + old.phase + advance [ZMOD w.blades * 16777216]) :
    (old.phase + advance < pitchLength w old.blade ∧ new.blade = old.blade ∧ new.phase = old.phase + advance) ∨
      (pitchLength w old.blade ≤ old.phase + advance ∧ new.blade = nextBlade w old.blade ∧
        new.phase + pitchLength w old.blade = old.phase + advance) := by
  by_cases hin : old.phase + advance < pitchLength w old.blade
  · refine .inl ⟨hin, ?_⟩
    rw [add_assoc, ← Nat.cast_add] at h
    exact pitch_position_unique hw hnew hnewp hold hin h
  · obtain ⟨past, hpast⟩ := Nat.exists_eq_add_of_le (Nat.not_lt.1 hin)
    have short := pitchLength_bounds hw (nextBlade w old.blade)
    have hnext : nextBlade w old.blade < w.blades := Nat.mod_lt _ hw.1
    have ends := pitchStart_add_length hw hold
    have begun : pitchStart w old.blade + old.phase + advance ≡ pitchStart w (nextBlade w old.blade) + past
        [ZMOD w.blades * 16777216] := by
      refine Int.ModEq.symm (Int.modEq_iff_dvd.2 ?_)
      split_ifs at ends with hlast
      · exact ⟨1, by omega⟩
      · exact ⟨0, by omega⟩
    obtain ⟨blade, phase⟩ := pitch_position_unique hw hnew hnewp hnext (by omega) (h.trans begun)
    exact .inr ⟨Nat.not_lt.1 hin, blade, by omega⟩

/-- What one count advances Q by. -/
theorem positionOf_succ (w : Workpiece) {cpr : Nat} (hw : workpieceOk w) (h : 1024 ≤ cpr) (u : Int) :
    ∃ advance : Nat, positionOf w cpr (u + 1) = positionOf w cpr u + advance ∧ advance ≤ 2097152 ∧
      (advance = w.blades * (16777216 / cpr) ∨ advance = w.blades * (16777216 / cpr + 1)) := by
  obtain ⟨-, hblades, -⟩ := hw
  have few := angleOf_succ_le h u
  have moved : ∀ a : Nat, angleOf cpr (u + 1) = angleOf cpr u + a →
      positionOf w cpr (u + 1) = positionOf w cpr u + (w.blades * a : Nat) ∧ w.blades * a ≤ 2097152 := fun a ha => by
    refine ⟨?_, ?_⟩
    · unfold positionOf
      rw [ha]
      push_cast
      ring
    · exact Nat.mul_le_mul hblades (show a ≤ 16384 by omega)
  obtain low | high := angleOf_succ (by omega : 0 < cpr) u
  · obtain ⟨position, bound⟩ := moved _ low
    exact ⟨_, position, bound, .inl rfl⟩
  · obtain ⟨position, bound⟩ := moved _ high
    exact ⟨_, position, bound, .inr rfl⟩

/-- What one count makes of the blade and the phase. -/
theorem bladePhaseAt_succ {w : Workpiece} (hw : workpieceOk w) {cpr : Nat} (h : 1024 ≤ cpr) (u : Int) {advance : Nat}
    (hpos : positionOf w cpr (u + 1) = positionOf w cpr u + advance) (hadvance : advance ≤ 2097152) :
    let old := bladePhaseAt w cpr u
    let new := bladePhaseAt w cpr (u + 1)
    (old.phase + advance < pitchLength w old.blade ∧ new.blade = old.blade ∧ new.phase = old.phase + advance) ∨
      (pitchLength w old.blade ≤ old.phase + advance ∧ new.blade = nextBlade w old.blade ∧
        new.phase + pitchLength w old.blade = old.phase + advance) := by
  intro old new
  have here := bladePhaseAt_position hw (by omega : 0 < cpr) u
  have there := bladePhaseAt_position hw (by omega : 0 < cpr) (u + 1)
  refine pitch_advances hw (bladePhaseAt_blade_lt hw cpr u) (bladePhaseAt_phase_lt hw cpr u)
    (bladePhaseAt_blade_lt hw cpr (u + 1)) (bladePhaseAt_phase_lt hw cpr (u + 1)) hadvance ?_
  rw [hpos] at there
  exact there.trans (here.symm.add_right _)

/-- Settles O23. -/
theorem oneCountMovesPhase : Obligations.OneCountMovesPhase := by
  intro w cpr u hw hmin _ old new
  obtain ⟨advance, position, bound, share⟩ := positionOf_succ w hw hmin u
  refine ⟨advance, share, bound, ?_⟩
  obtain ⟨-, blade, phase⟩ | ⟨-, blade, phase⟩ := bladePhaseAt_succ hw hmin u position bound
  · exact .inl ⟨blade, phase⟩
  · exact .inr ⟨blade, phase⟩

end Sys2Proof.Machine
end

