-- ==== Sys2Proof/Proofs/Triggers.lean ====
section
/-! PROOFS. Proofs/Triggers.lean: what a point crossed in the main span or in a retry turn leaves, and the Miss Stack's push
and take (R90 to R101, R147 to R150). -/

namespace Sys2Proof.Machine

open Sys2Proof

/-! ### The tests of R90 and R100 -/

variable {s : State} {l : Lead} {u : Int} {pt : CrossedPoint}

/-- The point lies past its required gate (R91). -/
def pastGate (s : State) (w : Window) : Prop := ∃ g, w.gate = some g ∧ (s.gte.gates.get g.gate).driven ≠ g.level

theorem gateAllows_iff {w : Window} : gateAllows s w = true ↔ ¬ pastGate s w := by
  unfold gateAllows pastGate
  cases w.gate <;> simp

theorem tminPassed_iff {p : Prb} {now : Nat} :
    tminPassed p now = true ↔ ∀ t, p.lastTrigger = some t → t + p.tmin * 100 ≤ now := by
  unfold tminPassed usTicks
  cases p.lastTrigger <;> simp

theorem probeFree_iff : probeFree s = true ↔
    (∀ t, s.prb.lastTrigger = some t → t + s.prb.tmin * 100 ≤ s.now) ∧ s.prb.queue.length < 4 := by
  unfold probeFree
  rw [Bool.and_eq_true, tminPassed_iff, decide_eq_true_eq]
  rfl

theorem gateFaultFlag_iff : gateFaultFlag s = true ↔ ∃ n, (s.gte.gates.get n).status ≠ .ok := by
  unfold gateFaultFlag
  simp only [List.any_eq_true, gateLatched, decide_eq_true_eq]
  constructor
  · rintro ⟨g, hg, h⟩
    obtain ⟨n, rfl⟩ := mem_gates.1 hg
    exact ⟨n, h⟩
  · rintro ⟨n, h⟩
    exact ⟨_, mem_gates.2 ⟨n, rfl⟩, h⟩

/-! ### A trigger that is taken (R101, R108) -/

theorem frameStart_of_none {p : Prb} (h : p.out = none) (now : Nat) : frameStart p now = now := by
  rw [frameStart, h]

theorem frameStart_of_some {p : Prb} {f : TriggerFrame} (h : p.out = some f) (now : Nat) :
    frameStart p now = max now (f.start + 300) := by
  rw [frameStart, h]
  dsimp only
  rw [show triggerFrameTicks = 300 from rfl]
  split_ifs <;> omega

/-- With no frame waiting, the trigger's frame begins at once or waits for the end of the one that is going out. -/
theorem takeTrigger_eq {p : Prb} (hwaiting : p.waiting = none) (r : TriggerRequest) (now : Nat) :
    takeTrigger r now p = { p with
      queue := p.queue ++ [entryOf r p.nextTag (frameStart p now)]
      nextTag := p.nextTag + 1
      lastTrigger := some (frameStart p now)
      out := if frameStart p now = now then some ⟨p.nextTag, r.exposure, frameStart p now⟩ else p.out
      waiting := if frameStart p now = now then none else some ⟨p.nextTag, r.exposure, frameStart p now⟩ } := by
  have starts : startWaiting now p = p := by rw [startWaiting, hwaiting]
  have late : now ≤ frameStart p now := by
    cases h : p.out with
    | none => rw [frameStart_of_none h]
    | some f => rw [frameStart_of_some h]; exact Nat.le_max_left _ _
  unfold takeTrigger
  rw [starts]
  dsimp only
  by_cases hnow : frameStart p now = now
  · rw [if_pos hnow.le, if_pos hnow, if_pos hnow, hwaiting]
  · rw [if_neg (by omega), if_neg hnow, if_neg hnow]

/-- A lead's trigger on a ready port. -/
theorem fire_taken {r : TriggerRequest} (hl : s.psc.lead = some l) (hid : r.passId = l.ctx.settings.passId)
    (hready : s.prb.state = .ready) : fire r s = { s with
      psc := { s.psc with lead := some { l with ctx := addInFlight r.origin l.ctx } }
      prb := takeTrigger r s.now s.prb } := by
  rw [fire_ready (leadIs_iff.2 ⟨l, hl, hid.symm⟩) hready, modLead_of_lead (by exact hl)]
  rfl

/-! ### The main span (R90, R92, R99) -/

theorem crossingOf_blanked {w : Window} (h : pastGate s w) : crossingOf s w = .blanked := by
  have hgate : gateAllows s w = false := by rw [← Bool.not_eq_true, gateAllows_iff, not_not]; exact h
  simp [crossingOf, hgate]

theorem crossingOf_held {w : Window} (h : ¬ pastGate s w) (hheld : s.hold.active = true) : crossingOf s w = .held := by
  simp [crossingOf, gateAllows_iff.2 h, hheld]

theorem crossingOf_busy {w : Window} (h : ¬ pastGate s w) (hheld : s.hold.active = false)
    (hfree : ¬ probeFree s = true) : crossingOf s w = .busy := by
  simp [crossingOf, gateAllows_iff.2 h, hheld, hfree]

theorem crossingOf_fired {w : Window} (h : ¬ pastGate s w) (hheld : s.hold.active = false)
    (hfree : probeFree s = true) : crossingOf s w = .fired := by
  simp [crossingOf, gateAllows_iff.2 h, hheld, hfree]

/-- A miss of the lead is pushed, or its key stands already (R147 to R149). -/
theorem pushMiss_eq (hl : s.psc.lead = some l) (m : MissEntry) : pushMiss m s =
    if s.stack.any (sameKey m) then s
    else { s with
      psc := { s.psc with lead := some { l with ctx := onCounters (pushedCounts (stackFull s)) l.ctx } }
      stack := pushed m s } := by
  split_ifs with hs
  · exact pushMiss_stands hs
  · rw [pushMiss_pushed (by simpa using hs), modLead_of_lead (by exact hl)]
    rfl

theorem stackFull_iff : stackFull s = true ↔ 16 ≤ s.stack.length := decide_eq_true_iff

theorem pushed_eq (m : MissEntry) (s : State) :
    pushed m s = m :: if 16 ≤ s.stack.length then s.stack.dropLast else s.stack := by
  simp only [pushed, stackFull_iff]

theorem pushedCounts_eq (s : State) (k : Counters) : pushedCounts (stackFull s) k = { k with
    pushes := satInc k.pushes
    overflowLost := if 16 ≤ s.stack.length then satInc k.overflowLost else k.overflowLost } := by
  simp only [pushedCounts, stackFull_iff]

/-- A point missed in the main span, held or busy. -/
theorem crossMain_missed {overlap : Bool} (hl : s.psc.lead = some l) {o : Crossing} {cause : MissCause}
    (hpt : crossingOf s pt.window = o) (ho : o = .held ∧ cause = .held ∨ o = .busy ∧ cause = .busy) :
    crossMain l u overlap s pt = if s.stack.any (sameKey (crossingMiss pt overlap cause))
      then { s with psc := { s.psc with lead := some { l with ctx := onCounters (countCrossing o) l.ctx } } }
      else { s with
        psc := { s.psc with
          lead := some { l with ctx := { l.ctx with
            counters := pushedCounts (stackFull s) (countCrossing o l.ctx.counters) } } }
        stack := pushed (crossingMiss pt overlap cause) s } := by
  have counted : modLead (onCounters (countCrossing o)) s =
      { s with psc := { s.psc with lead := some { l with ctx := onCounters (countCrossing o) l.ctx } } } :=
    modLead_of_lead hl _
  have missed : crossMain l u overlap s pt =
      pushMiss (crossingMiss pt overlap cause) (modLead (onCounters (countCrossing o)) s) := by
    unfold crossMain
    rw [hpt]
    obtain ⟨rfl, rfl⟩ | ⟨rfl, rfl⟩ := ho <;> rfl
  rw [missed, counted, pushMiss_eq rfl]
  rfl

/-- A point fired in the main span on a ready port. -/
theorem crossMain_fired {overlap : Bool} (hl : s.psc.lead = some l) (hpt : crossingOf s pt.window = .fired)
    (hready : s.prb.state = .ready) :
    let r := requestFor l u pt (if overlap then .overlap else .main) overlap 0 none s
    crossMain l u overlap s pt = { s with
      psc := { s.psc with lead := some { l with ctx := { l.ctx with
        counters := countCrossing .fired l.ctx.counters, mainInFlight := l.ctx.mainInFlight + 1 } } }
      prb := takeTrigger r s.now s.prb } := by
  intro r
  have counted : modLead (onCounters (countCrossing .fired)) s =
      { s with psc := { s.psc with lead := some { l with ctx := onCounters (countCrossing .fired) l.ctx } } } :=
    modLead_of_lead hl _
  have fired : crossMain l u overlap s pt = fire r (modLead (onCounters (countCrossing .fired)) s) := by
    unfold crossMain
    rw [hpt]
  rw [fired, counted, fire_taken rfl rfl (by exact hready)]
  cases overlap <;> rfl

/-- Settles O25: the first test that applies is `crossingOf`, and what it leaves is `crossMain_missed` or
`crossMain_fired`. -/
theorem mainSpanClassification : Obligations.MainSpanClassification := by
  intro s l u overlap pt hl _ lead k blanked free missed refused pushed
  refine ⟨fun hblanked => ?blanked, fun hallowed hheld => ?held, fun hallowed hheld hbusy => ?busy,
    fun hallowed hheld hfree hready hwaiting => ?fired⟩
  case blanked =>
    unfold crossMain
    rw [crossingOf_blanked hblanked]
    exact modLead_of_lead hl _
  case held =>
    rw [crossMain_missed hl (crossingOf_held hallowed hheld) (.inl ⟨rfl, rfl⟩)]
    rw [pushed_eq, pushedCounts_eq]
    rfl
  case busy =>
    rw [crossMain_missed hl (crossingOf_busy hallowed hheld (mt probeFree_iff.1 hbusy)) (.inr ⟨rfl, rfl⟩)]
    rw [pushed_eq, pushedCounts_eq]
    rfl
  case fired =>
    intro start frame
    let r := requestFor l u pt (if overlap then .overlap else .main) overlap 0 none s
    have starts : frameStart s.prb s.now = start := by
      cases hout : s.prb.out with
      | none => simp only [start, hout, frameStart_of_none hout]
      | some f => simp only [start, hout, frameStart_of_some hout]
    have fired := crossMain_fired (u := u) (overlap := overlap) hl
      (crossingOf_fired hallowed hheld (probeFree_iff.2 hfree)) hready
    simp only [takeTrigger_eq hwaiting, starts] at fired
    refine ⟨entryOf r s.prb.nextTag start, fired, rfl, rfl, rfl, rfl, rfl, rfl, rfl, rfl, rfl, fun q hq => ?_, rfl, rfl,
      rfl, rfl, rfl, gateFaultFlag_iff⟩
    simp [entryOf, r, requestFor, hq]

/-! ### The Miss Stack (R148, R150) -/

/-- A take gives the newest entry that names the point and closes the gap. -/
theorem takeMiss_split {b w j : Nat} {e : MissEntry} {above below : List MissEntry}
    (hs : s.stack = above ++ e :: below) (he : namesPoint b w j e = true)
    (habove : ∀ x ∈ above, ¬ namesPoint b w j x = true) :
    takeMiss b w j s = (some e, modLead (onCounters takenCounts) (s.setStack (above ++ below))) := by
  have found : s.stack.find? (namesPoint b w j) = some e := by
    rw [hs, List.find?_append, List.find?_eq_none.2 habove, List.find?_cons_of_pos he]
    rfl
  have erased : s.stack.eraseP (namesPoint b w j) = above ++ below := by
    rw [hs, List.eraseP_append_right _ habove, List.eraseP_cons_of_pos he]
  unfold takeMiss
  rw [found, erased]
  rfl

theorem namesPoint_iff {b w j : Nat} {e : MissEntry} : namesPoint b w j e = true ↔ e.blade = b ∧ e.window = w ∧ e.j = j := by
  simp [namesPoint, and_assoc]

theorem crossRetry_passed (h : s.hold.active = true ∨ pastGate s pt.window ∨ ¬ probeFree s = true) :
    crossRetry l u s pt = s := by
  refine if_pos ?_
  rw [Bool.or_eq_true, Bool.or_eq_true, Bool.not_eq_true', Bool.not_eq_true', ← Bool.not_eq_true, gateAllows_iff, not_not,
    ← Bool.not_eq_true, or_assoc]
  exact h

theorem crossRetry_offered (hheld : s.hold.active = false) (hgate : ¬ pastGate s pt.window) (hfree : probeFree s = true) :
    crossRetry l u s pt = match takeMiss pt.blade pt.index pt.j s with
      | (none, t) => t
      | (some e, t) => fire (requestFor l u pt .retry e.overlap e.attempts (some e.cause) s) t := by
  refine if_neg ?_
  simp [hheld, gateAllows_iff.2 hgate, hfree]

/-- A point crossed in a retry turn whose newest entry is taken and fired on a ready port. -/
theorem crossRetry_fired (hl : s.psc.lead = some l) (hheld : s.hold.active = false) (hgate : ¬ pastGate s pt.window)
    (hfree : probeFree s = true) (hready : s.prb.state = .ready) {m : MissEntry} {above below : List MissEntry}
    (hs : s.stack = above ++ m :: below) (hm : namesPoint pt.blade pt.index pt.j m = true)
    (habove : ∀ x ∈ above, ¬ namesPoint pt.blade pt.index pt.j x = true) :
    crossRetry l u s pt = { s with
      stack := above ++ below
      psc := { s.psc with lead := some { l with ctx := { l.ctx with
        retryInFlight := l.ctx.retryInFlight + 1
        counters := { l.ctx.counters with takes := satInc l.ctx.counters.takes } } } }
      prb := takeTrigger (requestFor l u pt .retry m.overlap m.attempts (some m.cause) s) s.now s.prb } := by
  have taken : modLead (onCounters takenCounts) (s.setStack (above ++ below)) = { s with
      stack := above ++ below
      psc := { s.psc with lead := some { l with ctx := onCounters takenCounts l.ctx } } } := modLead_of_lead (by exact hl) _
  rw [crossRetry_offered hheld hgate hfree, takeMiss_split hs hm habove]
  dsimp only
  rw [taken, fire_taken rfl rfl (by exact hready)]
  rfl

/-- Settles O51: the take by `takeMiss_split`, the push by `pushMiss_eq`, and the retry crossing by `crossRetry_passed` and
`crossRetry_fired`. -/
theorem stackTakesNewestDropsOldest : Obligations.StackTakesNewestDropsOldest := by
  refine ⟨fun s t b w j e htake => ?take, fun s e oldest newer l hs hlen hnew hl => ?push,
    ?crossing⟩
  case take =>
    cases hfind : s.stack.find? (namesPoint b w j) with
    | none =>
      rw [takeMiss, hfind] at htake
      cases htake
    | some m =>
      obtain ⟨hm, above, below, hs, habove⟩ := List.find?_eq_some_iff_append.1 hfind
      have habove : ∀ x ∈ above, ¬ namesPoint b w j x = true := fun x hx => by simpa using habove x hx
      rw [takeMiss_split hs hm habove, Prod.mk.injEq, Option.some.injEq] at htake
      obtain ⟨rfl, rfl⟩ := htake
      refine ⟨above, below, hs, rfl, namesPoint_iff.1 hm, fun x hx => mt namesPoint_iff.2 (habove x hx), fun l hl => ?_⟩
      exact ⟨{ l with ctx := onCounters takenCounts l.ctx },
        by rw [modLead_of_lead (s := s.setStack (above ++ below)) hl]; rfl, rfl⟩
  case push =>
    have full : 16 ≤ s.stack.length := by simp [hs, hlen]
    rw [pushMiss_eq hl, if_neg (by simp [hnew]), pushed_eq, onCounters, pushedCounts_eq, if_pos full, if_pos full, hs,
      List.dropLast_concat]
  case crossing =>
    intro s l u pt hl passed free names
    refine ⟨fun h => ?passed, fun hnone => ?unnamed, ?fired⟩
    case passed => exact crossRetry_passed (h.imp_right (Or.imp_right (mt probeFree_iff.1)))
    case unnamed =>
      by_cases h : s.hold.active = true ∨ passed ∨ ¬ probeFree s = true
      · exact crossRetry_passed h
      · simp only [not_or, Bool.not_eq_true] at h
        obtain ⟨hheld, hgate, hfree⟩ := h
        have none : s.stack.find? (namesPoint pt.blade pt.index pt.j) = none :=
          List.find?_eq_none.2 fun x hx => mt namesPoint_iff.1 (hnone x hx)
        rw [crossRetry_offered (by simpa using hheld) hgate (by simpa using hfree), takeMiss, none]
    case fired =>
      intro above below m hheld hgate hfree hs hm habove hready hwaiting start frame
      have starts : frameStart s.prb s.now = start := by
        cases hout : s.prb.out with
        | none => simp only [start, hout, frameStart_of_none hout]
        | some f => simp only [start, hout, frameStart_of_some hout]
      have fired := crossRetry_fired (u := u) hl hheld hgate (probeFree_iff.2 hfree) hready hs (namesPoint_iff.2 hm)
        fun x hx => mt namesPoint_iff.1 (habove x hx)
      simp only [takeTrigger_eq hwaiting, starts] at fired
      refine ⟨entryOf (requestFor l u pt .retry m.overlap m.attempts (some m.cause) s) s.prb.nextTag start, fired, rfl, rfl,
        rfl, rfl, rfl, rfl, rfl, rfl, rfl, fun q hq => ?_, rfl, rfl, rfl, rfl, rfl, gateFaultFlag_iff⟩
      simp [entryOf, requestFor, hq]

end Sys2Proof.Machine
end

