-- ==== Sys2Proof/Proofs/CrossedOnce.lean ====
section
/-! PROOFS. Proofs/CrossedOnce.lean: within one turn no lattice point is crossed twice (R85, R86): neither among the points of
one position nor at two positions less than a turn apart. -/

namespace Sys2Proof.Machine

open Sys2Proof

/-! ### The points of one position -/

/-- What names a lattice point: its blade, its window's position in the bank and its index. -/
def pointKey (pt : CrossedPoint) : Nat × Nat × Nat := (pt.blade, pt.index, pt.j)

theorem bladePoints_keys_differ (bank : Bank) (blades blade lo hi : Nat) :
    (bladePoints bank blades blade lo hi).Pairwise fun a b => pointKey a ≠ pointKey b := by
  -- the index of a window's point
  have index : ∀ {v : Window} {i : Nat} {pt : CrossedPoint},
      (pt ∈ if covers v.range blades blade then (indicesIn v lo hi).map fun j =>
        ({ blade := blade, index := i, j := j, window := v } : CrossedPoint) else []) → pt.index = i := by
    intro v i pt hpt
    split_ifs at hpt
    · obtain ⟨j, -, rfl⟩ := List.mem_map.1 hpt
      rfl
    · cases hpt
  unfold bladePoints
  refine List.pairwise_flatMap.2 ⟨fun wi _ => ?_, ?_⟩
  · split_ifs
    · refine List.pairwise_map.2 (List.Pairwise.imp (fun {i j} hij heq => ?_) (List.nodup_range' (step := 1)))
      exact hij (congrArg (fun k : Nat × Nat × Nat => k.2.2) heq)
    · exact .nil
  · have indices : (bank.windows.zipIdx.map Prod.snd).Pairwise (· ≠ ·) := by
      rw [List.zipIdx_map_snd]
      exact List.nodup_range'
    refine (List.pairwise_map.1 indices).imp fun {vi wi} hne a ha b hb heq => hne ?_
    rw [← index ha, ← index hb]
    exact congrArg (fun k : Nat × Nat × Nat => k.2.1) heq

/-- Points of one bank with one name have one phase. -/
theorem latticePhase_of_key {bank : Bank} {a b : CrossedPoint} (ha : bank.windows[a.index]? = some a.window)
    (hb : bank.windows[b.index]? = some b.window) (h : pointKey a = pointKey b) :
    latticePhase a.window a.j = latticePhase b.window b.j := by
  simp only [pointKey, Prod.mk.injEq] at h
  obtain ⟨-, hindex, hj⟩ := h
  rw [hindex, hb, Option.some.injEq] at ha
  rw [← ha, hj]

theorem crossedBetween_keys_differ {w : Workpiece} {bank : Bank} {before now : BladePhase}
    (hok : ∀ v ∈ bank.windows, windowOk v) :
    (crossedBetween w bank before now).Pairwise fun a b => pointKey a ≠ pointKey b := by
  unfold crossedBetween
  split_ifs with hsame
  · exact bladePoints_keys_differ ..
  · refine List.pairwise_append.2 ⟨bladePoints_keys_differ .., bladePoints_keys_differ .., fun a ha b hb heq => ?_⟩
    obtain ⟨hblade, hwindow, -, -, habove, -⟩ := (mem_bladePoints hok).1 ha
    obtain ⟨hblade', hwindow', -, -, -, hbelow⟩ := (mem_bladePoints hok).1 hb
    have blades : before.blade = now.blade := by
      rw [← hblade, ← hblade']
      exact congrArg Prod.fst heq
    have phases := latticePhase_of_key hwindow hwindow' heq
    exact hsame (samePitch_iff.2 ⟨blades, .inr (by omega)⟩)

/-! ### Positions apart -/

theorem positionOf_mono (w : Workpiece) {cpr : Nat} (h : 0 < cpr) {u v : Int} (huv : u ≤ v) :
    positionOf w cpr u ≤ positionOf w cpr v :=
  Int.mul_le_mul_of_nonneg_right (Int.sub_le_sub_right (angleOf_mono h huv) _) (by omega)

theorem positionOf_turn (w : Workpiece) {cpr : Nat} (h : 0 < cpr) (u : Int) :
    positionOf w cpr (u + cpr) = positionOf w cpr u + w.blades * 16777216 := by
  unfold positionOf
  rw [angleOf_turn h]
  ring

/-- Where a lattice point stands around the turn. -/
def pointPosition (w : Workpiece) (pt : CrossedPoint) : Int := pitchStart w pt.blade + latticePhase pt.window pt.j

/-- A point crossed at `u` stands above the position before and not above that of `u`. -/
theorem crossed_position {w : Workpiece} (hw : workpieceOk w) {bank : Bank} (hok : ∀ v ∈ bank.windows, windowOk v)
    {cpr : Nat} (h : 1024 ≤ cpr) {u : Int} {pt : CrossedPoint}
    (hpt : pt ∈ crossedBetween w bank (bladePhaseAt w cpr (u - 1)) (bladePhaseAt w cpr u)) :
    ∃ d, positionOf w cpr (u - 1) < d ∧ d ≤ positionOf w cpr u ∧ d ≡ pointPosition w pt [ZMOD w.blades * 16777216] := by
  obtain ⟨advance, position, bound, -⟩ := positionOf_succ w hw h (u - 1)
  have moved := bladePhaseAt_succ hw h (u - 1) position bound
  rw [sub_add_cancel] at position moved
  have here := bladePhaseAt_position hw (by omega : 0 < cpr) (u - 1)
  have oldp := bladePhaseAt_phase_lt hw cpr (u - 1)
  have oldb := bladePhaseAt_blade_lt hw cpr (u - 1)
  generalize bladePhaseAt w cpr (u - 1) = old at *
  generalize bladePhaseAt w cpr u = new at *
  have short := pitchLength_bounds hw old.blade
  -- a point that lies `n` above the old phase
  have above : ∀ n : Nat, 0 < n → n ≤ advance → pitchStart w old.blade + old.phase + n ≡ pointPosition w pt
      [ZMOD w.blades * 16777216] → ∃ d, positionOf w cpr (u - 1) < d ∧ d ≤ positionOf w cpr u ∧
        d ≡ pointPosition w pt [ZMOD w.blades * 16777216] := fun n hpos hle hmod =>
    ⟨positionOf w cpr (u - 1) + n, by omega, by omega, (here.symm.add_right _).trans hmod⟩
  -- a point of the old blade
  have onOld : pt.blade = old.blade → old.phase < latticePhase pt.window pt.j →
      latticePhase pt.window pt.j ≤ old.phase + advance → ∃ d, positionOf w cpr (u - 1) < d ∧ d ≤ positionOf w cpr u ∧
        d ≡ pointPosition w pt [ZMOD w.blades * 16777216] := fun hblade hlow hhigh => by
    refine above (latticePhase pt.window pt.j - old.phase) (by omega) (by omega) ?_
    have same : pitchStart w old.blade + old.phase + (latticePhase pt.window pt.j - old.phase : Nat) =
        pointPosition w pt := by
      unfold pointPosition
      rw [hblade]
      omega
    rw [same]
  unfold crossedBetween at hpt
  obtain ⟨-, blade, phase⟩ | ⟨past, blade, phase⟩ := moved
  · rw [if_pos (samePitch_iff.2 ⟨blade.symm, .inr (by omega)⟩)] at hpt
    obtain ⟨hblade, -, -, -, hlow, hhigh⟩ := (mem_bladePoints hok).1 hpt
    exact onOld (hblade.trans blade) (by omega) (by omega)
  · have other : ¬ samePitch w old new = true := by
      rw [samePitch_iff]
      rintro ⟨hsame, hone | hle⟩
      · rw [blade, nextBlade] at hsame
        by_cases hlast : old.blade + 1 = w.blades
        · rw [hlast, Nat.mod_self] at hsame
          omega
        · rw [Nat.mod_eq_of_lt (by omega)] at hsame
          omega
      · omega
    rw [if_neg other] at hpt
    obtain hpt | hpt := List.mem_append.1 hpt
    · obtain ⟨hblade, -, -, -, hlow, hhigh⟩ := (mem_bladePoints hok).1 hpt
      exact onOld hblade (by omega) (by omega)
    · obtain ⟨hblade, -, -, -, -, hhigh⟩ := (mem_bladePoints hok).1 hpt
      refine above (pitchLength w old.blade - old.phase + latticePhase pt.window pt.j) (by omega) (by omega) ?_
      have ends := pitchStart_add_length hw oldb
      refine Int.ModEq.symm (Int.modEq_iff_dvd.2 ?_)
      unfold pointPosition
      rw [hblade, blade]
      split_ifs at ends
      · exact ⟨1, by omega⟩
      · exact ⟨0, by omega⟩

/-- Two positions less than a turn apart share no point. -/
theorem crossed_once {w : Workpiece} (hw : workpieceOk w) {bank : Bank} (hok : ∀ v ∈ bank.windows, windowOk v)
    {cpr : Nat} (h : 1024 ≤ cpr) {u v : Int} (huv : u < v) (hturn : v < u + cpr) {a b : CrossedPoint}
    (ha : a ∈ crossedBetween w bank (bladePhaseAt w cpr (u - 1)) (bladePhaseAt w cpr u))
    (hb : b ∈ crossedBetween w bank (bladePhaseAt w cpr (v - 1)) (bladePhaseAt w cpr v)) : pointKey a ≠ pointKey b := by
  intro heq
  have window : ∀ {before now : BladePhase} {pt : CrossedPoint}, pt ∈ crossedBetween w bank before now →
      bank.windows[pt.index]? = some pt.window := fun {before now pt} hpt => by
    unfold crossedBetween at hpt
    split_ifs at hpt
    · exact ((mem_bladePoints hok).1 hpt).2.1
    · obtain hpt | hpt := List.mem_append.1 hpt
      · exact ((mem_bladePoints hok).1 hpt).2.1
      · exact ((mem_bladePoints hok).1 hpt).2.1
  have same : pointPosition w a = pointPosition w b := by
    unfold pointPosition
    rw [latticePhase_of_key (window ha) (window hb) heq, show a.blade = b.blade from congrArg Prod.fst heq]
  obtain ⟨d, hlow, hhigh, hd⟩ := crossed_position hw hok h ha
  obtain ⟨d', hlow', hhigh', hd'⟩ := crossed_position hw hok h hb
  have hpos : 0 < cpr := by omega
  have between := positionOf_mono w hpos (show u ≤ v - 1 by omega)
  have within := positionOf_mono w hpos (show v ≤ u - 1 + cpr by omega)
  rw [positionOf_turn w hpos] at within
  rw [same] at hd
  have := Int.eq_zero_of_abs_lt_dvd (hd'.trans hd.symm).symm.dvd (by rw [abs_lt]; omega)
  omega

end Sys2Proof.Machine
end

