-- ==== Sys2Proof/Proofs/RetryKeys.lean ====
section
/-! PROOFS. Proofs/RetryKeys.lean: the keys of the lead's misses, on the stack and in flight, through the moves of the passes
(R145, R149). -/

namespace Sys2Proof.Machine

open Sys2Proof

/-! ### Keys -/

/-- The key of a miss: its point and its overlap marker (R145). -/
abbrev MissKey := Nat × Nat × Nat × Bool

def missKey (m : MissEntry) : MissKey := (m.blade, m.window, m.j, m.overlap)

def tagKey (e : TagEntry) : MissKey := (e.blade, e.window, e.j, e.overlap)

/-- The keys of the tags of a pass in flight. -/
def tagKeys (id : Nat) (q : List TagEntry) : List MissKey := (q.filter fun e => e.passId == id).map tagKey

theorem leadKeys_eq (s : State) (l : Lead) :
    leadKeys s l = s.stack.map missKey ++ tagKeys l.ctx.settings.passId s.prb.queue := rfl

theorem sameKey_iff {a b : MissEntry} : sameKey a b = true ↔ missKey a = missKey b := by
  simp [sameKey, missKey, and_assoc]

theorem mem_keys_of_stands {m : MissEntry} {stack : List MissEntry} (h : stack.any (sameKey m) = true) :
    missKey m ∈ stack.map missKey := by
  obtain ⟨x, hx, hkey⟩ := List.any_eq_true.1 h
  exact List.mem_map.2 ⟨x, hx, (sameKey_iff.1 hkey).symm⟩

theorem tagKeys_cons_own {id : Nat} {e : TagEntry} (h : e.passId = id) (q : List TagEntry) :
    tagKeys id (e :: q) = tagKey e :: tagKeys id q := by simp [tagKeys, h]

theorem tagKeys_tail_sublist (id : Nat) (e : TagEntry) (q : List TagEntry) : (tagKeys id q).Sublist (tagKeys id (e :: q)) :=
  ((List.sublist_cons_self e q).filter _).map _

theorem tagKeys_append (id : Nat) (q q' : List TagEntry) : tagKeys id (q ++ q') = tagKeys id q ++ tagKeys id q' := by
  simp [tagKeys]

/-- The key's point was crossed in the main span of the pass, at a position up to `reach`, with the marker of that
position (R67, R149). -/
def crossedUpTo (s : State) (c : PassCtx) (reach : Nat) (key : MissKey) : Prop :=
  ∃ (p : Nat) (pt : CrossedPoint), 1 ≤ p ∧ p ≤ reach ∧ p ≤ s.enc.settings.cpr + c.settings.overlap ∧
    key.2.2.2 = decide (s.enc.settings.cpr < p) ∧ pt ∈ crossedAt s (c.uStart + p) ∧
    pointKey pt = (key.1, key.2.1, key.2.2.1)

/-- The keys `keys` of a pass are exclusive, and each was crossed. -/
structure KeysHeld (s : State) (c : PassCtx) (reach : Nat) (keys : List MissKey) : Prop where
  nodup : keys.Nodup
  crossed : ∀ key ∈ keys, crossedUpTo s c reach key

theorem keysExclusive_iff (s : State) : keysExclusive s ↔ ∀ l, s.psc.lead = some l →
    l.ctx.settings.overlap ≤ s.enc.settings.cpr ∧ KeysHeld s l.ctx l.ctx.highWater (leadKeys s l) ∧
      (l.phase = .armed → leadKeys s l = []) := by
  have key : ∀ (l : Lead) (b i j : Nat) (o : Bool), crossedUpTo s l.ctx l.ctx.highWater (b, i, j, o) ↔
      ∃ (p : Nat) (pt : CrossedPoint), 1 ≤ p ∧ p ≤ l.ctx.highWater ∧ p ≤ s.enc.settings.cpr + l.ctx.settings.overlap ∧
        o = decide (s.enc.settings.cpr < p) ∧ pt ∈ crossedAt s (l.ctx.uStart + p) ∧ pt.blade = b ∧ pt.index = i ∧
        pt.j = j := by simp [crossedUpTo, pointKey]
  constructor
  · intro h l hl
    obtain ⟨overlap, nodup, armed, crossed⟩ := h l hl
    exact ⟨overlap, ⟨nodup, fun ⟨b, i, j, o⟩ hk => (key l b i j o).2 (crossed b i j o hk)⟩, armed⟩
  · intro h l hl
    obtain ⟨overlap, ⟨nodup, crossed⟩, armed⟩ := h l hl
    exact ⟨overlap, nodup, armed, fun b i j o hk => (key l b i j o).1 (crossed _ hk)⟩

/-- What the crossing of a position looks at is the same. -/
def sameGround (s t : State) : Prop :=
  t.enc.settings = s.enc.settings ∧ t.wbk.workpiece = s.wbk.workpiece ∧ t.wbk.active = s.wbk.active

theorem crossedAt_congr {s t : State} (h : sameGround s t) (u : Int) : crossedAt t u = crossedAt s u := by
  obtain ⟨henc, hpiece, hactive⟩ := h
  unfold crossedAt
  rw [henc, hpiece, hactive]

/-- What of a pass the crossing of its positions looks at is the same. -/
def sameCourse (c c' : PassCtx) : Prop := c'.settings = c.settings ∧ c'.uStart = c.uStart

variable {s t : State} {c c' : PassCtx} {reach reach' : Nat} {keys keys' : List MissKey}

theorem KeysHeld.mono (h : KeysHeld s c reach keys) (hground : sameGround s t) (hcourse : sameCourse c c')
    (hreach : reach ≤ reach') (hkeys : keys'.Subperm keys) : KeysHeld t c' reach' keys' := by
  obtain ⟨nodup, crossed⟩ := h
  obtain ⟨hset, hstart⟩ := hcourse
  obtain ⟨keys'', hperm, hsub⟩ := hkeys
  refine ⟨hperm.nodup_iff.1 (hsub.nodup nodup), fun key hkey => ?_⟩
  obtain ⟨p, pt, hp, hle, hspan, ho, hpt, hname⟩ := crossed key (hsub.subset (hperm.mem_iff.2 hkey))
  refine ⟨p, pt, hp, hle.trans hreach, ?_, ?_, ?_, hname⟩
  · rw [hground.1, hset]
    exact hspan
  · rw [hground.1]
    exact ho
  · rw [crossedAt_congr hground, hstart]
    exact hpt

theorem keysHeld_nil (s : State) (c : PassCtx) (reach : Nat) : KeysHeld s c reach [] :=
  ⟨List.nodup_nil, fun _ h => absurd h List.not_mem_nil⟩

/-- The lead's keys are some of those that it had, on the same ground while it runs. -/
theorem keysExclusive_of (h : keysExclusive s) (hlead : ∀ l', t.psc.lead = some l' → ∃ l, s.psc.lead = some l ∧
      (l'.phase = .armed → l.phase = .armed) ∧ sameCourse l.ctx l'.ctx ∧ l.ctx.highWater ≤ l'.ctx.highWater ∧
      (leadKeys t l').Subperm (leadKeys s l) ∧ t.enc.settings = s.enc.settings ∧
      (l.phase ≠ .armed → sameGround s t)) : keysExclusive t := by
  rw [keysExclusive_iff] at h ⊢
  intro l' hl'
  obtain ⟨l, hl, hphase, hcourse, hwater, hkeys, henc, hground⟩ := hlead l' hl'
  obtain ⟨overlap, held, armed⟩ := h l hl
  have none : leadKeys s l = [] → leadKeys t l' = [] := fun hnone => by
    rw [hnone] at hkeys
    exact List.subperm_nil.1 hkeys
  refine ⟨by rw [hcourse.1, henc]; exact overlap, ?_, fun ha => none (armed (hphase ha))⟩
  by_cases ha : l.phase = .armed
  · rw [none (armed ha)]
    exact keysHeld_nil _ _ _
  · exact held.mono (hground ha) hcourse hwater hkeys

theorem keysExclusive_of_none (h : t.psc.lead = none) : keysExclusive t := fun l hl => by
  rw [h] at hl
  cases hl

end Sys2Proof.Machine
end

