-- ==== Sys2Proof/Proofs/RetryBooks.lean ====
section
/-! PROOFS. Proofs/RetryBooks.lean: the two lines of R158 for one context, through each change that the moves of the passes make
to it. -/

namespace Sys2Proof.Machine

open Sys2Proof

/-! ### One change of a context -/

/-- The counts of the first line of R158. -/
def missSum (k : Counters) : Nat := k.held + k.busy + k.missedMain

/-- The counts of the second line of R158, but for the tags in flight. -/
def goneSum (k : Counters) : Nat := k.emittedRetry + k.retryLost

/-- Below saturation of its pushes no more has been taken than was pushed. -/
def takesBounded (c : PassCtx) : Prop := c.counters.pushes < counterMax → c.counters.takes < counterMax

variable {c c' : PassCtx}

theorem retryBalanced_iff : retryBalanced c ↔ (c.counters.pushes < counterMax → ∃ repushed,
    c.counters.pushes = missSum c.counters + repushed ∧
      c.counters.takes = goneSum c.counters + c.retryInFlight + repushed) := Iff.rfl

/-- A change raises the pushes by `dp`, of which `dm` are misses of the first line, and the takes by `dt`; what has become of
the takes rises by `rise` and falls by `fall`. -/
theorem retryBalanced_step (h : retryBalanced c) (hb : takesBounded c) {dp dm dt rise fall : Nat}
    (hpushes : c'.counters.pushes < counterMax → c'.counters.pushes = c.counters.pushes + dp)
    (hmissed : missSum c.counters < counterMax → missSum c'.counters = missSum c.counters + dm)
    (htakes : c.counters.takes < counterMax → c'.counters.takes = c.counters.takes + dt)
    (hgone : goneSum c.counters + c.retryInFlight < counterMax →
      goneSum c'.counters + c'.retryInFlight + fall = goneSum c.counters + c.retryInFlight + rise)
    (hdm : dm ≤ dp) (hbalance : dt + fall + dm = rise + dp) : retryBalanced c' := by
  rw [retryBalanced_iff] at h ⊢
  intro hlt
  have hp := hpushes hlt
  have below : c.counters.pushes < counterMax := by omega
  obtain ⟨repushed, hfirst, hsecond⟩ := h below
  have htake := hb below
  have hm := hmissed (by omega)
  have ht := htakes htake
  have hg := hgone (by omega)
  exact ⟨repushed + (dp - dm), by omega, by omega⟩

/-- A change that leaves both lines as they are. -/
def retrySame (f : PassCtx → PassCtx) : Prop :=
  ∀ c, (f c).counters.pushes = c.counters.pushes ∧ missSum (f c).counters = missSum c.counters ∧
    (f c).counters.takes = c.counters.takes ∧ goneSum (f c).counters = goneSum c.counters ∧
    (f c).retryInFlight = c.retryInFlight

theorem retryBalanced_same {f : PassCtx → PassCtx} (hf : retrySame f) (h : retryBalanced c) : retryBalanced (f c) := by
  obtain ⟨hpushes, hmissed, htakes, hgone, hflight⟩ := hf c
  rw [retryBalanced_iff] at h ⊢
  rw [hpushes, hmissed, htakes, hgone, hflight]
  exact h

/-- A change of counters that touches none of those of the accounts touches neither line. -/
theorem keepsAccounts_retry {f : Counters → Counters} (hf : keepsAccounts f) (k : Counters) :
    (f k).pushes = k.pushes ∧ missSum (f k) = missSum k ∧ (f k).takes = k.takes ∧ goneSum (f k) = goneSum k := by
  rw [hf k]
  exact ⟨rfl, rfl, rfl, rfl⟩

theorem retrySame_keepsAccounts {f : Counters → Counters} (hf : keepsAccounts f) : retrySame (onCounters f) := fun c => by
  obtain ⟨hpushes, hmissed, htakes, hgone⟩ := keepsAccounts_retry hf c.counters
  exact ⟨hpushes, hmissed, htakes, hgone, rfl⟩

theorem missCtx_retryInFlight (o : TagOrigin) (f : Counters → Counters) (c : PassCtx) :
    (missCtx o f c).retryInFlight = if o = .retry then c.retryInFlight - 1 else c.retryInFlight := by
  cases o <;> rfl

/-! ### Tags that leave the queue -/

/-- A tag that leaves the queue without a push: a retry tag adds to what has become of the takes, a main tag to neither
line. -/
theorem retryBalanced_left {o : TagOrigin} {f : Counters → Counters}
    (hf : ∀ k, (f k).pushes = k.pushes ∧ missSum (f k) = missSum k ∧ (f k).takes = k.takes ∧
      (goneSum k < counterMax → goneSum (f k) = goneSum k + if o = .retry then 1 else 0))
    (hflight : o = .retry → 1 ≤ c.retryInFlight) (h : retryBalanced c) (hb : takesBounded c) :
    retryBalanced (missCtx o f c) := by
  obtain ⟨hpushes, hmissed, htakes, hgone⟩ := hf c.counters
  refine retryBalanced_step h hb (dp := 0) (dm := 0) (dt := 0) (rise := 0) (fall := 0) (fun _ => ?_) (fun _ => ?_)
    (fun _ => ?_) (fun hlt => ?_) (le_refl _) rfl
  · rw [missCtx_counters, hpushes]
    rfl
  · rw [missCtx_counters, hmissed]
    rfl
  · rw [missCtx_counters, htakes]
    rfl
  · rw [missCtx_counters, missCtx_retryInFlight, hgone (by omega)]
    split_ifs with ho
    · have := hflight ho
      omega
    · omega

theorem lateCounts_retry (o : TagOrigin) {cause : MissCause} (k : Counters) :
    (countCause cause (lateCounts o k)).pushes = k.pushes ∧ missSum (countCause cause (lateCounts o k)) = missSum k ∧
      (countCause cause (lateCounts o k)).takes = k.takes ∧ (goneSum k < counterMax →
        goneSum (countCause cause (lateCounts o k)) = goneSum k + if o = .retry then 1 else 0) := by
  obtain ⟨hpushes, hmissed, htakes, hgone⟩ := keepsAccounts_retry (countCause_keepsAccounts cause) (lateCounts o k)
  refine ⟨hpushes, hmissed, htakes, fun hlt => hgone.trans ?_⟩
  unfold goneSum at *
  by_cases ho : o = .retry
  · simp only [lateCounts, ho, if_true, satInc_lt (show k.retryLost < counterMax by omega)]
    omega
  · simp [lateCounts, ho]

theorem countEmitted_retry (o : TagOrigin) (p : PointRecord) (k : Counters) :
    (countEmitted o p k).pushes = k.pushes ∧ missSum (countEmitted o p k) = missSum k ∧
      (countEmitted o p k).takes = k.takes ∧ (goneSum k < counterMax →
        goneSum (countEmitted o p k) = goneSum k + if o = .retry then 1 else 0) := by
  rw [countEmitted_eq]
  refine ⟨rfl, rfl, rfl, fun hlt => ?_⟩
  unfold goneSum at *
  by_cases ho : o = .retry
  · simp only [ho, if_true, satInc_lt (show k.emittedRetry < counterMax by omega)]
    omega
  · simp [ho]

/-- An abandoned tag leaves the queue as a lost one. -/
theorem abandonedCounts_retry (o : TagOrigin) (k : Counters) :
    let k' : Counters := { k with
      abandoned := if o = .retry then k.abandoned else satInc k.abandoned
      retryLost := if o = .retry then satInc k.retryLost else k.retryLost }
    k'.pushes = k.pushes ∧ missSum k' = missSum k ∧ k'.takes = k.takes ∧
      (goneSum k < counterMax → goneSum k' = goneSum k + if o = .retry then 1 else 0) := by
  refine ⟨rfl, rfl, rfl, fun hlt => ?_⟩
  unfold goneSum at *
  by_cases ho : o = .retry
  · simp only [ho, if_true, satInc_lt (show k.retryLost < counterMax by omega)]
    omega
  · simp [ho]

/-- The tags `gone` of a pass are abandoned. -/
theorem retryBalanced_withdrawn {gone : List TagEntry} (h : retryBalanced c) (hb : takesBounded c)
    (hflight : gone.countP (fun e => decide (e.origin = .retry)) ≤ c.retryInFlight) :
    retryBalanced (withdrawnCtx gone c) ∧ (withdrawnCtx gone c).retryInFlight =
      c.retryInFlight - gone.countP fun e => decide (e.origin = .retry) := by
  induction gone generalizing c with
  | nil => exact ⟨h, rfl⟩
  | cons e gone ih =>
    have one : withdrawnCtx (e :: gone) c = withdrawnCtx gone (abandonedCtx e.origin c) := rfl
    rw [List.countP_cons] at hflight
    simp only [decide_eq_true_eq] at hflight
    have balanced : retryBalanced (abandonedCtx e.origin c) := by
      rw [abandonedCtx_eq]
      refine retryBalanced_left (abandonedCounts_retry e.origin) (fun ho => ?_) h hb
      rw [if_pos ho] at hflight
      omega
    have bounded : takesBounded (abandonedCtx e.origin c) := by
      obtain ⟨hpushes, htakes, -, -⟩ := stackSame_abandonedCtx e.origin c
      unfold takesBounded
      rw [hpushes, htakes]
      exact hb
    have flight : (abandonedCtx e.origin c).retryInFlight = if e.origin = .retry then c.retryInFlight - 1
        else c.retryInFlight := by
      rw [abandonedCtx_eq, missCtx_retryInFlight]
    rw [one, List.countP_cons]
    simp only [decide_eq_true_eq]
    obtain ⟨hbal, hleft⟩ := ih balanced bounded (by rw [flight]; split_ifs at * <;> omega)
    refine ⟨hbal, ?_⟩
    rw [hleft, flight]
    split_ifs <;> omega

/-! ### Pushes and takes -/

/-- A miss of the running lead is pushed: a main tag's counts in missed_main, a retry tag's is a push again. -/
theorem retryBalanced_pushed {o : TagOrigin} {cause : MissCause} {full : Bool} (hflight : o = .retry → 1 ≤ c.retryInFlight)
    (h : retryBalanced c) (hb : takesBounded c) :
    retryBalanced (missCtx o (fun k => countCause cause (missedCounts o (pushedCounts full k))) c) := by
  obtain ⟨hpushes, hmissed, htakes, hgone⟩ := keepsAccounts_retry (countCause_keepsAccounts cause)
    (missedCounts o (pushedCounts full c.counters))
  by_cases ho : o = .retry
  · refine retryBalanced_step h hb (dp := 1) (dm := 0) (dt := 0) (rise := 0) (fall := 1) (fun hlt => ?_) (fun _ => ?_)
      (fun _ => ?_) (fun _ => ?_) (Nat.zero_le _) rfl
    · rw [missCtx_counters, hpushes] at hlt ⊢
      exact of_satInc_lt hlt
    · rw [missCtx_counters, hmissed]
      simp [missSum, missedCounts, pushedCounts, ho]
    · rw [missCtx_counters, htakes]
      rfl
    · rw [missCtx_counters, hgone, missCtx_retryInFlight, if_pos ho]
      have := hflight ho
      simp only [goneSum, missedCounts, pushedCounts]
      omega
  · refine retryBalanced_step h hb (dp := 1) (dm := 1) (dt := 0) (rise := 0) (fall := 0) (fun hlt => ?_) (fun hlt => ?_)
      (fun _ => ?_) (fun _ => ?_) (le_refl _) rfl
    · rw [missCtx_counters, hpushes] at hlt ⊢
      exact of_satInc_lt hlt
    · rw [missCtx_counters, hmissed]
      unfold missSum at *
      simp only [missedCounts, pushedCounts, ho, if_false, satInc_lt (show c.counters.missedMain < counterMax by omega)]
      omega
    · rw [missCtx_counters, htakes]
      rfl
    · rw [missCtx_counters, hgone, missCtx_retryInFlight, if_neg ho]
      rfl

/-- A point held or busy in the main span is pushed. -/
theorem retryBalanced_crossed {o : Crossing} {full : Bool} (ho : o = .held ∨ o = .busy) (h : retryBalanced c)
    (hb : takesBounded c) : retryBalanced (onCounters (fun k => pushedCounts full (countCrossing o k)) c) := by
  have counted : (countCrossing o c.counters).pushes = c.counters.pushes ∧
      (missSum c.counters < counterMax → missSum (countCrossing o c.counters) = missSum c.counters + 1) ∧
      (countCrossing o c.counters).takes = c.counters.takes ∧
      goneSum (countCrossing o c.counters) = goneSum c.counters := by
    unfold missSum
    obtain rfl | rfl := ho
    · refine ⟨rfl, fun hlt => ?_, rfl, rfl⟩
      simp only [countCrossing, satInc_lt (show c.counters.held < counterMax by omega)]
      omega
    · refine ⟨rfl, fun hlt => ?_, rfl, rfl⟩
      simp only [countCrossing, satInc_lt (show c.counters.busy < counterMax by omega)]
      omega
  obtain ⟨hpushes, hmissed, htakes, hgone⟩ := counted
  refine retryBalanced_step h hb (dp := 1) (dm := 1) (dt := 0) (rise := 0) (fall := 0) (fun hlt => ?_) hmissed
    (fun _ => htakes) (fun _ => by rw [← hgone]; rfl) (le_refl _) rfl
  have inc : satInc (countCrossing o c.counters).pushes < counterMax := hlt
  rw [hpushes] at inc
  show satInc (countCrossing o c.counters).pushes = _
  rw [hpushes]
  exact of_satInc_lt inc

/-- An entry is taken from the stack and fired. -/
theorem retryBalanced_taken (h : retryBalanced c) (hb : takesBounded c) :
    retryBalanced (addInFlight .retry (onCounters takenCounts c)) :=
  retryBalanced_step h hb (dp := 0) (dm := 0) (dt := 1) (rise := 1) (fall := 0) (fun _ => rfl) (fun _ => rfl)
    (fun hlt => satInc_lt hlt) (fun _ => rfl) (le_refl _) rfl

/-- An entry is taken from the stack and lost on a port in FAULT. -/
theorem retryBalanced_takenLost (h : retryBalanced c) (hb : takesBounded c) :
    retryBalanced (abandonedCtx .retry (addInFlight .retry (onCounters takenCounts c))) := by
  refine retryBalanced_step h hb (dp := 0) (dm := 0) (dt := 1) (rise := 1) (fall := 0) (fun _ => rfl) (fun _ => rfl)
    (fun hlt => satInc_lt hlt) (fun hlt => ?_) (le_refl _) rfl
  unfold goneSum at *
  simp only [abandonedCtx, addInFlight, dropInFlight, countAbandoned, onCounters, takenCounts,
    satInc_lt (show c.counters.retryLost < counterMax by omega)]
  omega

end Sys2Proof.Machine
end

