-- ==== Sys2Proof/Proofs/RetryMoves.lean ====
section
/-! PROOFS. Proofs/RetryMoves.lean: every move of the passes keeps the identity of R158 and the keys of the lead exclusive. -/

namespace Sys2Proof.Machine

open Sys2Proof

/-- The accounts on which R158 rests, the keys of the lead, and R158 itself. -/
structure RetryKept (s : State) : Prop where
  accounts : accountsOf (fun _ => True) s
  stack : stackKept s
  keys : keysExclusive s
  balanced : ∀ c ∈ contexts s.psc, retryBalanced c

variable {s t : State}

/-! ### What the accounts give -/

theorem takesBounded_of_stack (h : stackKept s) {c : PassCtx} (hc : c ∈ contexts s.psc) : takesBounded c := by
  intro hlt
  have bounded : ∀ left, stackBalanced c.counters left → c.counters.takes < counterMax := fun left hbal => by
    have := hbal hlt
    omega
  obtain ⟨-, -, -, hlead, hdrain⟩ := h
  simp only [contexts, List.mem_append, Option.mem_toList, Option.map_eq_some_iff] at hc
  obtain ⟨l, hl, rfl⟩ | hc := hc
  · exact bounded _ (hlead l hl).1
  · exact bounded _ (hdrain c hc)

theorem retryInFlight_pos (h : accountsOf (fun _ => True) s) {e : TagEntry} {rest : List TagEntry}
    (hq : s.prb.queue = e :: rest) {c : PassCtx} (hc : c ∈ contexts s.psc) (hid : c.settings.passId = e.passId)
    (ho : e.origin = .retry) : 1 ≤ c.retryInFlight := by
  obtain ⟨⟨-, hretry⟩, -⟩ := h.each c hc
  rw [hq, List.countP_cons_of_pos (by simp [hid, ho])] at hretry
  omega

/-! ### Contexts -/

theorem balanced_modCtx {id : Nat} {f : PassCtx → PassCtx} (hd : distinctIds (contexts s.psc))
    (hb : ∀ c ∈ contexts s.psc, retryBalanced c)
    (hf : ∀ c ∈ contexts s.psc, c.settings.passId = id → retryBalanced c → retryBalanced (f c)) :
    ∀ c ∈ contexts (modCtx id f s).psc, retryBalanced c := by
  rw [contexts_modCtx hd]
  intro c hc
  obtain ⟨d, hd, rfl⟩ := List.mem_map.1 hc
  unfold ctxOf
  split_ifs with hid
  · exact hf d hd (by simpa using hid) (hb d hd)
  · exact hb d hd

/-- A change of a context that leaves the course of its pass as it is. -/
def courseKept (f : PassCtx → PassCtx) : Prop := ∀ c, sameCourse c (f c) ∧ (f c).highWater = c.highWater

theorem courseKept_onCounters (f : Counters → Counters) : courseKept (onCounters f) := fun _ => ⟨⟨rfl, rfl⟩, rfl⟩

theorem courseKept_missCtx (o : TagOrigin) (f : Counters → Counters) : courseKept (missCtx o f) := fun c => by
  cases o <;> exact ⟨⟨rfl, rfl⟩, rfl⟩

theorem modCtx_lead_from {id : Nat} {f : PassCtx → PassCtx} (hf : courseKept f) {l' : Lead}
    (hl' : (modCtx id f s).psc.lead = some l') :
    ∃ l, s.psc.lead = some l ∧ l'.phase = l.phase ∧ sameCourse l.ctx l'.ctx ∧ l'.ctx.highWater = l.ctx.highWater := by
  obtain ⟨-, hmod⟩ | ⟨-, hlead, -, -⟩ := modCtx_cases id f s
  · rw [hmod, (modLead_psc f s).1] at hl'
    obtain ⟨l, hl, rfl⟩ := Option.map_eq_some_iff.1 hl'
    exact ⟨l, hl, rfl, (hf l.ctx).1, (hf l.ctx).2⟩
  · rw [hlead] at hl'
    exact ⟨l', hl', rfl, ⟨rfl, rfl⟩, rfl⟩

/-- A context changes off its course, and of the keys some may be gone. -/
theorem keysExclusive_modCtx {id : Nat} {f : PassCtx → PassCtx} (hf : courseKept f) (hpsc : t.psc = (modCtx id f s).psc)
    (hground : t.enc = s.enc ∧ t.wbk = s.wbk) (hkeys : ∀ l, s.psc.lead = some l →
      (t.stack.map missKey ++ tagKeys l.ctx.settings.passId t.prb.queue).Subperm (leadKeys s l))
    (h : keysExclusive s) : keysExclusive t := by
  obtain ⟨henc, hwbk⟩ := hground
  refine keysExclusive_of h fun l' hl' => ?_
  rw [hpsc] at hl'
  obtain ⟨l, hl, hphase, hcourse, hwater⟩ := modCtx_lead_from hf hl'
  refine ⟨l, hl, fun ha => hphase ▸ ha, hcourse, hwater.ge, ?_, by rw [henc], fun _ => ⟨by rw [henc], by rw [hwbk], by rw [hwbk]⟩⟩
  rw [leadKeys_eq t, hcourse.1]
  exact hkeys l hl

theorem keysExclusive_blocks (hlead : t.psc.lead = s.psc.lead) (hstack : t.stack = s.stack) (hqueue : t.prb.queue = s.prb.queue)
    (hground : t.enc = s.enc ∧ t.wbk = s.wbk) (h : keysExclusive s) : keysExclusive t := by
  obtain ⟨henc, hwbk⟩ := hground
  refine keysExclusive_of h fun l hl => ?_
  rw [hlead] at hl
  refine ⟨l, hl, id, ⟨rfl, rfl⟩, le_refl _, ?_, by rw [henc], fun _ => ⟨by rw [henc], by rw [hwbk], by rw [hwbk]⟩⟩
  rw [leadKeys_eq, leadKeys_eq, hstack, hqueue]

/-! ### The moves, one by one -/

theorem retry_still (hs : PassesStand s t) (h : RetryKept s) :
    keysExclusive t ∧ ∀ c ∈ contexts t.psc, retryBalanced c := by
  have hcontexts : contexts t.psc = contexts s.psc := by
    unfold contexts
    rw [hs.lead, hs.drain]
  refine ⟨keysExclusive_of h.keys fun l hl => ?_, by rw [hcontexts]; exact h.balanced⟩
  rw [hs.lead] at hl
  obtain ⟨henc, hpiece⟩ := hs.armed (by rw [hl]; simp)
  refine ⟨l, hl, id, ⟨rfl, rfl⟩, le_refl _, ?_, henc, fun ha => ⟨henc, hpiece, hs.running ?_⟩⟩
  · rw [leadKeys_eq, leadKeys_eq, hs.stack, hs.queue]
  · rw [← Bool.not_eq_true, leadEligible_iff]
    intro hno
    exact ha (by simpa [leadRunning] using hno l hl)

theorem retry_noted {f : Counters → Counters} (id : Nat) (hf : keepsAccounts f) (h : RetryKept s) :
    keysExclusive (modCtx id (onCounters f) s) ∧
      ∀ c ∈ contexts (modCtx id (onCounters f) s).psc, retryBalanced c :=
  ⟨keysExclusive_modCtx (courseKept_onCounters f) rfl (by simp)
      (fun l _ => by rw [leadKeys_eq]; simp only [modCtx_frame]; exact List.Subperm.refl _) h.keys,
    balanced_modCtx h.accounts.distinct h.balanced fun _ _ _ => retryBalanced_same (retrySame_keepsAccounts hf)⟩

theorem retry_emitted {e : TagEntry} {rest : List TagEntry} (p : PointRecord) (hq : s.prb.queue = e :: rest)
    (h : RetryKept s) : let t := emitOne e p (s.setPrb { s.prb with queue := rest })
    keysExclusive t ∧ ∀ c ∈ contexts t.psc, retryBalanced c := by
  intro t
  have hpsc : t.psc = (modCtx e.passId (missCtx e.origin (countEmitted e.origin p)) s).psc := modCtx_psc_congr (by simp) _ _
  refine ⟨keysExclusive_modCtx (courseKept_missCtx _ _) hpsc (by simp [t, emitOne]) (fun l _ => ?_) h.keys, ?_⟩
  · rw [leadKeys_eq, hq, show t.stack = s.stack by simp [t, emitOne], show t.prb.queue = rest by simp [t, emitOne]]
    exact ((List.append_sublist_append_left _).2 (tagKeys_tail_sublist _ _ _)).subperm
  · rw [hpsc]
    exact balanced_modCtx h.accounts.distinct h.balanced fun c hc hid hb =>
      retryBalanced_left (countEmitted_retry e.origin p) (retryInFlight_pos h.accounts hq hc hid) hb
        (takesBounded_of_stack h.stack hc)

theorem missKey_missOf (e : TagEntry) (cause : MissCause) : missKey (missOf e cause) = tagKey e := rfl

/-- A tag of the lead in flight has no entry on the stack (R149). -/
theorem not_stands_of_head (h : RetryKept s) {e : TagEntry} {rest : List TagEntry} (hq : s.prb.queue = e :: rest)
    (cause : MissCause) {l : Lead} (hl : s.psc.lead = some l) (hid : l.ctx.settings.passId = e.passId) :
    s.stack.any (sameKey (missOf e cause)) = false := by
  rw [← Bool.not_eq_true]
  intro hstands
  obtain ⟨-, ⟨nodup, -⟩, -⟩ := (keysExclusive_iff s).1 h.keys l hl
  rw [leadKeys_eq, hq, tagKeys_cons_own hid.symm] at nodup
  exact (List.nodup_append.1 nodup).2.2 _ (mem_keys_of_stands hstands) _ List.mem_cons_self (missKey_missOf e cause)

theorem retry_missed {e : TagEntry} {rest : List TagEntry} (cause : MissCause) (hq : s.prb.queue = e :: rest)
    (h : RetryKept s) : let t := missOne e cause (s.setPrb { s.prb with queue := rest })
    keysExclusive t ∧ ∀ c ∈ contexts t.psc, retryBalanced c := by
  intro t
  let popped := s.setPrb { s.prb with queue := rest }
  have hflight : ∀ c ∈ contexts s.psc, c.settings.passId = e.passId → e.origin = .retry → 1 ≤ c.retryInFlight :=
    fun c hc hid => retryInFlight_pos h.accounts hq hc hid
  cases hrun : runningLeadIs e.passId popped with
  | false =>
    have late : t = modCtx e.passId (missCtx e.origin fun k => countCause cause (lateCounts e.origin k)) popped :=
      missOne_late cause hrun
    have hpsc : t.psc = (modCtx e.passId (missCtx e.origin fun k => countCause cause (lateCounts e.origin k)) s).psc := by
      rw [late]
      exact modCtx_psc_congr (s := s) (t := popped) rfl _ _
    refine ⟨keysExclusive_modCtx (courseKept_missCtx _ _) hpsc (by rw [late]; simp [popped]) (fun l _ => ?_) h.keys, ?_⟩
    · rw [leadKeys_eq, hq, late]
      simp only [modCtx_frame]
      exact ((List.append_sublist_append_left _).2 (tagKeys_tail_sublist _ _ _)).subperm
    · rw [late]
      exact balanced_modCtx (s := popped) h.accounts.distinct h.balanced fun c hc hid hb =>
        retryBalanced_left (lateCounts_retry e.origin) (hflight c hc hid) hb (takesBounded_of_stack h.stack hc)
  | true =>
    obtain ⟨l, hl, -, hid⟩ := exists_lead_of_runningLeadIs hrun
    have fresh := not_stands_of_head h hq cause hl hid
    have onStack : t = modCtx e.passId (missCtx e.origin fun k =>
        countCause cause (missedCounts e.origin (pushedCounts (stackFull popped) k)))
        (popped.setStack (pushed (missOf e cause) popped)) := missOne_pushed cause hrun fresh
    have hpsc : t.psc = (modCtx e.passId (missCtx e.origin fun k =>
        countCause cause (missedCounts e.origin (pushedCounts (stackFull popped) k))) s).psc := by
      rw [onStack]
      exact modCtx_psc_congr (s := s) (t := popped.setStack (pushed (missOf e cause) popped)) rfl _ _
    refine ⟨keysExclusive_modCtx (courseKept_missCtx _ _) hpsc (by rw [onStack]; simp [popped]) (fun l' hl' => ?_) h.keys, ?_⟩
    · obtain rfl : l = l' := by simpa [popped, hl'] using hl.symm
      rw [leadKeys_eq, hq, tagKeys_cons_own hid.symm, onStack]
      simp only [modCtx_frame, State.setStack_stack, State.setStack_prb, pushed, List.map_cons, List.cons_append,
        missKey_missOf]
      refine List.Subperm.trans ?_ List.perm_middle.symm.subperm
      refine (List.Sublist.cons_cons _ ((List.append_sublist_append_right _).2 (List.Sublist.map _ ?_))).subperm
      split_ifs
      · exact List.dropLast_sublist _
      · exact List.Sublist.refl _
    · rw [onStack]
      exact balanced_modCtx (s := popped.setStack (pushed (missOf e cause) popped)) h.accounts.distinct h.balanced
        fun c hc hid hb => retryBalanced_pushed (hflight c hc hid) hb (takesBounded_of_stack h.stack hc)

/-! ### Abandoned tags and ended passes -/

theorem withdrawnCtx_course (gone : List TagEntry) : courseKept (withdrawnCtx gone) := by
  induction gone with
  | nil => exact fun c => ⟨⟨rfl, rfl⟩, rfl⟩
  | cons e gone ih =>
    intro c
    have one : sameCourse c (abandonedCtx e.origin c) ∧ (abandonedCtx e.origin c).highWater = c.highWater := by
      cases e.origin <;> exact ⟨⟨rfl, rfl⟩, rfl⟩
    obtain ⟨⟨hset, hstart⟩, hwater⟩ := one
    obtain ⟨⟨hset', hstart'⟩, hwater'⟩ := ih (abandonedCtx e.origin c)
    exact ⟨⟨hset'.trans hset, hstart'.trans hstart⟩, hwater'.trans hwater⟩

/-- The tags of a context, all abandoned: none is left in flight. -/
theorem balanced_withdrawn (h : RetryKept s) {c : PassCtx} (hc : c ∈ contexts s.psc) :
    retryBalanced (withdrawnCtx (tagsOf s.prb.queue c) c) ∧
      (withdrawnCtx (tagsOf s.prb.queue c) c).retryInFlight = 0 := by
  obtain ⟨⟨-, hretry⟩, -⟩ := h.accounts.each c hc
  have count : (tagsOf s.prb.queue c).countP (fun e => decide (e.origin = .retry)) = c.retryInFlight := by
    rw [hretry, tagsOf, List.countP_filter]
    refine List.countP_congr fun e _ => ?_
    simp [and_comm]
  obtain ⟨hbal, hleft⟩ := retryBalanced_withdrawn (h.balanced c hc) (takesBounded_of_stack h.stack hc) count.le
  exact ⟨hbal, by rw [hleft, count, Nat.sub_self]⟩

theorem retry_faulted (h : RetryKept s) : let t := abandon (fun _ => true) (s.setPrb { s.prb with state := .fault })
    keysExclusive t ∧ ∀ c ∈ contexts t.psc, retryBalanced c := by
  intro t
  have hpsc : t.psc = mapContexts (fun c => withdrawnCtx (tagsOf s.prb.queue c) c) s.psc :=
    abandonAll_psc h.accounts.distinct
  have hqueue : t.prb.queue = [] := by simp [t, abandonAll_prb]
  refine ⟨keysExclusive_of h.keys fun l' hl' => ?_, ?_⟩
  · rw [hpsc] at hl'
    obtain ⟨l, hl, rfl⟩ := Option.map_eq_some_iff.1 hl'
    obtain ⟨hcourse, hwater⟩ := withdrawnCtx_course (tagsOf s.prb.queue l.ctx) l.ctx
    refine ⟨l, hl, id, hcourse, hwater.ge, ?_, by simp [t], fun _ => ⟨by simp [t], by simp [t], by simp [t]⟩⟩
    rw [leadKeys_eq, leadKeys_eq, hqueue, show t.stack = s.stack by simp [t]]
    exact ((List.append_sublist_append_left _).2 (List.nil_sublist _)).subperm
  · rw [hpsc, contexts_mapContexts]
    intro c hc
    obtain ⟨d, hd, rfl⟩ := List.mem_map.1 hc
    exact (balanced_withdrawn h hd).1

theorem balanced_ended (st : EndStatus) {l : Lead} (hl : s.psc.lead = some l) (h : RetryKept s) :
    retryBalanced (endedCtx st l s) := by
  have hmem : l.ctx ∈ contexts s.psc := by simp [contexts_of_lead hl]
  have unresolved : retrySame (onCounters fun k => { k with unresolved := satAdd k.unresolved s.stack.length }) :=
    fun _ => ⟨rfl, rfl, rfl, rfl, rfl⟩
  refine retryBalanced_same unresolved ?_
  split_ifs
  · have named : ∀ (gone : List TagEntry) (c : PassCtx), retryBalanced (withdrawnCtx gone c) →
        (withdrawnCtx gone c).retryInFlight = 0 → retryBalanced
          { withdrawnCtx gone { c with endStatus := some st } with mainInFlight := 0, retryInFlight := 0 } := by
      intro gone c hbal hnone
      have same : withdrawnCtx gone { c with endStatus := some st } =
          { withdrawnCtx gone c with endStatus := some st } := by
        clear hbal hnone
        induction gone generalizing c with
        | nil => rfl
        | cons e gone ih =>
          have one : abandonedCtx e.origin { c with endStatus := some st } =
              { abandonedCtx e.origin c with endStatus := some st } := by
            cases e.origin <;> rfl
          exact (congrArg (withdrawnCtx gone) one).trans (ih _)
      rw [same]
      unfold retryBalanced at *
      rw [hnone] at hbal
      exact hbal
    obtain ⟨hbal, hnone⟩ := balanced_withdrawn h hmem
    exact named _ _ hbal hnone
  · have hold := h.balanced l.ctx hmem
    exact hold

theorem retry_retired (st : EndStatus) {l : Lead} (hl : s.psc.lead = some l) (h : RetryKept s) :
    keysExclusive (retirePass st l s) ∧ ∀ c ∈ contexts (retirePass st l s).psc, retryBalanced c := by
  have r := retirePass_retired st hl
  refine ⟨keysExclusive_of_none r.lead, ?_⟩
  rw [contexts_of_none r.lead, r.drain]
  intro c hc
  obtain hc | hc := List.mem_append.1 hc
  · exact h.balanced c (by simp [contexts, hc])
  · rw [List.mem_singleton.1 hc]
    exact balanced_ended st hl h

theorem retry_flushed (h : RetryKept s) :
    keysExclusive (flushDrain s) ∧ ∀ c ∈ contexts (flushDrain s).psc, retryBalanced c :=
  ⟨keysExclusive_blocks (by rw [flushDrain_psc]) (by simp) (by simp) (by simp) h.keys,
    fun c hc => h.balanced c (contexts_flushDrain_subset hc)⟩

/-! ### A pass is armed, starts and runs on -/

theorem retry_armed {settings : PassSettings} (hl : s.psc.lead = none)
    (hid : ∀ c ∈ s.psc.drain, c.settings.passId ≠ settings.passId) (hoverlap : settings.overlap ≤ s.enc.settings.cpr / 4)
    (h : RetryKept s) : keysExclusive (armLead settings s) ∧ ∀ c ∈ contexts (armLead settings s).psc, retryBalanced c := by
  have hlead : (armLead settings s).psc.lead = some { phase := .armed, ctx := freshCtx settings } := rfl
  constructor
  · rw [keysExclusive_iff]
    intro l hl'
    rw [hlead, Option.some.injEq] at hl'
    subst hl'
    have none : leadKeys (armLead settings s) { phase := .armed, ctx := freshCtx settings } = [] := by
      have stack : (armLead settings s).stack = [] := h.stack.owned (by simp [hl])
      have queue : (armLead settings s).prb.queue = s.prb.queue := rfl
      rw [leadKeys_eq, stack, queue]
      refine List.map_eq_nil_iff.2 (List.filter_eq_nil_iff.2 fun e he => ?_)
      obtain ⟨c, hc, hce⟩ := h.accounts.named e he
      rw [contexts_of_none hl] at hc
      rw [← hce]
      simpa [freshCtx] using hid c hc
    have cpr : (armLead settings s).enc.settings.cpr = s.enc.settings.cpr := rfl
    refine ⟨?_, by rw [none]; exact keysHeld_nil _ _ _, fun _ => none⟩
    rw [cpr]
    exact hoverlap.trans (Nat.div_le_self _ _)
  · intro c hc
    rw [contexts_of_lead hlead] at hc
    obtain rfl | hc := List.mem_cons.1 hc
    · exact fun _ => ⟨0, rfl, rfl⟩
    · exact h.balanced c (by rw [contexts_of_none hl]; exact hc)

/-- The lead runs on with its course, or enters a retry turn. -/
theorem retry_runs {l l' : Lead} (hl : s.psc.lead = some l) (hruns : runsOn l l')
    (hcourse : sameCourse l.ctx l'.ctx ∧ l'.ctx.highWater = l.ctx.highWater) (h : RetryKept s) :
    let t := s.setPsc { s.psc with lead := some l' }
    keysExclusive t ∧ ∀ c ∈ contexts t.psc, retryBalanced c := by
  obtain ⟨hrun, hctx⟩ := hruns
  have running : l'.phase ≠ .armed := by simpa [leadRunning] using hrun
  refine ⟨keysExclusive_of h.keys fun m hm => ?_, fun c hc => ?_⟩
  · obtain rfl : l' = m := by simpa using hm
    refine ⟨l, hl, (absurd · running), hcourse.1, hcourse.2.ge, ?_, rfl, fun _ => ⟨rfl, rfl, rfl⟩⟩
    rw [leadKeys_eq, leadKeys_eq, hcourse.1.1]
    exact List.Subperm.refl _
  · rw [contexts_of_lead (l := l') rfl] at hc
    obtain rfl | hc := List.mem_cons.1 hc
    · have hold := h.balanced l.ctx (by simp [contexts_of_lead hl])
      rw [hctx]
      exact hold
    · exact h.balanced c (by rw [contexts_of_lead hl]; exact List.mem_cons_of_mem _ hc)

end Sys2Proof.Machine
end

