-- ==== Sys2Proof/Proofs/RetryPositions.lean ====
section
/-! PROOFS. Proofs/RetryPositions.lean: the points of a position keep the identity of R158 and the keys of the lead exclusive,
because no point is crossed twice in a turn (sections 8.2, 8.5, 8.6). -/

namespace Sys2Proof.Machine

open Sys2Proof

variable {s t : State} {l : Lead}

/-! ### The ground of a running pass -/

/-- What a running pass runs on: a legal CPR, a legal workpiece and well-formed windows. -/
def groundOk (s : State) : Prop :=
  1024 ≤ s.enc.settings.cpr ∧ workpieceKnown s ∧ ∀ v ∈ s.wbk.active.windows, windowOk v

theorem groundOk_of_same (h : groundOk s) (hsame : sameGround s t) : groundOk t := by
  obtain ⟨hcpr, hpiece, hwindows⟩ := h
  obtain ⟨henc, hpiece', hactive⟩ := hsame
  unfold groundOk workpieceKnown
  rw [henc, hpiece', hactive]
  exact ⟨hcpr, hpiece, hwindows⟩

theorem crossedAt_keys_differ (h : groundOk s) (u : Int) :
    (crossedAt s u).Pairwise fun a b => pointKey a ≠ pointKey b := by
  obtain ⟨-, -, hwindows⟩ := h
  unfold crossedAt
  split
  · exact .nil
  · exact crossedBetween_keys_differ hwindows

theorem crossedAt_once (h : groundOk s) {u v : Int} (huv : u < v) (hturn : v < u + s.enc.settings.cpr)
    {a b : CrossedPoint} (ha : a ∈ crossedAt s u) (hb : b ∈ crossedAt s v) : pointKey a ≠ pointKey b := by
  obtain ⟨hcpr, hpiece, hwindows⟩ := h
  unfold crossedAt at ha hb
  cases hw : s.wbk.workpiece with
  | none =>
    rw [hw] at ha
    cases ha
  | some w =>
    rw [hw] at ha hb
    exact crossed_once (hpiece w hw) hwindows hcpr huv hturn ha hb

/-! ### The points of a position, one by one -/

/-- The key with which a point is missed or fired in the main span (R145). -/
def crossKey (pt : CrossedPoint) (overlap : Bool) : MissKey := (pt.blade, pt.index, pt.j, overlap)

/-- A point of the next position of the main span is new among the lead's keys. -/
theorem crossKey_fresh (h : groundOk s) {c : PassCtx} {prog : Nat} {keys : List MissKey}
    (hoverlap : c.settings.overlap ≤ s.enc.settings.cpr) (hspan : prog ≤ s.enc.settings.cpr + c.settings.overlap)
    {reach : Nat} (hreach : reach < prog) (hkeys : KeysHeld s c reach keys) {pt : CrossedPoint}
    (hpt : pt ∈ crossedAt s (c.uStart + prog)) : crossKey pt (decide (s.enc.settings.cpr < prog)) ∉ keys := by
  intro hmem
  obtain ⟨p, pt', hp, hle, -, ho, hpt', hname⟩ := hkeys.crossed _ hmem
  have sides : s.enc.settings.cpr < prog ↔ s.enc.settings.cpr < p := by simpa [crossKey] using ho
  refine crossedAt_once h (u := c.uStart + p) (v := c.uStart + prog) (by omega) (by omega) hpt' hpt ?_
  exact hname

/-- The accounts in the middle of a position: `c` is the lead's context before it, and `reach` the position. -/
structure CrossingKept (s : State) (l : Lead) (reach : Nat) (t : State) : Prop where
  alone : countsAlone l s t
  ground : t.enc = s.enc ∧ t.wbk = s.wbk
  accounts : accountsOf (fun _ => True) t
  stack : stackKept t
  balanced : ∀ c ∈ contexts t.psc, retryBalanced c
  held : KeysHeld s l.ctx reach (t.stack.map missKey ++ tagKeys l.ctx.settings.passId t.prb.queue)

theorem balanced_modLead {f : PassCtx → PassCtx} {u : State} (hl : t.psc.lead = some l) (hu : u.psc = t.psc)
    (hd : distinctIds (contexts t.psc)) (hb : ∀ c ∈ contexts t.psc, retryBalanced c)
    (hf : ∀ c ∈ contexts t.psc, retryBalanced c → retryBalanced (f c)) :
    ∀ c ∈ contexts (modLead f u).psc, retryBalanced c := by
  have hid : leadIs l.ctx.settings.passId u.psc = true := by
    rw [hu]
    exact leadIs_of_lead hl
  rw [← hu] at hd hb hf
  rw [modLead_eq hid]
  exact balanced_modCtx hd hb fun c hc _ => hf c hc

theorem KeysHeld.cons {c : PassCtx} {reach : Nat} {keys : List MissKey} (h : KeysHeld s c reach keys) {key : MissKey}
    (hnew : key ∉ keys) (hkey : crossedUpTo s c reach key) : KeysHeld s c reach (key :: keys) := by
  obtain ⟨nodup, crossed⟩ := h
  refine ⟨List.nodup_cons.2 ⟨hnew, nodup⟩, fun k hk => ?_⟩
  obtain rfl | hk := List.mem_cons.1 hk
  · exact hkey
  · exact crossed k hk

/-- A part of the keys of a pass is held too. -/
theorem KeysHeld.some {c : PassCtx} {reach : Nat} {keys keys' : List MissKey} (h : KeysHeld s c reach keys)
    (hkeys : keys'.Subperm keys) : KeysHeld s c reach keys' :=
  h.mono ⟨rfl, rfl, rfl⟩ ⟨rfl, rfl⟩ (le_refl _) hkeys

theorem retrySame_blanked : retrySame (onCounters (countCrossing .blanked)) := fun _ => ⟨rfl, rfl, rfl, rfl, rfl⟩

theorem retrySame_fired {o : TagOrigin} (ho : o ≠ .retry) :
    retrySame fun c => addInFlight o (onCounters (countCrossing .fired) c) := fun c => by
  cases o
  exacts [⟨rfl, rfl, rfl, rfl, rfl⟩, ⟨rfl, rfl, rfl, rfl, rfl⟩, absurd rfl ho]

theorem retrySame_lost {o : TagOrigin} (ho : o ≠ .retry) :
    retrySame fun c => abandonedCtx o (addInFlight o (onCounters (countCrossing .fired) c)) := fun c => by
  cases o
  exacts [⟨rfl, rfl, rfl, rfl, rfl⟩, ⟨rfl, rfl, rfl, rfl, rfl⟩, absurd rfl ho]

/-- The key of the entry that a trigger puts into the queue. -/
theorem tagKeys_taken {r : TriggerRequest} {id : Nat} {pt : CrossedPoint} {overlap : Bool}
    (hr : requestNames r id pt overlap) (now : Nat) (p : Prb) :
    tagKeys id (takeTrigger r now p).queue = tagKeys id p.queue ++ [crossKey pt overlap] := by
  obtain ⟨-, -, -, -, -, start, -, -, hqueue, -⟩ := takeTrigger_rule r now p
  obtain ⟨hid, hblade, hwindow, hj, ho⟩ := hr
  rw [hqueue, tagKeys_append, tagKeys_cons_own (by exact hid)]
  simp only [tagKeys, List.filter_nil, List.map_nil, tagKey, entryOf, crossKey, hblade, hwindow, hj, ho]

/-- Every key after a point of the main span is one from before it or the point's own. -/
theorem crossing_main {reach : Nat} (h : CrossingKept s l reach t) (hrun : leadRunning l = true) (u : Int) {overlap : Bool}
    {pt : CrossedPoint} (hkey : crossedUpTo s l.ctx reach (crossKey pt overlap))
    (hnew : crossKey pt overlap ∉ t.stack.map missKey ++ tagKeys l.ctx.settings.passId t.prb.queue) :
    let t' := crossMain l u overlap t pt
    CrossingKept s l reach t' ∧ (t'.stack.map missKey ++ tagKeys l.ctx.settings.passId t'.prb.queue).Subperm
      (crossKey pt overlap :: (t.stack.map missKey ++ tagKeys l.ctx.settings.passId t.prb.queue)) := by
  intro t'
  have alone' := h.alone
  obtain ⟨l', hpsc, hphase, hctx⟩ := h.alone
  have hl : t.psc.lead = some l' := by rw [hpsc]
  have hset : l'.ctx.settings = l.ctx.settings := by rw [hctx]
  have hrun' : leadRunning l' = true := by rw [leadRunning, hphase]; exact hrun
  -- it is enough to follow the keys and the lead's counts
  suffices hkeys : (t'.stack.map missKey ++ tagKeys l.ctx.settings.passId t'.prb.queue).Subperm
      (crossKey pt overlap :: (t.stack.map missKey ++ tagKeys l.ctx.settings.passId t.prb.queue)) ∧
      ∀ c ∈ contexts t'.psc, retryBalanced c by
    refine ⟨⟨countsAlone_crossMain rfl u overlap pt alone', by simpa [t'] using h.ground, ?_, ?_, hkeys.2, ?_⟩, hkeys.1⟩
    · exact accountsOf_crossMain mainBooks_true u overlap pt hl hset h.accounts
    · exact stackKept_crossMain u overlap pt hl hset hrun' h.stack
    · exact (h.held.cons hnew hkey).some hkeys.1
  have hcrossed : MainCrossed l.ctx.settings.passId overlap pt t t' := crossMain_crossed hl hset u overlap pt
  have balanced : ∀ {f : PassCtx → PassCtx} {v : State}, v.psc = t.psc →
      (∀ c ∈ contexts t.psc, retryBalanced c → retryBalanced (f c)) → ∀ c ∈ contexts (modLead f v).psc, retryBalanced c :=
    fun hv hf => balanced_modLead hl hv h.accounts.distinct h.balanced hf
  generalize t' = v at hcrossed ⊢
  cases hcrossed with
  | blanked =>
    refine ⟨?_, balanced rfl fun c _ => retryBalanced_same retrySame_blanked⟩
    simp only [modLead_frame]
    exact (List.sublist_cons_self _ _).subperm
  | stands cause ho hs => exact absurd (List.mem_append_left _ (mem_keys_of_stands hs)) hnew
  | pushed cause ho hs =>
    refine ⟨?_, balanced rfl fun c hc hb => retryBalanced_crossed ho hb (takesBounded_of_stack h.stack hc)⟩
    simp only [modLead_frame, State.setStack_stack, State.setStack_prb, pushed, List.map_cons, List.cons_append]
    refine (List.Sublist.cons_cons _ ((List.append_sublist_append_right _).2 (List.Sublist.map _ ?_))).subperm
    split_ifs
    · exact List.dropLast_sublist _
    · exact List.Sublist.refl _
  | fired hr ho hfree hready =>
    refine ⟨?_, balanced rfl fun c _ => retryBalanced_same (retrySame_fired ho)⟩
    simp only [modLead_frame, State.setPrb_stack, State.setPrb_prb]
    rw [tagKeys_taken hr, ← List.append_assoc]
    exact (List.perm_append_singleton _ _).subperm
  | lost hr ho hfault =>
    refine ⟨?_, balanced rfl fun c _ => retryBalanced_same (retrySame_lost ho)⟩
    simp only [modLead_frame, State.setPrb_stack, State.setPrb_prb, lostPrb]
    exact (List.sublist_cons_self _ _).subperm

/-- The points of a position of the main span. -/
theorem crossing_mains {reach : Nat} (hrun : leadRunning l = true) (u : Int) (overlap : Bool) (pts : List CrossedPoint)
    (hpts : pts.Pairwise fun a b => pointKey a ≠ pointKey b) (h : CrossingKept s l reach t)
    (hkey : ∀ pt ∈ pts, crossedUpTo s l.ctx reach (crossKey pt overlap))
    (hnew : ∀ pt ∈ pts, crossKey pt overlap ∉ t.stack.map missKey ++ tagKeys l.ctx.settings.passId t.prb.queue) :
    CrossingKept s l reach (pts.foldl (crossMain l u overlap) t) := by
  induction pts generalizing t with
  | nil => exact h
  | cons pt pts ih =>
    obtain ⟨apart, hpts⟩ := List.pairwise_cons.1 hpts
    obtain ⟨h', hkeys⟩ := crossing_main h hrun u (hkey pt List.mem_cons_self) (hnew pt List.mem_cons_self)
    refine ih hpts h' (fun x hx => hkey x (List.mem_cons_of_mem _ hx)) fun x hx hmem => ?_
    obtain heq | hold := List.mem_cons.1 (hkeys.subset hmem)
    · refine apart x hx ?_
      simp only [crossKey, Prod.mk.injEq] at heq
      obtain ⟨hblade, hindex, hj, -⟩ := heq
      simp only [pointKey, hblade, hindex, hj]
    · exact hnew x (List.mem_cons_of_mem _ hx) hold

/-- A point of a retry turn moves a key from the stack to the tags in flight, or drops it. -/
theorem crossing_retry {reach : Nat} (h : CrossingKept s l reach t) (hrun : leadRunning l = true) (u : Int)
    (pt : CrossedPoint) : CrossingKept s l reach (crossRetry l u t pt) := by
  have alone' := h.alone
  obtain ⟨l', hpsc, hphase, hctx⟩ := h.alone
  have hl : t.psc.lead = some l' := by rw [hpsc]
  have hset : l'.ctx.settings = l.ctx.settings := by rw [hctx]
  have hrun' : leadRunning l' = true := by rw [leadRunning, hphase]; exact hrun
  suffices hkeys : ((crossRetry l u t pt).stack.map missKey ++
      tagKeys l.ctx.settings.passId (crossRetry l u t pt).prb.queue).Subperm
        (t.stack.map missKey ++ tagKeys l.ctx.settings.passId t.prb.queue) ∧
      ∀ c ∈ contexts (crossRetry l u t pt).psc, retryBalanced c by
    refine ⟨countsAlone_crossRetry rfl u pt alone', by simpa using h.ground, ?_, ?_, hkeys.2, h.held.some hkeys.1⟩
    · exact accountsOf_crossRetry mainBooks_true u pt hl hset h.accounts
    · exact stackKept_crossRetry u pt hl hset hrun' h.stack
  have hcrossed := crossRetry_crossed hl hset u pt
  have balanced : ∀ {f : PassCtx → PassCtx} {v : State}, v.psc = t.psc →
      (∀ c ∈ contexts t.psc, retryBalanced c → retryBalanced (f c)) → ∀ c ∈ contexts (modLead f v).psc, retryBalanced c :=
    fun hv hf => balanced_modLead hl hv h.accounts.distinct h.balanced hf
  -- the stack without the entry that is taken
  have taken : ∀ {m}, t.stack.find? (namesPoint pt.blade pt.index pt.j) = some m →
      crossKey pt m.overlap = missKey m ∧
        (missKey m :: (t.stack.eraseP (namesPoint pt.blade pt.index pt.j)).map missKey).Perm (t.stack.map missKey) := by
    intro m hm
    obtain ⟨hnames, above, below, hs, habove⟩ := List.find?_eq_some_iff_append.1 hm
    obtain ⟨hblade, hwindow, hj⟩ := namesPoint_iff.1 hnames
    refine ⟨by simp only [crossKey, missKey, hblade, hwindow, hj], ?_⟩
    rw [hs, List.eraseP_append_right _ fun x hx => by simpa using habove x hx, List.eraseP_cons_of_pos hnames,
      ← List.map_cons]
    exact List.perm_middle.symm.map _
  generalize crossRetry l u t pt = v at hcrossed ⊢
  cases hcrossed with
  | passed => exact ⟨List.Subperm.refl _, h.balanced⟩
  | fired hm hr ho hfree hready =>
    obtain ⟨key, perm⟩ := taken hm
    refine ⟨?_, balanced rfl fun c hc hb => retryBalanced_taken hb (takesBounded_of_stack h.stack hc)⟩
    simp only [modLead_frame, State.setPrb_stack, State.setPrb_prb, State.setStack_stack]
    rw [tagKeys_taken hr, key, ← List.append_assoc]
    refine ((List.perm_append_singleton _ _).trans ?_).subperm
    rw [← List.cons_append]
    exact perm.append_right _
  | lost hm hr ho hfault =>
    refine ⟨?_, balanced rfl fun c hc hb => retryBalanced_takenLost hb (takesBounded_of_stack h.stack hc)⟩
    simp only [modLead_frame, State.setPrb_stack, State.setPrb_prb, State.setStack_stack, lostPrb]
    exact ((List.append_sublist_append_right _).2 (List.eraseP_sublist.map _)).subperm

theorem crossing_retries {reach : Nat} (hrun : leadRunning l = true) (u : Int) (pts : List CrossedPoint)
    (h : CrossingKept s l reach t) : CrossingKept s l reach (pts.foldl (crossRetry l u) t) := by
  induction pts generalizing t with
  | nil => exact h
  | cons pt pts ih => exact ih (crossing_retry h hrun u pt)

end Sys2Proof.Machine
end

