-- ==== Sys2Proof/Proofs/RetryAccounting.lean ====
section
/-! PROOFS. Proofs/RetryAccounting.lean: every step keeps the identity of R158 and the keys of the lead exclusive, move by move
(sections 8.2, 8.5, 8.6). -/

namespace Sys2Proof.Machine

open Sys2Proof

variable {s t : State} {l : Lead}

/-! ### A position of a running pass -/

/-- The points of a position of the main span or of a retry turn. -/
theorem crossing_position (hl : s.psc.lead = some l) (hrun : leadRunning l = true) (hg : groundOk s) (h : RetryKept s)
    {prog : Nat} (hprog : l.ctx.highWater < prog) :
    CrossingKept s l prog (crossPosition l (l.ctx.uStart + prog) prog s) := by
  obtain ⟨hoverlap, hkeys, -⟩ := (keysExclusive_iff s).1 h.keys l hl
  have start : CrossingKept s l prog s := by
    refine ⟨countsAlone_self hl, ⟨rfl, rfl⟩, h.accounts, h.stack, h.balanced, ?_⟩
    exact hkeys.mono ⟨rfl, rfl, rfl⟩ ⟨rfl, rfl⟩ hprog.le (List.Subperm.refl _)
  unfold crossPosition
  split_ifs with hspan
  · refine crossing_mains hrun _ _ _ (crossedAt_keys_differ hg _) start (fun pt hpt => ?_) fun pt hpt => ?_
    · exact ⟨prog, pt, by omega, le_refl _, hspan, rfl, hpt, rfl⟩
    · exact crossKey_fresh hg hoverlap hspan hprog hkeys hpt
  · exact crossing_retries hrun _ _ start

theorem retry_position (hl : s.psc.lead = some l) (hrun : leadRunning l = true) (hg : groundOk s) (h : RetryKept s) :
    let t := modLead (fun c => { c with highWater := l.ctx.highWater + 1 })
      (crossPosition l (l.ctx.uStart + (l.ctx.highWater + 1 : Nat)) (l.ctx.highWater + 1) s)
    keysExclusive t ∧ ∀ c ∈ contexts t.psc, retryBalanced c := by
  have crossed := crossing_position hl hrun hg h (Nat.lt_succ_self _)
  obtain ⟨hoverlap, -, -⟩ := (keysExclusive_iff s).1 h.keys l hl
  generalize crossPosition l (l.ctx.uStart + (l.ctx.highWater + 1 : Nat)) (l.ctx.highWater + 1) s = v at crossed
  obtain ⟨⟨l', hpsc, hphase, hctx⟩, ⟨henc, hwbk⟩, accounts, -, balanced, held⟩ := crossed
  have hl' : v.psc.lead = some l' := by rw [hpsc]
  have hset : l'.ctx.settings = l.ctx.settings := by rw [hctx]
  have hstart : l'.ctx.uStart = l.ctx.uStart := by rw [hctx]
  refine ⟨(keysExclusive_iff _).2 fun m hm => ?_, balanced_modLead hl' rfl accounts.distinct balanced fun c _ hb => hb⟩
  rw [modLead_of_lead hl'] at hm ⊢
  obtain rfl : { l' with ctx := { l'.ctx with highWater := l.ctx.highWater + 1 } } = m := by simpa using hm
  refine ⟨?_, ?_, fun ha => absurd (hphase.symm.trans ha) (by simpa [leadRunning] using hrun)⟩
  · show l'.ctx.settings.overlap ≤ v.enc.settings.cpr
    rw [hset, henc]
    exact hoverlap
  · rw [leadKeys_eq]
    refine held.mono ⟨congrArg _ henc, congrArg _ hwbk, congrArg _ hwbk⟩ ⟨hset, hstart⟩ (le_refl _) ?_
    show (v.stack.map missKey ++ tagKeys l'.ctx.settings.passId v.prb.queue).Subperm _
    rw [hset]

/-! ### The ground under a run of moves -/

/-- A pass that runs after the change ran before it, on the same ground. -/
def runningBefore (s t : State) : Prop := leadEligible t.psc = false → leadEligible s.psc = false ∧ sameGround s t

theorem runningBefore_of_psc (hpsc : leadEligible t.psc = leadEligible s.psc) (henc : t.enc = s.enc) (hwbk : t.wbk = s.wbk) :
    runningBefore s t := fun h => ⟨hpsc ▸ h, by rw [henc], by rw [hwbk], by rw [hwbk]⟩

theorem runningBefore_of_none (h : t.psc.lead = none) : runningBefore s t := fun hrun => by
  simp [leadEligible, h] at hrun

theorem leadEligible_modCtx (id : Nat) (f : PassCtx → PassCtx) (s : State) :
    leadEligible (modCtx id f s).psc = leadEligible s.psc := by
  obtain ⟨-, hmod⟩ | ⟨-, hlead, -, -⟩ := modCtx_cases id f s
  · rw [hmod, leadEligible, leadEligible, (modLead_psc f s).1]
    cases s.psc.lead <;> rfl
  · rw [leadEligible, leadEligible, hlead]

theorem leadEligible_abandonAll (s : State) : leadEligible (abandon (fun _ => true) s).psc = leadEligible s.psc :=
  foldl_keeps (fun u => leadEligible u.psc) abandonOne (fun u _ => leadEligible_modCtx _ _ u) _ _

theorem leadEligible_false {p : Psc} (h : leadEligible p = false) : ∃ l, p.lead = some l ∧ leadRunning l = true := by
  cases hl : p.lead with
  | none => simp [leadEligible, hl] at h
  | some l => exact ⟨l, rfl, by simpa [leadEligible, hl, leadRunning] using h⟩

theorem leadEligible_of_running (hl : s.psc.lead = some l) (hrun : leadRunning l = true) : leadEligible s.psc = false := by
  simpa [leadEligible, hl, leadRunning] using hrun

theorem PassMove.runningBefore (hm : PassMove s t) : runningBefore s t := by
  cases hm with
  | still hs =>
    intro h
    have running : leadEligible s.psc = false := by rwa [leadEligible, hs.lead] at h
    obtain ⟨l, hl, -⟩ := leadEligible_false running
    obtain ⟨henc, hpiece⟩ := hs.armed (by rw [hl]; simp)
    exact ⟨running, henc, hpiece, hs.running running⟩
  | noted id hf => exact runningBefore_of_psc (leadEligible_modCtx _ _ _) (by simp) (by simp)
  | missed cause hq =>
    refine runningBefore_of_psc ?_ (by simp [missOne]) (by simp [missOne])
    obtain ⟨f, -, hpsc⟩ := missOne_psc _ cause _
    rw [hpsc, leadEligible_modCtx]
    rfl
  | emitted p hq hroom =>
    refine runningBefore_of_psc ?_ (by simp [emitOne]) (by simp [emitOne])
    rw [emitOne, leadEligible_modCtx]
    simp
  | dropped hq hnone => exact runningBefore_of_psc rfl rfl rfl
  | position hl hrun => exact fun _ => ⟨leadEligible_of_running hl hrun, by simp, by simp, by simp⟩
  | turned turn hl hrun => exact fun _ => ⟨leadEligible_of_running hl hrun, rfl, rfl, rfl⟩
  | snapped n hl hrun => exact fun _ => ⟨leadEligible_of_running hl hrun, rfl, rfl, rfl⟩
  | retired st hl => exact runningBefore_of_none (retirePass_retired st hl).lead
  | faulted => exact runningBefore_of_psc (leadEligible_abandonAll _) (by simp) (by simp)
  | flushed => exact runningBefore_of_psc (by rw [flushDrain_psc]; rfl) (by simp) (by simp)
  | armed hl hdrain hid hoverlap hroom => exact fun h => by simp [leadEligible, armLead, probeReady] at h
  | reset causes => exact runningBefore_of_none (by simp [resetPart, Psc.reset])

/-! ### Moves, runs and steps -/

/-- While a pass runs, its ground is legal. -/
def groundRuns (s : State) : Prop := leadEligible s.psc = false → groundOk s

theorem PassMove.groundRuns (hm : PassMove s t) (h : groundRuns s) : groundRuns t := fun hrun => by
  obtain ⟨running, hsame⟩ := hm.runningBefore hrun
  exact groundOk_of_same (h running) hsame

theorem retry_move (hm : PassMove s t) (hg : groundRuns s) (h : RetryKept s) : RetryKept t := by
  have accounts := (accountsOf_kept mainBooks_true).move hm h.accounts
  have stack := stackKept_kept.move hm h.stack
  suffices hkept : keysExclusive t ∧ ∀ c ∈ contexts t.psc, retryBalanced c from ⟨accounts, stack, hkept.1, hkept.2⟩
  clear accounts stack
  cases hm with
  | still hs => exact retry_still hs h
  | noted id hf => exact retry_noted id hf h
  | missed cause hq => exact retry_missed cause hq h
  | emitted p hq hroom => exact retry_emitted p hq h
  | @dropped e rest hq hnone =>
    obtain ⟨c, hc, hid⟩ := h.accounts.named e (by simp [hq])
    exact absurd hid (not_mem_of_findCtx_none hnone c hc)
  | position hl hrun => exact retry_position hl hrun (hg (leadEligible_of_running hl hrun)) h
  | @turned l turn hl hrun =>
    have entered : enterTurn turn s = s.setPsc { s.psc with
        lead := some { phase := .retrying, ctx := { l.ctx with turn := turn, turnsUsed := turn } } } := by
      simp [enterTurn, hl]
    rw [entered]
    exact retry_runs hl ⟨rfl, rfl⟩ ⟨⟨rfl, rfl⟩, rfl⟩ h
  | snapped n hl hrun =>
    rw [modLead_of_lead hl]
    exact retry_runs hl ⟨hrun, rfl⟩ ⟨⟨rfl, rfl⟩, rfl⟩ h
  | retired st hl => exact retry_retired st hl h
  | faulted => exact retry_faulted h
  | flushed => exact retry_flushed h
  | armed hl hdrain hid hoverlap hroom => exact retry_armed hl hid hoverlap h
  | reset causes =>
    have none : (resetPart causes s).psc.lead = none := by simp [resetPart, Psc.reset]
    exact ⟨keysExclusive_of_none none, by simp [resetPart, Psc.reset, contexts]⟩

theorem retry_run (hr : PassRun s t) (hg : groundRuns s) (h : RetryKept s) : RetryKept t := by
  have both : groundRuns t ∧ RetryKept t := by
    induction hr with
    | refl => exact ⟨hg, h⟩
    | tail _ hm ih => exact ⟨hm.groundRuns ih.1, retry_move hm ih.1 ih.2⟩
  exact both.2

/-- The lead `l` as its pass starts (R65). -/
def startedLead (l : Lead) (snap : Nat) (s : State) : Lead :=
  { phase := .scanning, ctx := { l.ctx with uStart := encU s.enc, highWater := 0, turn := 0, largestSnap := snap } }

/-- An ARMED lead has no keys, and so starts with none. -/
theorem retry_start (hs : PassStart s t) (h : RetryKept s) : RetryKept t := by
  have accounts := (accountsOf_kept mainBooks_true).start hs h.accounts
  have stack := stackKept_kept.start hs h.stack
  obtain ⟨l, snap, hl, harmed, rfl⟩ := hs
  obtain ⟨hoverlap, -, hnone⟩ := (keysExclusive_iff s).1 h.keys l hl
  have lead : (startPass l snap s).psc.lead = some (startedLead l snap s) := by simp [startPass, restartStall, startedLead]
  have drain : (startPass l snap s).psc.drain = s.psc.drain := by simp [startPass, restartStall]
  refine ⟨accounts, stack, (keysExclusive_iff _).2 fun m hm => ?_, fun c hc => ?_⟩
  · obtain rfl : startedLead l snap s = m := by simpa [lead] using hm
    have keys : leadKeys (startPass l snap s) (startedLead l snap s) = leadKeys s l := by
      rw [leadKeys_eq, leadKeys_eq]
      simp [startPass, startedLead]
    refine ⟨by simpa [startPass, startedLead] using hoverlap, ?_, fun ha => by cases ha⟩
    rw [keys, hnone harmed]
    exact keysHeld_nil _ _ _
  · rw [contexts_of_lead lead, drain] at hc
    obtain rfl | hc := List.mem_cons.1 hc
    · have hold := h.balanced l.ctx (by simp [contexts_of_lead hl])
      exact hold
    · exact h.balanced c (by rw [contexts_of_lead hl]; exact List.mem_cons_of_mem _ hc)

theorem retry_step (hs : step s = .next t) (hg : groundRuns s) (h : RetryKept s) :
    keysExclusive t ∧ ∀ c ∈ contexts t.psc, retryBalanced c := by
  obtain ⟨u, v, hrun, hstart, hstand⟩ := step_passes hs
  refine retry_still hstand ?_
  obtain rfl | hstart := hstart
  · exact retry_run hrun hg h
  · exact retry_start hstart (retry_run hrun hg h)

/-! ### The workpiece -/

theorem workpieceKnown_congr (hw : t.wbk = s.wbk) (h : workpieceKnown s) : workpieceKnown t := by
  rwa [workpieceKnown, hw]

theorem workpieceKnown_work {c : Instr} (hw : Work c s t) (h : workpieceKnown s) : workpieceKnown t := by
  cases hw
  case reset => simp [workpieceKnown, Wbk.reset]
  case update l hacc =>
    obtain heq | ⟨-, -, -, heq⟩ := acceptUpdate_wbk l s
    · exact workpieceKnown_congr heq h
    · rw [workpieceKnown, heq]
      exact h
  case workpiece w hok hl =>
    intro w' hw'
    obtain rfl : w = w' := by simpa using hw'
    exact hok
  case emptied => exact h
  case inserted => exact h
  case gateRecord => exact h
  case pended => exact h
  case unpended => exact h
  all_goals exact workpieceKnown_congr (by simp) h

theorem workpieceKnown_kept : Kept workpieceKnown where
  pending _ _ h := h
  tick _ h := workpieceKnown_congr (by simp) h
  take _ h := h
  place _ _ _ h := h
  work _ _ _ := workpieceKnown_work

/-- Settles O50: each push of the lead is a point held, a point busy, a miss of the main span or a push again, and each take
ends as a point, a loss, a tag in flight or a push again. The pushes are never refused, as the keys of the lead are
exclusive: no point is crossed twice in the main span with one marker. -/
theorem retryAccountingKept : Obligations.RetryAccountingKept := by
  unfold Obligations.RetryAccountingKept
  intro s t hs hflight hstack howned hacc hsettings hbank hpiece hkeys hbal
  obtain ⟨-, hcpr, -⟩ := hsettings
  obtain ⟨-, -, hwindows, -⟩ := hbank
  have ground : groundOk s := ⟨by simp [cprOk] at hcpr; omega, hpiece, hwindows⟩
  have kept : RetryKept s :=
    ⟨accounts_of_inFlightOk hflight fun _ _ => trivial, (stackKept_iff s).2 ⟨hstack, howned, hacc⟩, hkeys, hbal⟩
  obtain ⟨keys, balanced⟩ := retry_step hs (fun _ => ground) kept
  refine ⟨keys, workpieceKnown_kept.step hs hpiece, fun c hc => ⟨balanced c hc, fun hlt => ?_⟩⟩
  obtain ⟨repushed, hpushes, htakes⟩ := balanced c hc hlt
  omega

end Sys2Proof.Machine
end
